-- ==== Sys2Proof/Word.lean ====
section
/-! DEFINITION. Words and the plainest arithmetic: bytes, sums that saturate, counters that stop, values that are clamped
(00_scope.md, section 4 Conventions). -/

namespace Sys2Proof

/-- One byte of a frame. -/
abbrev Byte := BitVec 8

/-- A sum that stops at `top` (00_scope.md: "a sum stops at its upper end"). -/
def satAdd (top a b : Nat) : Nat := min top (a + b)

/-- A sum of money, which saturates at 65,535 cents (table 0-2). -/
def addMoney (a b : Nat) : Nat := satAdd 65535 a b

/-- A count that rises by one and stops at `top`. -/
def bump (top n : Nat) : Nat := min top (n + 1)

/-- A 16-bit count that rises by one and stops at 65,535. -/
def bump16 (n : Nat) : Nat := bump 65535 n

/-- A value brought to the nearer end of `lo..hi` (00_scope.md: "clamped"). -/
def clampNat (lo hi v : Nat) : Nat := max lo (min hi v)

/-- A signed value brought to the nearer end of `lo..hi`. -/
def clampInt (lo hi v : Int) : Int := max lo (min hi v)

@[simp] theorem bump16_le (n : Nat) : bump16 n ≤ 65535 := Nat.min_le_left _ _

@[simp] theorem satAdd_le (top a b : Nat) : satAdd top a b ≤ top := Nat.min_le_left _ _

end Sys2Proof
end

