-- ==== Sys2Proof/Syntax.lean ====
section
/-! DEFINITION. The commands of the block: one constructor of `Instr` per row of spec/opcode_table.json, with what its
rule says the event or frame carries. A field that may arrive outside its set of names is an `Option`, `none` standing
for a value outside the set. A frame from central is a `Frame`: its request tag and its body, `none` standing for a body
that does not fit its kind (R185, R203). -/

namespace Sys2Proof

/-! ### Names -/

/-- The two dock bus segments. -/
inductive Segment where
  | A | B
deriving DecidableEq, Repr

/-- A drop is named by its segment and address (table 0-2); `addr` is the address less 1, as the header sends it. -/
structure Drop where
  seg  : Segment
  addr : Fin 32
deriving DecidableEq, Repr

/-- A dock position 1..60; the index is the position less 1. -/
abbrev DockPos := Fin 60

/-- The kinds of drop (table 0-3). -/
inductive DropKind where
  | dock | pay | vanpoint
deriving DecidableEq, Repr

/-- Bike kinds, in the order of their codes 0, 1, 2 (11_frame_and_record_formats.md). -/
inductive BikeKind where
  | classic | electric | cargo
deriving DecidableEq, Repr, Inhabited

/-- Media, in the order of their codes 0, 1. -/
inductive Medium where
  | member | token
deriving DecidableEq, Repr

/-- The service of a dock (table 3-2). -/
inductive Service where
  | inService | noRelease | outOfService
deriving DecidableEq, Repr

/-- Severities of a fault (table 8-2). -/
inductive Severity where
  | minor | major | critical
deriving DecidableEq, Repr

/-- The subject kinds of a fault code (table 8-1). -/
inductive SubjectKind where
  | dock | bike | terminal
deriving DecidableEq, Repr

/-- The set of actions of a fault policy entry (table 8-3). -/
structure FaultActions where
  quarantine   : Bool
  noRelease    : Bool
  outOfService : Bool
  noCharge     : Bool
deriving DecidableEq, Repr

/-- Actions of a classifier rule (table 2-3). -/
inductive Action where
  | deliver | mirror | trunkOnly | urgentMirror | drop
deriving DecidableEq, Repr

/-- The segment match of a classifier rule (table 2-2). -/
inductive SegMatch where
  | only (seg : Segment) | any
deriving DecidableEq, Repr

/-- The code match types of a classifier rule (R26). -/
inductive MatchType where
  | range | pair | mask
deriving DecidableEq, Repr

/-- A set drawn from DOCK, PAY and VANPOINT. -/
structure KindSet where
  dock     : Bool
  pay      : Bool
  vanpoint : Bool
deriving DecidableEq, Repr

/-- The stranger rule setting (R76). -/
inductive StrangerRule where
  | refuse | allow
deriving DecidableEq, Repr

/-- The plan of a card (table 4-2). -/
inductive Plan where
  | rider | staff
deriving DecidableEq, Repr

/-- The standing of a card record (table 4-2). -/
inductive Standing where
  | good | limited | barred
deriving DecidableEq, Repr

/-- One number for each bike kind. -/
structure PerKind where
  classic  : Nat
  electric : Nat
  cargo    : Nat
deriving DecidableEq, Repr

/-! ### Entries of the table loads -/

/-- What a drop table entry asks for at its address (R2). -/
inductive EntryKind where
  | none | dock | pay | vanpoint
deriving DecidableEq, Repr

/-- One entry of a DROP TABLE load (R2). -/
structure DropEntry where
  seg  : Segment
  addr : Nat
  kind : Option EntryKind
  pos  : Nat
deriving DecidableEq, Repr

/-- One entry of a CLASSIFIER load (R32). -/
structure RuleEntry where
  index   : Nat
  enabled : Bool
  seg     : Option SegMatch
  lo      : Nat
  hi      : Nat
  kinds   : Option KindSet
  type    : Option MatchType
  first   : Nat
  second  : Nat
  action  : Option Action
deriving DecidableEq, Repr

/-- One entry of a FAULT POLICY load (R157). -/
structure FaultPolicyEntry where
  code      : Nat
  subject   : Option SubjectKind
  base      : Option Severity
  threshold : Nat
  actions   : Option FaultActions
deriving DecidableEq, Repr

/-- The numeric settings of table 10-6. -/
inductive NumSetting where
  | replyWindow | sweepInterval | takeWindow | referralDeadline | islandTimeout | saleWindow | waiverWindow
  | dayOffset | strangerClass | strangerHeadroom | minHeadroom | rewardMinRide | chargeSlots | chargeFull
  | rideMin | resume
deriving DecidableEq, Repr

/-- The settings of table 10-6 by name. -/
inductive Setting where
  | num (n : NumSetting) | strangerRule | defaultAction
deriving DecidableEq, Repr

/-- One entry of a STATION SETTINGS load (R195). `unknown` names no setting of the table, or the release guard. -/
inductive SettingEntry where
  | num (n : NumSetting) (value : Int)
  | strangerRule (value : Option StrangerRule)
  | defaultAction (value : Option Action)
  | unknown
deriving DecidableEq, Repr

/-- One entry of a PASS KINDS load (R97). -/
structure PassKindEntry where
  kind      : Nat
  onSale    : Bool
  price     : Nat
  duration  : Nat
  rideLimit : Nat
  maxBikes  : Nat
  cls       : Nat
  headroom  : Nat
deriving DecidableEq, Repr

/-- The standing a CARD TABLE entry may give: a standing of table 4-2, or DELETE (R66). -/
inductive LoadStanding where
  | keep (s : Standing) | delete
deriving DecidableEq, Repr

/-- One entry of a CARD TABLE load, and the record a REFERRAL ANSWER may carry (R66, R79). -/
structure CardEntry where
  number   : Nat
  standing : Option LoadStanding
  plan     : Option Plan
  cls      : Nat
  maxBikes : Nat
  outCount : Nat
  headroom : Nat
  day      : Int
  dayTotal : Nat
  reward   : Nat
  expiry   : Option Int
deriving DecidableEq, Repr

/-- One band of a tariff class: an upper limit and a rate (table 6-2). -/
structure Band where
  upper : Nat
  rate  : Nat
deriving DecidableEq, Repr

/-- The fields of a tariff class (table 6-2). -/
structure Tariff where
  grace     : Nat
  free      : Nat
  block     : Nat
  bands     : List Band
  unlockFee : PerKind
  dailyCap  : Nat
  reward    : Nat
deriving DecidableEq, Repr

/-- One entry of a TARIFF load (R112). -/
structure TariffEntry where
  cls    : Nat
  tariff : Tariff
deriving DecidableEq, Repr

/-- One entry of a STOCK TARGETS load (R48). -/
structure TargetEntry where
  kind : Option BikeKind
  low  : Nat
  high : Nat
deriving DecidableEq, Repr

/-! ### Bodies of the other frames -/

/-- A van order as central sends it (R133). -/
structure VanOrder where
  id         : Nat
  van        : Nat
  drops      : PerKind
  pickups    : PerKind
  named      : List Nat
  validFrom  : Nat
  validUntil : Nat
deriving DecidableEq, Repr

/-- A REFERRAL ANSWER (R79). -/
structure ReferralReply where
  card   : Nat
  allow  : Bool
  record : Option CardEntry
deriving DecidableEq, Repr

/-- The parameters of COMMAND RELEASE (R91); `medium` is the code as sent. -/
structure ReleaseOrder where
  pos    : Nat
  number : Nat
  medium : Nat
deriving DecidableEq, Repr

/-- The parameters of COMMAND SET DOCK SERVICE (R37, R193). -/
structure ServiceOrder where
  pos     : Nat
  service : Option Service
deriving DecidableEq, Repr

/-- A valid inbound frame of a known kind: its request tag, and its body or `none` where the body does not fit. The tag is there
even then. DESIGN CHOICE, log 75. -/
structure Frame (α : Type) where
  tag  : Nat
  body : Option α
deriving DecidableEq, Repr

/-- A TABLE LOAD: its request tag, first index, and entries, or `none` where the body does not divide into whole
entries or is MALFORMED (R194, R203). Tag, table and first index are there even then. DESIGN CHOICE, log 75. -/
structure Load (α : Type) where
  tag   : Nat
  first : Nat
  body  : Option (List α)
deriving DecidableEq, Repr

/-- A dock bus frame as received after its sync byte (11.1): the 24 header bits, the payload, the CRC-16. -/
structure BusFrame where
  header  : BitVec 24
  payload : List Byte
  crc     : BitVec 16
deriving DecidableEq, Repr

/-- A trunk frame as received after its sync pair (table 11-6). -/
structure TrunkRaw where
  kind   : Byte
  length : BitVec 16
  body   : List Byte
  crc    : BitVec 32
deriving DecidableEq, Repr

/-- What the pins and the standby supply show at the rising edge of the reset pin (R181, R196, R198). -/
structure PowerOn where
  standbyHeld : Bool
  secondsOff  : Nat
  station     : Nat
  segB        : Bool
  holdA       : Bool
  holdB       : Bool
deriving DecidableEq, Repr

/-! ### The commands -/

/-- The commands of the block, one per row of spec/opcode_table.json, in the table's order. -/
inductive Instr where
  | powerOnReset (p : PowerOn)
  | holdAssert (seg : Segment)
  | holdRelease (seg : Segment)
  | sweepStart (seg : Segment) (now : Nat)
  | dockBusFrameReceived (seg : Segment) (now : Nat) (f : BusFrame)
  | replyWindowExpired (seg : Segment) (now : Nat)
  | stationTimeTick
  | referralDeadline (card : Nat)
  | releaseGuardExpiry (pos : DockPos)
  | saleDeadline (terminal : Drop)
  | recentReturnExpiry (place : Nat)
  | vanOrderExpiry (order : Nat)
  | visitCloseTime
  | islandTimeout
  | trunkFrameTruncated
  | trunkFrameInvalid (f : TrunkRaw)
  | unknownKind (kind : Nat)
  | dropTableLoad (f : Load DropEntry)
  | classifierLoad (f : Load RuleEntry)
  | faultPolicyLoad (f : Load FaultPolicyEntry)
  | stationSettingsLoad (f : Load SettingEntry)
  | passKindsLoad (f : Load PassKindEntry)
  | cardTableLoad (f : Load CardEntry)
  | tariffLoad (f : Load TariffEntry)
  | stockTargetsLoad (f : Load TargetEntry)
  | timeSet (f : Frame Nat)
  | referralAnswer (f : Frame ReferralReply)
  | journalCollect (f : Frame (Nat × Nat))
  | journalRelease (f : Frame Nat)
  | vanOrder (f : Frame VanOrder)
  | statusQuery (f : Frame Unit)
  | dockListQuery (f : Frame Nat)
  | faultListQuery (f : Frame Nat)
  | startService (f : Frame Unit)
  | enterMaintenance (f : Frame Unit)
  | leaveMaintenance (f : Frame Unit)
  | restart (f : Frame Unit)
  | release (f : Frame ReleaseOrder)
  | cancelRelease (f : Frame DockPos)
  | clearFault (f : Frame Nat)
  | setDockService (f : Frame ServiceOrder)
  | unknownCommand (tag : Nat) (code : Nat)
  | outboundSend
  | unknownTable (tag : Nat) (table : Nat) (first : Nat)
deriving DecidableEq, Repr

end Sys2Proof
end

