-- ==== Sys2Proof/Config.lean ====
section
/-! DEFINITION. The values the spec leaves open (free values): constants with no body, so that no proof can rest on
what they are. Each names its log entry under notes/assumptions. -/

namespace Sys2Proof

/-- DESIGN CHOICE (log 10): the number of bytes of the field at place `place` of a journal record of kind code `kind` whose
layout 11.5 does not give. R176 says only that a single record fits one body, 1,024 - 16 - 11 bytes. -/
opaque Config.fieldWidth (kind place : Nat) : Fin 91

/-- DESIGN CHOICE (log 10): the code of the value `value` of such a field, where the spec gives its values no code. -/
opaque Config.fieldCode (kind place value : Nat) : Nat

/-- DESIGN CHOICE (log 11): how many of `n` dock records from position index `first` fit one DOCK LIST (R199). -/
opaque Config.dockListFits (first n : Nat) : Nat

/-- DESIGN CHOICE (log 11): how many of `n` fault records from place `first` fit one FAULT LIST (R199). -/
opaque Config.faultListFits (first n : Nat) : Nat

/-- DESIGN CHOICE (log 12): what a ready byte that is neither 0 nor 1 says (table 11-2). -/
opaque Config.readyOther (b : Byte) : Bool

/-- DESIGN CHOICE (log 13): the kind held with a bike identifier that a RESTART kept alone (R64). -/
opaque Config.kindAfterRestart (bike : Nat) : BikeKind

/-- DESIGN CHOICE (log 13): the docked-at time held with such an identifier (R64). -/
opaque Config.dockedAtAfterRestart (bike : Nat) : Nat

/-- DESIGN CHOICE (log 13): the battery of such a bike while no report has given one (R64, R202). -/
opaque Config.batteryAfterRestart (bike : Nat) : Fin 101

/-- DESIGN CHOICE (log 14): the number of entries that a LOAD REPLY names when the body was not divided into entries
(R194). -/
opaque Config.entriesUnread (tag table first : Nat) : Nat

/-- DESIGN CHOICE (log 14): the byte that stands for an absent class used in a HIRE END (table 11-8, R113). -/
opaque Config.noClassByte : Byte

end Sys2Proof
end

