-- ==== Sys2Proof/Machine/State.lean ====
section
/-! DEFINITION. The state of the NF624: one structure per block of table 0-1, plain data, and the state after reset. -/

namespace Sys2Proof.Machine

open Sys2Proof

/-- No command of the block stops the machine: every bad frame, refused request or full list of the spec is an effect on
State. So there is no fault to name. -/
inductive Fault where
deriving DecidableEq, Repr

/-- The reasons for which a command has no meaning. -/
inductive Refusal where
  /-- Raised by an arm of `exec` whose command has no meaning yet. No arm does so now. Safe. -/
  | notModelled (mnemonic : String)
deriving DecidableEq, Repr

/-! ### Hire tokens and commands on the dock bus -/

/-- The grant flags of a release, written into the hire token (tables 4-5 and 11-5). -/
structure GrantFlags where
  stranger : Bool
  referred : Bool
  islanded : Bool
  remote   : Bool
deriving DecidableEq, Repr

/-- A hire token (R84, table 11-5). A token whose number is 0 is no token, and is not represented. -/
structure HireToken where
  number  : Nat
  medium  : Medium
  start   : Nat
  station : Nat
  cls     : Nat
  flags   : GrantFlags
deriving DecidableEq, Repr

/-- The identity of a token that CLEAR TOKEN carries (R127). -/
structure TokenId where
  number  : Nat
  medium  : Medium
  start   : Nat
  station : Nat
deriving DecidableEq, Repr

/-- The reasons that SHOW and SALE REFUSED carry (11.1, after table 11-4). -/
inductive Reason where
  | stationClosed | noTime | busy | noBike | bikeHeld | barred | expired | offlineLimit | limit | unknownCard | wait
  | tryAgain | noKind | full | visitPlanned | visitAdHoc | visitClosed | notReserved | loadFull
deriving DecidableEq, Repr

/-- A return gate (table 3-2). -/
inductive Gate where
  | opened | closed
deriving DecidableEq, Repr

/-- The commands a unit may submit (table 1-8). `showReason` is SHOW. -/
inductive Cmd where
  | unlockHire (window : Nat) (token : HireToken)
  | unlockVan (window : Nat)
  | lock
  | clearToken (id : TokenId)
  | markFault (set : Bool)
  | setGate (gate : Gate)
  | saleGo (ref price : Nat)
  | saleRefused (reason : Reason)
  | resync
  | chargeOn (tag : Nat)
  | chargeOff
  | showReason (reason : Reason)
deriving DecidableEq, Repr

/-- Command classes, highest first (table 1-8). -/
inductive CmdClass where
  | unlock | tag | control | charge | display
deriving DecidableEq, Repr

/-- The reasons of a NAK (table 11-2). -/
inductive NakReason where
  | jammed | noTag | busy
deriving DecidableEq, Repr

/-- The outcome of a submitted command (R15, R16, R17). -/
inductive CmdOutcome where
  | ack | nak (r : NakReason) | noReply | qFull
deriving DecidableEq, Repr

/-- The units that submit commands (1.6). -/
inductive SubmittingUnit where
  | hire | stock | van | fault | sale
deriving DecidableEq, Repr

/-- A CLEAR TOKEN of the Hire Unit that is submitted again on failure (R87, R127): where, what, how many submissions have
been made, and for a return the bike the dock must still hold. -/
structure ClearJob where
  pos  : DockPos
  id   : TokenId
  made : Nat
  bike : Option Nat
deriving DecidableEq, Repr

/-- A MARK FAULT of the Fault Unit, tied to the bike and the dock (R163). -/
structure MarkJob where
  pos  : DockPos
  bike : Nat
  set  : Bool
  made : Nat
deriving DecidableEq, Repr

/-- Who submitted a command, and what its outcome is tied to. -/
inductive Submitter where
  /-- A command whose outcome its unit discards. -/
  | discard (u : SubmittingUnit)
  /-- The UNLOCK of a release (R85). -/
  | unlock (release : Nat)
  /-- A CLEAR TOKEN that may be repeated (R87, R127). -/
  | clear (job : ClearJob)
  /-- The RESYNC of a checking release (R88). -/
  | check (release : Nat)
  /-- The Stock Unit's RESYNC (R49). -/
  | settle (pos : DockPos)
  /-- A SET GATE (R62). -/
  | gate (pos : DockPos)
  /-- A CHARGE ON with its grant tag (R55). -/
  | chargeOn (pos : DockPos) (tag : Nat)
  /-- A CHARGE OFF (R56). -/
  | chargeOff (pos : DockPos)
  /-- A SALE GO with its sale reference (R100). -/
  | saleGo (terminal : Drop) (ref : Nat)
  /-- A MARK FAULT (R163). -/
  | mark (job : MarkJob)
deriving DecidableEq, Repr

/-! ### Segment Engines (01_the_dock_bus.md) -/

/-- The link states that polling gives a drop (table 1-4). -/
inductive Link where
  | new | active | lost
deriving DecidableEq, Repr

/-- The link state of a drop: one of the three, or HELD with the state before hold (table 1-3). -/
inductive LinkState where
  | free (l : Link)
  | held (before : Link)
deriving DecidableEq, Repr

/-- A drop record (table 1-3); address, kind and position are read from the drop table. -/
structure DropRec where
  link      : LinkState
  misses    : Nat
  resyncDue : Bool
  lastEvent : Nat
  corrected : Nat
deriving DecidableEq, Repr

/-- What a drop table entry holds (R2). -/
inductive TableEntry where
  | none | dock (pos : DockPos) | pay | vanpoint
deriving DecidableEq, Repr

/-- An entry of a command queue (R15). The class is a function of the command. -/
structure QueueEntry where
  addr : Fin 32
  cmd  : Cmd
  who  : Submitter
  time : Nat
deriving DecidableEq, Repr

/-- Segment Engine states (table 1-5). -/
inductive EngineMode where
  | stopped | waiting | sweeping | tailGap | holding | resyncRound
deriving DecidableEq, Repr

/-- What an exchange is for. -/
inductive ExchangeFor where
  /-- A POLL; `second` is the second POLL of R6. -/
  | poll (second : Bool)
  /-- The engine's own RESYNC in place of a POLL (R5). -/
  | resyncPoll
  /-- The engine's own RESYNC in a command slot (R7). -/
  | resyncSlot
  /-- The engine's own RESYNC in a RESYNC ROUND (R21). -/
  | resyncRound
  /-- A queued command in a command slot (R7) or in the tail gap (R8). -/
  | command (e : QueueEntry) (inGap : Bool)
deriving DecidableEq, Repr

/-- The exchange in progress (R9): the drop addressed, its purpose, the reply window it began under, the bytes sent, and
whether a drop table load changed its address meanwhile (R2). -/
structure Exchange where
  addr    : Fin 32
  purpose : ExchangeFor
  window  : Nat
  sent    : List Byte
  changed : Bool
deriving DecidableEq, Repr

/-- The five frame-error counts of a segment (R3). -/
structure FrameErrors where
  uncorrectable : Nat
  badCrc        : Nat
  wrongAddress  : Nat
  wrongKind     : Nat
  noReply       : Nat
deriving DecidableEq, Repr

/-- One Segment Engine (01_the_dock_bus.md). -/
structure Engine where
  entries    : Vector TableEntry 32
  mode       : EngineMode
  drops      : Vector (Option DropRec) 32
  queue      : List QueueEntry
  sweep      : Nat
  sweepStart : Nat
  gapEnd     : Nat
  pollEnd    : Nat
  due        : Nat
  cursor     : Nat
  gapSent    : Nat
  exchange   : Option Exchange
  holdLine   : Bool
  holdAck    : Bool
  errors     : FrameErrors
deriving DecidableEq, Repr

/-! ### Event Classifier (02_event_classification.md) -/

/-- A classifier rule less its hit counter (table 2-2). -/
structure Rule where
  enabled : Bool
  seg     : SegMatch
  lo      : Nat
  hi      : Nat
  kinds   : KindSet
  type    : MatchType
  first   : Nat
  second  : Nat
  action  : Action
deriving DecidableEq, Repr

/-- The Event Classifier: 32 rules, their hit counters, the default hit count (R27). -/
structure Classifier where
  rules       : Vector Rule 32
  hits        : Vector Nat 32
  defaultHits : Nat
deriving DecidableEq, Repr

/-! ### Stock Unit (03_docks_bikes_and_charging.md) -/

/-- States of a dock record (table 3-3). -/
inductive DockState where
  | unused | unknown | empty | occupied | releasing | lost
deriving DecidableEq, Repr

/-- The contact of a docked bike, in the order of its codes (table 11-2). -/
inductive Contact where
  | good | poor | none
deriving DecidableEq, Repr

/-- The hold of a docked bike (R46). -/
inductive Hold where
  | none | quarantine | chargeHold
deriving DecidableEq, Repr

/-- The charge state of a dock (table 3-2). -/
inductive ChargeState where
  | notCharging | waiting | charging | full
deriving DecidableEq, Repr

/-- The lock state a STATUS reports (table 1-7). -/
inductive LockState where
  | locked | opened
deriving DecidableEq, Repr

/-- The bike fields of a dock record (R35). `idOnly` is the MODEL's own mark of an identifier that a RESTART kept alone
(R64, log 13). -/
structure Bike where
  id       : Nat
  kind     : BikeKind
  dockedAt : Nat
  battery  : Option Nat
  contact  : Contact
  hold     : Hold
  pickup   : Bool
  mark     : Bool
  idOnly   : Bool
deriving DecidableEq, Repr

/-- A dock record (table 3-2); its position is its index, its drop is read from the drop table. -/
structure DockRec where
  state       : DockState
  svcCentral  : Service
  svcFaults   : Service
  gate        : Gate
  vanDrop     : Bool
  bike        : Option Bike
  lock        : Option LockState
  charge      : ChargeState
  grantTag    : Nat
  barred      : Bool
  offOwed     : Bool
  offPending  : Bool
  gatePending : Bool
  settling    : Bool
deriving DecidableEq, Repr

/-- The six stock flags (R47). -/
structure StockFlags where
  wantedClassic   : Bool
  wantedElectric  : Bool
  wantedCargo     : Bool
  surplusClassic  : Bool
  surplusElectric : Bool
  surplusCargo    : Bool
deriving DecidableEq, Repr

/-- The Stock Unit. -/
structure Stock where
  docks        : Vector DockRec 60
  waitList     : List DockPos
  chargingList : List DockPos
  low          : PerKind
  high         : PerKind
  computed     : StockFlags
  notified     : StockFlags
deriving DecidableEq, Repr

/-! ### Hire Unit (04_cards_passes_and_releases.md, 06_returns_and_fares.md) -/

/-- A card record (table 4-2). -/
structure CardRec where
  number      : Nat
  plan        : Plan
  standing    : Standing
  cls         : Nat
  maxBikes    : Nat
  outCount    : Nat
  headroom    : Nat
  day         : Int
  dayTotal    : Nat
  reward      : Nat
  expiry      : Option Int
  provisional : Bool
deriving DecidableEq, Repr

/-- A pass record (table 4-3). `token` is absent exactly while the record is RESERVED. `slot` is the MODEL's own name for
the record (log 4). -/
structure PassRec where
  slot       : Nat
  token      : Option Nat
  kind       : Nat
  validUntil : Nat
  ridesUsed  : Nat
  rideLimit  : Nat
  maxBikes   : Nat
  outCount   : Nat
  headroom   : Nat
  cls        : Nat
  day        : Int
  dayTotal   : Nat
  createdAt  : Nat
deriving DecidableEq, Repr

/-- A referral (R78). -/
structure Referral where
  card     : Nat
  pos      : DockPos
  stamp    : Nat
  deadline : Nat
deriving DecidableEq, Repr

/-- The kinds of release (table 4-5). -/
inductive ReleaseKind where
  | rider | van | remote
deriving DecidableEq, Repr

/-- A release record (table 4-5). The phase is UNLOCKED exactly while a guard deadline is present. `serial` is the visit
serial a VAN release carries (R136); `id` is the MODEL's own name for the release (log 5). -/
structure Release where
  pos       : DockPos
  kind      : ReleaseKind
  number    : Nat
  medium    : Medium
  flags     : GrantFlags
  token     : Option HireToken
  grantTime : Nat
  window    : Nat
  bike      : Nat
  bikeKind  : BikeKind
  guardAt   : Option Nat
  cancel    : Bool
  checking  : Bool
  attempts  : Nat
  serial    : Nat
  id        : Nat
deriving DecidableEq, Repr

/-- A recent-returns entry (R128). `seq` is absent when the journal refused the HIRE END (R174, log 27), and `noRecord` marks
a return priced with NO RECORD (R131, log 76). -/
structure RecentReturn where
  pos        : DockPos
  bike       : Nat
  number     : Nat
  medium     : Medium
  charge     : Nat
  rewardUsed : Nat
  day        : Int
  seq        : Option Nat
  expiry     : Nat
  noRecord   : Bool
deriving DecidableEq, Repr

/-- The Hire Unit. -/
structure Hire where
  cards       : List CardRec
  passes      : List PassRec
  referrals   : List Referral
  releases    : List Release
  nextRelease : Nat
  tariffs     : Vector (Option Tariff) 8
  recent      : List RecentReturn
deriving DecidableEq, Repr

/-! ### Sale Unit (05_pass_sales_at_the_pay_terminals.md) -/

/-- A PASS KINDS entry (table 5-3). -/
structure PassKind where
  onSale    : Bool
  price     : Nat
  duration  : Nat
  rideLimit : Nat
  maxBikes  : Nat
  cls       : Nat
  headroom  : Nat
deriving DecidableEq, Repr

/-- The terms of an offer: the kind and a copy of its entry (table 5-2). -/
structure OfferTerms where
  kind  : Nat
  entry : PassKind
deriving DecidableEq, Repr

/-- States of a sale record (table 5-2). -/
inductive SaleState where
  | idle | offered | lapsed
deriving DecidableEq, Repr

/-- What a drop last reported of its ready state. -/
inductive Ready where
  | yes | no | unknown
deriving DecidableEq, Repr

/-- A sale record (table 5-2). -/
structure SaleRec where
  terminal   : Drop
  state      : SaleState
  ref        : Nat
  terms      : Option OfferTerms
  slot       : Option Nat
  offerTime  : Nat
  deadline   : Nat
  unanswered : Bool
  ready      : Ready
deriving DecidableEq, Repr

/-- The Sale Unit. -/
structure Sale where
  sales : List SaleRec
  kinds : Vector PassKind 4
deriving DecidableEq, Repr

/-! ### Van Unit (07_rebalancing_and_van_visits.md) -/

/-- An entry of the load list (table 7-2). -/
structure LoadEntry where
  bike          : Nat
  kind          : BikeKind
  hold          : Hold
  pos           : DockPos
  unconfirmed   : Bool
  despiteCancel : Bool
deriving DecidableEq, Repr

/-- An entry of the drop list (table 7-2). -/
structure DropListEntry where
  bike : Nat
  kind : BikeKind
  hold : Hold
  pos  : DockPos
  time : Nat
deriving DecidableEq, Repr

/-- A pickup reservation of the visit: position, bike and kind; `held` marks a removal that waits for the outcome of the
pickup in flight there (R141). -/
structure Pickup where
  pos  : DockPos
  bike : Nat
  kind : BikeKind
  held : Bool
deriving DecidableEq, Repr

/-- What a PLANNED visit has beside an AD HOC one: the order and the remaining planned counts (table 7-2). -/
structure VisitPlan where
  order      : VanOrder
  remDrops   : PerKind
  remPickups : PerKind
deriving DecidableEq, Repr

/-- The active visit (table 7-2); `plan` is absent for AD HOC. -/
structure Visit where
  serial   : Nat
  plan     : Option VisitPlan
  van      : Nat
  operator : Nat
  arrival  : Nat
  closeAt  : Nat
  drops    : List DockPos
  pickups  : List Pickup
  inFlight : List DockPos
  load     : List LoadEntry
  dropList : List DropListEntry
deriving DecidableEq, Repr

/-- The causes of a close (R148), in the order of their codes (table 11-9). -/
inductive CloseCause where
  | depart | expired | maintenance | restart | vanpointLost
deriving DecidableEq, Repr

/-- The Van Unit. -/
structure Van where
  orders : List VanOrder
  visit  : Option Visit
  serial : Nat
  ready  : Ready
deriving DecidableEq, Repr

/-! ### Fault Unit (08_faults_and_quarantine.md) -/

/-- The subject of a fault (8.1). -/
inductive Subject where
  | dock (pos : DockPos) | bike (id : Nat) | terminal (d : Drop)
deriving DecidableEq, Repr

/-- The state of a fault record, with the clear reason while CLEARED (table 8-2). -/
inductive FaultState where
  | opened | notified | clearedByCentral | clearedByRemoval
deriving DecidableEq, Repr

/-- A fault record (table 8-2). -/
structure FaultRec where
  id       : Nat
  subject  : Subject
  code     : Fin 48
  severity : Severity
  first    : Nat
  last     : Nat
  repeats  : Nat
  state    : FaultState
deriving DecidableEq, Repr

/-- An entry of the fault policy (R156). -/
structure PolicyEntry where
  base      : Severity
  threshold : Nat
  actions   : FaultActions
deriving DecidableEq, Repr

/-- The Fault Unit. `busy` and `waiting` are the MODEL's own: a raise, clear or load is being taken whole, and the raises
asked meanwhile (R158, log 6). -/
structure FaultUnit where
  log       : List FaultRec
  policy    : Vector PolicyEntry 48
  nextId    : Nat
  discarded : Nat
  notStored : Nat
  busy      : Bool
  waiting   : List (Subject × Fin 48)
deriving DecidableEq, Repr

/-! ### Journal Unit (09_the_settlement_journal.md) -/

/-- The flags of a HIRE END (table 11-8). -/
structure HireEndFlags where
  short            : Bool
  overdue          : Bool
  clockSkew        : Bool
  noRecord         : Bool
  timeInvalid      : Bool
  islanded         : Bool
  lateReport       : Bool
  classSubstituted : Bool
  noTariff         : Bool
  repeated         : Bool
deriving DecidableEq, Repr

/-- The fields of a HIRE END record (table 6-4). `classUsed` is absent when no class was used (log 14). -/
structure HireEnd where
  number        : Nat
  medium        : Medium
  bike          : Nat
  kind          : BikeKind
  pos           : DockPos
  start         : Nat
  station       : Nat
  stop          : Nat
  grant         : GrantFlags
  tokenClass    : Nat
  classUsed     : Option Nat
  minutes       : Nat
  bandSum       : Nat
  unlockFee     : Nat
  rewardUsed    : Nat
  rewardEarned  : Nat
  capReduction  : Nat
  charge        : Nat
  repeatedSeq   : Option Nat
  flags         : HireEndFlags
deriving DecidableEq, Repr

/-- The fields of a HIRE START record (R86). -/
structure HireStart where
  number        : Nat
  medium        : Medium
  bike          : Nat
  kind          : BikeKind
  pos           : DockPos
  grantTime     : Nat
  stamp         : Nat
  cls           : Nat
  flags         : GrantFlags
  unconfirmed   : Bool
  despiteCancel : Bool
deriving DecidableEq, Repr

/-- The fields of a FARE WAIVED record (R131). -/
structure FareWaived where
  seq            : Option Nat
  number         : Nat
  medium         : Medium
  bike           : Nat
  pos            : DockPos
  amount         : Nat
  rewardRestored : Nat
  dayReduced     : Bool
  stamp          : Nat
  noRecord       : Bool
deriving DecidableEq, Repr

/-- What every sale record names (table 5-6). -/
structure SaleTerms where
  terminal  : Drop
  ref       : Nat
  kind      : Nat
  price     : Nat
  offerTime : Nat
deriving DecidableEq, Repr

/-- The outcome of a sale (table 5-6), with the valid until of the pass after NEW and EXTENDED. -/
inductive SaleOutcome where
  | new (validUntil : Nat) | extended (validUntil : Nat) | noPass
deriving DecidableEq, Repr

/-- What a SALE and an ORPHAN SALE carry of the result (table 5-6). -/
structure SaleApproval where
  token    : Nat
  approval : Nat
  outcome  : SaleOutcome
  stamp    : Nat
deriving DecidableEq, Repr

/-- The fields of a VAN VISIT record (table 7-3). The unmet counts are absent for AD HOC, as is the order id. -/
structure VanVisit where
  order        : Option Nat
  serial       : Nat
  van          : Nat
  operator     : Nat
  arrival      : Nat
  closedAt     : Nat
  cause        : CloseCause
  unmetDrops   : Option PerKind
  unmetPickups : Option PerKind
  inFlight     : Nat
  load         : List LoadEntry
  dropList     : List DropListEntry
deriving DecidableEq, Repr

/-- The kinds of journal record with their fields (table 9-1). -/
inductive JournalBody where
  | hireStart (h : HireStart)
  | hireEnd (h : HireEnd)
  | fareWaived (w : FareWaived)
  | sale (t : SaleTerms) (a : SaleApproval)
  /-- `byRestart` is the cause of lapse: RESTART, else DEADLINE. -/
  | saleLapsed (t : SaleTerms) (byRestart : Bool)
  /-- `unanswered` is the cause: UNANSWERED, else LAPSED. -/
  | orphanSale (t : SaleTerms) (a : SaleApproval) (unanswered : Bool)
  | vanVisit (v : VanVisit)
  /-- STOCK ADJUST ARRIVAL; the Van Unit's carries the visit serial. -/
  | arrival (bike : Nat) (kind : BikeKind) (pos : DockPos) (serial : Option Nat)
  | vanished (bike : Nat) (kind : BikeKind) (pos : DockPos)
  | takenByStaff (bike : Nat) (kind : BikeKind) (pos : DockPos) (operator serial : Nat) (unconfirmed : Bool)
deriving DecidableEq, Repr

/-- A held record (R172). -/
structure JournalRec where
  seq  : Nat
  time : Nat
  body : JournalBody
deriving DecidableEq, Repr

/-- Journal levels (R178). -/
inductive Level where
  | normal | restricted | closed
deriving DecidableEq, Repr

/-- The Journal Unit. `next` is 4,294,967,296 as the exhausted mark (R174). -/
structure Journal where
  records   : List JournalRec
  next      : Nat
  level     : Level
  coldStart : Bool
  refused   : Vector Nat 10
deriving DecidableEq, Repr

/-! ### Trunk Controller (10_trunk_link_station_modes_and_table_loads.md) -/

/-- Station modes (table 10-3). -/
inductive Mode where
  | init | service | maintenancePending | maintenance
deriving DecidableEq, Repr

/-- The settings of table 10-6. -/
structure Settings where
  replyWindow      : Nat
  sweepInterval    : Nat
  takeWindow       : Nat
  referralDeadline : Nat
  islandTimeout    : Nat
  saleWindow       : Nat
  waiverWindow     : Nat
  dayOffset        : Int
  strangerRule     : StrangerRule
  strangerClass    : Nat
  strangerHeadroom : Nat
  minHeadroom      : Nat
  rewardMinRide    : Nat
  chargeSlots      : Nat
  chargeFull       : Nat
  rideMin          : Nat
  resume           : Nat
  defaultAction    : Action
deriving DecidableEq, Repr

/-- The tables of table 10-5. -/
inductive TableId where
  | dropTable | classifier | faultPolicy | stationSettings | passKinds | cardTable | tariff | stockTargets
deriving DecidableEq, Repr

/-- Why an entry of a load was refused (R194). -/
inductive EntryRefusal where
  | range | conflict | full
deriving DecidableEq, Repr

/-- The result of a load (R194). -/
inductive LoadResult where
  | done | partly | mode | range | unknownTable
deriving DecidableEq, Repr

/-- A LOAD REPLY (R194). -/
structure LoadReply where
  tag      : Nat
  table    : Nat
  first    : Nat
  entries  : Nat
  applied  : Nat
  result   : LoadResult
  refusal  : Option (Nat × EntryRefusal)
  clamped  : List Setting
deriving DecidableEq, Repr

/-- The conditions of readiness that failed (R191). -/
structure NotReady where
  noDropTable : Bool
  noTariff    : Bool
  noTime      : Bool
  noStation   : Bool
deriving DecidableEq, Repr

/-- The results of a COMMAND (R90, R91, R168, R190, R193). -/
inductive CommandResult where
  | done | accepted | mode | notReady (marks : NotReady) | none | range | refused (r : Reason) | unknown
  | alreadyCleared | cleared | unknownCommand
deriving DecidableEq, Repr

/-- The results of a VAN ORDER (R134). -/
inductive OrderResult where
  | range | noTime | expired | active | replaced | full | accepted
deriving DecidableEq, Repr

/-- What a COMMAND REPLY answers, with what it carries (R134, R187, R193, R196). -/
inductive ReplyBody where
  | command (code : Nat) (result : CommandResult) (mode : Mode)
  | vanOrder (order : Nat) (result : OrderResult)
  | timeSet (before value : Nat)
  /-- RANGE to a frame of kind `kind` whose body did not fit (R187). -/
  | range (kind : Nat)
deriving DecidableEq, Repr

/-- What a JOURNAL DATA shows (R175, 11.5). -/
structure JournalShown where
  tag       : Nat
  held      : Option (Nat × Nat)
  next      : Nat
  level     : Level
  coldStart : Bool
  records   : List JournalRec
  range     : Bool
deriving DecidableEq, Repr

/-- A JOURNAL DATA frame: what it shows, and the bytes of its body (11.5). -/
structure JournalData extends JournalShown where
  body : List Byte
deriving DecidableEq, Repr

/-- What decided an event: the index of a rule, or DEFAULT (R31). -/
inductive DecidedBy where
  | rule (index : Fin 32) | default
deriving DecidableEq, Repr

/-- A TELEMETRY or URGENT EVENT frame (R31). `fields` are the event's fields as the drop sent them. -/
structure EventFrame where
  drop   : Drop
  kind   : DropKind
  pos    : Option DockPos
  number : Nat
  code   : Nat
  stamp  : Nat
  fields : List Byte
  by_    : DecidedBy
deriving DecidableEq, Repr

/-- An URGENT NOTICE (R166). `id` is the fault id; `stored` is false under the mark NOT STORED. -/
structure UrgentNotice where
  id       : Nat
  stored   : Bool
  subject  : Subject
  code     : Fin 48
  severity : Severity
  repeats  : Nat
  first    : Nat
  last     : Nat
  station  : Nat
  actions  : FaultActions
deriving DecidableEq, Repr

/-- A place in one of the Stock Unit's charging lists (R63). -/
inductive ChargePlace where
  | none | waiting (place : Nat) | charging (place : Nat)
deriving DecidableEq, Repr

/-- What the DOCK LIST marks of a release in flight (R94). -/
structure ReleaseMark where
  kind     : ReleaseKind
  unlocked : Bool
  cancel   : Bool
  checking : Bool
deriving DecidableEq, Repr

/-- One record of a DOCK LIST (R63, R94, R170). `bike` and `battery` are the two bike fields that may be absent, as the
frame carries them: 0 and 255 then (R203). -/
structure DockReport where
  pos        : DockPos
  drop       : Option Drop
  record     : DockRec
  bike       : Nat
  battery    : Nat
  lastKnown  : Bool
  place      : ChargePlace
  corrected  : Option Nat
  release    : Option ReleaseMark
deriving DecidableEq, Repr

/-- A DOCK LIST (R199): `next` is the next position not carried, absent for END. -/
structure DockList where
  tag   : Nat
  docks : List DockReport
  next  : Option Nat
deriving DecidableEq, Repr

/-- A FAULT LIST (R170, R199): each record with the actions its code's policy now gives; `next` absent for END. -/
structure FaultList where
  tag     : Nat
  records : List (FaultRec × FaultActions)
  next    : Option Nat
  total   : Nat
deriving DecidableEq, Repr

/-- The receive counts (R185, R187). -/
structure RxCounts where
  length      : Nat
  truncated   : Nat
  badCrc      : Nat
  unknownKind : Nat
  malformed   : Nat
  notTaken    : Nat
deriving DecidableEq, Repr

/-- The outbound discard counts of the three groups (R189). -/
structure Discards where
  g1 : Nat
  g2 : Nat
  g3 : Nat
deriving DecidableEq, Repr

/-- What a STATUS REPORT shows of a sale record (R108). -/
structure SaleReport where
  terminal   : Drop
  state      : SaleState
  ref        : Nat
  kind       : Option Nat
  deadline   : Option Nat
  unanswered : Bool
  ready      : Ready
deriving DecidableEq, Repr

/-- What a STATUS REPORT shows of a pending van order (R153). -/
structure OrderReport where
  id         : Nat
  van        : Nat
  validFrom  : Nat
  validUntil : Nat
deriving DecidableEq, Repr

/-- The kind of a visit (table 7-2). -/
inductive VisitKind where
  | planned | adHoc
deriving DecidableEq, Repr

/-- What a STATUS REPORT shows of the active visit, its kind NONE where there is no visit (R153); for an AD HOC visit the
order id is 0 and the remaining counts are 255 each (R203). -/
structure VisitReport where
  kind         : VisitKind
  serial       : Nat
  order        : Nat
  van          : Nat
  operator     : Nat
  arrival      : Nat
  closeAt      : Nat
  remDrops     : PerKind
  remPickups   : PerKind
  drops        : Nat
  pickups      : Nat
  load         : Nat
  dropList     : Nat
  inFlight     : Nat
deriving DecidableEq, Repr

/-- A STATUS REPORT: what each chapter names for its block (R3, R27, R63, R94, R108, R132, R153, R170, R184, R199). -/
structure StatusReport where
  errorsA          : FrameErrors
  errorsB          : FrameErrors
  hits             : Vector Nat 32
  defaultHits      : Nat
  releasable       : PerKind
  flags            : StockFlags
  charging         : Nat
  chargeSlots      : Nat
  waiting          : Nat
  cards            : Nat
  provisional      : Nat
  passesActive     : Nat
  passesReserved   : Nat
  referrals        : Nat
  releasesRider    : Nat
  releasesVan      : Nat
  releasesRemote   : Nat
  recent           : Nat
  tariffsLoaded    : List Bool
  sales            : List SaleReport
  onSale           : List Bool
  orders           : List OrderReport
  visit            : Option VisitReport
  vanpointReady    : Ready
  faultsOpen       : Nat
  faultsNotified   : Nat
  faultsCleared    : Nat
  unclearedMinor   : Nat
  unclearedMajor   : Nat
  unclearedCritical : Nat
  faultsDiscarded  : Nat
  faultsNotStored  : Nat
  nextFaultId      : Nat
  journalHeld      : Nat
  journalRange     : Option (Nat × Nat)
  journalNext      : Nat
  level            : Level
  coldStart        : Bool
  refused          : Vector Nat 10
  mode             : Mode
  releasesQuiet    : Bool
  salesQuiet       : Bool
  connected        : Bool
  sinceFrame       : Nat
  time             : Nat
  timeValid        : Bool
  station          : Nat
  segB             : Bool
  group1           : Nat
  group2           : Nat
  group3           : Nat
  answersWaiting   : Nat
  counts           : RxCounts
  discards         : Discards
  settings         : Settings
deriving DecidableEq, Repr

/-- The frames that may enter the outbound queue (table 10-2). -/
inductive OutFrame where
  | loadReply (r : LoadReply)
  | journalData (d : JournalData)
  | commandReply (tag : Nat) (body : ReplyBody)
  | statusReport (tag : Nat) (r : StatusReport)
  | dockList (d : DockList)
  | faultList (f : FaultList)
  | referralRequest (card : Nat) (pos : DockPos) (station stamp : Nat)
  | urgentNotice (n : UrgentNotice)
  | urgentEvent (e : EventFrame)
  | stockNotice (flags : StockFlags) (counts : PerKind)
  | telemetry (e : EventFrame)
deriving DecidableEq, Repr

/-- The Trunk Controller. `sending` is the frame last handed to the transmitter (log 8). -/
structure Trunk where
  connected     : Bool
  timerOn       : Bool
  islandSeconds : Nat
  islandLimit   : Nat
  queue         : List OutFrame
  waiting       : List OutFrame
  sending       : Option OutFrame
  counts        : RxCounts
  discards      : Discards
  mode          : Mode
  releasesQuiet : Bool
  salesQuiet    : Bool
  settings      : Settings
  time          : Nat
  timeValid     : Bool
  station       : Nat
  segB          : Bool
deriving DecidableEq, Repr

/-! ### The whole state -/

/-- What one unit asks of another in the middle of its work: the outcome of a submitted command, or the raise of a fault.
These two may lead to further submissions and raises (log 9). -/
inductive Call where
  | outcome (who : Submitter) (o : CmdOutcome)
  | raise (subject : Subject) (code : Fin 48)
deriving DecidableEq, Repr

/-- The state of the NF624. -/
structure State where
  engA       : Engine
  engB       : Engine
  classifier : Classifier
  stock      : Stock
  hire       : Hire
  sale       : Sale
  van        : Van
  fault      : FaultUnit
  journal    : Journal
  trunk      : Trunk
  elapsed    : Nat
  deferred   : List Call
  pending    : List Instr
deriving DecidableEq, Repr

/-! ### Reset values -/

/-- A Segment Engine after power-on reset with its hold line low (R22, R4). -/
def Engine.reset : Engine :=
  { entries := Vector.replicate 32 .none, mode := .stopped, drops := Vector.replicate 32 none, queue := [], sweep := 0
    sweepStart := 0, gapEnd := 0, pollEnd := 0, due := 0, cursor := 0, gapSent := 0, exchange := none, holdLine := false
    holdAck := false, errors := ⟨0, 0, 0, 0, 0⟩ }

/-- A classifier rule after power-on reset (R34). -/
def Rule.reset : Rule :=
  { enabled := false, seg := .any, lo := 1, hi := 32, kinds := ⟨true, true, true⟩, type := .range, first := 0x00
    second := 0x3F, action := .deliver }

/-- The Event Classifier after power-on reset (R34). -/
def Classifier.reset : Classifier :=
  { rules := Vector.replicate 32 Rule.reset, hits := Vector.replicate 32 0, defaultHits := 0 }

/-- A dock record after power-on reset (R64). -/
def DockRec.reset : DockRec :=
  { state := .unused, svcCentral := .inService, svcFaults := .inService, gate := .opened, vanDrop := false, bike := none
    lock := none, charge := .notCharging, grantTag := 0, barred := false, offOwed := false, offPending := false
    gatePending := false, settling := false }

/-- The Stock Unit after power-on reset (R64, R48). -/
def Stock.reset : Stock :=
  { docks := Vector.replicate 60 DockRec.reset, waitList := [], chargingList := [], low := ⟨0, 0, 0⟩
    high := ⟨60, 60, 60⟩, computed := ⟨false, false, false, false, false, false⟩,
    notified := ⟨false, false, false, false, false, false⟩ }

/-- The Hire Unit after power-on reset (R95, R112, R132). -/
def Hire.reset : Hire :=
  { cards := [], passes := [], referrals := [], releases := [], nextRelease := 0, tariffs := Vector.replicate 8 none
    recent := [] }

/-- A PASS KINDS entry after power-on reset (R97). -/
def PassKind.reset : PassKind :=
  { onSale := false, price := 0, duration := 3600, rideLimit := 0, maxBikes := 1, cls := 0, headroom := 0 }

/-- The Sale Unit after power-on reset (R97, R108). -/
def Sale.reset : Sale :=
  { sales := [], kinds := Vector.replicate 4 PassKind.reset }

/-- The Van Unit after power-on reset (table 7-4). -/
def Van.reset : Van :=
  { orders := [], visit := none, serial := 0, ready := .unknown }

/-- No action of a fault policy entry. -/
def FaultActions.none : FaultActions := ⟨false, false, false, false⟩

/-- The built-in fault policy of a code (table 8-4). -/
def PolicyEntry.builtIn (code : Nat) : PolicyEntry :=
  match code with
  | 0 => ⟨.major, 0, { FaultActions.none with noRelease := true }⟩
  | 1 => ⟨.minor, 0, FaultActions.none⟩
  | 2 => ⟨.minor, 0, FaultActions.none⟩
  | 3 => ⟨.minor, 0, { FaultActions.none with noCharge := true }⟩
  | 4 => ⟨.major, 0, FaultActions.none⟩
  | 5 => ⟨.minor, 0, FaultActions.none⟩
  | 6 => ⟨.major, 0, { FaultActions.none with quarantine := true }⟩
  | 7 => ⟨.minor, 0, FaultActions.none⟩
  | 8 => ⟨.major, 0, { FaultActions.none with quarantine := true, noCharge := true }⟩
  | 9 => ⟨.major, 0, { FaultActions.none with quarantine := true }⟩
  | 10 => ⟨.major, 0, { FaultActions.none with quarantine := true }⟩
  | 11 => ⟨.minor, 0, FaultActions.none⟩
  | 12 => ⟨.minor, 0, FaultActions.none⟩
  | 13 => ⟨.major, 0, { FaultActions.none with quarantine := true }⟩
  | 14 => ⟨.major, 0, { FaultActions.none with quarantine := true }⟩
  | 15 => ⟨.major, 0, FaultActions.none⟩
  | _ => ⟨.minor, 0, FaultActions.none⟩

/-- The Fault Unit after power-on reset (R171). -/
def FaultUnit.reset : FaultUnit :=
  { log := [], policy := Vector.ofFn (fun i : Fin 48 => PolicyEntry.builtIn i), nextId := 1, discarded := 0
    notStored := 0, busy := false, waiting := [] }

/-- The Journal Unit after a power-on reset that followed a loss of the retained supply (R182). -/
def Journal.reset : Journal :=
  { records := [], next := 1, level := .normal, coldStart := true, refused := Vector.replicate 10 0 }

/-- The settings at their defaults (table 10-6). -/
def Settings.reset : Settings :=
  { replyWindow := 3, sweepInterval := 100, takeWindow := 30, referralDeadline := 4, islandTimeout := 60
    saleWindow := 120, waiverWindow := 180, dayOffset := 14400, strangerRule := .refuse, strangerClass := 0
    strangerHeadroom := 500, minHeadroom := 200, rewardMinRide := 300, chargeSlots := 8, chargeFull := 95
    rideMin := 25, resume := 35, defaultAction := .deliver }

/-- The Trunk Controller after a power-on reset that followed a loss of the retained supply (R196, R200). -/
def Trunk.reset : Trunk :=
  { connected := false, timerOn := false, islandSeconds := 0, islandLimit := 60, queue := [], waiting := []
    sending := none, counts := ⟨0, 0, 0, 0, 0, 0⟩, discards := ⟨0, 0, 0⟩, mode := .init, releasesQuiet := false
    salesQuiet := false, settings := Settings.reset, time := 0, timeValid := false, station := 0, segB := false }

/-- The machine right after reset: a power-on reset after loss of the retained supply, every strap and hold line low
(DESIGN CHOICE, log 2), no command waiting. -/
def State.reset : State :=
  { engA := Engine.reset, engB := Engine.reset, classifier := Classifier.reset, stock := Stock.reset
    hire := Hire.reset, sale := Sale.reset, van := Van.reset, fault := FaultUnit.reset, journal := Journal.reset
    trunk := Trunk.reset, elapsed := 0, deferred := [], pending := [] }

end Sys2Proof.Machine
end

