-- ==== Sys2Proof/Machine/Ops.lean ====
section
/-! DEFINITION. The shared operations: reading and writing the parts of State, tables by key, submitting a command to a
Segment Engine (R15, R16), offering a frame to the outbound queue (R189), and the quiet marks (R192). An operation that
may end in a call of another unit takes it as an argument `k : Kont` (log 9). -/

namespace Sys2Proof.Machine

open Sys2Proof

/-- How a call of another unit is carried out. -/
abbrev Kont := Call → State → State

/-! ### Reading and writing the parts of State -/

/-- The engine of a segment. -/
def State.eng (s : State) : Segment → Engine
  | .A => s.engA
  | .B => s.engB

/-- State with the engine of one segment replaced. -/
def State.setEng (s : State) (g : Segment) (e : Engine) : State :=
  match g with
  | .A => { s with engA := e }
  | .B => { s with engB := e }

/-- The dock record of a position. -/
def State.dock (s : State) (p : DockPos) : DockRec := s.stock.docks[p]

/-- State with one dock record replaced. -/
def State.setDock (s : State) (p : DockPos) (d : DockRec) : State :=
  { s with stock := { s.stock with docks := s.stock.docks.set p d } }

/-- State with one dock record changed. -/
def State.modDock (s : State) (p : DockPos) (f : DockRec → DockRec) : State := s.setDock p (f (s.dock p))

/-- The station time (R196). -/
def State.now (s : State) : Nat := s.trunk.time

/-- The 60 positions in ascending order. -/
def positions : List DockPos := List.finRange 60

/-- The 32 addresses of a segment in ascending order. -/
def addresses : List (Fin 32) := List.finRange 32

/-- A number of a kind. -/
def perKind (p : PerKind) : BikeKind → Nat
  | .classic => p.classic
  | .electric => p.electric
  | .cargo => p.cargo

/-- A number of a kind replaced. -/
def setPerKind (p : PerKind) (k : BikeKind) (n : Nat) : PerKind :=
  match k with
  | .classic => { p with classic := n }
  | .electric => { p with electric := n }
  | .cargo => { p with cargo := n }

/-- The sum over the three kinds. -/
def sumPerKind (p : PerKind) : Nat := p.classic + p.electric + p.cargo

/-! ### Tables by key

A table is a list in strictly ascending order of its key, so that equal tables are equal lists. -/

/-- The record of a key. -/
def tableFind {α : Type} (key : α → Nat) (n : Nat) (l : List α) : Option α := l.find? (fun x => key x == n)

/-- The record put in its place, replacing one of the same key. DESIGN CHOICE, log 49. -/
def tablePut {α : Type} (key : α → Nat) (x : α) : List α → List α
  | [] => [x]
  | y :: ys => if key x < key y then x :: y :: ys else if key x = key y then x :: ys else y :: tablePut key x ys

/-- The record of a key removed. -/
def tableErase {α : Type} (key : α → Nat) (n : Nat) (l : List α) : List α := l.filter (fun x => key x != n)

/-- The last element that meets a test removed. -/
def removeLast {α : Type} (q : α → Bool) (l : List α) : List α := (l.reverse.eraseP q).reverse

/-- The element at a place removed. -/
def removeAt {α : Type} (n : Nat) (l : List α) : List α := l.eraseIdx n

/-! ### Cards, passes, releases, sales by key -/

/-- The card record of a number (R65). -/
def State.card (s : State) (n : Nat) : Option CardRec := tableFind CardRec.number n s.hire.cards

/-- The card table with one record put in. -/
def State.putCard (s : State) (c : CardRec) : State :=
  { s with hire := { s.hire with cards := tablePut CardRec.number c s.hire.cards } }

/-- The pass record of a slot. -/
def State.passSlot (s : State) (n : Nat) : Option PassRec := tableFind PassRec.slot n s.hire.passes

/-- The ACTIVE pass record that holds a token (R74). -/
def State.passOf (s : State) (token : Nat) : Option PassRec := s.hire.passes.find? (fun p => p.token == some token)

/-- The pass table with one record put in. -/
def State.putPass (s : State) (p : PassRec) : State :=
  { s with hire := { s.hire with passes := tablePut PassRec.slot p s.hire.passes } }

/-- The pass table with one record removed. -/
def State.erasePass (s : State) (slot : Nat) : State :=
  { s with hire := { s.hire with passes := tableErase PassRec.slot slot s.hire.passes } }

/-- The release in flight at a dock. -/
def State.releaseAt (s : State) (p : DockPos) : Option Release := tableFind (fun r => r.pos.val) p.val s.hire.releases

/-- The release of an identity. -/
def State.releaseOf (s : State) (id : Nat) : Option Release := s.hire.releases.find? (fun r => r.id == id)

/-- The release records with one put in. -/
def State.putRelease (s : State) (r : Release) : State :=
  { s with hire := { s.hire with releases := tablePut (fun r => r.pos.val) r s.hire.releases } }

/-- The release records with that of a dock removed. -/
def State.eraseRelease (s : State) (p : DockPos) : State :=
  { s with hire := { s.hire with releases := tableErase (fun r => r.pos.val) p.val s.hire.releases } }

/-- Whether a release is in flight for a card or token number (R83). -/
def State.inFlight (s : State) (n : Nat) (m : Medium) : Bool :=
  s.hire.releases.any (fun r => r.number == n && r.medium == m)

/-- The order of terminals: segment A before B, then ascending address (R108). -/
def dropKey (d : Drop) : Nat :=
  match d.seg with
  | .A => d.addr.val
  | .B => 32 + d.addr.val

/-- The sale record of a terminal. -/
def State.saleOf (s : State) (d : Drop) : Option SaleRec := tableFind (fun r => dropKey r.terminal) (dropKey d) s.sale.sales

/-- The sale records with one put in. -/
def State.putSale (s : State) (r : SaleRec) : State :=
  { s with sale := { s.sale with sales := tablePut (fun r => dropKey r.terminal) r s.sale.sales } }

/-- State with the active visit replaced. -/
def State.setVisit (s : State) (v : Option Visit) : State := { s with van := { s.van with visit := v } }

/-! ### The drop table -/

/-- The address at which an engine's entries hold a dock position. -/
def Engine.addrOf (e : Engine) (p : DockPos) : Option (Fin 32) :=
  addresses.find? (fun a => e.entries[a] == TableEntry.dock p)

/-- The drop of a dock position: the segment and address the drop table gives it (R35). -/
def State.dropAt (s : State) (p : DockPos) : Option Drop :=
  match s.engA.addrOf p with
  | some a => some ⟨.A, a⟩
  | none =>
    match s.engB.addrOf p with
    | some a => some ⟨.B, a⟩
    | none => none

/-- The drop table entry of a drop. -/
def State.entryOf (s : State) (d : Drop) : TableEntry := (s.eng d.seg).entries[d.addr]

/-- The drop record of a drop. -/
def State.dropRec (s : State) (d : Drop) : Option DropRec := (s.eng d.seg).drops[d.addr]

/-- The van point's drop, where the drop table has one. -/
def State.vanpoint (s : State) : Option Drop :=
  match addresses.find? (fun a => s.engA.entries[a] == TableEntry.vanpoint) with
  | some a => some ⟨.A, a⟩
  | none =>
    match addresses.find? (fun a => s.engB.entries[a] == TableEntry.vanpoint) with
    | some a => some ⟨.B, a⟩
    | none => none

/-- Whether a drop is LOST, or HELD with LOST as its state before hold (R15). -/
def LinkState.isLost : LinkState → Bool
  | .free .lost => true
  | .held .lost => true
  | _ => false

/-- Whether the drop of a dock position is LOST. -/
def State.dockDropLost (s : State) (p : DockPos) : Bool :=
  match s.dropAt p with
  | none => false
  | some d =>
    match s.dropRec d with
    | none => false
    | some r => r.link.isLost

/-! ### Submitting a command (R15, R16) -/

/-- The class of a command (table 1-8). -/
def Cmd.cls : Cmd → CmdClass
  | .unlockHire _ _ => .unlock
  | .unlockVan _ => .unlock
  | .lock => .unlock
  | .clearToken _ => .tag
  | .markFault _ => .tag
  | .setGate _ => .control
  | .saleGo _ _ => .control
  | .saleRefused _ => .control
  | .resync => .control
  | .chargeOn _ => .charge
  | .chargeOff => .charge
  | .showReason _ => .display

/-- The most entries a command queue holds (R15). -/
def queueRoom : Nat := 24

/-- Whether an entry is of class DISPLAY. -/
def QueueEntry.isDisplay (e : QueueEntry) : Bool := e.cmd.cls == .display

/-- A command queue that a command has joined, with the entry it displaced, or none where it did not join (R15, R16). -/
def joinQueue (q : List QueueEntry) (e : QueueEntry) : Option (List QueueEntry × Option QueueEntry) :=
  if q.length < queueRoom then some (q ++ [e], none)
  else if e.isDisplay then none
  else
    match q.reverse.find? QueueEntry.isDisplay with
    | none => none
    | some old => some (removeLast QueueEntry.isDisplay q ++ [e], some old)

/-- A command is submitted for a drop (R15, R16). -/
def submitTo (k : Kont) (d : Drop) (c : Cmd) (w : Submitter) (s : State) : State :=
  match s.dropRec d with
  | none => k (.outcome w .noReply) s
  | some r =>
    if r.link.isLost then k (.outcome w .noReply) s
    else
      match joinQueue (s.eng d.seg).queue { addr := d.addr, cmd := c, who := w, time := s.now } with
      | none => k (.outcome w .qFull) s
      | some (q, none) => s.setEng d.seg { s.eng d.seg with queue := q }
      | some (q, some old) => k (.outcome old.who .qFull) (s.setEng d.seg { s.eng d.seg with queue := q })

/-- A command is submitted for the dock at a position; a position without a drop gives NOREPLY at once (R15). -/
def submitAt (k : Kont) (p : DockPos) (c : Cmd) (w : Submitter) (s : State) : State :=
  match s.dropAt p with
  | none => k (.outcome w .noReply) s
  | some d => submitTo k d c w s

/-- SHOW is submitted to a dock; its outcome is discarded (R70). -/
def showAt (k : Kont) (u : SubmittingUnit) (p : DockPos) (r : Reason) (s : State) : State :=
  submitAt k p (.showReason r) (.discard u) s

/-- SHOW is submitted to the van point. -/
def showVanpoint (k : Kont) (r : Reason) (s : State) : State :=
  match s.vanpoint with
  | none => s
  | some d => submitTo k d (.showReason r) (.discard .van) s

/-! ### The outbound queue (R188, R189) -/

/-- The priority group of a frame (table 10-2). -/
def OutFrame.group : OutFrame → Nat
  | .loadReply _ => 1
  | .journalData _ => 1
  | .commandReply _ _ => 1
  | .statusReport _ _ => 1
  | .dockList _ => 1
  | .faultList _ => 1
  | .referralRequest _ _ _ _ => 1
  | .urgentNotice _ => 2
  | .urgentEvent _ => 2
  | .stockNotice _ _ => 3
  | .telemetry _ => 3

/-- Whether a frame is an answer, which may wait: a group 1 frame other than REFERRAL REQUEST (R189). -/
def OutFrame.isAnswer : OutFrame → Bool
  | .referralRequest _ _ _ _ => false
  | f => f.group == 1

/-- The most frames the outbound queue holds (R188). -/
def outboundRoom : Nat := 16

/-- The most frames the answer wait list holds (R189). -/
def answerRoom : Nat := 4

/-- The outbound discard count of a group raised by one (R189). -/
def Discards.raise (d : Discards) : Nat → Discards
  | 1 => { d with g1 := bump16 d.g1 }
  | 2 => { d with g2 := bump16 d.g2 }
  | _ => { d with g3 := bump16 d.g3 }

/-- A frame is offered to the outbound queue; the second part says whether it joined the queue (R189). -/
def Trunk.offer (t : Trunk) (f : OutFrame) : Trunk × Bool :=
  if t.queue.length < outboundRoom then ({ t with queue := t.queue ++ [f] }, true)
  else if f.group = 3 then ({ t with discards := t.discards.raise 3 }, false)
  else if t.queue.any (fun g => g.group == 3) then
    ({ t with queue := removeLast (fun g => g.group == 3) t.queue ++ [f], discards := t.discards.raise 3 }, true)
  else if f.isAnswer then ({ t with waiting := t.waiting ++ [f] }, false)
  else ({ t with discards := t.discards.raise f.group }, false)

/-- A frame is offered by a block that takes no notice of its fate. -/
def State.offer (s : State) (f : OutFrame) : State := { s with trunk := (s.trunk.offer f).1 }

/-- An answer to a frame from central is offered while the answer wait list has room, which R187 sees to. -/
def State.answer (s : State) (f : OutFrame) : State := s.offer f

/-! ### The quiet marks of MAINTENANCE PENDING (R192) -/

/-- A MAINTENANCE PENDING with both marks set moves on to MAINTENANCE. -/
def Trunk.settleMode (t : Trunk) : Trunk :=
  if t.mode = .maintenancePending ∧ t.releasesQuiet ∧ t.salesQuiet then { t with mode := .maintenance } else t

/-- The Hire Unit tells that no release record remains (R93). Outside MAINTENANCE PENDING the report is not needed. -/
def tellReleasesQuiet (s : State) : State :=
  if s.trunk.mode = .maintenancePending ∧ s.hire.releases = [] then
    { s with trunk := Trunk.settleMode { s.trunk with releasesQuiet := true } }
  else s

/-- The Sale Unit tells that no record remains OFFERED (R106). -/
def tellSalesQuiet (s : State) : State :=
  if s.trunk.mode = .maintenancePending ∧ s.sale.sales.all (fun r => r.state != .offered) then
    { s with trunk := Trunk.settleMode { s.trunk with salesQuiet := true } }
  else s

/-! ### Time -/

/-- The largest station time (R196). -/
def lastTime : Nat := 4294967295

/-- The day index of a moment under a day offset: the quotient rounded down (table 0-2). -/
def dayIndex (offset : Int) (t : Nat) : Int := ((t : Int) + offset) / 86400

/-- The day index of a moment under the day offset in force. -/
def State.dayOf (s : State) (t : Nat) : Int := dayIndex s.trunk.settings.dayOffset t

end Sys2Proof.Machine
end

