-- ==== Sys2Proof/Machine/Operands.lean ====
section
/-! DEFINITION. Frames on the dock bus and the trunk link, bit by bit (11_frame_and_record_formats.md): the header check,
the two CRCs, the fields of a reply and of an event (tables 11-1 to 11-5, R202), and the bytes of what is sent. -/

namespace Sys2Proof.Machine

open Sys2Proof

/-! ### Bytes -/

/-- The number that bytes spell, most significant first (chapter 11, opening). -/
def beNat (l : List Byte) : Nat := l.foldl (fun n b => n * 256 + b.toNat) 0

/-- `w` bytes of a number, most significant first; a field narrower than its value saturates (R203). -/
def beBytes (w n : Nat) : List Byte :=
  let v := min n (256 ^ w - 1)
  (List.range w).map (fun i => BitVec.ofNat 8 (v / 256 ^ (w - 1 - i)))

/-- `n` bytes of a payload from byte `i`. -/
def bytesAt (l : List Byte) (i n : Nat) : List Byte := (l.drop i).take n

/-- The number in `n` bytes of a payload from byte `i`. -/
def natAt (l : List Byte) (i n : Nat) : Nat := beNat (bytesAt l i n)

/-! ### CRC-16 and CRC-32 -/

/-- One bit of the CRC-16 with generator x^16 + x^12 + x^5 + 1 (11.1). -/
def crc16Shift (c : BitVec 16) : BitVec 16 := if c.msb then (c <<< 1) ^^^ 0x1021#16 else c <<< 1

/-- One byte of the CRC-16, most significant bit first (11.1). -/
def crc16Byte (c : BitVec 16) (b : Byte) : BitVec 16 :=
  Nat.repeat crc16Shift 8 (c ^^^ (b.setWidth 16 <<< 8))

/-- The CRC-16 of bytes: initial value all ones, no reflection, no final inversion (11.1). -/
def crc16 (l : List Byte) : BitVec 16 := l.foldl crc16Byte 0xFFFF#16

/-- One bit of the CRC-32 in its reflected form: 0xEDB88320 is the generator 0x04C11DB7 with its bits reversed (table 11-6).
-/
def crc32Shift (c : BitVec 32) : BitVec 32 := if c.getLsbD 0 then (c >>> 1) ^^^ 0xEDB88320#32 else c >>> 1

/-- One byte of the CRC-32, least significant bit first (table 11-6). -/
def crc32Byte (c : BitVec 32) (b : Byte) : BitVec 32 := Nat.repeat crc32Shift 8 (c ^^^ b.setWidth 32)

/-- The CRC-32 of bytes: initial value all ones, result reflected and inverted (table 11-6). -/
def crc32 (l : List Byte) : BitVec 32 := ~~~ (l.foldl crc32Byte 0xFFFFFFFF#32)

/-! ### The dock bus header (table 11-1) -/

/-- The code position of header bit `i`, for bits 4 to 23 (11.1, the extended Hamming code). -/
def codePosition (i : Nat) : Nat :=
  [0, 0, 0, 0, 1, 2, 4, 8, 16, 3, 5, 6, 7, 9, 10, 11, 12, 13, 14, 15, 17, 18, 19, 20].getD i 0

/-- The syndrome: the exclusive-or of the positions of the ones at positions 1..20 (11.1). -/
def headerSyndrome (h : BitVec 24) : Nat :=
  (List.range 24).foldl (fun a i => if h.getLsbD i then a ^^^ codePosition i else a) 0

/-- Whether bits 23..3 hold an odd number of ones (11.1). -/
def headerOdd (h : BitVec 24) : Bool :=
  (List.range 24).foldl (fun a i => if 3 ≤ i ∧ h.getLsbD i then !a else a) false

/-- The header with one bit inverted. -/
def flipBit (h : BitVec 24) (i : Nat) : BitVec 24 := h ^^^ (1#24 <<< i)

/-- The outcome of the header check (11.1, table 1-6 check 1). -/
inductive HeaderOutcome where
  | clean | corrected (h : BitVec 24) | uncorrectable
deriving DecidableEq, Repr

/-- The header check: CLEAN, CORRECTED with the repaired header, or UNCORRECTABLE (11.1). -/
def headerCheck (h : BitVec 24) : HeaderOutcome :=
  let syn := headerSyndrome h
  if headerOdd h then
    if syn = 0 then .corrected (flipBit h 3)
    else
      match (List.range 24).find? (fun i => 4 ≤ i && codePosition i == syn) with
      | some i => .corrected (flipBit h i)
      | none => .uncorrectable
  else if syn = 0 then .clean else .uncorrectable

/-- The address field, the address less 1 (table 11-1). -/
def headerAddr (h : BitVec 24) : Nat := h.toNat / 2 ^ 19

/-- The kind field (table 11-1). -/
def headerKind (h : BitVec 24) : Nat := h.toNat / 2 ^ 15 % 16

/-- The length field (table 11-1). -/
def headerLength (h : BitVec 24) : Nat := h.toNat / 2 ^ 9 % 64

/-- The header of a frame: its fields, the five position bits and the overall parity bit (table 11-1, 11.1). -/
def makeHeader (addr : Fin 32) (kind length : Nat) : BitVec 24 :=
  let data : BitVec 24 := BitVec.ofNat 24 (addr.val * 2 ^ 19 + kind * 2 ^ 15 + length * 2 ^ 9)
  let h := data ||| BitVec.ofNat 24 (headerSyndrome data * 16)
  if headerOdd h then flipBit h 3 else h

/-- The three bytes of a header, most significant first. -/
def headerBytes (h : BitVec 24) : List Byte :=
  [BitVec.ofNat 8 (h.toNat / 65536), BitVec.ofNat 8 (h.toNat / 256), BitVec.ofNat 8 h.toNat]

/-- A frame as it stands on the line: sync byte, header, payload, CRC-16 (11.1). -/
def lineBytes (addr : Fin 32) (kind : Nat) (payload : List Byte) : List Byte :=
  let body := headerBytes (makeHeader addr kind payload.length) ++ payload
  0x7E#8 :: body ++ beBytes 2 (crc16 body).toNat

/-! ### Codes -/

/-- The bike kind of a code (chapter 11, opening). -/
def kindOf : Nat → Option BikeKind
  | 0 => some .classic
  | 1 => some .electric
  | 2 => some .cargo
  | _ => none

/-- The code of a bike kind. -/
def kindCode : BikeKind → Nat
  | .classic => 0
  | .electric => 1
  | .cargo => 2

/-- The medium of a code. -/
def mediumOf : Nat → Option Medium
  | 0 => some .member
  | 1 => some .token
  | _ => none

/-- The code of a medium. -/
def mediumCode : Medium → Nat
  | .member => 0
  | .token => 1

/-- The contact of a code (table 11-2). -/
def contactOf : Nat → Option Contact
  | 0 => some .good
  | 1 => some .poor
  | 2 => some .none
  | _ => none

/-- The code of a reason carried by SHOW and SALE REFUSED (after table 11-4). -/
def reasonCode : Reason → Nat
  | .stationClosed => 1
  | .noTime => 2
  | .busy => 3
  | .noBike => 4
  | .bikeHeld => 5
  | .barred => 6
  | .expired => 7
  | .offlineLimit => 8
  | .limit => 9
  | .unknownCard => 10
  | .wait => 11
  | .tryAgain => 12
  | .noKind => 13
  | .full => 14
  | .visitPlanned => 15
  | .visitAdHoc => 16
  | .visitClosed => 17
  | .notReserved => 18
  | .loadFull => 19

/-- A ready byte: 1 yes, 0 no, any other left open (table 11-2, log 12). -/
def readyOf (b : Byte) : Ready :=
  if b = 1#8 then .yes else if b = 0#8 then .no else if Config.readyOther b then .yes else .no

/-- A battery byte: 255 absent, above 100 taken as 100 (R202). -/
def batteryOf (n : Nat) : Option Nat := if n = 255 then none else some (min n 100)

/-- The grant flags as a byte (table 11-5). -/
def flagsCode (f : GrantFlags) : Nat :=
  f.stranger.toNat + 2 * f.referred.toNat + 4 * f.islanded.toNat + 8 * f.remote.toNat

/-! ### The hire token (table 11-5) -/

/-- The 13 bytes of a hire token. -/
def tokenBytes (t : HireToken) : List Byte :=
  beBytes 4 t.number ++ beBytes 4 t.start ++ beBytes 2 (t.station * 16 + t.cls * 2 + mediumCode t.medium)
    ++ beBytes 1 (flagsCode t.flags) ++ [0#8, 0#8]

/-- The hire token in 13 bytes; a number of 0 is no token (11.2). -/
def tokenOf (l : List Byte) : Option HireToken :=
  let number := natAt l 0 4
  let word := natAt l 8 2
  let flags := natAt l 10 1
  if number = 0 then none
  else
    some
      { number := number, start := natAt l 4 4, station := word / 16, cls := word / 2 % 8
        medium := if word % 2 = 0 then .member else .token
        flags := ⟨flags.testBit 0, flags.testBit 1, flags.testBit 2, flags.testBit 3⟩ }

/-- The identity of a hire token (R127). -/
def HireToken.ident (t : HireToken) : TokenId :=
  { number := t.number, medium := t.medium, start := t.start, station := t.station }

/-! ### What the engine sends (tables 11-2 and 11-4) -/

/-- The bytes of a POLL (table 11-2). -/
def pollBytes (addr : Fin 32) (lastEvent : Nat) : List Byte := lineBytes addr 1 (beBytes 1 lastEvent)

/-- The bytes of a RESYNC (table 11-2). -/
def resyncBytes (addr : Fin 32) : List Byte := lineBytes addr 6 []

/-- The payload of a COMMAND (table 11-4); a RESYNC is a frame kind of its own. -/
def cmdPayload : Cmd → List Byte
  | .unlockHire w t => [1#8, 0#8] ++ beBytes 1 w ++ tokenBytes t
  | .unlockVan w => [1#8, 1#8] ++ beBytes 1 w ++ List.replicate 13 0#8
  | .lock => [2#8]
  | .clearToken i => [3#8] ++ beBytes 4 i.number ++ beBytes 1 (mediumCode i.medium) ++ beBytes 4 i.start ++ beBytes 2 i.station
  | .markFault m => [4#8] ++ beBytes 1 m.toNat
  | .setGate g => [5#8, if g = .closed then 1#8 else 0#8]
  | .saleGo r p => [6#8] ++ beBytes 2 r ++ beBytes 2 p
  | .saleRefused r => [7#8] ++ beBytes 1 (reasonCode r)
  | .resync => []
  | .chargeOn t => [8#8] ++ beBytes 1 t
  | .chargeOff => [9#8]
  | .showReason r => [10#8] ++ beBytes 1 (reasonCode r)

/-- The bytes of a queued command on the line. -/
def cmdBytes (addr : Fin 32) (c : Cmd) : List Byte :=
  match c with
  | .resync => resyncBytes addr
  | c => lineBytes addr 4 (cmdPayload c)

/-! ### What a drop sends: events (table 11-3, R202) -/

/-- What BIKE DOCKED and PRESENT say of a bike in a dock (table 11-3). -/
structure TagReport where
  bike    : Nat
  kind    : BikeKind
  mark    : Bool
  contact : Contact
  battery : Option Nat
  token   : Option HireToken
deriving DecidableEq, Repr

/-- The outcome a SALE RESULT carries (table 11-3). -/
inductive PayOutcome where
  | approved | declined | aborted
deriving DecidableEq, Repr

/-- A SALE RESULT (table 11-3). -/
structure SaleResult where
  ref      : Nat
  outcome  : PayOutcome
  token    : Nat
  approval : Nat
deriving DecidableEq, Repr

/-- An event read by its code (tables 2-1 and 11-3). `other` is DEVICE NOTE and every unassigned code. -/
inductive EventBody where
  | cardTap (card : Nat) (medium : Medium)
  | bikeDocked (t : TagReport)
  | bikeRemoved (bike : Nat)
  | relocked (bike : Nat)
  | faultButton
  | presentDock (t : Option TagReport)
  | presentReady (r : Ready)
  | lockFault
  | readerFault
  | contactResult (c : Contact)
  | chargeFault
  | selfTest (brake light battery tyre : Bool)
  | saleRequest (kind : Nat)
  | saleResult (r : SaleResult)
  | terminalFault (code : Nat)
  | vanArrive (van operator : Nat)
  | vanDepart
  | other
deriving DecidableEq, Repr

/-- The byte length of an event's fields where table 11-3 fixes it; code 0x15 by the kind of drop. -/
def eventLength (code : Nat) (kind : DropKind) : Option Nat :=
  match code with
  | 0x10 => some 5
  | 0x11 => some 19
  | 0x12 => some 4
  | 0x13 => some 4
  | 0x14 => some 0
  | 0x15 => if kind = .dock then some 19 else some 1
  | 0x18 => some 0
  | 0x19 => some 0
  | 0x1A => some 1
  | 0x1B => some 0
  | 0x1C => some 1
  | 0x20 => some 1
  | 0x21 => some 15
  | 0x28 => some 1
  | 0x30 => some 8
  | 0x31 => some 0
  | _ => none

/-- The tag contents in the 19 bytes of BIKE DOCKED or PRESENT; none where the kind or the contact is outside its set. -/
def tagOf (l : List Byte) : Option TagReport :=
  let d := natAt l 4 1
  match kindOf (d % 4), contactOf (d / 8 % 4) with
  | some k, some c =>
    some { bike := natAt l 0 4, kind := k, mark := d.testBit 2, contact := c, battery := batteryOf (natAt l 5 1)
           token := tokenOf (bytesAt l 6 13) }
  | _, _ => none

/-- A nonzero number, or none: identifiers that R202 does not let be 0. -/
def nonzero (n : Nat) : Option Nat := if n = 0 then none else some n

/-- The event of a code and its fields; none where it is malformed (R202). -/
def eventOf (code : Nat) (kind : DropKind) (l : List Byte) : Option EventBody :=
  match code with
  | 0x10 =>
    match nonzero (natAt l 0 4), mediumOf (natAt l 4 1) with
    | some c, some m => some (.cardTap c m)
    | _, _ => none
  | 0x11 =>
    match tagOf l with
    | some t => if t.bike = 0 then none else some (.bikeDocked t)
    | none => none
  | 0x12 => (nonzero (natAt l 0 4)).map .bikeRemoved
  | 0x13 => (nonzero (natAt l 0 4)).map .relocked
  | 0x14 => some .faultButton
  | 0x15 =>
    if kind = .dock then
      match tagOf l with
      | some t => some (.presentDock (if t.bike = 0 then none else some t))
      | none => none
    else some (.presentReady (readyOf (l.headD 0#8)))
  | 0x18 => some .lockFault
  | 0x19 => some .readerFault
  | 0x1A => (contactOf (natAt l 0 1)).map .contactResult
  | 0x1B => some .chargeFault
  | 0x1C =>
    let n := natAt l 0 1
    some (.selfTest (n.testBit 0) (n.testBit 1) (n.testBit 2) (n.testBit 3))
  | 0x20 => some (.saleRequest (natAt l 0 1))
  | 0x21 =>
    let r (o : PayOutcome) : EventBody :=
      .saleResult { ref := natAt l 0 2, outcome := o, token := natAt l 3 4, approval := natAt l 7 8 }
    match natAt l 2 1 with
    | 0 => some (r .approved)
    | 1 => some (r .declined)
    | 2 => some (r .aborted)
    | _ => none
  | 0x28 => some (.terminalFault (min 31 (natAt l 0 1)))
  | 0x30 => (nonzero (natAt l 4 4)).map (fun op => .vanArrive (natAt l 0 4) op)
  | 0x31 => some .vanDepart
  | _ => some .other

/-- The drop kind that table 2-1 names for a code, with none for a code that no unit consumes (R30). -/
def codeReportedBy (code : Nat) : Option DropKind :=
  match code with
  | 0x10 => some .dock
  | 0x11 => some .dock
  | 0x12 => some .dock
  | 0x13 => some .dock
  | 0x14 => some .dock
  | 0x18 => some .dock
  | 0x19 => some .dock
  | 0x1A => some .dock
  | 0x1B => some .dock
  | 0x1C => some .dock
  | 0x20 => some .pay
  | 0x21 => some .pay
  | 0x28 => some .pay
  | 0x30 => some .vanpoint
  | 0x31 => some .vanpoint
  | _ => none

/-! ### What a drop sends: checking a reply (R10, R202) -/

/-- The case under which a failed check is counted (R3). -/
inductive FrameError where
  | uncorrectable | badCrc | wrongAddress | wrongKind | noReply
deriving DecidableEq, Repr

/-- What a STATUS from a DOCK says (table 1-7). -/
structure DockStatus where
  lock    : LockState
  contact : Contact
  gate    : Gate
  bike    : Option Nat
  battery : Option Nat
deriving DecidableEq, Repr

/-- A good reply (R9, R202). -/
inductive Reply where
  | dockStatus (st : DockStatus) (waiting : Nat)
  | readyStatus (r : Ready) (waiting : Nat)
  | event (number code waiting : Nat) (fields : List Byte)
  | answer (o : CmdOutcome)
deriving DecidableEq, Repr

/-- The outcome of a received frame: whether its header was CORRECTED, and the reply or the error counted (table 1-6). -/
structure Checked where
  corrected : Bool
  result    : Except FrameError Reply

/-- A STATUS from a DOCK: seven bytes, the contact not 3 (table 11-2, R202). -/
def readDockStatus (l : List Byte) : Except FrameError Reply :=
  let b := natAt l 0 1
  match contactOf (b / 2 % 4) with
  | none => .error .wrongKind
  | some c =>
    if l.length = 7 then
      .ok (.dockStatus
        { lock := if b.testBit 0 then .opened else .locked, contact := c
          gate := if b.testBit 3 then .closed else .opened, bike := nonzero (natAt l 1 4)
          battery := batteryOf (natAt l 5 1) }
        (natAt l 6 1))
    else .error .wrongKind

/-- A STATUS from a PAY or VANPOINT: two bytes (table 11-2). -/
def readReadyStatus (l : List Byte) : Except FrameError Reply :=
  if l.length = 2 then .ok (.readyStatus (readyOf (l.headD 0#8)) (natAt l 1 1)) else .error .wrongKind

/-- An EVENT: three leading bytes, then the length of its code; no event number 0 and no code above 0x3F (R202). -/
def readEvent (kind : DropKind) (l : List Byte) : Except FrameError Reply :=
  let number := natAt l 0 1
  let code := natAt l 1 1
  if l.length < 3 ∨ number = 0 ∨ 64 ≤ code then .error .wrongKind
  else
    match eventLength code kind with
    | none => .ok (.event number code (natAt l 2 1) (l.drop 3))
    | some n => if l.length = n + 3 then .ok (.event number code (natAt l 2 1) (l.drop 3)) else .error .wrongKind

/-- An ANSWER: one byte; a result above 3 is NAK BUSY (table 11-2, R202). -/
def readAnswer (l : List Byte) : Except FrameError Reply :=
  if l.length = 1 then
    .ok (.answer
      (match natAt l 0 1 with
       | 0 => .ack
       | 1 => .nak .jammed
       | 2 => .nak .noTag
       | _ => .nak .busy))
  else .error .wrongKind

/-- Whether an exchange is a POLL, which STATUS or EVENT answers; every other is answered by ANSWER (R9). -/
def ExchangeFor.isPoll : ExchangeFor → Bool
  | .poll _ => true
  | _ => false

/-- Check 5 of table 1-6, with the encodings of R202: the reply of a frame kind and payload in an exchange with a drop of
kind `kind`, `none` where the address holds no drop any more: such a reply to a POLL is of the wrong kind. DESIGN CHOICE, log
54. -/
def readReply (kind : Option DropKind) (purpose : ExchangeFor) (frameKind : Nat) (l : List Byte) :
    Except FrameError Reply :=
  match frameKind, purpose.isPoll, kind with
  | 2, true, some .dock => readDockStatus l
  | 2, true, some _ => readReadyStatus l
  | 3, true, some k => readEvent k l
  | 5, false, _ => readAnswer l
  | _, _, _ => .error .wrongKind

/-- Checks 2 to 5 of table 1-6 on a repaired header (R10). A frame with another number of payload bytes than a header length
of at most 40 counts BAD CRC. DEDUCED, log 67. -/
def checkBody (kind : Option DropKind) (x : Exchange) (h : BitVec 24) (f : BusFrame) : Except FrameError Reply :=
  if 40 < headerLength h then .error .wrongKind
  else if f.payload.length ≠ headerLength h ∨ crc16 (headerBytes h ++ f.payload) ≠ f.crc then .error .badCrc
  else if headerAddr h ≠ x.addr.val then .error .wrongAddress
  else readReply kind x.purpose (headerKind h) f.payload

/-- The checks of table 1-6 on a received frame, stopping at the first that fails (R10). -/
def checkFrame (kind : Option DropKind) (x : Exchange) (f : BusFrame) : Checked :=
  match headerCheck f.header with
  | .clean => ⟨false, checkBody kind x f.header f⟩
  | .corrected h => ⟨true, checkBody kind x h f⟩
  | .uncorrectable => ⟨false, .error .uncorrectable⟩

/-! ### Journal records as central receives them (11.5) -/

/-- The flags of a HIRE END as a 16-bit number (table 11-8). -/
def hireEndFlagsCode (f : HireEndFlags) : Nat :=
  f.short.toNat + 2 * f.overdue.toNat + 4 * f.clockSkew.toNat + 8 * f.noRecord.toNat + 16 * f.timeInvalid.toNat
    + 32 * f.islanded.toNat + 64 * f.lateReport.toNat + 128 * f.classSubstituted.toNat + 256 * f.noTariff.toNat
    + 512 * f.repeated.toNat

/-- The 44 bytes of a HIRE END's fields (table 11-8). -/
def hireEndBytes (h : HireEnd) : List Byte :=
  beBytes 4 h.number ++ beBytes 1 (mediumCode h.medium) ++ beBytes 4 h.bike ++ beBytes 1 (kindCode h.kind)
    ++ beBytes 1 (h.pos.val + 1) ++ beBytes 4 h.start ++ beBytes 2 h.station ++ beBytes 4 h.stop
    ++ beBytes 1 (flagsCode h.grant) ++ beBytes 1 h.tokenClass
    ++ (match h.classUsed with
        | some c => beBytes 1 c
        | none => [Config.noClassByte])
    ++ beBytes 2 h.minutes ++ beBytes 2 h.bandSum ++ beBytes 2 h.unlockFee ++ beBytes 2 h.rewardUsed
    ++ beBytes 2 h.rewardEarned ++ beBytes 2 h.capReduction ++ beBytes 2 h.charge
    ++ beBytes 4 (h.repeatedSeq.getD 0) ++ beBytes 2 (hireEndFlagsCode h.flags)

/-- The code of a hold (table 11-9). -/
def holdCode : Hold → Nat
  | .none => 0
  | .quarantine => 1
  | .chargeHold => 2

/-- The code of a close cause (table 11-9). -/
def causeCode : CloseCause → Nat
  | .depart => 0
  | .expired => 1
  | .maintenance => 2
  | .restart => 3
  | .vanpointLost => 4

/-- Unmet counts as a frame carries them: 255 each for an AD HOC visit (R203). -/
def unmetCounts : Option PerKind → PerKind
  | some c => c
  | none => ⟨255, 255, 255⟩

/-- The three bytes of unmet counts (table 11-9). -/
def unmetBytes (c : Option PerKind) : List Byte :=
  beBytes 1 (unmetCounts c).classic ++ beBytes 1 (unmetCounts c).electric ++ beBytes 1 (unmetCounts c).cargo

/-- A load list entry (table 11-9). -/
def loadEntryBytes (e : LoadEntry) : List Byte :=
  beBytes 4 e.bike
    ++ beBytes 1 (kindCode e.kind + 4 * holdCode e.hold + 16 * e.unconfirmed.toNat + 32 * e.despiteCancel.toNat)
    ++ beBytes 1 (e.pos.val + 1)

/-- A drop list entry (table 11-9). -/
def dropEntryBytes (e : DropListEntry) : List Byte :=
  beBytes 4 e.bike ++ beBytes 1 (kindCode e.kind + 4 * holdCode e.hold) ++ beBytes 1 (e.pos.val + 1) ++ beBytes 4 e.time

/-- The bytes of a VAN VISIT's fields (table 11-9). -/
def vanVisitBytes (v : VanVisit) : List Byte :=
  beBytes 2 (v.order.getD 0) ++ beBytes 2 v.serial ++ beBytes 4 v.van ++ beBytes 4 v.operator ++ beBytes 4 v.arrival
    ++ beBytes 4 v.closedAt ++ beBytes 1 (causeCode v.cause) ++ unmetBytes v.unmetDrops ++ unmetBytes v.unmetPickups
    ++ beBytes 1 v.inFlight ++ beBytes 1 v.load.length ++ beBytes 1 v.dropList.length
    ++ v.load.flatMap loadEntryBytes ++ v.dropList.flatMap dropEntryBytes

/-- The code of a record kind (11.5). -/
def recordCode : JournalBody → Nat
  | .hireStart _ => 1
  | .hireEnd _ => 2
  | .fareWaived _ => 3
  | .sale _ _ => 4
  | .saleLapsed _ _ => 5
  | .orphanSale _ _ _ => 6
  | .vanVisit _ => 7
  | .arrival _ _ _ _ => 8
  | .vanished _ _ _ => 8
  | .takenByStaff _ _ _ _ _ _ => 8

/-- The row of table 9-1 of a record, counted from 0 (R174). -/
def recordRow : JournalBody → Fin 10
  | .hireStart _ => 0
  | .hireEnd _ => 1
  | .fareWaived _ => 2
  | .sale _ _ => 3
  | .saleLapsed _ _ => 4
  | .orphanSale _ _ _ => 5
  | .vanVisit _ => 6
  | .arrival _ _ _ _ => 7
  | .vanished _ _ _ => 8
  | .takenByStaff _ _ _ _ _ _ => 9

/-- A field of a record whose layout 11.5 does not give (log 10). -/
inductive RecordField where
  /-- A number, or a value whose code chapter 11 gives wherever it appears. -/
  | number (n : Nat)
  /-- A value that the spec gives no code; `n` tells its values apart. -/
  | coded (n : Nat)
  /-- A field that the record does not carry: it takes no bytes. -/
  | absent
deriving DecidableEq, Repr

/-- The fields of a HIRE START, in the order of R86. -/
def hireStartFields (h : HireStart) : List RecordField :=
  [.number h.number, .number (mediumCode h.medium), .number h.bike, .number (kindCode h.kind), .number (h.pos.val + 1)
    , .number h.grantTime, .number h.stamp, .number h.cls, .coded (flagsCode h.flags), .coded h.unconfirmed.toNat
    , .coded h.despiteCancel.toNat]

/-- The fields of a FARE WAIVED, in the order of R131. -/
def fareWaivedFields (w : FareWaived) : List RecordField :=
  [match w.seq with
    | some n => .number n
    | none => .coded 0
   , .number w.number, .number (mediumCode w.medium), .number w.bike, .number (w.pos.val + 1), .number w.amount
   , .number w.rewardRestored, .coded w.dayReduced.toNat, .number w.stamp, .coded w.noRecord.toNat]

/-- A drop as a number that tells it from every other. -/
def dropCode (d : Drop) : Nat :=
  match d.seg with
  | .A => d.addr.val
  | .B => 32 + d.addr.val

/-- What every sale record names, in the order of table 5-6. -/
def saleTermsFields (t : SaleTerms) : List RecordField :=
  [.coded (dropCode t.terminal), .number t.ref, .number t.kind, .number t.price, .number t.offerTime]

/-- The valid until that an outcome carries (table 5-6). -/
def SaleOutcome.validUntil : SaleOutcome → RecordField
  | .new n => .number n
  | .extended n => .number n
  | .noPass => .absent

/-- An outcome of a sale as a number that tells it from the others. -/
def SaleOutcome.code : SaleOutcome → Nat
  | .new _ => 0
  | .extended _ => 1
  | .noPass => 2

/-- What a SALE and an ORPHAN SALE carry of the result before the cause and the stamp, in the order of table 5-6. -/
def saleApprovalFields (a : SaleApproval) : List RecordField :=
  [.number a.token, .number a.approval, .coded a.outcome.code, a.outcome.validUntil]

/-- The fields of a STOCK ADJUST, in the order of the text under table 9-1: the adjustment kind, the bike, its kind and the
position, then the operator's card, the visit serial and the flag UNCONFIRMED where the record carries them. -/
def adjustFields (adjust bike : Nat) (kind : BikeKind) (pos : DockPos) (operator serial unconfirmed : RecordField) :
    List RecordField :=
  [.coded adjust, .number bike, .number (kindCode kind), .number (pos.val + 1), operator, serial, unconfirmed]

/-- The fields of a record whose layout 11.5 does not give, in the order of its rule (R172); HIRE END and VAN VISIT have
theirs from tables 11-8 and 11-9. -/
def recordFields : JournalBody → List RecordField
  | .hireStart h => hireStartFields h
  | .hireEnd _ => []
  | .fareWaived w => fareWaivedFields w
  | .sale t a => saleTermsFields t ++ saleApprovalFields a ++ [.number a.stamp]
  | .saleLapsed t byRestart => saleTermsFields t ++ [.coded byRestart.toNat]
  | .orphanSale t a unanswered =>
    saleTermsFields t ++ saleApprovalFields a ++ [.coded unanswered.toNat, .number a.stamp]
  | .vanVisit _ => []
  | .arrival bike kind pos serial =>
    adjustFields 0 bike kind pos .absent
      (match serial with
       | some n => .number n
       | none => .absent) .absent
  | .vanished bike kind pos => adjustFields 1 bike kind pos .absent .absent .absent
  | .takenByStaff bike kind pos operator serial unconfirmed =>
    adjustFields 2 bike kind pos (.number operator) (.number serial) (.coded unconfirmed.toNat)

/-- The bytes of one field at a place of a record of a kind code: most significant first, in a width, and for a coded value
by a code, that are free values (log 10). -/
def recordFieldBytes (kind place : Nat) : RecordField → List Byte
  | .number n => beBytes (Config.fieldWidth kind place).val n
  | .coded n => beBytes (Config.fieldWidth kind place).val (Config.fieldCode kind place n)
  | .absent => []

/-- The bytes of a record's fields: tables 11-8 and 11-9 where they give them, and elsewhere its fields in the order of
their rule (R172, 11.5, log 10). -/
def fieldBytes : JournalBody → List Byte
  | .hireEnd h => hireEndBytes h
  | .vanVisit v => vanVisitBytes v
  | b => (recordFields b).zipIdx.flatMap fun x => recordFieldBytes (recordCode b) x.2 x.1

/-- The bytes a record takes in a JOURNAL DATA body: an 11-byte opening and its fields (11.5). -/
def recordBytes (r : JournalRec) : Nat := 11 + (fieldBytes r.body).length

/-- A record as central receives it: the opening and the fields (11.5). -/
def recordWire (r : JournalRec) : List Byte :=
  beBytes 4 r.seq ++ beBytes 1 (recordCode r.body) ++ beBytes 4 r.time ++ beBytes 2 (fieldBytes r.body).length
    ++ fieldBytes r.body

/-- The state byte of a JOURNAL DATA (11.5). -/
def journalStateCode (d : JournalShown) : Nat :=
  (match d.level with
   | .normal => 0
   | .restricted => 1
   | .closed => 2)
    + 4 * d.coldStart.toNat + 8 * d.held.isNone.toNat + 16 * (decide (4294967295 < d.next)).toNat + 32 * d.range.toNat

/-- The 16 bytes that open a JOURNAL DATA body (11.5). -/
def journalHead (d : JournalShown) : List Byte :=
  beBytes 2 d.tag
    ++ (match d.held with
        | some (lo, hi) => beBytes 4 lo ++ beBytes 4 hi
        | none => List.replicate 8 0#8)
    ++ beBytes 4 (if 4294967295 < d.next then 0 else d.next) ++ beBytes 1 (journalStateCode d)
    ++ beBytes 1 d.records.length

/-- The body of a JOURNAL DATA (11.5, R203). -/
def journalBody (d : JournalShown) : List Byte := journalHead d ++ d.records.flatMap recordWire

end Sys2Proof.Machine
end

