-- ==== Sys2Proof/Machine/Flags.lean ====
section
/-! DEFINITION. What the block computes from its records: service, stock counts and flags (R47), fault standings (R160,
R161, R162), eligibility to charge (R54), the journal level (R178), readiness (R191), classifier matches (R25, R26). -/

namespace Sys2Proof.Machine

open Sys2Proof

/-! ### Service (R35, R161) -/

/-- How strict a service is. -/
def serviceRank : Service → Nat
  | .inService => 0
  | .noRelease => 1
  | .outOfService => 2

/-- The stricter of two services (R35). -/
def stricter (a b : Service) : Service := if serviceRank a < serviceRank b then b else a

/-- The service of a dock: the stricter of its two service fields (R35). -/
def DockRec.service (d : DockRec) : Service := stricter d.svcCentral d.svcFaults

/-! ### Stock counts and flags (R47) -/

/-- Whether a record counts in releasable(k) (R47). -/
def DockRec.countsFor (d : DockRec) (k : BikeKind) : Bool :=
  match d.state, d.bike with
  | .occupied, some b => b.kind == k && b.hold == .none && !b.pickup && d.service == .inService
  | _, _ => false

/-- releasable(k) (R47). -/
def Stock.releasable (st : Stock) (k : BikeKind) : Nat := st.docks.toList.countP (fun d => d.countsFor k)

/-- WANTED(k) (R47). -/
def Stock.wanted (st : Stock) (k : BikeKind) : Bool := decide (st.releasable k < perKind st.low k)

/-- SURPLUS(k) (R47). -/
def Stock.surplus (st : Stock) (k : BikeKind) : Bool := decide (perKind st.high k < st.releasable k)

/-- The six flags (R47). -/
def Stock.flags (st : Stock) : StockFlags :=
  { wantedClassic := st.wanted .classic, wantedElectric := st.wanted .electric, wantedCargo := st.wanted .cargo
    surplusClassic := st.surplus .classic, surplusElectric := st.surplus .electric, surplusCargo := st.surplus .cargo }

/-- The three counts (R47). -/
def Stock.counts (st : Stock) : PerKind :=
  ⟨st.releasable .classic, st.releasable .electric, st.releasable .cargo⟩

/-- The settling of records that may hold a docked bike: OCCUPIED and RELEASING (R154, R160). -/
def DockRec.docked (d : DockRec) : Option Bike :=
  match d.state with
  | .occupied => d.bike
  | .releasing => d.bike
  | _ => none

/-- Whether a record is OCCUPIED or RELEASING with a bike of this identifier. -/
def DockRec.holds (d : DockRec) (id : Nat) : Bool :=
  match d.docked with
  | some b => b.id == id
  | none => false

/-- The position whose OCCUPIED or RELEASING record holds a bike (R160). -/
def State.dockOfBike (s : State) (id : Nat) : Option DockPos := positions.find? (fun p => (s.dock p).holds id)

/-- Whether a record is EMPTY with gate OPEN, service IN SERVICE and no drop reservation (R59, R60, R139). -/
def DockRec.canReserve (d : DockRec) : Bool :=
  d.state == .empty && d.gate == .opened && d.service == .inService && !d.vanDrop

/-! ### Fault standings (R155, R160, R161, R162) -/

/-- Whether a record is uncleared (R155). -/
def FaultRec.uncleared (f : FaultRec) : Bool := f.state == .opened || f.state == .notified

/-- Whether a severity is MAJOR or above. -/
def atLeastMajor (v : Severity) : Bool := v != .minor

/-- The actions the policy in force gives a code (R156). -/
def FaultUnit.actions (u : FaultUnit) (code : Fin 48) : FaultActions := (u.policy[code]).actions

/-- A bike's quarantine standing (R160). -/
def FaultUnit.quarantined (u : FaultUnit) (bike : Nat) : Bool :=
  u.log.any (fun f => f.uncleared && f.subject == .bike bike && atLeastMajor f.severity && (u.actions f.code).quarantine)

/-- Whether any uncleared record stands against a bike (R43, R160). -/
def FaultUnit.recorded (u : FaultUnit) (bike : Nat) : Bool :=
  u.log.any (fun f => f.uncleared && f.subject == .bike bike)

/-- Whether an uncleared record whose code carries NO CHARGE stands against a subject (R162). -/
def FaultUnit.noCharge (u : FaultUnit) (x : Subject) : Bool :=
  u.log.any (fun f => f.uncleared && f.subject == x && (u.actions f.code).noCharge)

/-- The service that actions give at a severity (table of R161). -/
def serviceGiven (a : FaultActions) (v : Severity) : Service :=
  if a.outOfService then .outOfService
  else if a.noRelease then (if v = .critical then .outOfService else .noRelease)
  else .inService

/-- A dock's service by faults from the stored records: the strictest given (R161). -/
def FaultUnit.serviceOf (u : FaultUnit) (p : DockPos) : Service :=
  u.log.foldl
    (fun a f => if f.uncleared && f.subject == .dock p then stricter a (serviceGiven (u.actions f.code) f.severity) else a)
    .inService

/-! ### Eligibility to charge (R54) -/

/-- Whether the battery of a bike lets its dock charge: below the charge full level, or for a FULL dock at or below that
level less 10 (R54). -/
def chargeNeeded (full : Nat) (c : ChargeState) (battery : Nat) : Bool :=
  if c = .full then decide (battery + 10 ≤ full) else decide (battery < full)

/-- Eligibility to charge (R54). -/
def State.eligible (s : State) (p : DockPos) : Bool :=
  let d := s.dock p
  match d.state, d.bike with
  | .occupied, some b =>
    b.kind == .electric && b.contact == .good && chargeNeeded s.trunk.settings.chargeFull d.charge (b.battery.getD 0)
      && !d.barred && !s.fault.noCharge (.dock p) && !s.fault.noCharge (.bike b.id)
  | _, _ => false

/-- The battery of the bike at a position, 0 where there is none. -/
def State.batteryAt (s : State) (p : DockPos) : Nat :=
  match (s.dock p).bike with
  | some b => b.battery.getD 0
  | none => 0

/-- The docked-at time of the bike at a position, 0 where there is none. -/
def State.dockedAt (s : State) (p : DockPos) : Nat :=
  match (s.dock p).bike with
  | some b => b.dockedAt
  | none => 0

/-- The order of the wait list: battery, then docked-at time, then position (R54). -/
def State.chargesBefore (s : State) (p q : DockPos) : Bool :=
  if s.batteryAt p ≠ s.batteryAt q then decide (s.batteryAt p < s.batteryAt q)
  else if s.dockedAt p ≠ s.dockedAt q then decide (s.dockedAt p < s.dockedAt q)
  else decide (p.val < q.val)

/-! ### The journal level (R178, R181) -/

/-- The most records the journal holds (R172). -/
def journalRoom : Nat := 1024

/-- The free count (R172). -/
def Journal.free (j : Journal) : Nat := journalRoom - j.records.length

/-- The level that table 9-2 names for a present level and a free count. -/
def nextLevel (l : Level) (free : Nat) : Level :=
  match l with
  | .normal => if free < 96 then .closed else if free < 192 then .restricted else .normal
  | .restricted => if free < 96 then .closed else if free < 256 then .restricted else .normal
  | .closed => if free < 128 then .closed else if free < 256 then .restricted else .normal

/-- The level after a power-on that kept the journal, from the free count alone (R181). -/
def levelAtPowerOn (free : Nat) : Level := if free < 128 then .closed else if free < 256 then .restricted else .normal

/-- The held range (R172). -/
def Journal.range (j : Journal) : Option (Nat × Nat) :=
  match j.records.head?, j.records.getLast? with
  | some a, some b => some (a.seq, b.seq)
  | _, _ => none

/-! ### Readiness (R191) -/

/-- The conditions of readiness that fail (R191). -/
def State.notReady (s : State) : NotReady :=
  { noDropTable := addresses.all (fun a => s.engA.entries[a] == .none && s.engB.entries[a] == .none)
    noTariff := (s.hire.tariffs[(0 : Fin 8)]).isNone
    noTime := !s.trunk.timeValid
    noStation := s.trunk.station == 0 }

/-- Whether the station is ready (R191). -/
def State.ready (s : State) : Bool := s.notReady == ⟨false, false, false, false⟩

/-! ### Classifier matches (R25, R26) -/

/-- The code match (R26). -/
def codeMatches (t : MatchType) (first second code : Nat) : Bool :=
  match t with
  | .range => decide (first ≤ code ∧ code ≤ second)
  | .pair => code == first || code == second
  | .mask => (code &&& first) == second

/-- Whether a kind of drop is in a rule's set. -/
def kindSetHas (k : KindSet) : DropKind → Bool
  | .dock => k.dock
  | .pay => k.pay
  | .vanpoint => k.vanpoint

/-- Whether a rule matches an event (R25). -/
def Rule.takes (r : Rule) (d : Drop) (kind : DropKind) (code : Nat) : Bool :=
  r.enabled
    && (match r.seg with
        | .any => true
        | .only g => g == d.seg)
    && decide (r.lo ≤ d.addr.val + 1 ∧ d.addr.val + 1 ≤ r.hi) && kindSetHas r.kinds kind
    && codeMatches r.type r.first r.second code

/-- The first rule in index order that matches an event (R27). -/
def Classifier.deciding (c : Classifier) (d : Drop) (kind : DropKind) (code : Nat) : Option (Fin 32) :=
  (List.finRange 32).find? (fun i => (c.rules[i]).takes d kind code)

/-! ### Expiry and in flight -/

/-- Whether a card is expired (R65). -/
def State.cardExpired (s : State) (c : CardRec) : Bool :=
  match c.expiry with
  | some e => decide (e < s.dayOf s.now)
  | none => false

/-- Whether a pass is expired (R67). -/
def State.passExpired (s : State) (p : PassRec) : Bool := decide (p.validUntil ≤ s.now)

/-- Whether a pass has a release in flight (R68, R69). -/
def State.passInFlight (s : State) (p : PassRec) : Bool :=
  match p.token with
  | some t => s.inFlight t .token
  | none => false

/-- Whether an expired pass may be reclaimed: ACTIVE, expired, nothing out, no release in flight (R68, R69). -/
def State.reclaimable (s : State) (p : PassRec) : Bool :=
  p.token.isSome && s.passExpired p && p.outCount == 0 && !s.passInFlight p

end Sys2Proof.Machine
end

