-- ==== Sys2Proof/Machine/Counting.lean ====
section
/-! DEFINITION. What the Stock Unit does at the end of each event, request or load (R47), the return gates (R61, R62), and
the append to the journal with the level it moves (R173, R174, R178, R179). -/

namespace Sys2Proof.Machine

open Sys2Proof

/-- State with the Stock Unit changed. -/
def State.modStock (s : State) (f : Stock → Stock) : State := { s with stock := f s.stock }

/-- State with the Journal Unit replaced. -/
def State.setJournal (s : State) (j : Journal) : State := { s with journal := j }

/-! ### Counts and the STOCK NOTICE (R47) -/

/-- A STOCK NOTICE is offered when the flags differ from those last notified and the trunk is CONNECTED (R47). -/
def State.recount (s : State) : State :=
  if s.trunk.connected = true ∧ s.stock.flags ≠ s.stock.notified then
    let r := s.trunk.offer (.stockNotice s.stock.flags s.stock.counts)
    { s with
      trunk := r.1
      stock := { s.stock with notified := if r.2 then s.stock.flags else s.stock.notified } }
  else s

/-- The counts and flags are computed afresh, and compared with the flags last notified (R47, R64). -/
def State.countAfresh (s : State) : State := (s.modStock fun st => { st with computed := st.flags }).recount

/-- The Stock Unit has finished with an event, a request or a load (R47): a change in one or more of the six flags is
compared with the flags last notified, and no change of any flag makes no notice. DEDUCED, log 25. -/
def stockDone (s : State) : State := if s.stock.flags = s.stock.computed then s else s.countAfresh

/-! ### Return gates (R61, R62) -/

/-- The gate the unit decides for a dock (R61). -/
def State.gateFor (s : State) (p : DockPos) : Gate :=
  if (s.dock p).state = .empty ∧ (s.journal.level = .closed ∨ (s.dock p).service = .outOfService) then .closed
  else .opened

/-- A gate is set at the decision and SET GATE is submitted (R61). -/
def setGate (k : Kont) (p : DockPos) (g : Gate) (s : State) : State :=
  submitAt k p (.setGate g) (.gate p) (s.modDock p fun d => { d with gate := g, gatePending := true })

/-- The gate of an EMPTY record is decided, and set where it differs (R61). -/
def decideGate (k : Kont) (p : DockPos) (s : State) : State :=
  if s.gateFor p = (s.dock p).gate then s else setGate k p (s.gateFor p) s

/-- The journal level becomes CLOSED: the gate of one EMPTY record that is OPEN is closed (R61). -/
def closeGate (k : Kont) (s : State) (p : DockPos) : State :=
  if (s.dock p).state = .empty ∧ (s.dock p).gate = .opened then setGate k p .closed s else s

/-- The journal level leaves CLOSED: the gate of one record with a drop is opened, but for an EMPTY one OUT OF SERVICE
(R61). -/
def openGate (k : Kont) (s : State) (p : DockPos) : State :=
  if (s.dropAt p).isNone ∨ ((s.dock p).state = .empty ∧ (s.dock p).service = .outOfService) then s
  else setGate k p .opened s

/-- The Stock Unit is told of a move of the journal level into or out of CLOSED (R61, R179). The gates are set in ascending
position. DESIGN CHOICE, log 60. -/
def tellLevel (k : Kont) (old : Level) (s : State) : State :=
  if old ≠ .closed ∧ s.journal.level = .closed then stockDone (positions.foldl (closeGate k) s)
  else if old = .closed ∧ s.journal.level ≠ .closed then stockDone (positions.foldl (openGate k) s)
  else s

/-- The outcome of a SET GATE clears the gate command pending mark (R62). -/
def gateOutcome (p : DockPos) (s : State) : State :=
  stockDone (s.modDock p fun d => { d with gatePending := false })

/-! ### The settlement journal (R172 to R178) -/

/-- The largest sequence number (R172). -/
def lastSeq : Nat := 4294967295

/-- Whether the journal can take a record (R174). -/
def Journal.canTake (j : Journal) : Bool := decide (j.records.length < journalRoom) && decide (j.next ≤ lastSeq)

/-- A record joins the journal, or is refused and counted (R173 steps 1 and 2, R174). -/
def Journal.add (j : Journal) (now : Nat) (b : JournalBody) : Journal :=
  if j.canTake then { j with records := j.records ++ [{ seq := j.next, time := now, body := b }], next := j.next + 1 }
  else { j with refused := j.refused.set (recordRow b) (bump16 j.refused[recordRow b]) }

/-- The journal level is evaluated (R178). -/
def Journal.evaluate (j : Journal) : Journal := { j with level := nextLevel j.level j.free }

/-- The journal is replaced by one whose level has been evaluated, and the Stock Unit is told (R178, R179). -/
def journalMoves (k : Kont) (j : Journal) (s : State) : State :=
  tellLevel k s.journal.level (s.setJournal j.evaluate)

/-- An append, taken whole (R173). -/
def append (k : Kont) (b : JournalBody) (s : State) : State := journalMoves k (s.journal.add s.now b) s

/-- The sequence number an append would now be given; none where it would be refused (R173, R174). -/
def State.nextSeq (s : State) : Option Nat := if s.journal.canTake then some s.journal.next else none

end Sys2Proof.Machine
end

