-- ==== Sys2Proof/Machine/Charging.lean ====
section
/-! DEFINITION. Charging and holds of the Stock Unit: the wait list and the charging list (R54, R55, R56), holds by battery
(R46), contact (R58) and the charging settings (R57). -/

namespace Sys2Proof.Machine

open Sys2Proof

/-! ### Holds by battery (R46) -/

/-- Whether a bike is ELECTRIC with a battery below the ride minimum level. -/
def belowRideMin (st : Settings) (b : Bike) : Bool :=
  match b.kind, b.battery with
  | .electric, some n => decide (n < st.rideMin)
  | _, _ => false

/-- The hold of a bike after a battery update (R46). -/
def holdAfterBattery (st : Settings) (b : Bike) : Hold :=
  match b.hold, b.kind, b.battery with
  | .none, .electric, some n => if n < st.rideMin then .chargeHold else .none
  | .chargeHold, .electric, some n => if st.resume ≤ n then .none else .chargeHold
  | h, _, _ => h

/-- The bike of a record changed, where it has one. -/
def State.modBike (s : State) (p : DockPos) (f : Bike → Bike) : State :=
  s.modDock p fun d => { d with bike := d.bike.map f }

/-- The hold at a position is evaluated again from the bike's battery (R46). -/
def holdAgain (p : DockPos) (s : State) : State :=
  s.modBike p fun b => { b with hold := holdAfterBattery s.trunk.settings b }

/-! ### The two lists (R54, R55) -/

/-- A dock put in its ordered place (R54). -/
def waitInsert (before : DockPos → DockPos → Bool) (p : DockPos) : List DockPos → List DockPos
  | [] => [p]
  | q :: qs => if before p q then p :: q :: qs else q :: waitInsert before p qs

/-- A dock joins the wait list, WAITING, in its place (R54). -/
def joinWait (p : DockPos) (s : State) : State :=
  (s.modDock p fun d => { d with charge := .waiting }).modStock fun st =>
    { st with waitList := waitInsert s.chargesBefore p (st.waitList.erase p) }

/-- A dock leaves the wait list and becomes NOT CHARGING (R54, R56). -/
def leaveWait (p : DockPos) (s : State) : State :=
  (s.modDock p fun d => { d with charge := .notCharging }).modStock fun st => { st with waitList := st.waitList.erase p }

/-- The head of the wait list is granted a slot (R55). -/
def grantHead (k : Kont) (p : DockPos) (s : State) : State :=
  let tag := ((s.dock p).grantTag + 1) % 256
  let s := s.modStock fun st => { st with waitList := st.waitList.erase p, chargingList := st.chargingList ++ [p] }
  let s := s.modDock p fun d => { d with charge := .charging, grantTag := tag, offOwed := false }
  submitAt k p (.chargeOn tag) (.chargeOn p tag) s

/-- Grants repeat until the count equals S or the wait list is empty (R55); each grant takes one of at most 60 docks off
the list, which bounds the repetition. -/
def grantUpTo (k : Kont) : Nat → State → State
  | 0, s => s
  | n + 1, s =>
    match s.stock.waitList with
    | [] => s
    | p :: _ =>
      if s.stock.chargingList.length < s.trunk.settings.chargeSlots then grantUpTo k n (grantHead k p s) else s

/-- The slots below S are granted (R55). -/
def grant (k : Kont) (s : State) : State := grantUpTo k 60 s

/-! ### The end of a charge (R56) -/

/-- The charger off owed mark is set, and, unless the drop is LOST, CHARGE OFF is submitted (R55, R56). -/
def oweChargeOff (k : Kont) (p : DockPos) (s : State) : State :=
  if s.dockDropLost p then s.modDock p fun d => { d with offOwed := true }
  else submitAt k p .chargeOff (.chargeOff p) (s.modDock p fun d => { d with offOwed := true, offPending := true })

/-- A CHARGING dock leaves the charging list for a new charge state, NOT CHARGING or FULL. -/
def leaveCharging (p : DockPos) (c : ChargeState) (s : State) : State :=
  (s.modDock p fun d => { d with charge := c }).modStock fun st => { st with chargingList := st.chargingList.erase p }

/-- A charge ends NOT CHARGING or FULL; the grants that follow are the caller's (R56). -/
def endCharge (k : Kont) (p : DockPos) (c : ChargeState) (s : State) : State :=
  oweChargeOff k p (leaveCharging p c s)

/-- A demotion: the dock becomes WAITING, back in the wait list (R56, R57). -/
def demote (k : Kont) (p : DockPos) (s : State) : State :=
  oweChargeOff k p (joinWait p (leaveCharging p .notCharging s))

/-- A dock leaves either list for a cause of the last row of R56's table: it becomes NOT CHARGING. DEDUCED, log 18. -/
def leaveLists (k : Kont) (p : DockPos) (s : State) : State :=
  match (s.dock p).charge with
  | .charging => grant k (endCharge k p .notCharging s)
  | .waiting => leaveWait p s
  | _ => s

/-- The charge state that a dock no longer eligible takes: FULL when its battery has reached the charge full level and
every other condition of R54 holds, else NOT CHARGING (R56). DEDUCED, log 19. -/
def State.endsFull (s : State) (p : DockPos) : Bool :=
  let d := s.dock p
  match d.state, d.bike with
  | .occupied, some b =>
    b.kind == .electric && b.contact == .good && decide (s.trunk.settings.chargeFull ≤ b.battery.getD 0) && !d.barred
      && !s.fault.noCharge (.dock p) && !s.fault.noCharge (.bike b.id)
  | _, _ => false

/-- Eligibility is evaluated again (R54, R56); `after` follows a slot given up and a dock that newly waits. -/
def chargeWith (after : State → State) (k : Kont) (p : DockPos) (s : State) : State :=
  match (s.dock p).charge, s.eligible p with
  | .charging, true => s
  | .charging, false => after (endCharge k p (if s.endsFull p then .full else .notCharging) s)
  | .waiting, true => joinWait p s
  | .waiting, false => leaveWait p s
  | _, true => after (joinWait p s)
  | _, false => s

/-- Eligibility is evaluated again, and a free slot is granted at once (R54, R55, R56). -/
def chargeAgain (k : Kont) (p : DockPos) (s : State) : State := chargeWith (grant k) k p s

/-- Hold and charging are evaluated again (R40, R41, R50). -/
def evaluateAgain (k : Kont) (p : DockPos) (s : State) : State := chargeAgain k p (holdAgain p s)

/-! ### Outcomes of CHARGE ON and CHARGE OFF (R55, R56) -/

/-- The MINOR "charge fault" is raised against a dock (table 8-1, code 3). -/
def raiseChargeFault (k : Kont) (p : DockPos) (s : State) : State := k (.raise (.dock p) 3) s

/-- The outcome of a CHARGE ON (R55). -/
def chargeOnOutcome (k : Kont) (p : DockPos) (tag : Nat) (o : CmdOutcome) (s : State) : State :=
  if o ≠ .ack ∧ (s.dock p).charge = .charging ∧ (s.dock p).grantTag = tag then
    let t := endCharge k p .notCharging s
    let t := raiseChargeFault k p (t.modDock p fun d => { d with barred := true })
    stockDone (grant k t)
  else s

/-- The outcome of a CHARGE OFF (R56). -/
def chargeOffOutcome (k : Kont) (p : DockPos) (o : CmdOutcome) (s : State) : State :=
  let t := s.modDock p fun d =>
    { d with offPending := false, offOwed := if o = .ack ∧ d.charge ≠ .charging then false else d.offOwed }
  let t :=
    match o with
    | .ack => t
    | .qFull => t
    | _ => if (t.dock p).charge = .charging then t else raiseChargeFault k p t
  stockDone t

/-- A good STATUS or a PRESENT submits CHARGE OFF again while it is owed, not pending, and the dock is not CHARGING
(R56). -/
def chargeOffAgain (k : Kont) (p : DockPos) (s : State) : State :=
  if (s.dock p).offOwed = true ∧ (s.dock p).offPending = false ∧ (s.dock p).charge ≠ .charging then
    submitAt k p .chargeOff (.chargeOff p) (s.modDock p fun d => { d with offPending := true })
  else s

/-! ### Contact (R58) -/

/-- A change of contact acts (R58): the "contact poor" fault is code 2 of table 8-1. -/
def contactChanged (k : Kont) (p : DockPos) (c : Contact) (s : State) : State :=
  match c with
  | .good => chargeAgain k p (s.modDock p fun d => { d with barred := false })
  | .poor => chargeAgain k p (k (.raise (.dock p) 2) s)
  | .none => chargeAgain k p s

/-- A contact is taken for the bike of a record: nothing follows where it is the contact the record holds (R58). -/
def takeContact (k : Kont) (p : DockPos) (c : Contact) (s : State) : State :=
  match (s.dock p).bike with
  | none => s
  | some b => if b.contact = c then s else contactChanged k p c (s.modBike p fun b => { b with contact := c })

/-- A CONTACT RESULT event (R58): discarded for a record that is not OCCUPIED; GOOD clears the charge barred mark even
when the contact was GOOD already. -/
def contactResult (k : Kont) (p : DockPos) (c : Contact) (s : State) : State :=
  if (s.dock p).state = .occupied then
    let t :=
      if c = .good ∧ (s.dock p).bike.any (fun b => b.contact == .good) then
        chargeAgain k p (s.modDock p fun d => { d with barred := false })
      else takeContact k p c s
    stockDone t
  else s

/-! ### The charging settings (R57) -/

/-- Whether two sets of settings agree in the four charging settings (table 3-1). -/
def sameCharging (a b : Settings) : Bool :=
  a.chargeSlots == b.chargeSlots && a.chargeFull == b.chargeFull && a.rideMin == b.rideMin && a.resume == b.resume

/-- R57 step (1) at one position: the hold of a docked ELECTRIC bike is evaluated again. -/
def settingsHold (s : State) (p : DockPos) : State := if (s.dock p).docked.isSome then holdAgain p s else s

/-- R57 step (2) at one position: no slot is granted before step (3). DEDUCED, log 65. -/
def settingsFull (k : Kont) (s : State) (p : DockPos) : State := chargeWith id k p s

/-- R57 step (3): demotions from the end of the charging list until the count is at most S; at most 60 docks stand there. -/
def demoteUpTo (k : Kont) : Nat → State → State
  | 0, s => s
  | n + 1, s =>
    match s.stock.chargingList.getLast? with
    | none => s
    | some p =>
      if s.trunk.settings.chargeSlots < s.stock.chargingList.length then demoteUpTo k n (demote k p s) else s

/-- The effects of a change of the charging settings, in order (R57). Within steps (1) and (2) the docks are taken in
ascending position. DESIGN CHOICE, log 69. -/
def chargingSettings (k : Kont) (s : State) : State :=
  let t := positions.foldl settingsHold s
  let t := positions.foldl (settingsFull k) t
  stockDone (grant k (demoteUpTo k 60 t))

end Sys2Proof.Machine
end

