-- ==== Sys2Proof/Machine/Reservations.lean ====
section
/-! DEFINITION. Reservations: how the Stock Unit places and removes them (R59, R60), and how the Van Unit keeps its visit in
step with the Stock Unit's reports (R139 to R143). -/

namespace Sys2Proof.Machine

open Sys2Proof

/-! ### Placing and removing (R59) -/

/-- Place drop reservation; the first part says whether it was granted (R59). -/
def placeDrop (p : DockPos) (s : State) : Bool × State :=
  if (s.dock p).canReserve then (true, stockDone (s.modDock p fun d => { d with vanDrop := true }))
  else (false, s)

/-- Place pickup reservation; the first part says whether it was granted (R59). -/
def placePickup (p : DockPos) (s : State) : Bool × State :=
  if (s.dock p).state = .occupied then
    (true, stockDone (s.modBike p fun b => { b with pickup := true }))
  else (false, s)

/-- Remove the drop reservation of a position (R59). -/
def removeDrop (p : DockPos) (s : State) : State :=
  stockDone (s.modDock p fun d => { d with vanDrop := false })

/-- A dock record without its reservations. -/
def DockRec.unreserved (d : DockRec) : DockRec :=
  { d with vanDrop := false, bike := d.bike.map fun b => { b with pickup := false } }

/-- Remove all reservations (R59). -/
def removeAll (s : State) : State :=
  stockDone (s.modStock fun st => { st with docks := st.docks.map DockRec.unreserved })

/-! ### Pickup candidates (R140, R143) -/

/-- The best of a list of positions. -/
def bestBy (before : DockPos → DockPos → Bool) (l : List DockPos) : Option DockPos :=
  l.foldl
    (fun a p =>
      match a with
      | none => some p
      | some q => if before p q then some p else some q)
    none

/-- Ascending docked-at time, then position (R140). -/
def State.dockedBefore (s : State) (p q : DockPos) : Bool :=
  if s.dockedAt p ≠ s.dockedAt q then decide (s.dockedAt p < s.dockedAt q) else decide (p.val < q.val)

/-- The order of group (3): for ELECTRIC, descending battery first (R140). -/
def State.releasableBefore (s : State) (k : BikeKind) (p q : DockPos) : Bool :=
  if k = .electric ∧ s.batteryAt p ≠ s.batteryAt q then decide (s.batteryAt q < s.batteryAt p) else s.dockedBefore p q

/-- Whether a record is OCCUPIED with a bike of a kind and no pickup reservation (R140). -/
def DockRec.candidate (d : DockRec) (k : BikeKind) : Bool :=
  match d.state, d.bike with
  | .occupied, some b => b.kind == k && !b.pickup
  | _, _ => false

/-- The position of a candidate that holds a named bike. -/
def State.candidateNamed (s : State) (k : BikeKind) (ok : DockPos → Bool) (id : Nat) : Option DockPos :=
  positions.find? fun p => ok p && (s.dock p).candidate k && (s.dock p).holds id

/-- The first candidate of a kind by the three groups of R140, among the positions allowed. -/
def State.firstCandidate (s : State) (k : BikeKind) (named : List Nat) (ok : DockPos → Bool) : Option DockPos :=
  match named.findSome? (s.candidateNamed k ok) with
  | some p => some p
  | none =>
    match
      bestBy s.dockedBefore
        (positions.filter fun p =>
          ok p && (s.dock p).candidate k && (s.dock p).bike.any fun b => b.hold == .quarantine) with
    | some p => some p
    | none =>
      if perKind s.stock.low k < s.stock.releasable k then
        bestBy (s.releasableBefore k) (positions.filter fun p => ok p && (s.dock p).countsFor k)
      else none

/-! ### The visit's lists -/

/-- The number of pickup reservations of a kind that a visit holds, a held removal among them (R141). -/
def Visit.pickupsOf (v : Visit) (k : BikeKind) : Nat := v.pickups.countP fun x => x.kind == k

/-- The visit changed, where one is active. -/
def State.modVisit (s : State) (f : Visit → Visit) : State := s.setVisit (s.van.visit.map f)

/-- A bike reserved at a position joins the visit's pickup reservations. -/
def Visit.addPickup (v : Visit) (p : DockPos) (b : Bike) : Visit :=
  { v with pickups := v.pickups ++ [{ pos := p, bike := b.id, kind := b.kind, held := false }] }

/-- A pickup reservation is asked for at a position, and on a grant joins the visit (R140, R142, R143). -/
def reservePickup (p : DockPos) (s : State) : State :=
  match (s.dock p).bike, placePickup p s with
  | some b, (true, t) => t.modVisit fun v => v.addPickup p b
  | _, _ => s

/-- One replacement is sought for a reservation lost (R143); `ok` leaves out the dock whose bike is going. -/
def seekOne (k : BikeKind) (ok : DockPos → Bool) (s : State) : State :=
  match s.van.visit with
  | none => s
  | some v =>
    match v.plan with
    | none => s
    | some plan =>
      if v.pickupsOf k < perKind plan.remPickups k then
        match s.firstCandidate k plan.order.named ok with
        | none => s
        | some p => reservePickup p s
      else s

/-! ### Reports of the Stock Unit to the Van Unit (R141, R142) -/

/-- A pickup reservation was removed at a position (R141): held while a pickup of this visit is in flight there, else the
position leaves the visit and a replacement is sought (R143). The bike that leaves is no candidate, and while its record still
stands OCCUPIED (R38 step 2) it counts in releasable(k) for the test against L(k). DEDUCED, log 72. -/
def tellPickupRemoved (p : DockPos) (s : State) : State :=
  match s.van.visit with
  | none => s
  | some v =>
    match v.pickups.find? fun x => x.pos == p with
    | none => s
    | some x =>
      if v.inFlight.contains p then
        s.modVisit fun v => { v with pickups := v.pickups.map fun y => if y.pos = p then { y with held := true } else y }
      else
        seekOne x.kind (fun q => q != p)
          (s.modVisit fun v => { v with pickups := v.pickups.eraseP fun y => y.pos == p })

/-- A drop reservation moved from one position to another (R141). -/
def tellDropMoved (p q : DockPos) (s : State) : State :=
  s.modVisit fun v => { v with drops := v.drops.map fun x => if x = p then q else x }

/-- A drop reservation was lost (R141). -/
def tellDropLost (p : DockPos) (s : State) : State := s.modVisit fun v => { v with drops := v.drops.erase p }

/-- A docked bike has been put in QUARANTINE (R142): a PLANNED visit with room for its kind reserves it. -/
def tellQuarantine (p : DockPos) (s : State) : State :=
  match s.van.visit, (s.dock p).bike with
  | some v, some b =>
    match v.plan with
    | none => s
    | some plan =>
      if b.pickup = false ∧ v.pickupsOf b.kind < perKind plan.remPickups b.kind then reservePickup p s else s
  | _, _ => s

/-- The pickup reservation on the bike of a record is removed, and the Van Unit is told (R36, R38, R52). -/
def dropPickup (p : DockPos) (s : State) : State :=
  if (s.dock p).bike.any Bike.pickup then tellPickupRemoved p (s.modBike p fun b => { b with pickup := false }) else s

/-! ### Moving a drop reservation (R60) -/

/-- The highest-numbered record, other than one, that may take a drop reservation (R60). -/
def State.moveTarget (s : State) (p : DockPos) : Option DockPos :=
  positions.reverse.find? fun q => q != p && (s.dock q).canReserve

/-- A drop reservation that must leave its record is moved, or lost (R60). -/
def moveDrop (p : DockPos) (s : State) : State :=
  let t := s.modDock p fun d => { d with vanDrop := false }
  match s.moveTarget p with
  | some q => tellDropMoved p q (t.modDock q fun d => { d with vanDrop := true })
  | none => tellDropLost p t

/-- A drop reservation on a record, where it has one, is moved (R60). DEDUCED, log 41. -/
def moveDropFrom (p : DockPos) (s : State) : State := if (s.dock p).vanDrop then moveDrop p s else s

end Sys2Proof.Machine
end

