-- ==== Sys2Proof/Machine/Docks.lean ====
section
/-! DEFINITION. What happens to a dock record: emptying (R38), a bike written off (R45), a change of service (R37) with the
cancel it may ask (R90), quarantine and its lift (R46), the beginning and the end of a release (R39, R40). -/

namespace Sys2Proof.Machine

open Sys2Proof

/-! ### Emptying and writing off (R38, R45) -/

/-- A dock record emptied of its bike (R38 step 3). -/
def DockRec.cleared (d : DockRec) : DockRec := { d with state := .empty, bike := none, lock := none, vanDrop := false }

/-- A record is emptied (R38). -/
def emptied (k : Kont) (p : DockPos) (s : State) : State :=
  decideGate k p ((dropPickup p (leaveLists k p s)).modDock p DockRec.cleared)

/-- The record's bike is written off as missing: fault code 13, STOCK ADJUST VANISHED, emptying, in that order (R45). -/
def writeOff (k : Kont) (p : DockPos) (s : State) : State :=
  match (s.dock p).bike with
  | none => emptied k p s
  | some b => emptied k p (append k (.vanished b.id b.kind p) (k (.raise (.bike b.id) 13) s))

/-! ### A cancel asked of the Hire Unit (R90) -/

/-- A release has a cancel requested of it: LOCK is submitted unless it is checking (R90). -/
def cancelRelease (k : Kont) (r : Release) (s : State) : State :=
  if r.cancel then s
  else
    let t := s.putRelease { r with cancel := true }
    if r.checking then t else submitAt k r.pos .lock (.discard .hire) t

/-- The Stock Unit asks to cancel the release in flight at a dock (R37, R90). -/
def cancelAt (k : Kont) (p : DockPos) (s : State) : State :=
  match s.releaseAt p with
  | none => s
  | some r => cancelRelease k r s

/-! ### Service (R37) -/

/-- The service of a dock has been computed again after a write; `old` is the service before it (R37). -/
def serviceChanged (k : Kont) (p : DockPos) (old : Service) (s : State) : State :=
  let v := (s.dock p).service
  if v = old then s
  else
    let t := if v ≠ .inService ∧ (s.dock p).state = .releasing then cancelAt k p s else s
    let t := if (t.dock p).state = .empty then decideGate k p t else t
    if v = .outOfService then moveDropFrom p t else t

/-- The service by central is written (R37). -/
def setServiceCentral (k : Kont) (p : DockPos) (v : Service) (s : State) : State :=
  stockDone (serviceChanged k p (s.dock p).service (s.modDock p fun d => { d with svcCentral := v }))

/-- The service by faults is written (R37, R161). -/
def setServiceFaults (k : Kont) (p : DockPos) (v : Service) (s : State) : State :=
  stockDone (serviceChanged k p (s.dock p).service (s.modDock p fun d => { d with svcFaults := v }))

/-! ### Quarantine and its lift (R46) -/

/-- The Fault Unit asks to quarantine a bike (R46, R142). -/
def quarantine (bike : Nat) (s : State) : State :=
  match s.dockOfBike bike with
  | none => s
  | some p => stockDone (tellQuarantine p (s.modBike p fun b => { b with hold := .quarantine }))

/-- The hold that replaces a lifted QUARANTINE (R46). -/
def holdAfterLift (st : Settings) (b : Bike) : Hold := if belowRideMin st b then .chargeHold else .none

/-- The Fault Unit asks to lift the quarantine at a position (R46). -/
def liftQuarantine (p : DockPos) (s : State) : State :=
  stockDone (s.modBike p fun b => { b with hold := holdAfterLift s.trunk.settings b })

/-! ### The beginning and the end of a release (R39, R40) -/

/-- The Stock Unit's answer to a request to begin a release: a refusal, or none for a grant (R39). -/
def State.beginRefusal (s : State) (p : DockPos) (kind : ReleaseKind) : Option Reason :=
  let d := s.dock p
  match d.state with
  | .releasing => some .busy
  | .occupied =>
    match d.bike with
    | none => some .noBike
    | some b =>
      match kind with
      | .van =>
        if b.pickup = true ∨ (b.hold = .quarantine ∧ s.van.visit.any fun v => v.plan.isNone) then none
        else some .notReserved
      | _ => if d.service ≠ .inService ∨ b.hold ≠ .none ∨ b.pickup = true then some .bikeHeld else none
  | _ => some .noBike

/-- A granted request to begin a release: the record becomes RELEASING and its charge ends (R39). -/
def beginRelease (k : Kont) (p : DockPos) (s : State) : State :=
  stockDone (leaveLists k p (s.modDock p fun d => { d with state := .releasing }))

/-- How a release's end leaves its dock (R40): emptied, returned to OCCUPIED, or LOST already. -/
inductive DockEnd where
  | emptied | returned | lost
deriving DecidableEq, Repr

/-- The Stock Unit is told the end of a release (R40). -/
def tellEnd (k : Kont) (p : DockPos) (e : DockEnd) (s : State) : State :=
  match e with
  | .emptied => stockDone (emptied k p s)
  | .returned => stockDone (evaluateAgain k p (s.modDock p fun d => { d with state := .occupied }))
  | .lost => s

end Sys2Proof.Machine
end

