-- ==== Sys2Proof/Machine/Faults.lean ====
section
/-! DEFINITION. The Fault Unit (08_faults_and_quarantine.md): raising (R158, R159, R164, R165), actions (R160 to R163),
notices (R166, R167), clearing (R168, R169) and the effects of a policy load (R157). -/

namespace Sys2Proof.Machine

open Sys2Proof

/-- State with the Fault Unit changed. -/
def State.modFault (s : State) (f : FaultUnit → FaultUnit) : State := { s with fault := f s.fault }

/-! ### MARK FAULT (R163) -/

/-- MARK FAULT is submitted, tied to the bike and the dock (R163). -/
def submitMark (k : Kont) (j : MarkJob) (s : State) : State := submitAt k j.pos (.markFault j.set) (.mark j) s

/-- The first submission of a MARK FAULT. -/
def markFault (k : Kont) (p : DockPos) (bike : Nat) (set : Bool) (s : State) : State :=
  submitMark k { pos := p, bike := bike, set := set, made := 1 } s

/-- The mark wanted at a position: set while the bike is held QUARANTINE (R163). -/
def State.markWanted (s : State) (p : DockPos) : Bool := (s.dock p).bike.any fun b => b.hold == .quarantine

/-- The outcome of a MARK FAULT (R163). DEDUCED, log 40. -/
def markOutcome (k : Kont) (j : MarkJob) (o : CmdOutcome) (s : State) : State :=
  if (s.dock j.pos).holds j.bike then
    if o = .ack then stockDone (s.modBike j.pos fun b => { b with mark := j.set })
    else if j.made < 3 ∧ s.markWanted j.pos = j.set then submitMark k { j with made := j.made + 1 } s
    else s
  else s

/-! ### Actions (R160, R161, R162) -/

/-- A bike that must be held: quarantined with MARK FAULT set where it is docked and not held QUARANTINE; MARK FAULT set
alone where it is held and its mark is clear (R160). -/
def holdBike (k : Kont) (bike : Nat) (s : State) : State :=
  match s.dockOfBike bike with
  | none => s
  | some p =>
    match (s.dock p).bike with
    | none => s
    | some b =>
      if b.hold ≠ .quarantine then markFault k p bike true (quarantine bike s)
      else if b.mark = false then markFault k p bike true s
      else s

/-- A dock's service by faults is computed again, and written where it differs (R161). -/
def serviceAgain (k : Kont) (p : DockPos) (s : State) : State :=
  if s.fault.serviceOf p = (s.dock p).svcFaults then s else setServiceFaults k p (s.fault.serviceOf p) s

/-- The Stock Unit is told of a change of a NO CHARGE standing (R162). -/
def tellNoCharge (k : Kont) (x : Subject) (s : State) : State :=
  match x with
  | .dock p => stockDone (chargeAgain k p s)
  | .bike b =>
    match s.dockOfBike b with
    | none => s
    | some p => stockDone (chargeAgain k p s)
  | .terminal _ => s

/-- The hold of a bike, or the service of a dock, that a raise against it calls for (R160, R161). -/
def actOnSubject (k : Kont) (x : Subject) (s : State) : State :=
  match x with
  | .bike b => if s.fault.quarantined b then holdBike k b s else s
  | .dock p => serviceAgain k p s
  | .terminal _ => s

/-- The actions of a raise on the Stock Unit (R160, R161, R162); `first` says that the raise added the first record of its
subject whose code carries NO CHARGE. -/
def actOn (k : Kont) (x : Subject) (first : Bool) (s : State) : State :=
  if first then tellNoCharge k x (actOnSubject k x s) else actOnSubject k x s

/-! ### Notices (R166, R167) -/

/-- The URGENT NOTICE of a record (R166). -/
def State.noticeOf (s : State) (f : FaultRec) (stored : Bool) : OutFrame :=
  .urgentNotice
    { id := f.id, stored := stored, subject := f.subject, code := f.code, severity := f.severity, repeats := f.repeats
      first := f.first, last := f.last, station := s.trunk.station, actions := s.fault.actions f.code }

/-- A fault log with the record of an id changed. -/
def logMap (id : Nat) (g : FaultRec → FaultRec) (l : List FaultRec) : List FaultRec :=
  l.map fun f => if f.id = id then g f else f

/-- Whether a record is to be offered: OPEN, at MAJOR or above (R166). -/
def FaultRec.offerable (f : FaultRec) : Bool := f.state == .opened && atLeastMajor f.severity

/-- The URGENT NOTICE of the record of an id is offered while it is OPEN at MAJOR or above and the trunk is CONNECTED; the
record becomes NOTIFIED when the frame joins the queue (R166). -/
def notify (id : Nat) (s : State) : State :=
  match s.fault.log.find? fun f => f.id == id with
  | none => s
  | some f =>
    if f.offerable = true ∧ s.trunk.connected = true then
      let r := s.trunk.offer (s.noticeOf f true)
      let t := { s with trunk := r.1 }
      if r.2 then t.modFault fun u => { u with log := logMap id (fun f => { f with state := .notified }) u.log } else t
    else s

/-- The trunk state has become CONNECTED: a notice for every OPEN record at MAJOR or above, oldest first (R167). -/
def notifyAll (s : State) : State := s.fault.log.foldl (fun t f => notify f.id t) s

/-! ### Fault ids (R155) -/

/-- The id after one, wrapping from 65,535 to 1. -/
def nextIdAfter (n : Nat) : Nat := if 65535 ≤ n then 1 else n + 1

/-- The first id from one on that no record holds; at most 64 records stand in the way. -/
def freeIdFrom (log : List FaultRec) : Nat → Nat → Nat
  | 0, n => n
  | m + 1, n => if log.any fun f => f.id == n then freeIdFrom log m (nextIdAfter n) else n

/-- The next fault id after one has been taken (R155). -/
def FaultUnit.idAfter (u : FaultUnit) (log : List FaultRec) : Nat := freeIdFrom log 64 (nextIdAfter u.nextId)

/-! ### Lifting (R169) -/

/-- The hold of a bike that no longer has a quarantine standing is lifted, or the service of a dock computed again (R169). -/
def liftSubject (k : Kont) (x : Subject) (s : State) : State :=
  match x with
  | .bike b =>
    match s.dockOfBike b with
    | none => s
    | some p =>
      if (s.dock p).bike.any (fun y => y.hold == .quarantine) ∧ s.fault.quarantined b = false then
        markFault k p b false (liftQuarantine p s)
      else s
  | .dock p => serviceAgain k p s
  | .terminal _ => s

/-- The effects that no other uncleared record still gives are lifted, after a record of a subject and code has left the
uncleared records (R169). -/
def lift (k : Kont) (x : Subject) (code : Fin 48) (s : State) : State :=
  let t := liftSubject k x s
  if (t.fault.actions code).noCharge = true ∧ t.fault.noCharge x = false then tellNoCharge k x t else t

/-! ### Raising (R158, R159, R164, R165) -/

/-- The most records the fault log holds (R155). -/
def faultRoom : Nat := 64

/-- The severity one level up (R159). -/
def severityUp : Severity → Severity
  | .minor => .major
  | .major => .critical
  | .critical => .critical

/-- A record merged with a raise, escalated where its threshold gives it (R158 steps 1 and 3, R159). DEDUCED, log 38. -/
def FaultRec.merge (f : FaultRec) (threshold now : Nat) : FaultRec :=
  let n := bump 255 f.repeats
  if f.repeats < n ∧ threshold ≠ 0 ∧ n % threshold = 0 ∧ f.severity ≠ .critical then
    { f with repeats := n, last := now, severity := severityUp f.severity, state := .opened }
  else { f with repeats := n, last := now }

/-- The record removed to make room for a raise at a severity: the oldest CLEARED one; else, for MAJOR or CRITICAL, the
oldest at MINOR (R164). -/
def FaultUnit.toDisplace (u : FaultUnit) (v : Severity) : Option FaultRec :=
  match u.log.find? fun f => !f.uncleared with
  | some f => some f
  | none => if atLeastMajor v then u.log.find? fun f => f.severity == .minor else none

/-- A record is removed to make room; a removed uncleared one leaves its subject as a clear would (R164).
DEDUCED, log 39. -/
def displace (k : Kont) (f : FaultRec) (s : State) : State :=
  let t := s.modFault fun u => { u with log := u.log.eraseP fun g => g.id == f.id }
  if f.uncleared then lift k f.subject f.code t else t

/-- A new record is added, its actions taken and its notice offered (R158 steps 2, 4 and 5). -/
def addFault (k : Kont) (x : Subject) (code : Fin 48) (v : Severity) (s : State) : State :=
  let id := s.fault.nextId
  let first := (s.fault.actions code).noCharge && !s.fault.noCharge x
  let f : FaultRec :=
    { id := id, subject := x, code := code, severity := v, first := s.now, last := s.now, repeats := 1, state := .opened }
  let t := s.modFault fun u => { u with log := u.log ++ [f], nextId := u.idAfter (u.log ++ [f]) }
  notify id (actOn k x first t)

/-- A NO CHARGE action of an unstored fault ends the charge, or the wait, of the dock it bears on (R165, R162).
DEDUCED, log 37. -/
def unstoredNoCharge (k : Kont) (x : Subject) (s : State) : State :=
  match x with
  | .dock p => stockDone (leaveLists k p s)
  | .bike b =>
    match s.dockOfBike b with
    | none => s
    | some p => stockDone (leaveLists k p s)
  | .terminal _ => s

/-- A QUARANTINE action of an unstored fault: the bike is quarantined where it is docked and not held (R165). -/
def unstoredQuarantine (k : Kont) (x : Subject) (s : State) : State :=
  match x with
  | .bike b =>
    match s.dockOfBike b with
    | none => s
    | some p => if (s.dock p).bike.any (fun y => y.hold == .quarantine) then s else markFault k p b true (quarantine b s)
  | _ => s

/-- A service action of an unstored fault: the stricter of the present value and the service it gives (R165). An unstored raise
does not compute the service from the log: what an earlier unstored fault gave the dock stays. DEDUCED, log 82. -/
def unstoredService (k : Kont) (x : Subject) (given : Service) (s : State) : State :=
  match x with
  | .dock p =>
    if stricter (s.dock p).svcFaults given = (s.dock p).svcFaults then s
    else setServiceFaults k p (stricter (s.dock p).svcFaults given) s
  | _ => s

/-- A raise that cannot be stored (R165). -/
def raiseUnstored (k : Kont) (x : Subject) (code : Fin 48) (v : Severity) (s : State) : State :=
  let a := s.fault.actions code
  let f : FaultRec :=
    { id := s.fault.nextId, subject := x, code := code, severity := v, first := s.now, last := s.now, repeats := 1
      state := .opened }
  let t := s.modFault fun u => { u with nextId := u.idAfter u.log, notStored := bump16 u.notStored }
  let t := if a.quarantine then unstoredQuarantine k x t else t
  let t := unstoredService k x (serviceGiven a v) t
  let t := if a.noCharge then unstoredNoCharge k x t else t
  if t.trunk.connected then t.offer (t.noticeOf f false) else t

/-- The uncleared record that a raise merges with (R158 step 1). -/
def FaultUnit.same (u : FaultUnit) (x : Subject) (code : Fin 48) : Option FaultRec :=
  u.log.find? fun f => f.uncleared && f.subject == x && f.code == code

/-- A full log makes room for a raise at a severity, where a record of it may be removed (R164). -/
def makeRoom (k : Kont) (v : Severity) (s : State) : State :=
  if s.fault.log.length < faultRoom then s
  else
    match s.fault.toDisplace v with
    | some f => displace k f s
    | none => s

/-- A raise, taken whole (R158): it is merged, stored where the log has or makes room, or else unstored (R165) or, at MINOR,
discarded (R164). -/
def raiseWhole (k : Kont) (x : Subject) (code : Fin 48) (s : State) : State :=
  match s.fault.same x code with
  | some f =>
    let g := f.merge (s.fault.policy[code]).threshold s.now
    notify f.id (actOn k x false (s.modFault fun u => { u with log := logMap f.id (fun _ => g) u.log }))
  | none =>
    let v := (s.fault.policy[code]).base
    let t := makeRoom k v s
    if t.fault.log.length < faultRoom then addFault k x code v t
    else if atLeastMajor v then raiseUnstored k x code v t
    else t.modFault fun u => { u with discarded := bump16 u.discarded }

/-- The Fault Unit has finished: the next raise that waits is taken (R154, R158, log 6). -/
def faultDone (k : Kont) (s : State) : State :=
  match s.fault.waiting with
  | [] => s.modFault fun u => { u with busy := false }
  | (x, c) :: rest => k (.raise x c) (s.modFault fun u => { u with busy := false, waiting := rest })

/-- The Fault Unit takes a matter whole: raises asked meanwhile wait (R154, R158). -/
def faultTakes (k : Kont) (f : State → State) (s : State) : State :=
  faultDone k (f (s.modFault fun u => { u with busy := true }))

/-- A raise is asked of the Fault Unit (R158): taken at once, or after the matter it is taking. -/
def raiseFault (k : Kont) (x : Subject) (code : Fin 48) (s : State) : State :=
  if s.fault.busy then s.modFault fun u => { u with waiting := u.waiting ++ [(x, code)] }
  else faultTakes k (raiseWhole k x code) s

/-! ### Clearing (R168, R169) -/

/-- The record of an id becomes CLEARED and its effects are lifted (R168, R169). -/
def clearRecord (k : Kont) (reason : FaultState) (f : FaultRec) (s : State) : State :=
  lift k f.subject f.code
    (s.modFault fun u => { u with log := logMap f.id (fun f => { f with state := reason }) u.log })

/-- Every uncleared record against a bike is cleared with clear reason REMOVED (R168), in the order of the log, oldest first.
DESIGN CHOICE, log 77. -/
def clearBike (k : Kont) (bike : Nat) (s : State) : State :=
  faultTakes k
    (fun s =>
      (s.fault.log.filter fun f => f.uncleared && f.subject == .bike bike).foldl
        (fun t f => clearRecord k .clearedByRemoval f t) s)
    s

/-! ### Events (R154) -/

/-- A BIKE SELF-TEST: codes 6 to 9 for the flags set, against the bike in the dock (R154). -/
def selfTest (k : Kont) (p : DockPos) (brake light battery tyre : Bool) (s : State) : State :=
  match (s.dock p).docked with
  | none => s
  | some b =>
    let raise (on : Bool) (code : Fin 48) (t : State) : State := if on then k (.raise (.bike b.id) code) t else t
    raise tyre 9 (raise battery 8 (raise light 7 (raise brake 6 s)))

/-- The code of a TERMINAL FAULT: 16 plus the terminal code, which is taken as 31 above 31 (R154). -/
def terminalFaultCode (n : Nat) : Fin 48 := ⟨16 + min 31 n, by omega⟩

/-! ### The effects of a policy load (R157) -/

/-- A docked bike whose quarantine standing has changed under a new policy is quarantined or lifted (R157). -/
def policyBike (k : Kont) (before : FaultUnit) (s : State) (p : DockPos) : State :=
  match (s.dock p).docked with
  | none => s
  | some b =>
    match before.quarantined b.id, s.fault.quarantined b.id with
    | false, true => holdBike k b.id s
    | true, false => if b.hold = .quarantine then markFault k p b.id false (liftQuarantine p s) else s
    | _, _ => s

/-- Whether an uncleared record of the bike docked at a position stands NO CHARGE (R162). -/
def State.bikeNoCharge (s : State) (u : FaultUnit) (p : DockPos) : Bool :=
  match (s.dock p).docked with
  | none => false
  | some b => u.noCharge (.bike b.id)

/-- The Stock Unit is told of a dock whose NO CHARGE standing, its own or its bike's, has changed (R157, R162). -/
def policyCharge (k : Kont) (before : FaultUnit) (s : State) (p : DockPos) : State :=
  if before.noCharge (.dock p) ≠ s.fault.noCharge (.dock p) ∨ s.bikeNoCharge before p ≠ s.bikeNoCharge s.fault p then
    stockDone (chargeAgain k p s)
  else s

/-- A policy load has been applied: every uncleared record is taken against the policy now in force (R157).
DEDUCED, log 36. -/
def policyApplied (k : Kont) (before : FaultUnit) (s : State) : State :=
  let t := positions.foldl (fun t p => serviceAgain k p t) s
  let t := positions.foldl (policyBike k before) t
  positions.foldl (policyCharge k before) t

end Sys2Proof.Machine
end

