-- ==== Sys2Proof/Machine/Visits.lean ====
section
/-! DEFINITION. The Van Unit (07_rebalancing_and_van_visits.md): pending orders (R133 to R135), arrivals and openings (R137
to R140), outcomes of VAN releases (R145, R150), drops (R146) and the close of a visit (R148, R149, R151). -/

namespace Sys2Proof.Machine

open Sys2Proof

/-! ### Van orders (R133, R134, R135) -/

/-- State with the Van Unit changed. -/
def State.modVan (s : State) (f : Van → Van) : State := { s with van := f s.van }

/-- An order put in its place: ascending valid from, equal ones in the order of acceptance (R133). -/
def orderInsert (o : VanOrder) : List VanOrder → List VanOrder
  | [] => [o]
  | x :: xs => if o.validFrom < x.validFrom then o :: x :: xs else x :: orderInsert o xs

/-- Whether a list of identifiers holds one twice. -/
def hasTwice : List Nat → Bool
  | [] => false
  | x :: xs => xs.contains x || hasTwice xs

/-- Whether a planned count is above 40. -/
def above40 (p : PerKind) : Bool := decide (40 < p.classic ∨ 40 < p.electric ∨ 40 < p.cargo)

/-- Condition 1 of R134. -/
def orderOutOfRange (o : VanOrder) : Bool :=
  o.id == 0 || o.van == 0 || above40 o.drops || above40 o.pickups || decide (8 < o.named.length) || o.named.contains 0
    || hasTwice o.named || decide (o.validUntil ≤ o.validFrom)

/-- The most pending orders (R133). -/
def orderRoom : Nat := 4

/-- The result of a VAN ORDER, by the checks of R134 in order. -/
def State.orderResult (s : State) (o : VanOrder) : OrderResult :=
  if orderOutOfRange o then .range
  else if s.trunk.timeValid = false then .noTime
  else if o.validUntil ≤ s.now then .expired
  else if s.van.visit.any fun v => v.plan.any fun p => p.order.id == o.id then .active
  else if s.van.orders.any fun x => x.id == o.id then .replaced
  else if orderRoom ≤ s.van.orders.length then .full
  else .accepted

/-- The effect of a VAN ORDER with its result (R134). -/
def takeOrder (o : VanOrder) (r : OrderResult) (s : State) : State :=
  match r with
  | .replaced => s.modVan fun v => { v with orders := orderInsert o (v.orders.filter fun x => x.id != o.id) }
  | .accepted => s.modVan fun v => { v with orders := orderInsert o v.orders }
  | _ => s

/-- The pending orders whose valid until the station time has reached leave the list (R135). -/
def expireOrders (s : State) : State := s.modVan fun v => { v with orders := v.orders.filter fun o => s.now < o.validUntil }

/-- One pending order leaves the list if the station time has reached its valid until (R135). -/
def expireOrder (id : Nat) (s : State) : State :=
  s.modVan fun v => { v with orders := v.orders.filter fun o => !(o.id == id && decide (o.validUntil ≤ s.now)) }

/-! ### Arrival and opening (R137 to R140) -/

/-- The refusal of a VAN ARRIVE, by the checks of R137 in order, or none. -/
def State.arriveRefusal (s : State) (operator : Nat) : Option Reason :=
  if s.van.visit.isSome then some .busy
  else if s.trunk.mode ≠ .service then some .stationClosed
  else if s.journal.level ≠ .normal then some .stationClosed
  else if s.trunk.timeValid = false then some .noTime
  else
    match s.card operator with
    | none => some .unknownCard
    | some c =>
      if c.plan = .rider then some .unknownCard
      else if c.standing = .barred ∨ s.cardExpired c then some .barred
      else none

/-- Up to `n` drop reservations are asked for, over candidate positions (R139). -/
def openDrops : List DockPos → Nat → State → State
  | [], _, s => s
  | _ :: _, 0, s => s
  | p :: ps, n + 1, s =>
    match placeDrop p s with
    | (true, t) => openDrops ps n (t.modVisit fun v => { v with drops := v.drops ++ [p] })
    | (false, _) => openDrops ps (n + 1) s

/-- Up to `n` pickup reservations of a kind are placed, each on the first candidate as it then stands (R140). -/
def openPickups (k : BikeKind) (named : List Nat) : Nat → State → State
  | 0, s => s
  | n + 1, s =>
    match s.firstCandidate k named (fun _ => true) with
    | none => s
    | some p => openPickups k named n (reservePickup p s)

/-- The reservations of a PLANNED visit (R139, R140). -/
def openReservations (o : VanOrder) (s : State) : State :=
  let candidates := positions.reverse.filter fun p => (s.dock p).canReserve
  let s := openDrops candidates (min (sumPerKind o.drops) candidates.length) s
  let s := openPickups .classic o.named o.pickups.classic s
  let s := openPickups .electric o.named o.pickups.electric s
  openPickups .cargo o.named o.pickups.cargo s

/-- The first pending order that an arrival takes (R138 step 2). -/
def State.orderFor (s : State) (van : Nat) : Option VanOrder :=
  s.van.orders.find? fun o => o.van == van && decide (o.validFrom ≤ s.now) && decide (s.now < o.validUntil)

/-- The visit serial after one, wrapping from 65,535 to 1 (R136). -/
def nextSerial (n : Nat) : Nat := if 65535 ≤ n then 1 else n + 1

/-- A visit as it opens, before its reservations (R138). -/
def newVisit (serial van operator stamp : Nat) (o : Option VanOrder) : Visit :=
  { serial := serial
    plan := o.map fun o => { order := o, remDrops := o.drops, remPickups := o.pickups }
    van := van, operator := operator, arrival := stamp
    closeAt :=
      match o with
      | some o => o.validUntil
      | none => satAdd lastTime stamp 14400
    drops := [], pickups := [], inFlight := [], load := [], dropList := [] }

/-- A visit opens (R138). -/
def openVisit (k : Kont) (van operator stamp : Nat) (s : State) : State :=
  let serial := nextSerial s.van.serial
  match s.orderFor van with
  | some o =>
    let t :=
      s.modVan fun v =>
        { v with
          orders := v.orders.filter fun x => x.id != o.id
          visit := some (newVisit serial van operator stamp (some o))
          serial := serial }
    showVanpoint k .visitPlanned (openReservations o t)
  | none =>
    showVanpoint k .visitAdHoc
      (s.modVan fun v => { v with visit := some (newVisit serial van operator stamp none), serial := serial })

/-- A VAN ARRIVE (R137, R138). -/
def vanArrive (k : Kont) (van operator stamp : Nat) (s : State) : State :=
  match s.arriveRefusal operator with
  | some r => showVanpoint k r s
  | none => openVisit k van operator stamp s

/-! ### Close (R148, R149, R151) -/

/-- The VAN VISIT record of a visit that closes (R151). -/
def visitRecord (v : Visit) (now : Nat) (cause : CloseCause) : VanVisit :=
  { order := v.plan.map fun p => p.order.id
    serial := v.serial, van := v.van, operator := v.operator, arrival := v.arrival, closedAt := now, cause := cause
    unmetDrops := v.plan.map VisitPlan.remDrops, unmetPickups := v.plan.map VisitPlan.remPickups
    inFlight := v.inFlight.length, load := v.load, dropList := v.dropList }

/-- The active visit, if there is one, closes (R148, R149). -/
def closeVisit (k : Kont) (cause : CloseCause) (s : State) : State :=
  match s.van.visit with
  | none => s
  | some v =>
    let t := append k (.vanVisit (visitRecord v s.now cause)) (removeAll s)
    let t := if cause = .restart ∨ cause = .vanpointLost then t else showVanpoint k .visitClosed t
    t.setVisit none

/-- The visit closes EXPIRED if the station time has reached its close time (R148). -/
def visitCloseTime (k : Kont) (s : State) : State :=
  match s.van.visit with
  | none => s
  | some v => if v.closeAt ≤ s.now then closeVisit k .expired s else s

/-- The van point's ready state is taken (R152). -/
def vanReady (r : Ready) (s : State) : State := s.modVan fun v => { v with ready := r }

/-- The van point is reported LOST (R148, R152). -/
def vanpointLost (k : Kont) (s : State) : State := vanReady .unknown (closeVisit k .vanpointLost s)

/-! ### Outcomes of VAN releases (R145, R150) -/

/-- The outcome of a VAN release as the Van Unit takes it (R92, R145). -/
inductive VanOutcome where
  /-- PICKED UP with its flags. -/
  | pickedUp (unconfirmed despiteCancel : Bool)
  /-- FAILED, NOT TAKEN, CANCELLED or UNCONFIRMED. -/
  | other
deriving DecidableEq, Repr

/-- A load list with an entry put in: rewritten in place where the bike is in it (R145). -/
def loadPut (e : LoadEntry) (l : List LoadEntry) : List LoadEntry :=
  if l.any fun x => x.bike == e.bike then l.map fun x => if x.bike = e.bike then e else x else l ++ [e]

/-- A drop list with an entry put in: rewritten in place where the bike is in it (R146). -/
def dropPut (e : DropListEntry) (l : List DropListEntry) : List DropListEntry :=
  if l.any fun x => x.bike == e.bike then l.map fun x => if x.bike = e.bike then e else x else l ++ [e]

/-- The remaining count of a kind lowered by one, saturating at 0. -/
def lowerKind (p : PerKind) (k : BikeKind) : PerKind := setPerKind p k (perKind p k - 1)

/-- A PICKED UP enters the visit (R145). -/
def Visit.pickedUp (v : Visit) (r : Release) (h : Hold) (unconfirmed despiteCancel : Bool) : Visit :=
  { v with
    inFlight := v.inFlight.erase r.pos
    load :=
      loadPut
        { bike := r.bike, kind := r.bikeKind, hold := h, pos := r.pos, unconfirmed := unconfirmed
          despiteCancel := despiteCancel }
        v.load
    plan := v.plan.map fun p => { p with remPickups := lowerKind p.remPickups r.bikeKind }
    pickups := v.pickups.filter fun x => !(x.held && x.pos == r.pos) }

/-- A reservation whose removal was held is lost without a pickup (R143, R145). -/
def loseHeld (p : DockPos) (s : State) : State :=
  match s.van.visit with
  | none => s
  | some v =>
    match v.pickups.find? fun x => x.held && x.pos == p with
    | none => s
    | some x =>
      seekOne x.kind (fun _ => true)
        (s.modVisit fun v => { v with pickups := v.pickups.filter fun y => !(y.held && y.pos == p) })

/-- The outcome of a VAN release reported to the Van Unit, with the hold of its bike (R145, R150). -/
def vanOutcome (k : Kont) (r : Release) (h : Hold) (o : VanOutcome) (s : State) : State :=
  if s.van.visit.any fun v => v.serial == r.serial then
    match o with
    | .pickedUp u d => clearBike k r.bike (s.modVisit fun v => v.pickedUp r h u d)
    | .other => loseHeld r.pos (s.modVisit fun v => { v with inFlight := v.inFlight.erase r.pos })
  else
    match o with
    | .pickedUp u _ =>
      clearBike k r.bike (append k (.takenByStaff r.bike r.bikeKind r.pos r.number r.serial u) s)
    | .other => s

/-! ### Drops (R146) -/

/-- The most entries the load list and the drop list hold (R136). -/
def listRoom : Nat := 40

/-- The reservations after a drop: the dock's own is used, else the one at the highest position is cancelled (R146). -/
def dropReservation (p : DockPos) (reserved : Bool) (s : State) : State :=
  match s.van.visit with
  | none => s
  | some v =>
    if reserved then s.modVisit fun v => { v with drops := v.drops.erase p }
    else
      match positions.reverse.find? fun q => v.drops.contains q with
      | none => s
      | some q => (removeDrop q s).modVisit fun v => { v with drops := v.drops.erase q }

/-- A docking without a token during a visit is taken as a drop; `reserved` says that the dock held a VAN DROP
reservation (R146). -/
def vanDropped (k : Kont) (p : DockPos) (b : Bike) (stamp : Nat) (reserved : Bool) (s : State) : State :=
  match s.van.visit with
  | none => s
  | some v =>
    if v.dropList.length < listRoom ∨ v.dropList.any (fun x => x.bike == b.id) then
      dropReservation p reserved
        (s.modVisit fun v =>
          { v with
            dropList := dropPut { bike := b.id, kind := b.kind, hold := b.hold, pos := p, time := stamp } v.dropList
            plan := v.plan.map fun x => { x with remDrops := lowerKind x.remDrops b.kind } })
    else
      let t := append k (.arrival b.id b.kind p (some v.serial)) s
      if reserved then t.modVisit fun v => { v with drops := v.drops.erase p } else t

end Sys2Proof.Machine
end

