-- ==== Sys2Proof/Machine/Releases.lean ====
section
/-! DEFINITION. Releases of the Hire Unit (section 4.5): the grant (R77, R83, R84, R91, R92), the outcomes of UNLOCK and of
the checking RESYNC (R85, R88), and the ends (R86, R87, R89, R93). -/

namespace Sys2Proof.Machine

open Sys2Proof

/-- State with the Hire Unit changed. -/
def State.modHire (s : State) (f : Hire → Hire) : State := { s with hire := f s.hire }

/-! ### CLEAR TOKEN (R87, R127) -/

/-- CLEAR TOKEN is submitted, and is submitted again on failure as its job says (R87, R127). -/
def submitClear (k : Kont) (j : ClearJob) (s : State) : State := submitAt k j.pos (.clearToken j.id) (.clear j) s

/-- Whether the dock of a return still holds the returned bike, OCCUPIED or RELEASING; a job of a release asks nothing of
its dock (R87, R127). -/
def State.clearGoesOn (s : State) (j : ClearJob) : Bool :=
  match j.bike with
  | none => true
  | some b => (s.dock j.pos).holds b

/-- The outcome of a CLEAR TOKEN that is submitted up to three times (R87, R127). DEDUCED, log 40. -/
def clearOutcome (k : Kont) (j : ClearJob) (o : CmdOutcome) (s : State) : State :=
  if o ≠ .ack ∧ j.made < 3 ∧ s.clearGoesOn j = true then submitClear k { j with made := j.made + 1 } s else s

/-! ### Grants (R77, R83, R84, R92) -/

/-- No grant flag. -/
def GrantFlags.none : GrantFlags := ⟨false, false, false, false⟩

/-- What a rider or remote grant is made on. -/
structure Grant where
  kind        : ReleaseKind
  number      : Nat
  medium      : Medium
  cls         : Nat
  flags       : GrantFlags
  provisional : Bool
deriving DecidableEq, Repr

/-- The hire token of a grant (R84). -/
def State.tokenFor (s : State) (g : Grant) : HireToken :=
  { number := g.number, medium := g.medium, start := s.now, station := s.trunk.station, cls := g.cls, flags := g.flags }

/-- The release record of a grant at a dock with a bike, in phase COMMANDED (R83). -/
def State.releaseFor (s : State) (p : DockPos) (b : Bike) (kind : ReleaseKind) (number : Nat) (m : Medium)
    (flags : GrantFlags) (token : Option HireToken) (serial : Nat) : Release :=
  { pos := p, kind := kind, number := number, medium := m, flags := flags, token := token, grantTime := s.now
    window := s.trunk.settings.takeWindow, bike := b.id, bikeKind := b.kind, guardAt := none, cancel := false
    checking := false, attempts := 0, serial := serial, id := s.hire.nextRelease }

/-- A release record joins, and the model's own release counter moves on. -/
def State.newRelease (s : State) (r : Release) : State :=
  (s.putRelease r).modHire fun h => { h with nextRelease := h.nextRelease + 1 }

/-- The provisional card record of a stranger grant (R76). -/
def State.provisionalFor (s : State) (number : Nat) : CardRec :=
  { number := number, plan := .rider, standing := .limited, cls := s.trunk.settings.strangerClass, maxBikes := 1
    outCount := 0, headroom := s.trunk.settings.strangerHeadroom, day := 0, dayTotal := 0, reward := 0, expiry := none
    provisional := true }

/-- A rider or remote release is granted at a dock with a bike: the Stock Unit has agreed (R77 steps 1 to 4). -/
def grantAt (k : Kont) (p : DockPos) (b : Bike) (g : Grant) (s : State) : State :=
  let r := s.releaseFor p b g.kind g.number g.medium g.flags (some (s.tokenFor g)) 0
  let t := (beginRelease k p s).newRelease r
  let t := if g.provisional then t.putCard (s.provisionalFor g.number) else t
  submitAt k p (.unlockHire r.window (s.tokenFor g)) (.unlock r.id) t

/-- A rider or remote release is asked of the Stock Unit: its refusal, or the grant (R77). -/
def grantRelease (k : Kont) (p : DockPos) (g : Grant) (s : State) : Option Reason × State :=
  match s.beginRefusal p g.kind, (s.dock p).bike with
  | some r, _ => (some r, s)
  | none, some b => (none, grantAt k p b g s)
  | none, none => (some .noBike, s)

/-- A VAN release is granted: the dock joins the visit's pickups in flight, and UNLOCK with the mark VAN follows (R92,
R144). -/
def vanGrantAt (k : Kont) (p : DockPos) (b : Bike) (operator serial : Nat) (s : State) : State :=
  let r := s.releaseFor p b .van operator .member GrantFlags.none none serial
  let t := (beginRelease k p s).newRelease r
  submitAt k p (.unlockVan r.window) (.unlock r.id) (t.modVisit fun v => { v with inFlight := v.inFlight ++ [p] })

/-- The refusal of a VAN release, or none (R92). -/
def State.vanRefusal (s : State) (p : DockPos) (operator : Nat) : Option Reason :=
  if s.inFlight operator .member then some .busy else s.beginRefusal p .van

/-! ### Ends (R86, R87, R88, R89, R93) -/

/-- The hold of the bike at a dock. -/
def State.holdAt (s : State) (p : DockPos) : Hold :=
  match (s.dock p).bike with
  | some b => b.hold
  | none => .none

/-- An outcome is reported to the Van Unit for a VAN release (R92). -/
def tellVan (k : Kont) (r : Release) (h : Hold) (o : VanOutcome) (s : State) : State :=
  if r.kind = .van then vanOutcome k r h o s else s

/-- The record of a release is removed and the Stock Unit is told (R93 steps 1 and 2). -/
def releaseGone (k : Kont) (r : Release) (e : DockEnd) (s : State) : State := tellEnd k r.pos e (s.eraseRelease r.pos)

/-- CLEAR TOKEN for the token of an ended release, with or without repeats (R85, R87). -/
def clearAfter (k : Kont) (r : Release) (repeats : Bool) (s : State) : State :=
  match r.token with
  | none => s
  | some t =>
    if repeats then submitClear k { pos := r.pos, id := t.ident, made := 1, bike := none } s
    else submitAt k r.pos (.clearToken t.ident) (.discard .hire) s

/-- A release ends FAILED; `noAnswer` says that its UNLOCK ended NOREPLY or QFULL (R85, R93). -/
def endFailed (k : Kont) (r : Release) (noAnswer : Bool) (s : State) : State :=
  let t := releaseGone k r .returned s
  let t := if noAnswer then submitAt k r.pos .lock (.discard .hire) t else t
  let t := clearAfter k r false (showAt k .hire r.pos .tryAgain t)
  tellReleasesQuiet (tellVan k r (s.holdAt r.pos) .other t)

/-- A release ends NOT TAKEN, or CANCELLED, which acts alike (R87, R93). -/
def endNotTaken (k : Kont) (r : Release) (s : State) : State :=
  let t := clearAfter k r true (releaseGone k r .returned s)
  tellReleasesQuiet (tellVan k r (s.holdAt r.pos) .other t)

/-- A release ends UNCONFIRMED; `e` is LOST after a loss of the dock, else the dock returns to OCCUPIED (R88, R89). -/
def endUnconfirmed (k : Kont) (r : Release) (e : DockEnd) (s : State) : State :=
  tellReleasesQuiet (tellVan k r (s.holdAt r.pos) .other (releaseGone k r e s))

/-- The out count of a card or pass raised at a taking, and a pass's rides used (R86 step 2). -/
def raiseOut (number : Nat) (m : Medium) (s : State) : State :=
  match m with
  | .member =>
    match s.card number with
    | none => s
    | some c => s.putCard { c with outCount := bump c.maxBikes c.outCount }
  | .token =>
    match s.passOf number with
    | none => s
    | some c => s.putPass { c with outCount := bump c.maxBikes c.outCount, ridesUsed := bump16 c.ridesUsed }

/-- The HIRE START record of a release ending TAKEN (R86 step 3). -/
def hireStartOf (r : Release) (stamp : Nat) (unconfirmed : Bool) : JournalBody :=
  .hireStart
    { number := r.number, medium := r.medium, bike := r.bike, kind := r.bikeKind, pos := r.pos, grantTime := r.grantTime
      stamp := stamp
      cls :=
        match r.token with
        | some t => t.cls
        | none => 0
      flags := r.flags, unconfirmed := unconfirmed, despiteCancel := r.cancel }

/-- A release ends TAKEN, or PICKED UP for a VAN release (R86, R92, R93). -/
def endTaken (k : Kont) (r : Release) (stamp : Nat) (unconfirmed : Bool) (s : State) : State :=
  let t := releaseGone k r .emptied s
  let t :=
    if r.kind = .van then vanOutcome k r (s.holdAt r.pos) (.pickedUp unconfirmed r.cancel) t
    else append k (hireStartOf r stamp unconfirmed) (raiseOut r.number r.medium t)
  tellReleasesQuiet t

/-! ### Outcomes (R85, R88) -/

/-- The release guard added to the take window (table 4-1). -/
def releaseGuard : Nat := 10

/-- The outcome of the UNLOCK of a release (R85): codes 0 "lock jam" and 5 "release no answer" of table 8-1, each raised when
the release has ended. DEDUCED, log 63. -/
def unlockOutcome (k : Kont) (id : Nat) (o : CmdOutcome) (s : State) : State :=
  match s.releaseOf id with
  | none => s
  | some r =>
    if r.guardAt.isSome then s
    else
      match o with
      | .ack => s.putRelease { r with guardAt := some (satAdd lastTime s.now (r.window + releaseGuard)) }
      | .nak .jammed => k (.raise (.dock r.pos) 0) (endFailed k r false s)
      | .nak _ => endFailed k r false s
      | _ => k (.raise (.dock r.pos) 5) (endFailed k r true s)

/-- RESYNC is submitted for a checking release (R88). -/
def submitCheck (k : Kont) (r : Release) (s : State) : State :=
  submitAt k r.pos .resync (.check r.id) (s.putRelease { r with checking := true, attempts := r.attempts + 1 })

/-- A check of a release has failed: again, or after the third attempt the release ends UNCONFIRMED (R88, R202). -/
def checkFailed (k : Kont) (r : Release) (s : State) : State :=
  if r.attempts < 3 then submitCheck k r s else endUnconfirmed k r .returned s

/-- The outcome of the RESYNC of a checking release (R88). -/
def checkOutcome (k : Kont) (id : Nat) (o : CmdOutcome) (s : State) : State :=
  match s.releaseOf id with
  | none => s
  | some r => if o = .ack ∨ r.checking = false then s else checkFailed k r s

/-- The guard of a release is reached (R88). -/
def guardReached (k : Kont) (r : Release) (s : State) : State :=
  match r.guardAt with
  | some g => if g ≤ s.now ∧ r.checking = false then submitCheck k { r with attempts := 0 } s else s
  | none => s

/-! ### What the dock of a release reports (R86 to R89) -/

/-- A BIKE REMOVED handed on for a release (R86). -/
def releaseRemoved (k : Kont) (p : DockPos) (stamp : Nat) (s : State) : State :=
  match s.releaseAt p with
  | none => s
  | some r => endTaken k r stamp false s

/-- A RELOCKED handed on for a release (R87). -/
def releaseRelocked (k : Kont) (p : DockPos) (s : State) : State :=
  match s.releaseAt p with
  | none => s
  | some r => endNotTaken k r s

/-- A PRESENT handed on for a release, showing a bike or none (R88, R89). -/
def releasePresent (k : Kont) (p : DockPos) (shown : Option Nat) (stamp : Nat) (s : State) : State :=
  match s.releaseAt p with
  | none => s
  | some r =>
    if shown = some r.bike then (if r.checking then endNotTaken k r s else s) else endTaken k r stamp true s

/-- The dock of a release is LOST (R52, R89). -/
def releaseLost (k : Kont) (p : DockPos) (s : State) : State :=
  match s.releaseAt p with
  | none => s
  | some r => endUnconfirmed k r .lost s

end Sys2Proof.Machine
end

