-- ==== Sys2Proof/Machine/Taps.lean ====
section
/-! DEFINITION. Card records loaded (R66), taps (R70 to R76), referrals (R78 to R82), staff taps (R144) and COMMAND RELEASE
(R91). -/

namespace Sys2Proof.Machine

open Sys2Proof

/-! ### Loading a card record (R66) -/

/-- The most card records (R65). -/
def cardRoom : Nat := 4096

/-- Whether the fields of an entry that does not ask for DELETE lie in their ranges; `none` where one does not (R66). -/
def cardOfEntry (e : CardEntry) : Option CardRec :=
  match e.standing, e.plan with
  | some (.keep st), some pl =>
    if e.number = 0 ∨ 7 < e.cls ∨ 4 < e.maxBikes ∨ 2000 < e.reward then none
    else
      some
        { number := e.number, plan := pl, standing := st, cls := e.cls, maxBikes := e.maxBikes
          outCount := min e.maxBikes e.outCount, headroom := e.headroom, day := e.day, dayTotal := e.dayTotal
          reward := e.reward, expiry := e.expiry, provisional := false }
  | _, _ => none

/-- One entry of a CARD TABLE load: its refusal or none, and the state after it (R66). -/
def loadCard (e : CardEntry) (s : State) : Option EntryRefusal × State :=
  match e.standing with
  | some .delete =>
    if e.number = 0 then (some .range, s)
    else (none, s.modHire fun h => { h with cards := tableErase CardRec.number e.number h.cards })
  | _ =>
    match cardOfEntry e with
    | none => (some .range, s)
    | some c =>
      if (s.card c.number).isSome ∨ s.hire.cards.length < cardRoom then (none, s.putCard c) else (some .full, s)

/-! ### The steps of a tap (R70 to R76) -/

/-- How a tap comes to be evaluated: reported by a dock (R70), after a REFERRAL ANSWER ALLOW (R79), or at the end of a
referral by deadline or islanding (R81, R82). -/
inductive TapPath where
  | reported | allowed | ended
deriving DecidableEq, Repr

/-- What the evaluation of a tap comes to. -/
inductive TapVerdict where
  | refused (r : Reason)
  /-- EXPIRED, for a pass that R69 may reclaim. -/
  | expiredPass (pass : PassRec)
  /-- Handed to the Van Unit (R72). -/
  | staff
  | granted (g : Grant)
  /-- A referral opens (R75, R78). -/
  | referred
deriving DecidableEq, Repr

/-- The station step: its refusal, or none (R71). -/
def State.stationRefusal (s : State) : Option Reason :=
  if s.trunk.mode ≠ .service then some .stationClosed
  else if s.journal.level ≠ .normal then some .stationClosed
  else if s.trunk.timeValid = false then some .noTime
  else none

/-- Dock presence: its refusal, or none (R72). -/
def State.presenceRefusal (s : State) (p : DockPos) : Option Reason :=
  match (s.dock p).state with
  | .releasing => some .busy
  | .occupied => none
  | _ => some .noBike

/-- Dock fitness for a rider: its refusal, or none (R72). -/
def State.fitnessRefusal (s : State) (p : DockPos) : Option Reason :=
  if (s.dock p).service ≠ .inService ∨ (s.dock p).bike.any (fun b => b.hold != .none || b.pickup) then some .bikeHeld
  else none

/-- Whether a tap goes to the Van Unit: a MEMBER tap of a STAFF card during a visit (R72). -/
def State.isStaffTap (s : State) (n : Nat) (m : Medium) : Bool :=
  m == .member && s.van.visit.isSome && (s.card n).any fun c => c.plan == .staff

/-- The checks of a card record, in order: the refusal, or none (R73). -/
def State.cardRefusal (s : State) (c : CardRec) : Option Reason :=
  if s.inFlight c.number .member then some .busy
  else if c.standing = .barred then some .barred
  else if s.cardExpired c then some .expired
  else if c.standing = .limited ∧ s.trunk.connected = false then some .offlineLimit
  else if c.maxBikes ≤ c.outCount then some .limit
  else if s.trunk.connected = false ∧ c.headroom < s.trunk.settings.minHeadroom then some .offlineLimit
  else none

/-- Whether a pass has reached its ride limit (R67). -/
def PassRec.atLimit (c : PassRec) : Bool := c.rideLimit != 0 && decide (c.rideLimit ≤ c.ridesUsed)

/-- The grant flags of a path: ISLANDED as the trunk is, with STRANGER or REFERRED (R77). -/
def State.flagsFor (s : State) (stranger referred : Bool) : GrantFlags :=
  { stranger := stranger, referred := referred, islanded := !s.trunk.connected, remote := false }

/-- A rider grant on a card or token. -/
def State.riderGrant (s : State) (n : Nat) (m : Medium) (cls : Nat) (stranger referred : Bool) : Grant :=
  { kind := .rider, number := n, medium := m, cls := cls, flags := s.flagsFor stranger referred, provisional := stranger }

/-- The checks of an ACTIVE pass record, in order (R74). -/
def State.passVerdict (s : State) (n : Nat) (c : PassRec) : TapVerdict :=
  if s.inFlight n .token then .refused .busy
  else if s.passExpired c then .expiredPass c
  else if c.maxBikes ≤ c.outCount then .refused .limit
  else if c.atLimit then .refused .limit
  else if s.trunk.connected = false ∧ c.headroom < s.trunk.settings.minHeadroom then .refused .offlineLimit
  else .granted (s.riderGrant n .token c.cls false false)

/-- The stranger rule (R76). -/
def State.strangerVerdict (s : State) (n : Nat) : TapVerdict :=
  if s.inFlight n .member then .refused .busy
  else if s.trunk.settings.strangerRule = .refuse then .refused .unknownCard
  else if s.hire.cards.length < cardRoom then
    .granted (s.riderGrant n .member s.trunk.settings.strangerClass true false)
  else .refused .unknownCard

/-- The most referrals (R78). -/
def referralRoom : Nat := 8

/-- A MEMBER tap that finds no card record, by its path (R75, R79, R81). -/
def State.unknownVerdict (s : State) (path : TapPath) (n : Nat) : TapVerdict :=
  match path with
  | .reported =>
    if s.inFlight n .member then .refused .busy
    else if s.trunk.connected = true ∧ s.hire.referrals.length < referralRoom
        ∧ (s.hire.referrals.any fun r => r.card == n) = false then .referred
    else s.strangerVerdict n
  | .allowed =>
    if s.inFlight n .member then .refused .busy
    else .granted (s.riderGrant n .member s.trunk.settings.strangerClass false true)
  | .ended => s.strangerVerdict n

/-- The lookup and record checks of a tap (R70 steps 5 and 6). -/
def State.lookupVerdict (s : State) (path : TapPath) (n : Nat) (m : Medium) : TapVerdict :=
  match m with
  | .member =>
    match s.card n with
    | some c =>
      match s.cardRefusal c with
      | some r => .refused r
      | none => .granted (s.riderGrant n .member c.cls false false)
    | none => s.unknownVerdict path n
  | .token =>
    match s.passOf n with
    | some c => s.passVerdict n c
    | none => .refused .unknownCard

/-- The evaluation of a tap, its steps in order (R70). -/
def State.tapVerdict (s : State) (path : TapPath) (p : DockPos) (n : Nat) (m : Medium) : TapVerdict :=
  match s.stationRefusal with
  | some r => .refused r
  | none =>
    match s.presenceRefusal p with
    | some r => .refused r
    | none =>
      if s.isStaffTap n m then .staff
      else
        match s.fitnessRefusal p with
        | some r => .refused r
        | none => s.lookupVerdict path n m

/-! ### Staff taps (R144) -/

/-- The refusal of a staff tap during a visit, by the steps of R144 in order, or none. -/
def State.staffRefusal (s : State) (v : Visit) (p : DockPos) (n : Nat) : Option Reason :=
  if (s.dock p).bike.any fun b => b.pickup || (b.hold == .quarantine && v.plan.isNone) then
    if v.load.length + v.inFlight.length < listRoom then s.vanRefusal p n else some .loadFull
  else some .notReserved

/-- A staff tap handed to the Van Unit (R144). -/
def staffTap (k : Kont) (p : DockPos) (n : Nat) (s : State) : State :=
  match s.van.visit, (s.dock p).bike with
  | some v, some b =>
    match s.staffRefusal v p n with
    | some r => showAt k .van p r s
    | none => vanGrantAt k p b n v.serial s
  | _, _ => showAt k .van p .notReserved s

/-! ### Referrals (R78) -/

/-- A referral put in its place: ascending deadline, equal ones in the order they opened (R78). -/
def referralInsert (r : Referral) : List Referral → List Referral
  | [] => [r]
  | x :: xs => if r.deadline < x.deadline then r :: x :: xs else x :: referralInsert r xs

/-- A referral opens: it joins the list, and a REFERRAL REQUEST is offered (R78). -/
def openReferral (p : DockPos) (n stamp : Nat) (s : State) : State :=
  let r : Referral :=
    { card := n, pos := p, stamp := stamp, deadline := satAdd lastTime s.now s.trunk.settings.referralDeadline }
  (s.modHire fun h => { h with referrals := referralInsert r h.referrals }).offer
    (.referralRequest n p s.trunk.station stamp)

/-- The referral of a card leaves the list. -/
def dropReferral (n : Nat) (s : State) : State :=
  s.modHire fun h => { h with referrals := h.referrals.filter fun r => r.card != n }

/-! ### A tap taken whole (R69, R70, R77) -/

/-- A pass that a refused tap found expired is removed if nothing holds it (R69). -/
def reclaimAfter (c : PassRec) (s : State) : State := if s.reclaimable c then s.erasePass c.slot else s

/-- A tap, evaluated and acted on (R70). -/
def takeTap (k : Kont) (path : TapPath) (p : DockPos) (n : Nat) (m : Medium) (stamp : Nat) (s : State) : State :=
  match s.tapVerdict path p n m with
  | .refused r => showAt k .hire p r s
  | .expiredPass c => reclaimAfter c (showAt k .hire p .expired s)
  | .staff => staffTap k p n s
  | .granted g =>
    match grantRelease k p g s with
    | (some r, t) => showAt k .hire p r t
    | (none, t) => t
  | .referred => showAt k .hire p .wait (openReferral p n stamp s)

/-- A referral ends by deadline or islanding: it leaves the list and its tap is decided (R81, R82). -/
def endReferral (k : Kont) (r : Referral) (s : State) : State :=
  takeTap k .ended r.pos r.card .member r.stamp (dropReferral r.card s)

/-- The deadline of a card's referral, if it is open and the deadline has been reached (R81). -/
def referralDeadline (k : Kont) (n : Nat) (s : State) : State :=
  match s.hire.referrals.find? fun r => r.card == n with
  | none => s
  | some r => if r.deadline ≤ s.now then endReferral k r s else s

/-- The trunk has become ISLANDED: every open referral ends, in the order of the list (R82). -/
def islandReferrals (k : Kont) (s : State) : State := s.hire.referrals.foldl (fun t r => endReferral k r t) s

/-- The card record that a REFERRAL ANSWER may carry is loaded as R66 gives for one entry (R79). -/
def loadCarried (a : ReferralReply) (s : State) : State :=
  match a.record with
  | none => s
  | some e => (loadCard e s).2

/-- A REFERRAL ANSWER (R79, R80). -/
def takeAnswer (k : Kont) (a : ReferralReply) (s : State) : State :=
  match s.hire.referrals.find? fun r => r.card == a.card with
  | none => loadCarried a s
  | some r =>
    let t := loadCarried a (dropReferral r.card s)
    if a.allow then takeTap k .allowed r.pos r.card .member r.stamp t else showAt k .hire r.pos .unknownCard t

/-! ### COMMAND RELEASE and COMMAND CANCEL RELEASE (R90, R91) -/

/-- A dock position of a number, 1..60. -/
def posOf (n : Nat) : Option DockPos := if h : 1 ≤ n ∧ n ≤ 60 then some ⟨n - 1, by omega⟩ else none

/-- The tariff class of a remote release: the card's or pass's, else the stranger tariff class (R91). -/
def State.classFor (s : State) (n : Nat) (m : Medium) : Nat :=
  match m with
  | .member =>
    match s.card n with
    | some c => c.cls
    | none => s.trunk.settings.strangerClass
  | .token =>
    match s.passOf n with
    | some c => c.cls
    | none => s.trunk.settings.strangerClass

/-- The refusal of a remote release before the Stock Unit is asked: the station step, dock presence, dock fitness, a
release in flight (R91 steps 2 and 3). -/
def State.remoteRefusal (s : State) (p : DockPos) (n : Nat) (m : Medium) : Option Reason :=
  match s.stationRefusal with
  | some r => some r
  | none =>
    match s.presenceRefusal p with
    | some r => some r
    | none =>
      match s.fitnessRefusal p with
      | some r => some r
      | none => if s.inFlight n m then some .busy else none

/-- The grant of a remote release (R91 step 4). -/
def State.remoteGrant (s : State) (n : Nat) (m : Medium) : Grant :=
  { kind := .remote, number := n, medium := m, cls := s.classFor n m
    flags := { s.flagsFor false false with remote := true }, provisional := false }

/-- Whether the fields of a RELEASE are within their encodings (R91, R203). -/
def releaseEncoded (o : ReleaseOrder) : Bool := (posOf o.pos).isSome && (mediumOf o.medium).isSome

/-- COMMAND RELEASE: its result and the state after it (R91). -/
def remoteRelease (k : Kont) (o : ReleaseOrder) (s : State) : CommandResult × State :=
  match posOf o.pos, mediumOf o.medium with
  | some p, some m =>
    if o.number = 0 then (.range, s)
    else
      match s.remoteRefusal p o.number m with
      | some r => (.refused r, s)
      | none =>
        match grantRelease k p (s.remoteGrant o.number m) s with
        | (some r, t) => (.refused r, t)
        | (none, t) => (.accepted, t)
  | _, _ => (.range, s)

/-- COMMAND CANCEL RELEASE: its result and the state after it (R90). DEDUCED, log 46. -/
def remoteCancel (k : Kont) (p : DockPos) (s : State) : CommandResult × State :=
  match s.releaseAt p with
  | none => (.none, s)
  | some r => (.accepted, cancelRelease k r s)

end Sys2Proof.Machine
end

