-- ==== Sys2Proof/Machine/Returns.lean ====
section
/-! DEFINITION. Returns, fares and waivers (06_returns_and_fares.md). -/

namespace Sys2Proof.Machine

open Sys2Proof

/-- A return as the Stock Unit hands it on (R109). -/
structure Return where
  pos    : DockPos
  bike   : Nat
  kind   : BikeKind
  token  : HireToken
  stamp  : Nat
  wanted : Bool
  late   : Bool
deriving DecidableEq, Repr

/-! ### Stages of the fare (R115 to R119) -/

/-- The longest ride that is priced, 48 hours (R115). -/
def longestRide : Nat := 172800

/-- Duration, with CLOCK SKEW and OVERDUE (R115). -/
structure Duration where
  d       : Nat
  skew    : Bool
  overdue : Bool
deriving DecidableEq, Repr

/-- The duration of a ride from S to E (R115). -/
def durationOf (start stop : Nat) : Duration :=
  if stop < start then ⟨0, true, false⟩
  else if longestRide < stop - start then ⟨longestRide, false, true⟩
  else ⟨stop - start, false, false⟩

/-- Billed minutes: d divided by 60, rounded up (R117). -/
def billedMinutes (d : Nat) : Nat := (d + 59) / 60

/-- The number of blocks: q divided by K, rounded up (R118). -/
def blockCount (q block : Nat) : Nat := (q + (block - 1)) / block

/-- The rate of the block that begins at a chargeable minute: the first band but the last whose U reaches it, else the last
band's (R118). -/
def rateAt (minute : Nat) : List Band → Nat
  | [] => 0
  | [b] => b.rate
  | b :: bs => if minute ≤ b.upper then b.rate else rateAt minute bs

/-- The sum of the first `n` block rates, saturating (R118). -/
def bandSumTo (t : Tariff) : Nat → Nat
  | 0 => 0
  | n + 1 => addMoney (bandSumTo t n) (rateAt (n * t.block + 1) t.bands)

/-- What the stages up to the gross give (R116 to R119). -/
structure Price where
  short     : Bool
  minutes   : Nat
  bandSum   : Nat
  unlockFee : Nat
  gross     : Nat
deriving DecidableEq, Repr

/-- The price of a ride of duration `d` (R116 to R119). -/
def priceOf (t : Tariff) (kind : BikeKind) (d : Nat) : Price :=
  if d ≤ t.grace then ⟨true, 0, 0, 0, 0⟩
  else
    let m := billedMinutes d
    let sum := bandSumTo t (blockCount (m - t.free) t.block)
    let fee := perKind t.unlockFee kind
    ⟨false, m, sum, fee, addMoney sum fee⟩

/-! ### The record of a return (R111, R120 to R124) -/

/-- What the fare reads and writes of a card or pass record. -/
structure Account where
  outCount : Nat
  headroom : Nat
  day      : Int
  dayTotal : Nat
  /-- The reward balance; a pass holds none (R120). -/
  reward   : Option Nat
deriving DecidableEq, Repr

/-- The account of a card record. -/
def CardRec.account (c : CardRec) : Account :=
  { outCount := c.outCount, headroom := c.headroom, day := c.day, dayTotal := c.dayTotal, reward := some c.reward }

/-- The account of a pass record. -/
def PassRec.account (c : PassRec) : Account :=
  { outCount := c.outCount, headroom := c.headroom, day := c.day, dayTotal := c.dayTotal, reward := none }

/-- The account that a token names (R111). -/
def State.account (s : State) (n : Nat) (m : Medium) : Option Account :=
  match m with
  | .member => (s.card n).map CardRec.account
  | .token => (s.passOf n).map PassRec.account

/-- The account that a token names, written back. -/
def State.putAccount (s : State) (n : Nat) (m : Medium) (a : Account) : State :=
  match m with
  | .member =>
    match s.card n with
    | none => s
    | some c =>
      s.putCard
        { c with
          outCount := a.outCount, headroom := a.headroom, day := a.day, dayTotal := a.dayTotal
          reward := a.reward.getD c.reward }
  | .token =>
    match s.passOf n with
    | none => s
    | some c =>
      s.putPass { c with outCount := a.outCount, headroom := a.headroom, day := a.day, dayTotal := a.dayTotal }

/-- The largest reward balance (R65). -/
def rewardRoom : Nat := 2000

/-- What the stages from reward use on give, with the account after the return (R120 to R124). -/
structure Charge where
  rewardUsed   : Nat
  rewardEarned : Nat
  capReduction : Nat
  charge       : Nat
  account      : Account
deriving DecidableEq, Repr

/-- The out count after a return: it falls where the hire began here (R124). -/
def Account.returned (a : Account) (here : Bool) : Account :=
  { a with outCount := if here then a.outCount - 1 else a.outCount }

/-- The most that a daily cap leaves, or no limit where it is 0 (R123). -/
def capped (cap dayTotal net : Nat) : Nat := if cap = 0 then net else min net (cap - dayTotal)

/-- The stages reward use, reward earned, day, cap and update on an account (R120 to R124). `earns` is the reward amount
where the conditions of R121 on the return hold, else 0. -/
def chargeOn (t : Tariff) (gross earns : Nat) (day : Int) (here : Bool) (a : Account) : Charge :=
  let used :=
    match a.reward with
    | some r => min r gross
    | none => 0
  let net := gross - used
  let earned := if a.reward.isSome then earns else 0
  let total := if a.day = day then a.dayTotal else 0
  let charge := capped t.dailyCap total net
  { rewardUsed := used, rewardEarned := earned, capReduction := net - charge, charge := charge
    account :=
      { (a.returned here) with
        headroom := a.headroom - charge
        day := day
        dayTotal := addMoney total charge
        reward := a.reward.map fun r => if earned = 0 then r - used else min rewardRoom (r - used + earned) } }

/-! ### The return (R109 to R114, R125 to R128) -/

/-- The HIRE END records held for a bike and the hire of a token, oldest first (R110). -/
def State.earlier (s : State) (r : Return) : List (Nat × HireEnd) :=
  s.journal.records.filterMap fun x =>
    match x.body with
    | .hireEnd h =>
      if h.bike = r.bike ∧ h.number = r.token.number ∧ h.medium = r.token.medium ∧ h.start = r.token.start
          ∧ h.station = r.token.station then
        some (x.seq, h)
      else none
    | _ => none

/-- The repeated sequence: the oldest matching record without REPEAT, else what the oldest of them repeats (R110). -/
def repeatedSeqOf (l : List (Nat × HireEnd)) : Option Nat :=
  match l.find? fun x => !x.2.flags.repeated with
  | some x => some x.1
  | none =>
    match l with
    | [] => none
    | x :: _ => x.2.repeatedSeq

/-- The class used for a token's class, or none when neither it nor class 0 is loaded (R113). -/
def State.classUsed (s : State) (cls : Nat) : Option (Nat × Tariff) :=
  match (s.hire.tariffs[cls]?).getD none with
  | some t => some (cls, t)
  | none =>
    match s.hire.tariffs[(0 : Fin 8)] with
    | some t => some (0, t)
    | none => none

/-- No flag of a HIRE END. -/
def HireEndFlags.none : HireEndFlags := ⟨false, false, false, false, false, false, false, false, false, false⟩

/-- The HIRE END of a return with every computed field at 0 (R126). -/
def hireEndBase (r : Return) (islanded : Bool) : HireEnd :=
  { number := r.token.number, medium := r.token.medium, bike := r.bike, kind := r.kind, pos := r.pos
    start := r.token.start, station := r.token.station, stop := r.stamp, grant := r.token.flags
    tokenClass := r.token.cls, classUsed := none, minutes := 0, bandSum := 0, unlockFee := 0, rewardUsed := 0
    rewardEarned := 0, capReduction := 0, charge := 0, repeatedSeq := none
    flags := { HireEndFlags.none with islanded := islanded, lateReport := r.late } }

/-- The HIRE END of a return with a given state of the trunk. -/
def State.hireEndFor (s : State) (r : Return) : HireEnd := hireEndBase r (!s.trunk.connected)

/-- Whether the hire of a token began at this station; a token of station 0 began at another (R124, 11.3). -/
def State.beganHere (s : State) (t : HireToken) : Bool := t.station != 0 && t.station == s.trunk.station

/-- A return that is not priced, for want of a class or of the time: the out count alone may change (R113, R114). -/
def unpriced (r : Return) (s : State) : State :=
  match s.account r.token.number r.token.medium with
  | none => s
  | some a => s.putAccount r.token.number r.token.medium (a.returned (s.beganHere r.token))

/-- CLEAR TOKEN is submitted after a return (R127). -/
def clearReturn (k : Kont) (r : Return) (s : State) : State :=
  submitClear k { pos := r.pos, id := r.token.ident, made := 1, bike := some r.bike } s

/-- The most entries of the recent-returns list (R128). -/
def recentRoom : Nat := 16

/-- An entry joins the recent-returns list; the oldest leaves a full one (R128). -/
def joinRecent (e : RecentReturn) (l : List RecentReturn) : List RecentReturn :=
  if l.length < recentRoom then l ++ [e] else l.tail ++ [e]

/-- A priced return is entered in the recent-returns list unless its expiry has been reached (R128).
DESIGN CHOICE, log 27. -/
def enterRecent (r : Return) (h : HireEnd) (seq : Option Nat) (s : State) : State :=
  let expiry := satAdd lastTime r.stamp s.trunk.settings.waiverWindow
  if expiry ≤ s.now then s
  else
    s.modHire fun x =>
      { x with
        recent :=
          joinRecent
            { pos := r.pos, bike := r.bike, number := r.token.number, medium := r.token.medium, charge := h.charge
              rewardUsed := h.rewardUsed, day := s.dayOf r.stamp, seq := seq, expiry := expiry
              noRecord := h.flags.noRecord }
            x.recent }

/-- The reward amount a return earns by the conditions of R121 that do not bear on its record. -/
def State.earns (s : State) (t : Tariff) (r : Return) (d : Nat) : Nat :=
  if r.wanted = true ∧ s.trunk.settings.rewardMinRide ≤ d ∧ s.beganHere r.token = false ∧ r.token.medium = .member then
    t.reward
  else 0

/-- The HIRE END of a priced return, with the account it leaves where a record was found (R113, R115 to R125). -/
def State.priced (s : State) (r : Return) (cls : Nat) (t : Tariff) : HireEnd × Option Account :=
  let h := s.hireEndFor r
  let u := durationOf r.token.start r.stamp
  let p := priceOf t r.kind u.d
  let h :=
    { h with
      classUsed := some cls, minutes := p.minutes, bandSum := p.bandSum, unlockFee := p.unlockFee
      flags :=
        { h.flags with
          short := p.short, overdue := u.overdue, clockSkew := u.skew, classSubstituted := cls != r.token.cls } }
  match s.account r.token.number r.token.medium with
  | none => ({ h with charge := p.gross, flags := { h.flags with noRecord := true } }, none)
  | some a =>
    let c := chargeOn t p.gross (s.earns t r u.d) (s.dayOf r.stamp) (s.beganHere r.token) a
    ({ h with
        rewardUsed := c.rewardUsed, rewardEarned := c.rewardEarned, capReduction := c.capReduction, charge := c.charge },
      some c.account)

/-- The flag NO RECORD of a HIRE END that is not priced. DEDUCED, log 44. -/
def State.noRecordFlag (s : State) (r : Return) (h : HireEnd) : HireEnd :=
  { h with flags := { h.flags with noRecord := (s.account r.token.number r.token.medium).isNone } }

/-- The HIRE END of a return without a loaded class or class 0 (R113). -/
def State.hireEndNoTariff (s : State) (r : Return) : HireEnd :=
  let h := s.noRecordFlag r (s.hireEndFor r)
  { h with flags := { h.flags with noTariff := true } }

/-- The HIRE END of a return while station time is not valid (R114). -/
def State.hireEndTimeInvalid (s : State) (r : Return) (cls : Nat) : HireEnd :=
  let h := s.noRecordFlag r (s.hireEndFor r)
  { h with
    classUsed := some cls
    flags := { h.flags with timeInvalid := true, classSubstituted := cls != r.token.cls } }

/-- The HIRE END of a repeat (R110). -/
def State.hireEndRepeat (s : State) (r : Return) (l : List (Nat × HireEnd)) : HireEnd :=
  let h := s.hireEndFor r
  { h with repeatedSeq := repeatedSeqOf l, flags := { h.flags with repeated := true } }

/-- HIRE END is appended and CLEAR TOKEN submitted (R109 steps 6 and 7). -/
def finishReturn (k : Kont) (r : Return) (h : HireEnd) (s : State) : State :=
  clearReturn k r (append k (.hireEnd h) s)

/-- The "overdue" fault, code 11 of table 8-1, of a ride longer than 48 hours (R115). -/
def raiseOverdue (k : Kont) (r : Return) (s : State) : State :=
  if (durationOf r.token.start r.stamp).overdue then k (.raise (.bike r.bike) 11) s else s

/-- The account that a pricing leaves, written back (R124). -/
def settleAccount (r : Return) (a : Option Account) (s : State) : State :=
  match a with
  | some a => s.putAccount r.token.number r.token.medium a
  | none => s

/-- A return priced in a state: its record updated, HIRE END appended, CLEAR TOKEN submitted, and the recent-returns list
(R109, R124, R128). -/
def finishPriced (k : Kont) (r : Return) (x : HireEnd × Option Account) (s : State) : State :=
  let u := settleAccount r x.2 s
  enterRecent r x.1 u.nextSeq (finishReturn k r x.1 u)

/-- A priced return (R109, R115, R124, R128). -/
def takePriced (k : Kont) (r : Return) (cls : Nat) (t : Tariff) (s : State) : State :=
  let u := raiseOverdue k r s
  finishPriced k r (u.priced r cls t) u

/-- A return, taken whole (R109). DEDUCED, log 43. -/
def takeReturn (k : Kont) (r : Return) (s : State) : State :=
  match s.earlier r with
  | x :: xs => finishReturn k r (s.hireEndRepeat r (x :: xs)) s
  | [] =>
    match s.classUsed r.token.cls with
    | none => finishReturn k r (s.hireEndNoTariff r) (unpriced r s)
    | some (cls, t) =>
      if s.trunk.timeValid then takePriced k r cls t s
      else finishReturn k r (s.hireEndTimeInvalid r cls) (unpriced r s)

/-! ### The recent-returns list and waivers (R128 to R131) -/

/-- The entry at a place leaves the list if its expiry has been reached (R128). -/
def expireRecentAt (place : Nat) (s : State) : State :=
  match s.hire.recent[place]? with
  | none => s
  | some e => if e.expiry ≤ s.now then s.modHire fun h => { h with recent := removeAt place h.recent } else s

/-- Every entry whose expiry has been reached leaves the list (R128, R197). -/
def expireRecents (s : State) : State :=
  s.modHire fun h => { h with recent := h.recent.filter fun e => s.now < e.expiry }

/-- The account after a waiver (R130). -/
def Account.waived (a : Account) (e : RecentReturn) : Account :=
  { a with
    dayTotal := if a.day = e.day then a.dayTotal - e.charge else a.dayTotal
    headroom := addMoney a.headroom e.charge
    reward := a.reward.map fun r => min rewardRoom (r + e.rewardUsed) }

/-- The FARE WAIVED record of an entry (R131). DEDUCED, log 51. -/
def waivedRecord (e : RecentReturn) (stamp : Nat) (a : Option Account) : JournalBody :=
  .fareWaived
    { seq := e.seq, number := e.number, medium := e.medium, bike := e.bike, pos := e.pos, amount := e.charge
      rewardRestored := e.rewardUsed, dayReduced := a.any (fun a => a.day == e.day), stamp := stamp
      noRecord := a.isNone }

/-- The account that a waiver gives back to: that of the record named in the entry as it now stands (R130), and none for an
entry made by a return priced with NO RECORD, though a record has been loaded since (R131). DEDUCED, log 76. -/
def State.waiverAccount (s : State) (e : RecentReturn) : Option Account :=
  if e.noRecord then none else s.account e.number e.medium

/-- The entry at a place is waived (R130, R131). -/
def waive (k : Kont) (place : Nat) (e : RecentReturn) (stamp : Nat) (s : State) : State :=
  let a := s.waiverAccount e
  let t :=
    match a with
    | some a => s.putAccount e.number e.medium (a.waived e)
    | none => s
  (append k (waivedRecord e stamp a) t).modHire fun h => { h with recent := removeAt place h.recent }

/-- The place of the newest entry for a dock (R129 step 3). -/
def newestFor (p : DockPos) (l : List RecentReturn) : Option Nat :=
  (List.range l.length).reverse.find? fun i => l[i]?.any fun e => e.pos == p

/-- A FAULT BUTTON: the "rider report" fault is code 10 of table 8-1 (R129). In the second of its expiry an entry that is still
in the list has not expired: the press is taken first. DEDUCED, log 81. -/
def faultButton (k : Kont) (p : DockPos) (stamp : Nat) (s : State) : State :=
  match (s.dock p).docked with
  | none => s
  | some b =>
    let t := k (.raise (.bike b.id) 10) s
    match newestFor p t.hire.recent with
    | none => t
    | some i =>
      match t.hire.recent[i]? with
      | none => t
      | some e => if t.now ≤ e.expiry ∧ e.bike = b.id then waive k i e stamp t else t

end Sys2Proof.Machine
end

