-- ==== Sys2Proof/Machine/StockEvents.lean ====
section
/-! DEFINITION. What the Stock Unit does with what a dock reports (R36, R41 to R45, R49 to R53) and with the drop table
(R36). -/

namespace Sys2Proof.Machine

open Sys2Proof

/-! ### Docking (R42, R43, R44) -/

/-- The hold that a docking decides, with whether a "marked elsewhere" fault goes with it (R43). -/
def State.dockingHold (s : State) (b : Bike) : Hold × Bool :=
  if s.fault.quarantined b.id then (.quarantine, false)
  else if b.mark = true ∧ s.fault.recorded b.id = false then (.quarantine, true)
  else if belowRideMin s.trunk.settings b then (.chargeHold, false)
  else (.none, false)

/-- The bike fields of a docking, before the hold (R42); a battery of 255 of an ELECTRIC bike is taken as 0 (R202). -/
def bikeOf (t : TagReport) (stamp : Nat) : Bike :=
  { id := t.bike, kind := t.kind, dockedAt := stamp
    battery := if t.kind = .electric then some (t.battery.getD 0) else none
    contact := t.contact, hold := .none, pickup := false, mark := t.mark, idOnly := false }

/-- A record filled by a docking (R42). -/
def DockRec.filled (d : DockRec) (b : Bike) : DockRec :=
  { d with
    state := .occupied, bike := some b, charge := .notCharging, barred := false, lock := some .locked, vanDrop := false }

/-- Whether a record names a bike: in it, released from it, or last known (R42). -/
def DockRec.names (d : DockRec) (bike : Nat) : Bool := d.bike.any fun b => b.id == bike

/-- One other record that names a docking bike gives it up (R42). -/
def giveUp (k : Kont) (bike stamp : Nat) (p : DockPos) (s : State) (q : DockPos) : State :=
  if q ≠ p ∧ (s.dock q).names bike = true then
    match (s.dock q).state with
    | .occupied => emptied k q s
    | .releasing => releaseRemoved k q stamp s
    | _ => s.modDock q fun d => { d with bike := none }
  else s

/-- Every other record that names a docking bike gives it up; one "record conflict" fault, code 12, follows (R42). -/
def giveUpAll (k : Kont) (bike stamp : Nat) (p : DockPos) (s : State) : State :=
  let t := positions.foldl (giveUp k bike stamp p) s
  if positions.any fun q => q != p && (s.dock q).names bike then k (.raise (.bike bike) 12) t else t

/-- What follows a docking's QUARANTINE: the "marked elsewhere" fault, code 14, or MARK FAULT set where the tag's mark is
clear (R43, R160), and the report to the Van Unit (R43, R142). -/
def afterHold (k : Kont) (p : DockPos) (b : Bike) (h : Hold × Bool) (s : State) : State :=
  if h.1 = .quarantine then
    let t :=
      if h.2 then k (.raise (.bike b.id) 14) s else if b.mark then s else markFault k p b.id true s
    tellQuarantine p t
  else s

/-- The docking is handed on (R44). `quiet` keeps back the ARRIVAL of a docking with no visit alone: with a visit active and
its drop list full the Van Unit appends one (R146). DEDUCED, log 73. -/
def handOn (k : Kont) (p : DockPos) (t : TagReport) (stamp : Nat) (late quiet wanted reserved : Bool) (s : State) : State :=
  match t.token with
  | some tok =>
    let u :=
      takeReturn k
        { pos := p, bike := t.bike, kind := t.kind, token := tok, stamp := stamp, wanted := wanted, late := late } s
    if reserved then moveDrop p u else u
  | none =>
    match s.van.visit, (s.dock p).bike with
    | some _, some b => vanDropped k p b stamp reserved s
    | _, _ => if quiet then s else append k (.arrival t.bike t.kind p none) s

/-- A docking (R42 to R44): `late` marks one that came from a PRESENT, `quiet` one that appends no ARRIVAL, and `wanted` is
WANTED for the bike's kind as it stood when the event was taken. DEDUCED, log 22. -/
def docking (k : Kont) (p : DockPos) (t : TagReport) (stamp : Nat) (late quiet wanted : Bool) (s : State) : State :=
  let reserved := (s.dock p).vanDrop
  let b := bikeOf t stamp
  let h := s.dockingHold b
  let u := s.modDock p fun d => d.filled { b with hold := h.1 }
  let u := afterHold k p b h (giveUpAll k t.bike stamp p u)
  chargeAgain k p (handOn k p t stamp late quiet wanted reserved u)

/-! ### Updates of the same bike (R41, R50, R51) -/

/-- The battery of a bike after a report of it: read for an ELECTRIC bike only, and kept where none is given (R202). -/
def Bike.withBattery (b : Bike) (n : Option Nat) : Bike :=
  if b.kind = .electric then { b with battery := n.orElse fun _ => b.battery } else b

/-- The bike fields after a tag report of the same bike (R41, R50). A bike kept by a RESTART as its identifier alone takes
its kind from the report and open values for the rest (log 13). DEDUCED, log 20. -/
def Bike.updated (b : Bike) (t : TagReport) : Bike :=
  let b :=
    if b.idOnly then
      { b with
        kind := t.kind, idOnly := false
        battery := if t.kind = .electric then some (Config.batteryAfterRestart b.id).val else none }
    else b
  { (b.withBattery t.battery) with contact := t.contact, mark := t.mark }

/-- A record is OCCUPIED by a bike whose fields a report has updated (R41, R50). -/
def DockRec.occupiedBy (d : DockRec) (b : Bike) : DockRec := { d with state := .occupied, bike := some b }

/-- The first report of a bike that a RESTART kept by its identifier alone (R64): the hold that R64 cleared is decided by the
Fault Unit's standing of the bike, as at a docking, and charging is evaluated (R43, R171). DEDUCED, log 64. -/
def findAgain (k : Kont) (p : DockPos) (b : Bike) (s : State) : State :=
  let h := s.dockingHold b
  chargeAgain k p (afterHold k p b h (s.modDock p fun d => d.occupiedBy { b with hold := h.1 }))

/-- An update of the bike `b` in a record, which is then OCCUPIED; hold and charging are evaluated again (R41, R50). -/
def updateBike (k : Kont) (p : DockPos) (b : Bike) (t : TagReport) (s : State) : State :=
  if b.idOnly then findAgain k p (b.updated t) s
  else evaluateAgain k p (s.modDock p fun d => d.occupiedBy (b.updated t))

/-! ### BIKE DOCKED, BIKE REMOVED, RELOCKED (R41, R45) -/

/-- A BIKE DOCKED against the record of its position (R41). DEDUCED, log 23. -/
def takeDocked (k : Kont) (p : DockPos) (t : TagReport) (stamp : Nat) (s : State) : State :=
  let wanted := s.stock.wanted t.kind
  match (s.dock p).state, (s.dock p).bike with
  | .empty, _ => docking k p t stamp false false wanted s
  | .unknown, _ => docking k p t stamp false false wanted s
  | .occupied, some b =>
    if b.id = t.bike then updateBike k p b t s else docking k p t stamp false false wanted (writeOff k p s)
  | .occupied, none => docking k p t stamp false false wanted (writeOff k p s)
  | .releasing, _ =>
    if (s.dock p).names t.bike then releaseRelocked k p s
    else docking k p t stamp false false wanted (releaseRemoved k p stamp s)
  | _, _ => s

/-- A BIKE DOCKED (R41). -/
def bikeDocked (k : Kont) (p : DockPos) (t : TagReport) (stamp : Nat) (s : State) : State :=
  stockDone (takeDocked k p t stamp s)

/-- A BIKE REMOVED (R40, R45). -/
def bikeRemoved (k : Kont) (p : DockPos) (stamp : Nat) (s : State) : State :=
  stockDone
    (match (s.dock p).state with
     | .releasing => releaseRemoved k p stamp s
     | .occupied => writeOff k p s
     | _ => s)

/-- A RELOCKED (R40, R45). -/
def bikeRelocked (k : Kont) (p : DockPos) (s : State) : State :=
  stockDone
    (match (s.dock p).state with
     | .releasing => releaseRelocked k p s
     | .occupied => s.modDock p fun d => { d with lock := some .locked }
     | _ => s)

/-! ### Reconciliation (R49, R50, R51, R62) -/

/-- A record is settled: the settling mark is set and RESYNC submitted (R49). -/
def settle (k : Kont) (p : DockPos) (s : State) : State :=
  if (s.dock p).settling then s
  else submitAt k p .resync (.settle p) (s.modDock p fun d => { d with settling := true })

/-- The outcome of the Stock Unit's RESYNC (R49). -/
def settleOutcome (p : DockPos) (o : CmdOutcome) (s : State) : State :=
  if o = .ack then s else stockDone (s.modDock p fun d => { d with settling := false })

/-- A PRESENT for a RELEASING record: the Hire Unit takes it, and another bike shown is then a late docking against the
record that results (R40, R88, R89). -/
def presentReleasing (k : Kont) (p : DockPos) (t : Option TagReport) (stamp : Nat) (wanted : Bool) (s : State) : State :=
  let u := releasePresent k p (t.map TagReport.bike) stamp s
  match t with
  | none => u
  | some t => if (s.dock p).names t.bike then u else docking k p t stamp true false wanted u

/-- A PRESENT against the record (R50). -/
def takePresent (k : Kont) (p : DockPos) (t : Option TagReport) (stamp : Nat) (s : State) : State :=
  let wanted := t.any fun t => s.stock.wanted t.kind
  match (s.dock p).state, (s.dock p).bike, t with
  | .unknown, none, some t => docking k p t stamp true true wanted s
  | .unknown, none, none => emptied k p s
  | .empty, _, some t => docking k p t stamp true false wanted s
  | .empty, _, none => s
  | .releasing, _, t => presentReleasing k p t stamp wanted s
  | .unused, _, _ => s
  | .lost, _, _ => s
  | _, some b, some t =>
    if b.id = t.bike then updateBike k p b t s else docking k p t stamp true false wanted (writeOff k p s)
  | _, _, none => writeOff k p s
  | _, none, some t => docking k p t stamp true false wanted s

/-- A PRESENT from a dock: it clears the settling mark, settles the record, and is followed by an owed CHARGE OFF (R49,
R50, R56). -/
def presentDock (k : Kont) (p : DockPos) (t : Option TagReport) (stamp : Nat) (s : State) : State :=
  stockDone
    (chargeOffAgain k p (takePresent k p t stamp (s.modDock p fun d => { d with settling := false })))

/-- A malformed PRESENT from a dock: the settling mark is cleared; a checking release takes it as NAK (R202). -/
def presentMalformed (k : Kont) (p : DockPos) (s : State) : State :=
  let t := stockDone (s.modDock p fun d => { d with settling := false })
  match (s.dock p).state, t.releaseAt p with
  | .releasing, some r => if r.checking then checkFailed k r t else t
  | _, _ => t

/-- The battery that a STATUS gives is taken for the bike of a record: its hold is evaluated again (R46), and the entry of a
WAITING dock moves to its new place at once (R54), before anything else is taken. -/
def takeBattery (p : DockPos) (n : Option Nat) (s : State) : State :=
  let t := holdAgain p (s.modBike p fun b => b.withBattery n)
  if (t.dock p).charge = .waiting then joinWait p t else t

/-- A STATUS that agrees on the bike of an OCCUPIED record: battery, hold, contact, charging (R51, R46, R54, R58). -/
def statusUpdate (k : Kont) (p : DockPos) (st : DockStatus) (s : State) : State :=
  chargeAgain k p (takeContact k p st.contact (takeBattery p st.battery s))

/-- The contents of a STATUS against the record (R51). -/
def takeStatus (k : Kont) (p : DockPos) (st : DockStatus) (stamp : Nat) (s : State) : State :=
  match (s.dock p).state, st.bike with
  | .empty, some _ => settle k p s
  | .empty, none => s
  | .unknown, some _ => settle k p s
  | .unknown, none => takePresent k p none stamp (s.modDock p fun d => { d with settling := false })
  | .occupied, none => writeOff k p s
  | .occupied, some b => if (s.dock p).names b then statusUpdate k p st s else settle k p (writeOff k p s)
  | _, _ => s

/-- The return gate that a STATUS shows (R62). -/
def statusGate (k : Kont) (p : DockPos) (g : Gate) (s : State) : State :=
  if g ≠ (s.dock p).gate ∧ (s.dock p).gatePending = false then setGate k p (s.dock p).gate s else s

/-- A good STATUS from a dock (R51, R62, R56). DEDUCED, log 21. -/
def dockStatus (k : Kont) (p : DockPos) (st : DockStatus) (stamp : Nat) (s : State) : State :=
  stockDone
    (chargeOffAgain k p
      (statusGate k p st.gate (takeStatus k p st stamp (s.modDock p fun d => { d with lock := some st.lock }))))

/-! ### Loss and recovery (R52, R53) -/

/-- A dock is reported LOST: the "dock lost" fault is code 4 of table 8-1 (R52). -/
def dockLost (k : Kont) (p : DockPos) (s : State) : State :=
  let t := s.modDock p fun d => { d with state := .lost, settling := false, gatePending := false }
  let t := moveDropFrom p (dropPickup p (leaveLists k p (releaseLost k p t)))
  stockDone (k (.raise (.dock p) 4) t)

/-- A LOST dock is reported recovered (R53). -/
def dockRecovered (p : DockPos) (s : State) : State :=
  stockDone (s.modDock p fun d => { d with state := .unknown, settling := true })

/-! ### The drop table (R36) -/

/-- A DOCK entry has taken a position (R36). -/
def dockTaken (p : DockPos) (s : State) : State :=
  stockDone (s.modDock p fun d => { d with state := .unknown, bike := none })

/-- A dock record whose position has lost its entry (R36); its charge barred mark stays. DESIGN CHOICE, log 59. -/
def DockRec.left (d : DockRec) : DockRec :=
  { d with state := .unused, bike := none, lock := none, settling := false, offPending := false, gatePending := false }

/-- A position has lost its DOCK entry (R36). DEDUCED, log 24. -/
def dockLeft (k : Kont) (p : DockPos) (s : State) : State :=
  let t := (leaveLists k p s).modDock p fun d => { d with offOwed := false }
  stockDone ((dropPickup p (moveDropFrom p t)).modDock p DockRec.left)

end Sys2Proof.Machine
end

