-- ==== Sys2Proof/Machine/Sales.lean ====
section
/-! DEFINITION. The pass table's operations (R68) and the Sale Unit (05_pass_sales_at_the_pay_terminals.md). -/

namespace Sys2Proof.Machine

open Sys2Proof

/-! ### The pass table (R67, R68) -/

/-- The most pass records (R67). -/
def passRoom : Nat := 256

/-- The lowest slot number in no use (log 4). -/
def freeSlot (l : List PassRec) : Nat := ((List.range passRoom).find? fun n => l.all fun p => p.slot != n).getD passRoom

/-- The order in which expired passes are reclaimed: earliest valid until, then earliest created at (R68). -/
def reclaimBefore (p q : PassRec) : Bool :=
  if p.validUntil ≠ q.validUntil then decide (p.validUntil < q.validUntil) else decide (p.createdAt < q.createdAt)

/-- The record that a reserve removes from a full table (R68); of two that agree in valid until and created at, the one of the
lower slot number. DESIGN CHOICE, log 61. -/
def State.toReclaim (s : State) : Option PassRec :=
  (s.hire.passes.filter s.reclaimable).foldl
    (fun a p =>
      match a with
      | none => some p
      | some q => if reclaimBefore p q then some p else some q)
    none

/-- A new RESERVED record (R68): created at is the rule's, and the other fields are set until the activation writes them.
DESIGN CHOICE, log 62. -/
def reservedPass (slot now : Nat) : PassRec :=
  { slot := slot, token := none, kind := 1, validUntil := 0, ridesUsed := 0, rideLimit := 0, maxBikes := 1, outCount := 0
    headroom := 0, cls := 0, day := 0, dayTotal := 0, createdAt := now }

/-- A RESERVED record is made in the lowest free slot. -/
def makeReserved (s : State) : Nat × State :=
  (freeSlot s.hire.passes, s.putPass (reservedPass (freeSlot s.hire.passes) s.now))

/-- Reserve a slot: the slot, or none for FULL (R68). -/
def reserveSlot (s : State) : Option Nat × State :=
  if s.hire.passes.length < passRoom then (some (makeReserved s).1, (makeReserved s).2)
  else
    match s.toReclaim with
    | none => (none, s)
    | some p => (some (makeReserved (s.erasePass p.slot)).1, (makeReserved (s.erasePass p.slot)).2)

/-- Free a slot (R68). -/
def freePass (slot : Option Nat) (s : State) : State :=
  match slot with
  | none => s
  | some n => s.erasePass n

/-- The ACTIVE record that an activation makes of a RESERVED one (R68, R102). -/
def PassRec.activated (p : PassRec) (token now : Nat) (t : OfferTerms) : PassRec :=
  { p with
    token := some token, kind := t.kind, validUntil := satAdd lastTime now t.entry.duration, ridesUsed := 0
    rideLimit := t.entry.rideLimit, maxBikes := t.entry.maxBikes, outCount := 0, headroom := t.entry.headroom
    cls := t.entry.cls, day := 0, dayTotal := 0 }

/-- The record that an extension makes of an ACTIVE one (R68). -/
def PassRec.extended (p : PassRec) (now : Nat) (t : OfferTerms) : PassRec :=
  { p with
    validUntil := satAdd lastTime (max p.validUntil now) t.entry.duration
    rideLimit :=
      if p.rideLimit = 0 ∨ t.entry.rideLimit = 0 then 0 else satAdd 65535 p.rideLimit t.entry.rideLimit
    headroom := addMoney p.headroom t.entry.headroom }

/-! ### Sale records -/

/-- A sale record as a PAY entry makes it (R96). The offer time and the deadline are 0 before the first offer. DESIGN CHOICE,
log 70. -/
def newSale (d : Drop) : SaleRec :=
  { terminal := d, state := .idle, ref := 0, terms := none, slot := none, offerTime := 0, deadline := 0
    unanswered := false, ready := .unknown }

/-- A PAY entry has been applied at an address (R96). -/
def saleTaken (d : Drop) (s : State) : State := s.putSale (newSale d)

/-- The entry at an address has left PAY (R96). -/
def saleLeft (d : Drop) (s : State) : State :=
  { s with sale := { s.sale with sales := tableErase (fun r => dropKey r.terminal) (dropKey d) s.sale.sales } }

/-- A sale record changed, where the terminal has one. -/
def State.modSale (s : State) (d : Drop) (f : SaleRec → SaleRec) : State :=
  match s.saleOf d with
  | none => s
  | some r => s.putSale (f r)

/-- The terminal ready field is taken (R96). -/
def terminalReady (d : Drop) (x : Ready) (s : State) : State := s.modSale d fun r => { r with ready := x }

/-! ### The request and the offer (R98, R99) -/

/-- The PASS KINDS entry of a kind 1..4 that is on sale (R98 check 5). -/
def State.kindOnSale (s : State) (kind : Nat) : Option PassKind :=
  if 1 ≤ kind then
    match s.sale.kinds[kind - 1]? with
    | some e => if e.onSale then some e else none
    | none => none
  else none

/-- The refusal of a SALE REQUEST by checks 1 to 4 of R98, or none. -/
def State.saleRefusal (s : State) (r : SaleRec) : Option Reason :=
  if s.trunk.mode ≠ .service then some .stationClosed
  else if s.journal.level ≠ .normal then some .stationClosed
  else if s.trunk.timeValid = false then some .noTime
  else if r.state = .offered then some .busy
  else none

/-- SALE REFUSED is submitted; its outcome is discarded (R98). -/
def refuseSale (k : Kont) (d : Drop) (x : Reason) (s : State) : State := submitTo k d (.saleRefused x) (.discard .sale) s

/-- The sale reference after one, wrapping from 65,535 to 1 (R99). -/
def nextRef (n : Nat) : Nat := if 65535 ≤ n then 1 else n + 1

/-- An offer opens (R99). -/
def openOffer (k : Kont) (r : SaleRec) (t : OfferTerms) (slot : Nat) (s : State) : State :=
  let ref := nextRef r.ref
  let u :=
    s.putSale
      { r with
        state := .offered, ref := ref, terms := some t, slot := some slot, offerTime := s.now
        deadline := satAdd lastTime s.now s.trunk.settings.saleWindow, unanswered := false }
  submitTo k r.terminal (.saleGo ref t.entry.price) (.saleGo r.terminal ref) u

/-- A SALE REQUEST (R98, R99). -/
def saleRequest (k : Kont) (d : Drop) (kind : Nat) (s : State) : State :=
  match s.saleOf d with
  | none => s
  | some r =>
    match s.saleRefusal r with
    | some x => refuseSale k d x s
    | none =>
      match s.kindOnSale kind with
      | none => refuseSale k d .noKind s
      | some e =>
        match reserveSlot s with
        | (none, t) => refuseSale k d .full t
        | (some n, t) => openOffer k r { kind := kind, entry := e } n t

/-! ### The end of an offer (R100, R102 to R104) -/

/-- The record of a terminal leaves OFFERED for a state, its slot gone, and the Trunk Controller may be told (R106). -/
def leaveOffer (r : SaleRec) (x : SaleState) (unanswered : Bool) (s : State) : State :=
  tellSalesQuiet (s.putSale { r with state := x, slot := none, unanswered := unanswered })

/-- The outcome of a SALE GO (R100). -/
def saleGoOutcome (d : Drop) (ref : Nat) (o : CmdOutcome) (s : State) : State :=
  match s.saleOf d with
  | none => s
  | some r =>
    if r.state = .offered ∧ r.ref = ref ∧ o ≠ .ack then
      leaveOffer r .idle (decide (o = .noReply)) (freePass r.slot s)
    else s

/-- What a sale record's journal records name of its offer (table 5-6). -/
def SaleRec.named (r : SaleRec) (t : OfferTerms) : SaleTerms :=
  { terminal := r.terminal, ref := r.ref, kind := t.kind, price := t.entry.price, offerTime := r.offerTime }

/-- The pass of a token is extended; its outcome (R68, R102). -/
def extendPass (p : PassRec) (t : OfferTerms) (s : State) : SaleOutcome × State :=
  (.extended (p.extended s.now t).validUntil, s.putPass (p.extended s.now t))

/-- A RESERVED slot is activated for a token; its outcome (R68, R102). -/
def activatePass (slot : Option Nat) (token : Nat) (t : OfferTerms) (s : State) : SaleOutcome × State :=
  match slot with
  | none => (.noPass, s)
  | some n =>
    match s.passSlot n with
    | none => (.noPass, s)
    | some p => (.new (p.activated token s.now t).validUntil, s.putPass (p.activated token s.now t))

/-- Steps (1) and (2) of R102. -/
def completePass (r : SaleRec) (t : OfferTerms) (token : Nat) (s : State) : SaleOutcome × State :=
  if token = 0 then (.noPass, freePass r.slot s)
  else
    match s.passOf token with
    | some p => ((extendPass p t s).1, freePass r.slot (extendPass p t s).2)
    | none => activatePass r.slot token t s

/-- An approved result for the offer in flight (R102). -/
def completeSale (k : Kont) (r : SaleRec) (t : OfferTerms) (x : SaleResult) (stamp : Nat) (s : State) : State :=
  let c := completePass r t x.token s
  leaveOffer r .idle false
    (append k (.sale (r.named t) { token := x.token, approval := x.approval, outcome := c.1, stamp := stamp }) c.2)

/-- Steps (1) to (3) of R105. -/
def orphanPass (t : OfferTerms) (token : Nat) (s : State) : SaleOutcome × State :=
  if token = 0 then (.noPass, s)
  else
    match s.passOf token with
    | some p => extendPass p t s
    | none =>
      match reserveSlot s with
      | (none, u) => (.noPass, u)
      | (some n, u) => activatePass (some n) token t u

/-- An approved result taken as an orphan (R105). -/
def orphanSale (k : Kont) (r : SaleRec) (t : OfferTerms) (x : SaleResult) (stamp : Nat) (s : State) : State :=
  let c := orphanPass t x.token s
  (append k
    (.orphanSale (r.named t) { token := x.token, approval := x.approval, outcome := c.1, stamp := stamp }
      (decide (r.state = .idle)))
    c.2).putSale { r with state := .idle, unanswered := false }

/-- A SALE RESULT (R101, table 5-5). -/
def saleResult (k : Kont) (d : Drop) (x : SaleResult) (stamp : Nat) (s : State) : State :=
  match s.saleOf d with
  | none => s
  | some r =>
    match r.terms with
    | none => s
    | some t =>
      if x.ref = 0 ∨ x.ref ≠ r.ref then s
      else
        match r.state, x.outcome with
        | .offered, .approved => completeSale k r t x stamp s
        | .offered, _ => leaveOffer r .idle false (freePass r.slot s)
        | .lapsed, .approved => orphanSale k r t x stamp s
        | .lapsed, _ => s.putSale { r with state := .idle }
        | .idle, .approved => if r.unanswered then orphanSale k r t x stamp s else s
        | .idle, _ => if r.unanswered then s.putSale { r with unanswered := false } else s

/-- An offer lapses, by its deadline or by RESTART (R104, R108). -/
def lapse (k : Kont) (byRestart : Bool) (r : SaleRec) (s : State) : State :=
  let t := freePass r.slot s
  let t :=
    match r.terms with
    | some x => append k (.saleLapsed (r.named x) byRestart) t
    | none => t
  leaveOffer r .lapsed false t

/-- The deadline of a terminal's offer, if it is in flight and the deadline has been reached (R104). -/
def saleDeadline (k : Kont) (d : Drop) (s : State) : State :=
  match s.saleOf d with
  | none => s
  | some r => if r.state = .offered ∧ r.deadline ≤ s.now then lapse k false r s else s

end Sys2Proof.Machine
end

