-- ==== Sys2Proof/Machine/Calls.lean ====
section
/-! DEFINITION. The two calls among units that may lead to further ones: the outcome of a submitted command, handed to its
submitter, and the raise of a fault. They are carried out at once, the inner before the rest of the outer, to a bounded
depth; a call beyond it is deferred (log 9). -/

namespace Sys2Proof.Machine

open Sys2Proof

/-- The outcome of a command handed to its submitter (1.6, R15 to R18). -/
def takeOutcome (k : Kont) (w : Submitter) (o : CmdOutcome) (s : State) : State :=
  match w with
  | .discard _ => s
  | .unlock id => unlockOutcome k id o s
  | .clear j => clearOutcome k j o s
  | .check id => checkOutcome k id o s
  | .settle p => settleOutcome p o s
  | .gate p => gateOutcome p s
  | .chargeOn p tag => chargeOnOutcome k p tag o s
  | .chargeOff p => chargeOffOutcome k p o s
  | .saleGo d ref => saleGoOutcome d ref o s
  | .mark j => markOutcome k j o s

/-- A call carried out with a given way to carry out the calls it makes. -/
def takeCall (k : Kont) (c : Call) (s : State) : State :=
  match c with
  | .outcome w o => takeOutcome k w o s
  | .raise x code => raiseFault k x code s

/-- A call carried out to a depth; at depth 0 it is deferred. -/
def callTo : Nat → Kont
  | 0 => fun c s => { s with deferred := s.deferred ++ [c] }
  | n + 1 => fun c s => takeCall (callTo n) c s

/-- The depth to which calls are nested at once (log 9). -/
def callDepth : Nat := 1024

/-- How a command carries out its calls. -/
def call : Kont := callTo callDepth

end Sys2Proof.Machine
end

