-- ==== Sys2Proof/Machine/Classify.lean ====
section
/-! DEFINITION. The Event Classifier (02_event_classification.md) and the delivery of an event to the unit that consumes it
(table 2-1). -/

namespace Sys2Proof.Machine

open Sys2Proof

/-- An event record as a Segment Engine hands it on (section 2.1). -/
structure EventRec where
  drop   : Drop
  entry  : TableEntry
  number : Nat
  code   : Nat
  stamp  : Nat
  fields : List Byte
deriving DecidableEq, Repr

/-- The kind of drop of a table entry. -/
def TableEntry.kind : TableEntry → Option DropKind
  | .none => .none
  | .dock _ => some .dock
  | .pay => some .pay
  | .vanpoint => some .vanpoint

/-- The dock position of a table entry. -/
def TableEntry.pos : TableEntry → Option DockPos
  | .dock p => some p
  | _ => .none

/-! ### Delivery (table 2-1) -/

/-- An event of a DOCK delivered to the unit that consumes it. -/
def deliverDock (k : Kont) (p : DockPos) (stamp : Nat) (b : EventBody) (s : State) : State :=
  match b with
  | .cardTap c m => takeTap k .reported p c m stamp s
  | .bikeDocked t => bikeDocked k p t stamp s
  | .bikeRemoved _ => bikeRemoved k p stamp s
  | .relocked _ => bikeRelocked k p s
  | .faultButton => faultButton k p stamp s
  | .lockFault => k (.raise (.dock p) 0) s
  | .readerFault => k (.raise (.dock p) 1) s
  | .contactResult c => contactResult k p c s
  | .chargeFault => k (.raise (.dock p) 3) s
  | .selfTest brake light battery tyre => selfTest k p brake light battery tyre s
  | _ => s

/-- An event of a PAY drop delivered to the unit that consumes it. -/
def deliverPay (k : Kont) (d : Drop) (stamp : Nat) (b : EventBody) (s : State) : State :=
  match b with
  | .saleRequest kind => saleRequest k d kind s
  | .saleResult x => saleResult k d x stamp s
  | .terminalFault n => k (.raise (.terminal d) (terminalFaultCode n)) s
  | _ => s

/-- An event of the VANPOINT delivered to the Van Unit. -/
def deliverVan (k : Kont) (stamp : Nat) (b : EventBody) (s : State) : State :=
  match b with
  | .vanArrive van operator => vanArrive k van operator stamp s
  | .vanDepart => closeVisit k .depart s
  | _ => s

/-- An event delivered, with its arrival stamp, to the unit that consumes it (R28). -/
def deliver (k : Kont) (e : EventRec) (b : EventBody) (s : State) : State :=
  match e.entry with
  | .dock p => deliverDock k p e.stamp b s
  | .pay => deliverPay k e.drop e.stamp b s
  | .vanpoint => deliverVan k e.stamp b s
  | .none => s

/-- A PRESENT, which no rule decides (R24, R202). -/
def deliverPresent (k : Kont) (e : EventRec) (b : Option EventBody) (s : State) : State :=
  match e.entry, b with
  | .dock p, some (.presentDock t) => presentDock k p t e.stamp s
  | .dock p, _ => presentMalformed k p s
  | .pay, some (.presentReady r) => terminalReady e.drop r s
  | .vanpoint, some (.presentReady r) => vanReady r s
  | _, _ => s

/-! ### Decision (R27 to R31) -/

/-- What becomes of an event: whether it is delivered, and the frame called for. -/
inductive Forward where
  | none | telemetry | urgent
deriving DecidableEq, Repr

/-- Table 2-3. -/
def actionParts : Action → Bool × Forward
  | .deliver => (true, .none)
  | .mirror => (true, .telemetry)
  | .trunkOnly => (false, .telemetry)
  | .urgentMirror => (true, .urgent)
  | .drop => (false, .none)

/-- Whether a code is state-bearing (R29). -/
def stateBearing (code : Nat) : Bool := code == 0x11 || code == 0x12 || code == 0x13

/-- Whether an event has a local consumer: its code is reported by the kind of its drop, and it is not malformed (R30). -/
def hasConsumer (e : EventRec) (b : Option EventBody) : Bool :=
  (codeReportedBy e.code).isSome && codeReportedBy e.code == e.entry.kind && b.isSome

/-- How an action acts on an event: R28 with R29 and R30. -/
def actsAs (a : Action) (e : EventRec) (b : Option EventBody) : Bool × Forward :=
  let x := actionParts a
  if hasConsumer e b then (x.1 || stateBearing e.code, x.2) else (false, x.2)

/-- The action that decides an event, what decided it, and the counters after it (R27). -/
def State.decideBy (s : State) (e : EventRec) (kind : DropKind) : Action × DecidedBy × Classifier :=
  match s.classifier.deciding e.drop kind e.code with
  | some i =>
    ((s.classifier.rules[i]).action, .rule i,
      { s.classifier with hits := s.classifier.hits.set i (bump16 s.classifier.hits[i]) })
  | none =>
    (s.trunk.settings.defaultAction, .default,
      { s.classifier with defaultHits := bump16 s.classifier.defaultHits })

/-- The TELEMETRY or URGENT EVENT frame of an event (R31). -/
def eventFrame (e : EventRec) (kind : DropKind) (w : DecidedBy) : EventFrame :=
  { drop := e.drop, kind := kind, pos := e.entry.pos, number := e.number, code := e.code, stamp := e.stamp
    fields := e.fields, by_ := w }

/-- The frame called for is offered while the trunk is CONNECTED (R31). -/
def forward (f : Forward) (x : EventFrame) (s : State) : State :=
  if s.trunk.connected then
    match f with
    | .none => s
    | .telemetry => s.offer (.telemetry x)
    | .urgent => s.offer (.urgentEvent x)
  else s

/-- An event is decided, counted, forwarded and delivered (R27 to R31). DEDUCED, log 26. -/
def decideEvent (k : Kont) (e : EventRec) (kind : DropKind) (s : State) : State :=
  let b := eventOf e.code kind e.fields
  let x := s.decideBy e kind
  let acts := actsAs x.1 e b
  let t := forward acts.2 (eventFrame e kind x.2.1) { s with classifier := x.2.2 }
  match acts.1, b with
  | true, some b => deliver k e b t
  | _, _ => t

/-- An event taken by the Event Classifier (R23, R24, R27). -/
def classify (k : Kont) (e : EventRec) (s : State) : State :=
  match e.entry.kind with
  | none => s
  | some kind =>
    if e.code = 0x15 then deliverPresent k e (eventOf e.code kind e.fields) s else decideEvent k e kind s

end Sys2Proof.Machine
end

