-- ==== Sys2Proof/Machine/Bus.lean ====
section
/-! DEFINITION. The Segment Engines (01_the_dock_bus.md): sweeps, exchanges, misses and replies, command slots and the tail
gap, holds and the RESYNC ROUND. A moment is a count of elapsed milliseconds (log 3). -/

namespace Sys2Proof.Machine

open Sys2Proof

/-! ### Parts of an engine -/

/-- An engine changed. -/
def State.modEng (s : State) (g : Segment) (f : Engine → Engine) : State := s.setEng g (f (s.eng g))

/-- Whether an engine is present: A always, B while strap SEGB is high (R1). -/
def State.present (s : State) (g : Segment) : Bool :=
  match g with
  | .A => true
  | .B => s.trunk.segB

/-- The poll list: the addresses whose entry is not NONE, ascending (R2). -/
def Engine.pollList (e : Engine) : List (Fin 32) := addresses.filter fun a => e.entries[a] != TableEntry.none

/-- A drop record changed, where the address has one. -/
def Engine.modDrop (e : Engine) (a : Fin 32) (f : DropRec → DropRec) : Engine :=
  { e with drops := e.drops.set a ((e.drops[a]).map f) }

/-- A drop record changed, where the drop has one. -/
def State.modDrop (s : State) (g : Segment) (a : Fin 32) (f : DropRec → DropRec) : State :=
  s.modEng g fun e => e.modDrop a f

/-- A drop record as table 1-3 gives for a new drop. -/
def newDrop : DropRec := { link := .free .new, misses := 0, resyncDue := false, lastEvent := 0, corrected := 0 }

/-- Whether a drop is eligible for a queued command: ACTIVE and its resync due mark not set (R7). -/
def DropRec.eligible (r : DropRec) : Bool := r.link == .free .active && !r.resyncDue

/-- Whether the drop at an address is eligible (R7). -/
def Engine.eligibleAt (e : Engine) (a : Fin 32) : Bool :=
  match e.drops[a] with
  | some r => r.eligible
  | none => false

/-! ### Beginning an exchange (R9) -/

/-- An exchange begins: the engine has sent its frame, and the reply window in force opens (R9). -/
def begin_ (g : Segment) (a : Fin 32) (w : ExchangeFor) (bytes : List Byte) (s : State) : State :=
  s.modEng g fun e =>
    { e with
      exchange :=
        some { addr := a, purpose := w, window := s.trunk.settings.replyWindow, sent := bytes, changed := false } }

/-- The last taken event of a drop (R5). -/
def Engine.lastEventAt (e : Engine) (a : Fin 32) : Nat :=
  match e.drops[a] with
  | some r => r.lastEvent
  | none => 0

/-- A POLL is sent, carrying the drop's last taken event (R5, R6). -/
def sendPoll (g : Segment) (a : Fin 32) (second : Bool) (s : State) : State :=
  begin_ g a (.poll second) (pollBytes a ((s.eng g).lastEventAt a)) s

/-- The engine's own RESYNC is sent (R5, R12, R21). -/
def sendResync (g : Segment) (a : Fin 32) (w : ExchangeFor) (s : State) : State := begin_ g a w (resyncBytes a) s

/-- A queued command is sent, and leaves the queue as it is sent (R17). -/
def sendCommand (g : Segment) (x : QueueEntry) (inGap : Bool) (s : State) : State :=
  begin_ g x.addr (.command x inGap) (cmdBytes x.addr x.cmd)
    (s.modEng g fun e => { e with queue := e.queue.erase x, gapSent := if inGap then e.gapSent + 1 else e.gapSent })

/-! ### Going on: the walk, the command slot, the tail gap (R5 to R8) -/

/-- The oldest queued command of a class for an eligible drop (R7, R8, R15). -/
def Engine.oldest (e : Engine) (c : CmdClass) : Option QueueEntry :=
  e.queue.find? fun x => x.cmd.cls == c && e.eligibleAt x.addr

/-- The oldest queued command of the highest of some classes for an eligible drop. -/
def Engine.pick (e : Engine) (cs : List CmdClass) : Option QueueEntry := cs.findSome? e.oldest

/-- The classes sent in a command slot, highest first (R7). -/
def slotClasses : List CmdClass := [.unlock, .tag, .control]

/-- The classes sent in the tail gap, highest first (R8). -/
def gapClasses : List CmdClass := [.charge, .display]

/-- The moment of the next sweep start (R4). -/
def Engine.nextDue (e : Engine) (interval gapEnd : Nat) : Nat := max (e.sweepStart + interval) gapEnd

/-- The tail gap ends, and the engine enters WAITING; `gapEnd` is its end (R4, R8). -/
def endGap (g : Segment) (gapEnd : Nat) (s : State) : State :=
  s.modEng g fun e =>
    { e with mode := .waiting, gapEnd := gapEnd, due := e.nextDue s.trunk.settings.sweepInterval gapEnd }

/-- The most exchanges of a tail gap (R8). -/
def gapRoom : Nat := 4

/-- The tail gap goes on, or ends (R8); one that ended at once ends with the last poll exchange (R4). DEDUCED, log 30. Where
the sweep had no poll exchange, that of an earlier sweep is the last. DESIGN CHOICE, log 57. -/
def tailGap (g : Segment) (m : Nat) (s : State) : State :=
  let e := s.eng g
  match (if e.gapSent < gapRoom then e.pick gapClasses else none) with
  | some x => sendCommand g x true s
  | none => endGap g (if e.gapSent = 0 then e.pollEnd else m) s

/-- How an address of the poll list is taken in a sweep (R5). -/
inductive Visit5 where
  | passed | resync | poll
deriving DecidableEq, Repr

/-- R5 for one address. -/
def Engine.visits (e : Engine) (a : Fin 32) : Visit5 :=
  match e.entries[a], e.drops[a] with
  | .none, _ => .passed
  | _, none => .passed
  | _, some r =>
    match r.link with
    | .held _ => .passed
    | .free .lost => if e.sweep % 8 ≠ 0 then .passed else if r.resyncDue then .resync else .poll
    | .free _ => if r.resyncDue then .resync else .poll

/-- The next address of the sweep that is not passed over (R5). -/
def Engine.nextInSweep (e : Engine) : Option (Fin 32) :=
  addresses.find? fun a => decide (e.cursor ≤ a.val) && (e.visits a != .passed)

/-- The walk goes on to the next address, or to the tail gap (R5). -/
def walk (g : Segment) (m : Nat) (s : State) : State :=
  match (s.eng g).nextInSweep with
  | none => tailGap g m (s.modEng g fun e => { e with mode := .tailGap, gapSent := 0 })
  | some a =>
    let t := s.modEng g fun e => { e with cursor := a.val + 1 }
    if (s.eng g).visits a = .resync then sendResync g a .resyncPoll t else sendPoll g a false t

/-- The command slot (R7). -/
def slot (g : Segment) (m : Nat) (s : State) : State :=
  match (s.eng g).pick slotClasses with
  | some x => sendCommand g x false s
  | none => walk g m s

/-- The next RESYNC of a RESYNC ROUND, or, after the last, a sweep at once (R21). -/
def resyncRound (g : Segment) (s : State) : State :=
  match (s.eng g).pollList.find? fun a => decide ((s.eng g).cursor ≤ a.val) with
  | some a => sendResync g a .resyncRound (s.modEng g fun e => { e with cursor := a.val + 1 })
  | none => s.modEng g fun e => { e with mode := .waiting, due := 0 }

/-! ### Hold (R20, R21) -/

/-- A link state as a hold leaves it: HELD, with the state before hold (R20). -/
def LinkState.hold : LinkState → LinkState
  | .free l => .held l
  | .held l => .held l

/-- A link state as the end of a hold leaves it (R21). -/
def LinkState.unhold : LinkState → LinkState
  | .free l => .free l
  | .held l => .free l

/-- The engine enters HOLDING and asserts hold-acknowledge (R20). -/
def enterHolding (g : Segment) (s : State) : State :=
  s.modEng g fun e =>
    { e with
      mode := .holding, holdAck := true, exchange := none
      drops := e.drops.map fun x => x.map fun r => { r with link := r.link.hold } }

/-- Queued commands leave a queue, and each has the outcome NOREPLY (R18), oldest first whatever their class. DESIGN CHOICE,
log 79. -/
def flush (k : Kont) (g : Segment) (gone : QueueEntry → Bool) (s : State) : State :=
  ((s.eng g).queue.filter gone).foldl (fun t x => k (.outcome x.who .noReply) t)
    (s.modEng g fun e => { e with queue := e.queue.filter fun x => !gone x })

/-- Whether an entry is UNLOCK-class and was submitted earlier than the station time less the take window (R18). -/
def State.stale (s : State) (x : QueueEntry) : Bool :=
  x.cmd.cls == .unlock && decide (x.time + s.trunk.settings.takeWindow < s.now)

/-- The engine enters RESYNC ROUND (R21 step 3). -/
def enterRound (g : Segment) (s : State) : State :=
  if (s.eng g).pollList.isEmpty then s.modEng g fun e => { e with mode := .stopped }
  else
    resyncRound g
      (s.modEng g fun e =>
        { e with
          mode := .resyncRound, cursor := 0
          drops := e.drops.map fun x => x.map fun r => { r with link := r.link.unhold, resyncDue := true } })

/-- A hold line is asserted (R20, R1). -/
def holdAssert (g : Segment) (s : State) : State :=
  let t := s.modEng g fun e => { e with holdLine := true }
  if s.present g = true ∧ (s.eng g).exchange = none ∧ (s.eng g).mode ≠ .holding then enterHolding g t else t

/-- A hold line is released (R20, R21). -/
def holdRelease (k : Kont) (g : Segment) (s : State) : State :=
  let t := s.modEng g fun e => { e with holdLine := false }
  if (s.eng g).mode = .holding then
    enterRound g (flush k g t.stale (t.modEng g fun e => { e with holdAck := false }))
  else t

/-! ### After an exchange -/

/-- What an engine does after an exchange. -/
inductive Next where
  | secondPoll (a : Fin 32) | ownResync (a : Fin 32) | slot | walk | tailGap | round
deriving DecidableEq, Repr

/-- The engine goes on after an exchange, unless its hold line is asserted or its poll list is empty (R1, R20). A poll list
that a load has emptied and another has filled again is not empty at the end of the exchange. DEDUCED, log 56. -/
def goOn (g : Segment) (m : Nat) (n : Next) (s : State) : State :=
  if (s.eng g).holdLine then enterHolding g s
  else if (s.eng g).pollList.isEmpty then s.modEng g fun e => { e with mode := .stopped }
  else
    match n with
    | .secondPoll a => sendPoll g a true s
    | .ownResync a => sendResync g a .resyncSlot s
    | .slot => slot g m s
    | .walk => walk g m s
    | .tailGap => tailGap g m s
    | .round => resyncRound g s

/-- What follows an exchange that has no second POLL and set no resync due mark. -/
def nextAfter : ExchangeFor → Next
  | .poll _ => .slot
  | .resyncPoll => .slot
  | .resyncSlot => .walk
  | .resyncRound => .round
  | .command _ inGap => if inGap then .tailGap else .walk

/-! ### Misses (R3, R11) -/

/-- A frame error counted (R3). -/
def FrameErrors.count (x : FrameErrors) : FrameError → FrameErrors
  | .uncorrectable => { x with uncorrectable := bump16 x.uncorrectable }
  | .badCrc => { x with badCrc := bump16 x.badCrc }
  | .wrongAddress => { x with wrongAddress := bump16 x.wrongAddress }
  | .wrongKind => { x with wrongKind := bump16 x.wrongKind }
  | .noReply => { x with noReply := bump16 x.noReply }

/-- A frame error counted on a segment (R3). -/
def countError (g : Segment) (x : FrameError) (s : State) : State :=
  s.modEng g fun e => { e with errors := e.errors.count x }

/-- The outcome of the command an exchange carried, given to its submitter (R17). -/
def giveOutcome (k : Kont) (w : ExchangeFor) (o : CmdOutcome) (s : State) : State :=
  match w with
  | .command x _ => k (.outcome x.who o) s
  | _ => s

/-- LOST reported to the unit that owns a drop; for a PAY drop the "terminal lost" fault, code 15, is raised (R11 steps 3
and 4). -/
def reportLost (k : Kont) (d : Drop) (s : State) : State :=
  match s.entryOf d with
  | .dock p => dockLost k p s
  | .pay => k (.raise (.terminal d) 15) s
  | .vanpoint => vanpointLost k s
  | .none => s

/-- A drop becomes LOST (R11). Its resync due mark is cleared in a RESYNC ROUND too, where R21 says that the mark stands.
DEDUCED, log 52. -/
def dropLost (k : Kont) (g : Segment) (a : Fin 32) (w : ExchangeFor) (s : State) : State :=
  let t := s.modDrop g a fun r => { r with link := .free .lost, misses := 3 }
  let t := giveOutcome k w .noReply (flush k g (fun x => x.addr == a) t)
  reportLost k ⟨g, a⟩ (t.modDrop g a fun r => { r with resyncDue := false, lastEvent := 0 })

/-- A miss by the drop addressed (R11, R17). -/
def miss (k : Kont) (g : Segment) (x : Exchange) (s : State) : State :=
  match (s.eng g).drops[x.addr] with
  | none => giveOutcome k x.purpose .noReply s
  | some r =>
    match r.link with
    | .free .lost => giveOutcome k x.purpose .noReply s
    | .held _ => giveOutcome k x.purpose .noReply s
    | .free _ =>
      if 2 ≤ r.misses then dropLost k g x.addr x.purpose s
      else giveOutcome k x.purpose .noReply (s.modDrop g x.addr fun r => { r with misses := r.misses + 1 })

/-! ### Good replies (R6, R12 to R14) -/

/-- A LOST drop is reported recovered to the unit that owns it (R12). -/
def reportRecovered (d : Drop) (s : State) : State :=
  match s.entryOf d with
  | .dock p => dockRecovered p s
  | _ => s

/-- A drop record after the answer to the engine's own RESYNC (R12). -/
def DropRec.resynced (r : DropRec) (o : CmdOutcome) : DropRec :=
  if o = .ack then { r with resyncDue := false, lastEvent := 0 } else r

/-- A good reply from a NEW or LOST drop makes it ACTIVE, with its resync due mark set; the answer to the engine's own RESYNC
is then taken (R12, R21). DEDUCED, log 29. -/
def recovered (k : Kont) (g : Segment) (x : Exchange) (lost : Bool) (y : Reply) (s : State) : State :=
  let t := s.modDrop g x.addr fun r => { r with link := .free .active, misses := 0, resyncDue := true }
  let t := if lost then reportRecovered ⟨g, x.addr⟩ t else t
  match x.purpose, y with
  | .command e _, .answer o => k (.outcome e.who o) t
  | _, .answer o => t.modDrop g x.addr fun r => r.resynced o
  | _, _ => t

/-- The STATUS of a drop passed to the unit that owns it (R14). -/
def passStatus (k : Kont) (d : Drop) (y : Reply) (s : State) : State :=
  match s.entryOf d, y with
  | .dock p, .dockStatus st _ => dockStatus k p st s.now s
  | .pay, .readyStatus r _ => terminalReady d r s
  | .vanpoint, .readyStatus r _ => vanReady r s
  | _, _ => s

/-- An EVENT of an eligible drop: a repeat is not handed on; any other is taken, stamped and classified (R13). -/
def takeEvent (k : Kont) (d : Drop) (r : DropRec) (number code : Nat) (fields : List Byte) (s : State) : State :=
  if number = r.lastEvent then s
  else
    classify k
      { drop := d, entry := s.entryOf d, number := number, code := code, stamp := s.now, fields := fields }
      (s.modDrop d.seg d.addr fun r => { r with lastEvent := number })

/-- A good reply from an ACTIVE drop (R12 to R14, R17). -/
def takeReply (k : Kont) (g : Segment) (x : Exchange) (r : DropRec) (y : Reply) (s : State) : State :=
  let t := s.modDrop g x.addr fun r => { r with misses := 0 }
  match y with
  | .answer o =>
    match x.purpose with
    | .command e _ => k (.outcome e.who o) t
    | _ => t.modDrop g x.addr fun r => r.resynced o
  | .event number code _ fields => takeEvent k ⟨g, x.addr⟩ r number code fields t
  | y => passStatus k ⟨g, x.addr⟩ y t

/-- The pending count of a reply (R6). -/
def Reply.waiting : Reply → Nat
  | .dockStatus _ n => n
  | .readyStatus _ n => n
  | .event _ _ n _ => n
  | .answer _ => 0

/-- What follows a good reply: the second POLL of R6, or what follows the exchange. -/
def nextAfterReply (x : Exchange) (y : Reply) : Next :=
  match x.purpose with
  | .poll false => if y.waiting = 0 then .slot else .secondPoll x.addr
  | w => nextAfter w

/-- What follows a good reply that made a drop ACTIVE: after a POLL, the engine's own RESYNC in the command slot (R6, R7,
R12); after the engine's own RESYNC sent in place of a POLL, a command slot like any other. DEDUCED, log 53. -/
def nextAfterRecovery (x : Exchange) : Next :=
  match x.purpose with
  | .poll _ => .ownResync x.addr
  | w => nextAfter w

/-- A good reply, taken, and what follows it. -/
def goodReply (k : Kont) (g : Segment) (x : Exchange) (y : Reply) (s : State) : Next × State :=
  match (s.eng g).drops[x.addr] with
  | none => (nextAfter x.purpose, s)
  | some r =>
    match r.link with
    | .free .new => (nextAfterRecovery x, recovered k g x false y s)
    | .free .lost => (nextAfterRecovery x, recovered k g x true y s)
    | _ => (nextAfterReply x y, takeReply k g x r y s)

/-! ### The end of an exchange -/

/-- Whether an exchange is a poll exchange: a POLL or the RESYNC sent in its place (R4, R7). -/
def ExchangeFor.inSweep : ExchangeFor → Bool
  | .poll _ => true
  | .resyncPoll => true
  | _ => false

/-- Whether an exchange carries a queued command. -/
def ExchangeFor.isCommand : ExchangeFor → Bool
  | .command _ _ => true
  | _ => false

/-- The exchange in progress ends at a moment; the end of a poll exchange is kept (R4, R9). -/
def exchangeEnds (g : Segment) (m : Nat) (x : Exchange) (s : State) : State :=
  s.modEng g fun e => { e with exchange := none, pollEnd := if x.purpose.inSweep then m else e.pollEnd }

/-- A miss counted and taken, after which the engine goes on. -/
def missed (k : Kont) (g : Segment) (m : Nat) (x : Exchange) (er : FrameError) (s : State) : State :=
  goOn g m (nextAfter x.purpose) (miss k g x (countError g er s))

/-- The drop addressed has its corrected-header count raised (table 1-6 check 1). -/
def countCorrected (g : Segment) (x : Exchange) (c : Bool) (s : State) : State :=
  if c then s.modDrop g x.addr fun r => { r with corrected := bump 255 r.corrected } else s

/-- The frame that ends an exchange is checked and taken (R10). Whatever a drop sends, whether or not it behaves as R19
expects, a good reply is taken by the rules and any other frame is a miss (R19). -/
def frameEnds (k : Kont) (g : Segment) (m : Nat) (x : Exchange) (f : BusFrame) (s : State) : State :=
  let c := checkFrame (s.entryOf ⟨g, x.addr⟩).kind x f
  let t := countCorrected g x c.corrected s
  match c.result with
  | .error er => missed k g m x er t
  | .ok y =>
    let r := goodReply k g x y t
    goOn g m r.1 r.2

/-- A command exchange whose address a load has changed ends NOREPLY (R2). -/
def changedEnds (k : Kont) (g : Segment) (m : Nat) (x : Exchange) (s : State) : State :=
  goOn g m (nextAfter x.purpose) (giveOutcome k x.purpose .noReply s)

/-- Whether an exchange ends by R2, its answer neither checked nor counted: a command exchange, which the engine's own RESYNC
is not. DEDUCED, log 55. -/
def Exchange.endsChanged (x : Exchange) : Bool := x.changed && x.purpose.isCommand

/-- A frame is received from the line (R9, R10), any frame that a drop may send (R19). With no reply window open it is
discarded. -/
def frameReceived (k : Kont) (g : Segment) (now : Nat) (f : BusFrame) (s : State) : State :=
  let m := max s.elapsed now
  let s := { s with elapsed := m }
  match (s.eng g).exchange with
  | none => s
  | some x =>
    let t := exchangeEnds g m x s
    if x.endsChanged then changedEnds k g m x t else frameEnds k g m x f t

/-- The reply window expires, the drop having sent nothing (R9, R19). With no reply window open nothing happens. DEDUCED,
log 31. -/
def windowExpired (k : Kont) (g : Segment) (now : Nat) (s : State) : State :=
  let m := max s.elapsed now
  let s := { s with elapsed := m }
  match (s.eng g).exchange with
  | none => s
  | some x =>
    let t := exchangeEnds g m x s
    if x.endsChanged then changedEnds k g m x (countError g .noReply t) else missed k g m x .noReply t

/-- The sweep number after one, wrapping from 65,535 to 0 (R4). -/
def nextSweep (n : Nat) : Nat := if 65535 ≤ n then 0 else n + 1

/-- A sweep starts, in WAITING and when it is due (R4, R5). -/
def sweepStart (g : Segment) (now : Nat) (s : State) : State :=
  let m := max s.elapsed now
  let s := { s with elapsed := m }
  if (s.eng g).mode = .waiting ∧ (s.eng g).due ≤ m then
    walk g m
      (s.modEng g fun e => { e with mode := .sweeping, sweep := nextSweep e.sweep, sweepStart := m, cursor := 0 })
  else s

/-! ### The drop table (R1, R2) -/

/-- After a load, an engine returns to STOPPED or leaves it, as its poll list stands (R1). -/
def engineAfterLoad (g : Segment) (s : State) : State :=
  let e := s.eng g
  if e.mode = .holding then s
  else if e.pollList.isEmpty then
    if e.exchange.isSome then s else s.modEng g fun e => { e with mode := .stopped }
  else if e.mode = .stopped then s.modEng g fun e => { e with mode := .waiting, due := 0 }
  else s

/-- The record of a drop whose entry a load has changed (R2, table 1-3). -/
def Engine.recordFor (e : Engine) (x : TableEntry) : Option DropRec :=
  if x = .none then none
  else some { newDrop with link := if e.mode = .holding then .held .new else .free .new }

/-- The unit that owned the drop of an old entry is told (R2, R36, R96, R152). -/
def tellLeft (k : Kont) (d : Drop) (x : TableEntry) (s : State) : State :=
  match x with
  | .dock p => dockLeft k p s
  | .pay => saleLeft d s
  | .vanpoint => vanReady .unknown s
  | .none => s

/-- The unit that owns the drop of a new entry is told (R2, R36, R96). -/
def tellTaken (d : Drop) (x : TableEntry) (s : State) : State :=
  match x with
  | .dock p => dockTaken p s
  | .pay => saleTaken d s
  | .vanpoint => vanReady .unknown s
  | .none => s

/-- An engine whose entry at an address is replaced: the exchange with that address is marked (R2). -/
def Engine.withEntry (e : Engine) (a : Fin 32) (x : TableEntry) : Engine :=
  { e with
    entries := e.entries.set a x
    exchange := e.exchange.map fun y => if y.addr = a then { y with changed := true } else y }

/-- An applied entry that changes the kind or the position at its address (R2). -/
def changeEntry (k : Kont) (d : Drop) (x : TableEntry) (s : State) : State :=
  let old := s.entryOf d
  let t := flush k d.seg (fun y => y.addr == d.addr) (s.modEng d.seg fun e => e.withEntry d.addr x)
  let t := t.modEng d.seg fun e => { e with drops := e.drops.set d.addr (e.recordFor x) }
  tellTaken d x (tellLeft k d old t)

/-! ### RESTART (R22) -/

/-- A Segment Engine after RESTART (R22). Its fields sweepStart, gapEnd, pollEnd, cursor and gapSent keep what they held.
DESIGN CHOICE, log 68. -/
def Engine.restarted (e : Engine) (isPresent : Bool) : Engine :=
  let hold := isPresent && e.holdLine
  let link : LinkState := if hold then .held .new else .free .new
  { e with
    mode := if hold then .holding else if e.pollList.isEmpty then .stopped else .waiting
    drops := e.entries.map fun x => if x = TableEntry.none then none else some { newDrop with link := link }
    queue := [], sweep := 0, due := 0, exchange := none, holdAck := hold, errors := ⟨0, 0, 0, 0, 0⟩ }

end Sys2Proof.Machine
end

