-- ==== Sys2Proof/Machine/Tables.lean ====
section
/-! DEFINITION. The owners' side of the table loads: how each table takes its entries, one by one (R2, R32, R48, R66, R97,
R112, R157, R195). -/

namespace Sys2Proof.Machine

open Sys2Proof

/-! ### Entries in order (R194) -/

/-- What a load has come to: entries applied, the first refusal with its ordinal, and the state. -/
structure LoadRun where
  applied : Nat
  refusal : Option (Nat × EntryRefusal)
  state   : State
deriving DecidableEq, Repr

/-- One entry taken: applied, or refused under its ordinal (R194). -/
def LoadRun.take {α : Type} (f : α → State → Option EntryRefusal × State) (r : LoadRun) (ordinal : Nat) (e : α) : LoadRun :=
  match f e r.state with
  | (none, t) => { r with applied := r.applied + 1, state := t }
  | (some x, t) => { r with refusal := r.refusal.orElse fun _ => some (ordinal, x), state := t }

/-- The entries of a load taken in order from an ordinal (R194). The ordinals count on past 65,535. DESIGN CHOICE, log 83. -/
def takeEntries {α : Type} (f : α → State → Option EntryRefusal × State) : List α → Nat → LoadRun → LoadRun
  | [], _, r => r
  | e :: es, n, r => takeEntries f es (n + 1) (r.take f n e)

/-- A load with no entry taken yet. -/
def LoadRun.start (s : State) : LoadRun := { applied := 0, refusal := none, state := s }

/-! ### DROP TABLE (R2) -/

/-- An address 1..32 as the block names it. -/
def addrOf (n : Nat) : Option (Fin 32) := if h : 1 ≤ n ∧ n ≤ 32 then some ⟨n - 1, by omega⟩ else none

/-- What an entry asks for at its address; none where the kind or the position lies outside its values (table 1-2). -/
def entryAsked (e : DropEntry) : Option TableEntry :=
  match e.kind with
  | some .none => some .none
  | some .dock => (posOf e.pos).map .dock
  | some .pay => some .pay
  | some .vanpoint => some .vanpoint
  | none => none

/-- Every drop. -/
def allDrops : List Drop := (addresses.map fun a => ⟨.A, a⟩) ++ addresses.map fun a => ⟨.B, a⟩

/-- The number of drops other than one whose entry is a given one. -/
def State.entriesElsewhere (s : State) (d : Drop) (x : TableEntry) : Nat :=
  allDrops.countP fun c => c != d && s.entryOf c == x

/-- Whether an entry at a drop would conflict, or would be one too many (table 1-2). -/
def State.entryRefusal (s : State) (d : Drop) (x : TableEntry) : Option EntryRefusal :=
  match x with
  | .none => none
  | .dock _ => if 0 < s.entriesElsewhere d x then some .conflict else none
  | .pay => if 4 ≤ s.entriesElsewhere d x then some .full else none
  | .vanpoint => if 1 ≤ s.entriesElsewhere d x then some .full else none

/-- One entry of a DROP TABLE load (R2). -/
def loadDrop (k : Kont) (e : DropEntry) (s : State) : Option EntryRefusal × State :=
  match addrOf e.addr, entryAsked e with
  | some a, some x =>
    if e.seg = .B ∧ s.trunk.segB = false then (some .range, s)
    else
      match s.entryRefusal ⟨e.seg, a⟩ x with
      | some r => (some r, s)
      | none => (none, if s.entryOf ⟨e.seg, a⟩ = x then s else changeEntry k ⟨e.seg, a⟩ x s)
  | _, _ => (some .range, s)

/-! ### CLASSIFIER (R32) -/

/-- The rule an entry gives, or none where a field lies outside its values (R32). -/
def ruleOf (e : RuleEntry) : Option Rule :=
  match e.seg, e.kinds, e.type, e.action with
  | some seg, some kinds, some type, some action =>
    if 1 ≤ e.lo ∧ e.lo ≤ e.hi ∧ e.hi ≤ 32 ∧ (kinds.dock || kinds.pay || kinds.vanpoint) = true ∧ e.first ≤ 0x3F
        ∧ e.second ≤ 0x3F ∧ (type = .range → e.first ≤ e.second) ∧ (type = .mask → e.second &&& e.first = e.second) then
      some
        { enabled := e.enabled, seg := seg, lo := e.lo, hi := e.hi, kinds := kinds, type := type, first := e.first
          second := e.second, action := action }
    else none
  | _, _, _, _ => none

/-- One entry of a CLASSIFIER load (R32). -/
def loadRule (e : RuleEntry) (s : State) : Option EntryRefusal × State :=
  if h : e.index < 32 then
    match ruleOf e with
    | some r =>
      (none,
        { s with
          classifier :=
            { s.classifier with
              rules := s.classifier.rules.set e.index r, hits := s.classifier.hits.set e.index 0 } })
    | none => (some .range, s)
  else (some .range, s)

/-! ### FAULT POLICY (R157) -/

/-- The subject kind of a code (table 8-1). -/
def subjectOf (code : Nat) : SubjectKind :=
  if code ≤ 5 then .dock else if code ≤ 14 then .bike else .terminal

/-- Whether actions fit a subject kind (table 8-3). -/
def actionsFit (k : SubjectKind) (a : FaultActions) : Bool :=
  match k with
  | .dock => !a.quarantine
  | .bike => !a.noRelease && !a.outOfService
  | .terminal => !a.quarantine && !a.noRelease && !a.outOfService && !a.noCharge

/-- One entry of a FAULT POLICY load (R157). -/
def loadPolicy (e : FaultPolicyEntry) (s : State) : Option EntryRefusal × State :=
  if h : e.code < 48 then
    match e.subject, e.base, e.actions with
    | some x, some v, some a =>
      if x = subjectOf e.code ∧ e.threshold ≠ 1 ∧ e.threshold ≤ 255 ∧ actionsFit x a = true then
        (none, s.modFault fun u => { u with policy := u.policy.set e.code ⟨v, e.threshold, a⟩ })
      else (some .range, s)
    | _, _, _ => (some .range, s)
  else (some .range, s)

/-! ### STATION SETTINGS (R195, table 10-6) -/

/-- The ride minimum level as the entries of a load leave it (R195). -/
def rideMinAfter (now : Nat) : List SettingEntry → Nat
  | [] => now
  | .num .rideMin v :: es => rideMinAfter (clampInt 5 50 v).toNat es
  | _ :: es => rideMinAfter now es

/-- The range of a numeric setting, where a load leaves the ride minimum level at `ride` (R195, table 10-6). -/
def settingRange (ride : Nat) : NumSetting → Int × Int
  | .replyWindow => (1, 10)
  | .sweepInterval => (20, 500)
  | .takeWindow => (10, 60)
  | .referralDeadline => (1, 15)
  | .islandTimeout => (10, 600)
  | .saleWindow => (30, 300)
  | .waiverWindow => (0, 600)
  | .dayOffset => (-43200, 43200)
  | .strangerClass => (0, 7)
  | .strangerHeadroom => (0, 5000)
  | .minHeadroom => (0, 5000)
  | .rewardMinRide => (0, 3600)
  | .chargeSlots => (0, 16)
  | .chargeFull => (80, 100)
  | .rideMin => (5, 50)
  | .resume => (ride + 5, 60)

/-- A numeric setting written. -/
def putSetting (n : NumSetting) (v : Int) (t : Settings) : Settings :=
  match n with
  | .replyWindow => { t with replyWindow := v.toNat }
  | .sweepInterval => { t with sweepInterval := v.toNat }
  | .takeWindow => { t with takeWindow := v.toNat }
  | .referralDeadline => { t with referralDeadline := v.toNat }
  | .islandTimeout => { t with islandTimeout := v.toNat }
  | .saleWindow => { t with saleWindow := v.toNat }
  | .waiverWindow => { t with waiverWindow := v.toNat }
  | .dayOffset => { t with dayOffset := v }
  | .strangerClass => { t with strangerClass := v.toNat }
  | .strangerHeadroom => { t with strangerHeadroom := v.toNat }
  | .minHeadroom => { t with minHeadroom := v.toNat }
  | .rewardMinRide => { t with rewardMinRide := v.toNat }
  | .chargeSlots => { t with chargeSlots := v.toNat }
  | .chargeFull => { t with chargeFull := v.toNat }
  | .rideMin => { t with rideMin := v.toNat }
  | .resume => { t with resume := v.toNat }

/-- Settings being loaded, with those clamped so far. -/
structure SettingsRun where
  settings : Settings
  clamped  : List Setting
deriving DecidableEq, Repr

/-- A setting reported CLAMPED, once, in the order in which the settings are first clamped (R194). DESIGN CHOICE, log 86. -/
def SettingsRun.mark (r : SettingsRun) (x : Setting) (clamped : Bool) : SettingsRun :=
  if clamped = true ∧ r.clamped.contains x = false then { r with clamped := r.clamped ++ [x] } else r

/-- One entry of a STATION SETTINGS load on the settings; none where it names no setting (R195, R33). -/
def SettingsRun.entry (ride : Nat) (r : SettingsRun) (e : SettingEntry) : Option SettingsRun :=
  match e with
  | .num n v =>
    let c := clampInt (settingRange ride n).1 (settingRange ride n).2 v
    some (({ r with settings := putSetting n c r.settings } : SettingsRun).mark (.num n) (c != v))
  | .strangerRule x =>
    some
      (({ r with settings := { r.settings with strangerRule := x.getD .refuse } } : SettingsRun).mark .strangerRule
        x.isNone)
  | .defaultAction x =>
    let bad := x.isNone || x == some .urgentMirror
    some
      (({ r with settings := { r.settings with defaultAction := if bad then .deliver else x.getD .deliver } } :
          SettingsRun).mark .defaultAction bad)
  | .unknown => none

/-- The present resume level clamped against the ride minimum level as the load leaves it (R195); so clamped it is named
last. DESIGN CHOICE, log 86. -/
def SettingsRun.finish (r : SettingsRun) : SettingsRun :=
  let c := clampNat (r.settings.rideMin + 5) 60 r.settings.resume
  ({ r with settings := { r.settings with resume := c } } : SettingsRun).mark (.num .resume) (c != r.settings.resume)

/-- What the entries of a STATION SETTINGS load come to on the settings: entries applied, first refusal, settings. -/
structure SettingsLoad where
  applied : Nat
  refusal : Option (Nat × EntryRefusal)
  run     : SettingsRun
deriving DecidableEq, Repr

/-- The entries of a STATION SETTINGS load in order, from an ordinal (R195). -/
def settingsEntries (ride : Nat) : List SettingEntry → Nat → SettingsLoad → SettingsLoad
  | [], _, r => r
  | e :: es, n, r =>
    settingsEntries ride es (n + 1)
      (match r.run.entry ride e with
       | some x => { r with applied := r.applied + 1, run := x }
       | none => { r with refusal := r.refusal.orElse fun _ => some (n, .range) })

/-- What a STATION SETTINGS load comes to, the resume level included (R195). -/
def settingsOf (s : Settings) (l : List SettingEntry) (first : Nat) : SettingsLoad :=
  let run : SettingsRun := { settings := s, clamped := [] }
  let r := settingsEntries (rideMinAfter s.rideMin l) l first { applied := 0, refusal := none, run := run }
  { r with run := r.run.finish }

/-- The settings of a load take effect: the default hit count is zeroed and the charging effects follow (R33, R57, R195). A
load with no applied entry is such a load. DEDUCED, log 58. -/
def settingsApplied (k : Kont) (x : Settings) (s : State) : State :=
  let t :=
    { s with
      trunk := { s.trunk with settings := x }
      classifier := { s.classifier with defaultHits := 0 } }
  if sameCharging s.trunk.settings x then t else chargingSettings k t

/-! ### PASS KINDS (R97) -/

/-- One entry of a PASS KINDS load (R97, table 5-3). -/
def loadPassKind (e : PassKindEntry) (s : State) : Option EntryRefusal × State :=
  if h : 1 ≤ e.kind ∧ e.kind ≤ 4 then
    if e.price ≤ 65535 ∧ 3600 ≤ e.duration ∧ e.duration ≤ 31622400 ∧ e.rideLimit ≤ 65535 ∧ 1 ≤ e.maxBikes
        ∧ e.maxBikes ≤ 2 ∧ e.cls ≤ 7 ∧ e.headroom ≤ 65535 then
      (none,
        { s with
          sale :=
            { s.sale with
              kinds :=
                s.sale.kinds.set (e.kind - 1)
                  { onSale := e.onSale, price := e.price, duration := e.duration, rideLimit := e.rideLimit
                    maxBikes := e.maxBikes, cls := e.cls, headroom := e.headroom } } })
    else (some .range, s)
  else (some .range, s)

/-! ### TARIFF (R112) -/

/-- Whether the upper limits of bands increase strictly (R112). -/
def uppersRise : List Band → Bool
  | a :: b :: bs => decide (a.upper < b.upper) && uppersRise (b :: bs)
  | _ => true

/-- Whether every field of a tariff class lies in its range (table 6-2). -/
def Tariff.inRange (t : Tariff) : Bool :=
  decide
      (t.grace ≤ 600 ∧ t.free ≤ 240 ∧ 1 ≤ t.block ∧ t.block ≤ 60 ∧ 1 ≤ t.bands.length ∧ t.bands.length ≤ 4
        ∧ t.unlockFee.classic ≤ 1000 ∧ t.unlockFee.electric ≤ 1000 ∧ t.unlockFee.cargo ≤ 1000 ∧ t.dailyCap ≤ 65535
        ∧ t.reward ≤ 500)
    && t.bands.all (fun b => decide (1 ≤ b.upper ∧ b.upper ≤ 2880 ∧ b.rate ≤ 2000)) && uppersRise t.bands

/-- One entry of a TARIFF load (R112). -/
def loadTariff (e : TariffEntry) (s : State) : Option EntryRefusal × State :=
  if h : e.cls < 8 then
    if Tariff.inRange e.tariff then
      (none, s.modHire fun x => { x with tariffs := x.tariffs.set e.cls (some e.tariff) })
    else (some .range, s)
  else (some .range, s)

/-! ### STOCK TARGETS (R48) -/

/-- One entry of a STOCK TARGETS load (R48). -/
def loadTarget (e : TargetEntry) (s : State) : Option EntryRefusal × State :=
  match e.kind with
  | some k =>
    if e.low ≤ e.high ∧ e.high ≤ 60 then
      (none, s.modStock fun st => { st with low := setPerKind st.low k e.low, high := setPerKind st.high k e.high })
    else (some .range, s)
  | none => (some .range, s)

end Sys2Proof.Machine
end

