-- ==== Sys2Proof/Machine/Trunk.lean ====
section
/-! DEFINITION. The Trunk Controller's receiver, trunk state, transmitter, modes and clock
(10_trunk_link_station_modes_and_table_loads.md). -/

namespace Sys2Proof.Machine

open Sys2Proof

/-- State with the Trunk Controller changed. -/
def State.modTrunk (s : State) (f : Trunk → Trunk) : State := { s with trunk := f s.trunk }

/-- State with the receive counts changed (R185). -/
def State.modCounts (s : State) (f : RxCounts → RxCounts) : State := s.modTrunk fun t => { t with counts := f t.counts }

/-! ### Trunk state (R186) -/

/-- The island timer restarts, against the island timeout in force (R186). -/
def Trunk.restartTimer (t : Trunk) : Trunk :=
  { t with timerOn := true, islandSeconds := 0, islandLimit := t.settings.islandTimeout }

/-- The trunk becomes CONNECTED: the Stock Unit and then the Fault Unit are told (R186, R47, R167). -/
def connect (s : State) : State := notifyAll (s.modTrunk fun t => { t with connected := true }).recount

/-- A valid frame acts on the trunk state before its body is acted on (R185, R186). DEDUCED, log 33. -/
def frameArrives (s : State) : State :=
  let t := s.modTrunk Trunk.restartTimer
  if t.trunk.connected then t else connect t

/-- The island timer has reached the island timeout: the trunk becomes ISLANDED and the timer stops; every open referral
ends (R186, R82). -/
def islandTimeout (k : Kont) (s : State) : State :=
  if s.trunk.timerOn = true ∧ s.trunk.islandLimit ≤ s.trunk.islandSeconds then
    islandReferrals k (s.modTrunk fun t => { t with connected := false, timerOn := false })
  else s

/-! ### Frames with an answer (R187, R203) -/

/-- A valid frame of a kind that has an answer is taken while the answer wait list holds fewer than 4 (R187). -/
def takeFrame (act : State → State) (s : State) : State :=
  let t := frameArrives s
  if t.trunk.waiting.length < answerRoom then act t
  else t.modCounts fun c => { c with notTaken := bump16 c.notTaken }

/-- A frame with its body held to the encodings of its kind: one outside them does not fit (R203). DEDUCED, log 47. -/
def checked {α : Type} (fits : α → Bool) (f : Frame α) : Frame α := { f with body := f.body.filter fits }

/-- A frame whose body does not fit its kind: MALFORMED rises, and the answer says RANGE (R187, R203). -/
def malformed (answer : OutFrame) (s : State) : State :=
  (s.modCounts fun c => { c with malformed := bump16 c.malformed }).answer answer

/-- A COMMAND of a code, taken, with its COMMAND REPLY carrying the mode after it; a body that does not fit is answered
RANGE (R193, R187). -/
def takeCommand {α : Type} (code : Nat) (f : Frame α) (act : α → State → CommandResult × State) (s : State) : State :=
  takeFrame
    (fun t =>
      match f.body with
      | none => malformed (.commandReply f.tag (.command code .range t.trunk.mode)) t
      | some x =>
        let r := act x t
        r.2.answer (.commandReply f.tag (.command code r.1 r.2.trunk.mode)))
    s

/-! ### Table loads (R194) -/

/-- The id of a table (11.4). -/
def tableCode : TableId → Nat
  | .dropTable => 1
  | .classifier => 2
  | .faultPolicy => 3
  | .stationSettings => 4
  | .passKinds => 5
  | .cardTable => 6
  | .tariff => 7
  | .stockTargets => 8

/-- Whether a table is protected (table 10-5). -/
def tableProtected : TableId → Bool
  | .dropTable => true
  | .classifier => true
  | .faultPolicy => true
  | .stationSettings => true
  | .passKinds => true
  | _ => false

/-- The number of entries a LOAD REPLY names: those of the frame, or an open value where it was not divided (log 14). -/
def entryCount {α : Type} (id : TableId) (f : Load α) : Nat :=
  match f.body with
  | some l => l.length
  | none => Config.entriesUnread f.tag (tableCode id) f.first

/-- A LOAD REPLY with no entry applied (R194). -/
def loadRefused {α : Type} (id : TableId) (f : Load α) (r : LoadResult) : OutFrame :=
  .loadReply
    { tag := f.tag, table := tableCode id, first := f.first, entries := entryCount id f, applied := 0, result := r
      refusal := none, clamped := [] }

/-- The LOAD REPLY of a load that was handed to its owner (R194). -/
def loadDone {α : Type} (id : TableId) (f : Load α) (applied : Nat) (refusal : Option (Nat × EntryRefusal))
    (clamped : List Setting) : OutFrame :=
  .loadReply
    { tag := f.tag, table := tableCode id, first := f.first, entries := entryCount id f, applied := applied
      result := if refusal.isSome then .partly else .done
      refusal := refusal, clamped := clamped }

/-- A TABLE LOAD of a known table, taken: the checks of R194, then its owner, whose answer is made when it has applied the
load whole. DEDUCED, log 34. -/
def takeLoad {α : Type} (id : TableId) (f : Load α) (owner : List α → State → OutFrame × State) (s : State) : State :=
  takeFrame
    (fun t =>
      if tableProtected id = true ∧ t.trunk.mode ≠ .maintenance then t.answer (loadRefused id f .mode)
      else
        match f.body with
        | none => malformed (loadRefused id f .range) t
        | some l => (owner l t).2.answer (owner l t).1)
    s

/-- The owner of a table whose entries are taken one by one, with what follows the last (R194). -/
def entriesOwner {α : Type} (id : TableId) (f : Load α) (take : α → State → Option EntryRefusal × State)
    (after : State → State) (l : List α) (s : State) : OutFrame × State :=
  let r := takeEntries take l f.first (LoadRun.start s)
  (loadDone id f r.applied r.refusal [], after r.state)

/-- The owner of STATION SETTINGS (R195). -/
def settingsOwner (k : Kont) (f : Load SettingEntry) (l : List SettingEntry) (s : State) : OutFrame × State :=
  let r := settingsOf s.trunk.settings l f.first
  (loadDone .stationSettings f r.applied r.refusal r.run.clamped, settingsApplied k r.run.settings s)

/-- The owner of FAULT POLICY: the load is taken whole (R157). -/
def policyOwner (k : Kont) (f : Load FaultPolicyEntry) (l : List FaultPolicyEntry) (s : State) : OutFrame × State :=
  let r := takeEntries loadPolicy l f.first (LoadRun.start s)
  (loadDone .faultPolicy f r.applied r.refusal [],
    faultTakes k (fun t => policyApplied k s.fault (takeEntries loadPolicy l f.first (LoadRun.start t)).state) s)

/-! ### The transmitter (R188, R189) -/

/-- The oldest frame of the highest group that holds a frame (R188). -/
def Trunk.leaving (t : Trunk) : Option OutFrame :=
  [1, 2, 3].findSome? fun g => t.queue.find? fun f => f.group == g

/-- A frame leaves the queue as its sending begins, and the oldest waiting answer joins in that departure (R188, R189).
DEDUCED, log 28. -/
def Trunk.send (t : Trunk) (f : OutFrame) : Trunk :=
  { t with
    queue := t.queue.eraseP (fun g => g.group == f.group) ++ t.waiting.take 1
    waiting := t.waiting.drop 1, sending := some f }

/-- The transmitter is free: while the trunk is CONNECTED a frame is sent (R188). -/
def outboundSend (s : State) : State :=
  if s.trunk.connected then
    match s.trunk.leaving with
    | some f => s.modTrunk fun t => t.send f
    | none => s
  else s

/-! ### Modes (R190, R192) -/

/-- The station enters SERVICE if it is ready (R190, R191). DEDUCED, log 32. -/
def serveIfReady (s : State) : CommandResult × State :=
  if s.ready then (.done, s.modTrunk fun t => { t with mode := .service, releasesQuiet := false, salesQuiet := false })
  else (.notReady s.notReady, s)

/-- START SERVICE (R190). -/
def startService (s : State) : CommandResult × State :=
  match s.trunk.mode with
  | .init => serveIfReady s
  | .service => (.done, s)
  | _ => (.mode, s)

/-- LEAVE MAINTENANCE (R190). -/
def leaveMaintenance (s : State) : CommandResult × State :=
  match s.trunk.mode with
  | .init => (.mode, s)
  | .service => (.done, s)
  | _ => serveIfReady s

/-- The two quiet marks set from the present state (R192). -/
def setMarks (s : State) : State :=
  s.modTrunk fun t =>
    { t with
      releasesQuiet := s.hire.releases.isEmpty
      salesQuiet := s.sale.sales.all fun r => r.state != .offered }

/-- ENTER MAINTENANCE taken in SERVICE (R192). -/
def enterPending (k : Kont) (s : State) : State :=
  let t := closeVisit k .maintenance (s.modTrunk fun t => { t with mode := .maintenancePending })
  (setMarks t).modTrunk Trunk.settleMode

/-- ENTER MAINTENANCE (R190, R192). -/
def enterMaintenance (k : Kont) (s : State) : CommandResult × State :=
  match s.trunk.mode with
  | .init => (.done, s.modTrunk fun t => { t with mode := .maintenance })
  | .service => (.accepted, enterPending k s)
  | .maintenancePending => (.accepted, s)
  | .maintenance => (.done, s)

/-! ### The clock (R196, R197) -/

/-- One second passes: station time rises and stops at its largest value; the island timer runs on its own count (R186,
R196). -/
def timeTick (s : State) : State :=
  s.modTrunk fun t =>
    { t with time := bump lastTime t.time, islandSeconds := if t.timerOn then t.islandSeconds + 1 else t.islandSeconds }

/-- An element put in its place by a key, after those of an equal key. -/
def sortInsert {α : Type} (key : α → Nat) (x : α) : List α → List α
  | [] => [x]
  | y :: ys => if key x < key y then x :: y :: ys else y :: sortInsert key x ys

/-- A list in ascending order of a key, equal ones in their order. -/
def sortBy {α : Type} (key : α → Nat) (l : List α) : List α := l.foldl (fun a x => sortInsert key x a) []

/-- The guard of the release at a dock, if it has been reached (R88). -/
def takeGuardAt (k : Kont) (p : DockPos) (s : State) : State :=
  match s.releaseAt p with
  | none => s
  | some r => guardReached k r s

/-- The Hire Unit's referral deadlines and release guards, each with its moment and how the unit takes it (R81, R88), in the
order in which the unit takes those of one moment: referrals in the order of their list (R78), then guards in ascending dock
position. DESIGN CHOICE, log 78. -/
def hireDeadlines (k : Kont) (s : State) : List (Nat × (State → State)) :=
  s.hire.referrals.map (fun r => (r.deadline, referralDeadline k r.card))
    ++ s.hire.releases.filterMap fun r => r.guardAt.map fun g => (g, takeGuardAt k r.pos)

/-- The Hire Unit takes its deadlines that have been reached, in order of deadline (R197). DEDUCED, log 45. -/
def takeHireDeadlines (k : Kont) (s : State) : State := (sortBy Prod.fst (hireDeadlines k s)).foldl (fun t d => d.2 t) s

/-- The offers whose deadline has been reached, in order of deadline (R104, R197), and of two with one deadline the one of the
lower terminal first. DESIGN CHOICE, log 71. -/
def takeLapses (k : Kont) (s : State) : State :=
  (sortBy SaleRec.deadline (s.sale.sales.filter fun r => r.state == .offered)).foldl
    (fun t r => saleDeadline k r.terminal t) s

/-- Every deadline at or before the station time is taken, block by block (R128, R135, R148, R197). DEDUCED, log 45. -/
def takeDeadlines (k : Kont) (s : State) : State :=
  visitCloseTime k (expireOrders (expireRecents (takeLapses k (takeHireDeadlines k s))))

/-- TIME SET: the counter takes the value and time becomes valid; a move forward reaches deadlines (R196, R197). -/
def timeSet (k : Kont) (v : Nat) (s : State) : State :=
  let t := s.modTrunk fun t => { t with time := v, timeValid := true }
  if s.now < v then takeDeadlines k t else t

/-! ### The journal's frames (R175, R176, R177) -/

/-- The records, of those from a start, that one JOURNAL DATA carries: at most `n`, within `room` bytes (R175, R176). -/
def fitRecords : List JournalRec → Nat → Nat → List JournalRec
  | [], _, _ => []
  | _ :: _, 0, _ => []
  | r :: rs, n + 1, room => if recordBytes r ≤ room then r :: fitRecords rs n (room - recordBytes r) else []

/-- The bytes of a JOURNAL DATA body left for records: 1,024 less the 16 that open it (11.5, R176). -/
def dataRoom : Nat := 1008

/-- A JOURNAL DATA frame as the journal stands (R175). -/
def Journal.data (j : Journal) (tag : Nat) (records : List JournalRec) (range : Bool) : JournalData :=
  let d : JournalShown :=
    { tag := tag, held := j.range, next := j.next, level := j.level, coldStart := j.coldStart, records := records
      range := range }
  { toJournalShown := d, body := journalBody d }

/-- The records a collect answers with (R175, R176). -/
def Journal.collect (j : Journal) (start n : Nat) : List JournalRec :=
  fitRecords (j.records.filter fun r => start ≤ r.seq) (clampNat 1 16 n) dataRoom

/-- The journal after a JOURNAL RELEASE of `r`, its level not yet evaluated (R177, R180). -/
def Journal.released (j : Journal) (r : Nat) : Journal :=
  { j with records := j.records.filter fun x => r < x.seq, coldStart := false }

/-! ### Reports (R199) -/

/-- Whether a drop is one of a station report: its corrected-header count (R63). -/
def State.correctedAt (s : State) (p : DockPos) : Option Nat :=
  match s.dropAt p with
  | none => none
  | some d => (s.dropRec d).map DropRec.corrected

/-- A dock's place in the wait list or the charging list (R63), counted from 0 for the first. DESIGN CHOICE, log 80. -/
def Stock.place (st : Stock) (p : DockPos) : ChargePlace :=
  match st.waitList.idxOf? p with
  | some i => .waiting i
  | none =>
    match st.chargingList.idxOf? p with
    | some i => .charging i
    | none => .none

/-- One record of a DOCK LIST (R63, R94, R203). DEDUCED, log 66. -/
def State.dockReport (s : State) (p : DockPos) : DockReport :=
  { pos := p, drop := s.dropAt p, record := s.dock p
    bike := ((s.dock p).bike.map Bike.id).getD 0
    battery := ((s.dock p).bike.bind Bike.battery).getD 255
    lastKnown := (s.dock p).bike.isSome && ((s.dock p).state == .lost || (s.dock p).state == .unknown)
    place := s.stock.place p, corrected := s.correctedAt p
    release :=
      (s.releaseAt p).map fun r =>
        { kind := r.kind, unlocked := r.guardAt.isSome, cancel := r.cancel, checking := r.checking } }

/-- How many of `n` records one body carries, at least one, of an open number that fit (R199, log 11). -/
def carried (fits n : Nat) : Nat := min n (max 1 fits)

/-- The DOCK LIST from a position (R199). -/
def State.dockList (s : State) (tag : Nat) (first : DockPos) : DockList :=
  let l := positions.drop first.val
  let n := carried (Config.dockListFits first.val l.length) l.length
  { tag := tag, docks := (l.take n).map s.dockReport
    next := if n < l.length then some (first.val + n + 1) else none }

/-- The FAULT LIST from a place (R170, R199). -/
def State.faultList (s : State) (tag place : Nat) : FaultList :=
  let l := s.fault.log.drop place
  let n := carried (Config.faultListFits place l.length) l.length
  { tag := tag, records := (l.take n).map fun f => (f, s.fault.actions f.code)
    next := if n < l.length then some (place + n) else none
    total := s.fault.log.length }

/-- What the STATUS REPORT shows of a sale record (R108). -/
def SaleRec.report (r : SaleRec) : SaleReport :=
  { terminal := r.terminal, state := r.state, ref := r.ref, kind := r.terms.map OfferTerms.kind
    deadline := if r.state = .offered then some r.deadline else none
    unanswered := r.unanswered, ready := r.ready }

/-- What the STATUS REPORT shows of a pending order (R153). -/
def orderReport (o : VanOrder) : OrderReport :=
  { id := o.id, van := o.van, validFrom := o.validFrom, validUntil := o.validUntil }

/-- The kind of a visit: PLANNED with an order, AD HOC without (table 7-2). -/
def Visit.kind (v : Visit) : VisitKind := if v.plan.isSome then .planned else .adHoc

/-- What the STATUS REPORT shows of the active visit (R153, R203). DEDUCED, log 66. -/
def Visit.report (v : Visit) : VisitReport :=
  { kind := v.kind, serial := v.serial, order := (v.plan.map fun p => p.order.id).getD 0
    van := v.van, operator := v.operator, arrival := v.arrival, closeAt := v.closeAt
    remDrops := unmetCounts (v.plan.map VisitPlan.remDrops)
    remPickups := unmetCounts (v.plan.map VisitPlan.remPickups)
    drops := v.drops.length, pickups := v.pickups.length, load := v.load.length, dropList := v.dropList.length
    inFlight := v.inFlight.length }

/-- The number of uncleared records at a severity (R170). -/
def FaultUnit.unclearedAt (u : FaultUnit) (v : Severity) : Nat := u.log.countP fun f => f.uncleared && f.severity == v

/-- The number of releases in flight of a kind (R94). -/
def Hire.releasesOf (h : Hire) (k : ReleaseKind) : Nat := h.releases.countP fun r => r.kind == k

/-- The STATUS REPORT (R199, with R3, R27, R63, R94, R108, R132, R153, R170, R184). DEDUCED, log 48. -/
def State.statusReport (s : State) : StatusReport :=
  { errorsA := s.engA.errors, errorsB := s.engB.errors, hits := s.classifier.hits
    defaultHits := s.classifier.defaultHits, releasable := s.stock.counts, flags := s.stock.flags
    charging := s.stock.chargingList.length, chargeSlots := s.trunk.settings.chargeSlots
    waiting := s.stock.waitList.length, cards := s.hire.cards.length
    provisional := s.hire.cards.countP CardRec.provisional
    passesActive := s.hire.passes.countP fun p => p.token.isSome
    passesReserved := s.hire.passes.countP fun p => p.token.isNone
    referrals := s.hire.referrals.length, releasesRider := s.hire.releasesOf .rider
    releasesVan := s.hire.releasesOf .van, releasesRemote := s.hire.releasesOf .remote
    recent := s.hire.recent.length, tariffsLoaded := s.hire.tariffs.toList.map Option.isSome
    sales := s.sale.sales.map SaleRec.report, onSale := s.sale.kinds.toList.map PassKind.onSale
    orders := s.van.orders.map orderReport, visit := s.van.visit.map Visit.report, vanpointReady := s.van.ready
    faultsOpen := s.fault.log.countP fun f => f.state == .opened
    faultsNotified := s.fault.log.countP fun f => f.state == .notified
    faultsCleared := s.fault.log.countP fun f => !f.uncleared
    unclearedMinor := s.fault.unclearedAt .minor, unclearedMajor := s.fault.unclearedAt .major
    unclearedCritical := s.fault.unclearedAt .critical, faultsDiscarded := s.fault.discarded
    faultsNotStored := s.fault.notStored, nextFaultId := s.fault.nextId, journalHeld := s.journal.records.length
    journalRange := s.journal.range, journalNext := s.journal.next, level := s.journal.level
    coldStart := s.journal.coldStart, refused := s.journal.refused, mode := s.trunk.mode
    releasesQuiet := s.trunk.releasesQuiet, salesQuiet := s.trunk.salesQuiet, connected := s.trunk.connected
    sinceFrame := s.trunk.islandSeconds, time := s.now, timeValid := s.trunk.timeValid, station := s.trunk.station
    segB := s.trunk.segB, group1 := s.trunk.queue.countP fun f => f.group == 1
    group2 := s.trunk.queue.countP fun f => f.group == 2
    group3 := s.trunk.queue.countP fun f => f.group == 3
    answersWaiting := s.trunk.waiting.length, counts := s.trunk.counts, discards := s.trunk.discards
    settings := s.trunk.settings }

/-! ### CLEAR FAULT (R168) -/

/-- COMMAND CLEAR FAULT (R168). -/
def clearFault (k : Kont) (id : Nat) (s : State) : CommandResult × State :=
  if id = 0 then (.range, s)
  else
    match s.fault.log.find? fun f => f.id == id with
    | none => (.unknown, s)
    | some f =>
      if f.uncleared then (.cleared, faultTakes k (clearRecord k .clearedByCentral f) s) else (.alreadyCleared, s)

/-! ### SET DOCK SERVICE (R193) -/

/-- Whether the fields of a SET DOCK SERVICE are within their encodings (R193, R203). -/
def serviceEncoded (o : ServiceOrder) : Bool := (posOf o.pos).isSome && o.service.isSome

/-- COMMAND SET DOCK SERVICE (R37, R193). -/
def setDockService (k : Kont) (o : ServiceOrder) (s : State) : CommandResult × State :=
  match posOf o.pos, o.service with
  | some p, some v => (.done, setServiceCentral k p v s)
  | _, _ => (.range, s)

end Sys2Proof.Machine
end

