-- ==== Sys2Proof/Machine/Resets.lean ====
section
/-! DEFINITION. The two resets: power-on (R22, R34, R64, R95, R108, R132, R171, R181, R182, R196, R198, R200) and RESTART
(R22, R34, R64, R95, R108, R132, R171, R183, R201, table 7-4). -/

namespace Sys2Proof.Machine

open Sys2Proof

/-! ### Power-on reset -/

/-- A Segment Engine after power-on reset with its hold line as it stands: an asserted one is answered at once where the
engine is present (R20, R22). -/
def engineAtPowerOn (isPresent hold : Bool) : Engine :=
  { Engine.reset with
    mode := if isPresent && hold then .holding else .stopped
    holdLine := hold, holdAck := isPresent && hold }

/-- The journal after power-on (R181, R182). -/
def Journal.atPowerOn (j : Journal) (held : Bool) : Journal :=
  if held then { j with level := levelAtPowerOn j.free, refused := Vector.replicate 10 0 } else Journal.reset

/-- The Trunk Controller after power-on (R196, R198, R200). -/
def Trunk.atPowerOn (t : Trunk) (p : PowerOn) : Trunk :=
  { Trunk.reset with
    time := if p.standbyHeld then satAdd lastTime t.time p.secondsOff else 0
    timeValid := p.standbyHeld && t.timeValid
    station := p.station, segB := p.segB }

/-- Power-on reset; the queue of commands is the environment's and stays (log 1). -/
def powerOn (p : PowerOn) (s : State) : State :=
  { State.reset with
    engA := engineAtPowerOn true p.holdA
    engB := engineAtPowerOn p.segB p.holdB
    journal := s.journal.atPowerOn p.standbyHeld
    trunk := s.trunk.atPowerOn p
    pending := s.pending }

/-! ### RESTART -/

/-- The bike fields that a RESTART leaves: the identifier alone, of a record that was RELEASING (R64). Of the cleared fields
the contact and the hold are NONE, the marks clear and the battery absent. DESIGN CHOICE, log 13. -/
def keptBike (d : DockRec) : Option Bike :=
  match d.state, d.bike with
  | .releasing, some b =>
    some
      { id := b.id, kind := Config.kindAfterRestart b.id, dockedAt := Config.dockedAtAfterRestart b.id, battery := none
        contact := .none, hold := .none, pickup := false, mark := false, idOnly := true }
  | _, _ => none

/-- A dock record after RESTART (R64). -/
def DockRec.restarted (d : DockRec) (hasDrop : Bool) : DockRec :=
  { d with
    state := if hasDrop then .unknown else .unused
    bike := if hasDrop then keptBike d else none
    lock := none, vanDrop := false, charge := .notCharging, barred := false, settling := false, gatePending := false
    offPending := false, offOwed := hasDrop }

/-- The Stock Unit after RESTART, before its counts are computed afresh (R64). -/
def State.stockRestarted (s : State) : Stock :=
  { s.stock with
    docks := Vector.ofFn fun p => (s.dock p).restarted (s.dropAt p).isSome
    waitList := [], chargingList := [] }

/-- The Hire Unit after RESTART (R95, R132). -/
def Hire.restarted (h : Hire) : Hire := { h with referrals := [], releases := [], recent := [] }

/-- The Sale Unit's RESTART: offers lapse in order of terminal, and every ready state is unknown (R108). -/
def salesRestart (k : Kont) (s : State) : State :=
  let t := (s.sale.sales.filter fun r => r.state == .offered).foldl (fun t r => lapse k true r t) s
  { t with sale := { t.sale with sales := t.sale.sales.map fun r => { r with ready := .unknown } } }

/-- The Trunk Controller after RESTART (R201). -/
def Trunk.restarted (t : Trunk) : Trunk :=
  { t with
    mode := .init, releasesQuiet := false, salesQuiet := false, counts := ⟨0, 0, 0, 0, 0, 0⟩, discards := ⟨0, 0, 0⟩ }

/-- RESTART, taken by every block: the Trunk Controller, the engines, the Stock Unit, the Hire Unit, the Sale Unit, then the
Van Unit (R201). DEDUCED, log 35. -/
def restart (k : Kont) (s : State) : State :=
  let t := s.modTrunk Trunk.restarted
  let t := { t with engA := t.engA.restarted true, engB := t.engB.restarted t.trunk.segB }
  let t := State.countAfresh { t with stock := t.stockRestarted }
  let t := t.modHire Hire.restarted
  vanReady .unknown (closeVisit k .restart (salesRestart k t))

end Sys2Proof.Machine
end

