-- ==== Sys2Proof/Machine/ExecBus.lean ====
section
/-! DEFINITION. The commands of the reset pin, the hold lines and the two dock bus segments: POWER_ON_RESET, HOLD_ASSERT,
HOLD_RELEASE, SWEEP_START, DOCK_BUS_FRAME_RECEIVED, REPLY_WINDOW_EXPIRED. -/

namespace Sys2Proof.Machine

open Sys2Proof

/-- POWER_ON_RESET (R22, R34, R64, R95, R97, R108, R112, R132, R171, R181, R182, R196, R198, R200). -/
def execPowerOnReset (p : PowerOn) (s : State) : Host.Outcome State Fault Refusal := .next (powerOn p s)

/-- HOLD_ASSERT (R20). -/
def execHoldAssert (seg : Segment) (s : State) : Host.Outcome State Fault Refusal := .next (holdAssert seg s)

/-- HOLD_RELEASE (R21). -/
def execHoldRelease (seg : Segment) (s : State) : Host.Outcome State Fault Refusal := .next (holdRelease call seg s)

/-- SWEEP_START (R4, R5), at a moment of elapsed time. -/
def execSweepStart (seg : Segment) (now : Nat) (s : State) : Host.Outcome State Fault Refusal :=
  .next (sweepStart seg now s)

/-- DOCK_BUS_FRAME_RECEIVED (R9, R10), at a moment of elapsed time. -/
def execDockBusFrameReceived (seg : Segment) (now : Nat) (f : BusFrame) (s : State) :
    Host.Outcome State Fault Refusal :=
  .next (frameReceived call seg now f s)

/-- REPLY_WINDOW_EXPIRED (R9), at a moment of elapsed time. -/
def execReplyWindowExpired (seg : Segment) (now : Nat) (s : State) : Host.Outcome State Fault Refusal :=
  .next (windowExpired call seg now s)

end Sys2Proof.Machine
end

