-- ==== Sys2Proof/Machine/ExecCommands.lean ====
section
/-! DEFINITION. The COMMAND frames of table 10-4 (R193), by the codes of 11.4: START_SERVICE 1, ENTER_MAINTENANCE 2,
LEAVE_MAINTENANCE 3, RESTART 4, RELEASE 5, CANCEL_RELEASE 6, CLEAR_FAULT 7, SET_DOCK_SERVICE 8, and UNKNOWN_COMMAND. -/

namespace Sys2Proof.Machine

open Sys2Proof

/-- COMMAND RESTART: every block takes its RESTART, then DONE is answered with mode INIT (R201). -/
def takeRestart (k : Kont) (s : State) : CommandResult × State := (.done, restart k s)

/-- Whether a code is a command of table 10-4 (11.4). -/
def knownCommand (code : Nat) : Bool := decide (1 ≤ code ∧ code ≤ 8)

/-- A COMMAND whose code is none of table 10-4 (R193). -/
def commandUnknown (tag code : Nat) (s : State) : State :=
  if knownCommand code then s
  else takeFrame (fun t => t.answer (.commandReply tag (.command code .unknownCommand t.trunk.mode))) s

/-- START_SERVICE (R190, R191). -/
def execStartService (f : Frame Unit) (s : State) : Host.Outcome State Fault Refusal :=
  .next (takeCommand 1 f (fun _ t => startService t) s)

/-- ENTER_MAINTENANCE (R190, R192). -/
def execEnterMaintenance (f : Frame Unit) (s : State) : Host.Outcome State Fault Refusal :=
  .next (takeCommand 2 f (fun _ t => enterMaintenance call t) s)

/-- LEAVE_MAINTENANCE (R190, R191). -/
def execLeaveMaintenance (f : Frame Unit) (s : State) : Host.Outcome State Fault Refusal :=
  .next (takeCommand 3 f (fun _ t => leaveMaintenance t) s)

/-- RESTART (R201). -/
def execRestart (f : Frame Unit) (s : State) : Host.Outcome State Fault Refusal :=
  .next (takeCommand 4 f (fun _ t => takeRestart call t) s)

/-- RELEASE (R91, R203). -/
def execRelease (f : Frame ReleaseOrder) (s : State) : Host.Outcome State Fault Refusal :=
  .next (takeCommand 5 (checked releaseEncoded f) (remoteRelease call) s)

/-- CANCEL_RELEASE (R90). -/
def execCancelRelease (f : Frame DockPos) (s : State) : Host.Outcome State Fault Refusal :=
  .next (takeCommand 6 f (remoteCancel call) s)

/-- CLEAR_FAULT (R168). -/
def execClearFault (f : Frame Nat) (s : State) : Host.Outcome State Fault Refusal :=
  .next (takeCommand 7 f (clearFault call) s)

/-- SET_DOCK_SERVICE (R37, R193, R203). -/
def execSetDockService (f : Frame ServiceOrder) (s : State) : Host.Outcome State Fault Refusal :=
  .next (takeCommand 8 (checked serviceEncoded f) (setDockService call) s)

/-- UNKNOWN_COMMAND (R193): a COMMAND frame always holds its tag and code, and no body of an unknown code is malformed. DESIGN
CHOICE, log 75. -/
def execUnknownCommand (tag code : Nat) (s : State) : Host.Outcome State Fault Refusal :=
  .next (commandUnknown tag code s)

end Sys2Proof.Machine
end

