-- ==== Sys2Proof/Machine/ExecFrames.lean ====
section
/-! DEFINITION. The other inbound frames of table 10-1: TIME_SET, REFERRAL_ANSWER, JOURNAL_COLLECT, JOURNAL_RELEASE,
VAN_ORDER, STATUS_QUERY, DOCK_LIST_QUERY, FAULT_LIST_QUERY. -/

namespace Sys2Proof.Machine

open Sys2Proof

/-- A frame with an answer, taken: its body handed on, or, where it does not fit, answered RANGE (R187, R203). -/
def takeBody {α : Type} (f : Frame α) (range : State → OutFrame) (act : α → State → State) (s : State) : State :=
  takeFrame
    (fun t =>
      match f.body with
      | none => malformed (range t) t
      | some x => act x t)
    s

/-- The COMMAND REPLY with result RANGE to a frame of a kind whose body does not fit (R187, table 11-7): beside the tag it
carries the kind of that frame. DESIGN CHOICE, log 85. -/
def rangeReply (tag kind : Nat) (_ : State) : OutFrame := .commandReply tag (.range kind)

/-- The JOURNAL DATA with its RANGE bit set, to a journal request whose body does not fit (R187). -/
def rangeData (tag : Nat) (s : State) : OutFrame := .journalData (s.journal.data tag [] true)

/-- A TIME SET taken, with its COMMAND REPLY (R196, R197). -/
def setTime (k : Kont) (tag v : Nat) (s : State) : State :=
  (timeSet k v s).answer (.commandReply tag (.timeSet s.now v))

/-- A REFERRAL ANSWER: it has no answer, so it is always taken; one that does not fit is discarded (R79, R187). -/
def answerReferral (k : Kont) (f : Frame ReferralReply) (s : State) : State :=
  let t := frameArrives s
  match f.body with
  | none => t.modCounts fun c => { c with malformed := bump16 c.malformed }
  | some a => takeAnswer k a t

/-- A JOURNAL COLLECT taken, with its JOURNAL DATA (R175). -/
def collectJournal (tag : Nat) (q : Nat × Nat) (s : State) : State :=
  s.answer (.journalData (s.journal.data tag (s.journal.collect q.1 q.2) false))

/-- A JOURNAL RELEASE taken, with its JOURNAL DATA (R177, R178, R180). -/
def releaseJournal (k : Kont) (tag r : Nat) (s : State) : State :=
  let t := journalMoves k (s.journal.released r) s
  t.answer (.journalData (t.journal.data tag [] false))

/-- A VAN ORDER taken, with its COMMAND REPLY (R134). A field outside the values of check 1 is answered RANGE by that check,
and MALFORMED does not rise. DEDUCED, log 74. -/
def acceptOrder (tag : Nat) (o : VanOrder) (s : State) : State :=
  (takeOrder o (s.orderResult o) s).answer (.commandReply tag (.vanOrder o.id (s.orderResult o)))

/-- A STATUS QUERY taken, with its STATUS REPORT (R199). -/
def reportStatus (tag : Nat) (_ : Unit) (s : State) : State := s.answer (.statusReport tag s.statusReport)

/-- A DOCK LIST QUERY taken, with its DOCK LIST; a first position outside 1..60 is a body that does not fit (R199). -/
def reportDocks (tag first : Nat) (s : State) : State :=
  match posOf first with
  | some p => s.answer (.dockList (s.dockList tag p))
  | none => malformed (rangeReply tag 9 s) s

/-- A FAULT LIST QUERY taken, with its FAULT LIST (R199). -/
def reportFaults (tag place : Nat) (s : State) : State := s.answer (.faultList (s.faultList tag place))

/-- TIME_SET (R196, R197). -/
def execTimeSet (f : Frame Nat) (s : State) : Host.Outcome State Fault Refusal :=
  .next (takeBody f (rangeReply f.tag 2) (setTime call f.tag) s)

/-- REFERRAL_ANSWER (R79, R80). -/
def execReferralAnswer (f : Frame ReferralReply) (s : State) : Host.Outcome State Fault Refusal :=
  .next (answerReferral call f s)

/-- JOURNAL_COLLECT (R175, R176). -/
def execJournalCollect (f : Frame (Nat × Nat)) (s : State) : Host.Outcome State Fault Refusal :=
  .next (takeBody f (rangeData f.tag) (collectJournal f.tag) s)

/-- JOURNAL_RELEASE (R177, R178, R180). -/
def execJournalRelease (f : Frame Nat) (s : State) : Host.Outcome State Fault Refusal :=
  .next (takeBody f (rangeData f.tag) (releaseJournal call f.tag) s)

/-- VAN_ORDER (R134). -/
def execVanOrder (f : Frame VanOrder) (s : State) : Host.Outcome State Fault Refusal :=
  .next (takeBody f (rangeReply f.tag 6) (acceptOrder f.tag) s)

/-- STATUS_QUERY (R199). -/
def execStatusQuery (f : Frame Unit) (s : State) : Host.Outcome State Fault Refusal :=
  .next (takeBody f (rangeReply f.tag 8) (reportStatus f.tag) s)

/-- DOCK_LIST_QUERY (R199). -/
def execDockListQuery (f : Frame Nat) (s : State) : Host.Outcome State Fault Refusal :=
  .next (takeBody f (rangeReply f.tag 9) (reportDocks f.tag) s)

/-- FAULT_LIST_QUERY (R199). -/
def execFaultListQuery (f : Frame Nat) (s : State) : Host.Outcome State Fault Refusal :=
  .next (takeBody f (rangeReply f.tag 10) (reportFaults f.tag) s)

end Sys2Proof.Machine
end

