-- ==== Sys2Proof/Machine/ExecLoads.lean ====
section
/-! DEFINITION. The eight table loads of table 10-5 (R194): DROP_TABLE_LOAD, CLASSIFIER_LOAD, FAULT_POLICY_LOAD,
STATION_SETTINGS_LOAD, PASS_KINDS_LOAD, CARD_TABLE_LOAD, TARIFF_LOAD, STOCK_TARGETS_LOAD. -/

namespace Sys2Proof.Machine

open Sys2Proof

/-- After the last entry of a DROP TABLE load: each engine by its poll list (R1). -/
def afterDropTable (s : State) : State := engineAfterLoad .B (engineAfterLoad .A s)

/-- DROP_TABLE_LOAD (R2, R194). -/
def execDropTableLoad (f : Load DropEntry) (s : State) : Host.Outcome State Fault Refusal :=
  .next (takeLoad .dropTable f (entriesOwner .dropTable f (loadDrop call) afterDropTable) s)

/-- CLASSIFIER_LOAD (R32, R194). -/
def execClassifierLoad (f : Load RuleEntry) (s : State) : Host.Outcome State Fault Refusal :=
  .next (takeLoad .classifier f (entriesOwner .classifier f loadRule id) s)

/-- FAULT_POLICY_LOAD (R157, R194). -/
def execFaultPolicyLoad (f : Load FaultPolicyEntry) (s : State) : Host.Outcome State Fault Refusal :=
  .next (takeLoad .faultPolicy f (policyOwner call f) s)

/-- STATION_SETTINGS_LOAD (R194, R195). -/
def execStationSettingsLoad (f : Load SettingEntry) (s : State) : Host.Outcome State Fault Refusal :=
  .next (takeLoad .stationSettings f (settingsOwner call f) s)

/-- PASS_KINDS_LOAD (R97, R194). -/
def execPassKindsLoad (f : Load PassKindEntry) (s : State) : Host.Outcome State Fault Refusal :=
  .next (takeLoad .passKinds f (entriesOwner .passKinds f loadPassKind id) s)

/-- CARD_TABLE_LOAD (R66, R194). -/
def execCardTableLoad (f : Load CardEntry) (s : State) : Host.Outcome State Fault Refusal :=
  .next (takeLoad .cardTable f (entriesOwner .cardTable f loadCard id) s)

/-- TARIFF_LOAD (R112, R194). -/
def execTariffLoad (f : Load TariffEntry) (s : State) : Host.Outcome State Fault Refusal :=
  .next (takeLoad .tariff f (entriesOwner .tariff f loadTariff id) s)

/-- STOCK_TARGETS_LOAD (R48, R194). -/
def execStockTargetsLoad (f : Load TargetEntry) (s : State) : Host.Outcome State Fault Refusal :=
  .next (takeLoad .stockTargets f (entriesOwner .stockTargets f loadTarget stockDone) s)

end Sys2Proof.Machine
end

