-- ==== Sys2Proof/Machine/ExecTime.lean ====
section
/-! DEFINITION. The commands of passing time: STATION_TIME_TICK, the six deadlines of R197, ISLAND_TIMEOUT. A deadline
command acts only on a deadline that the station time has reached (log 15). -/

namespace Sys2Proof.Machine

open Sys2Proof

/-- STATION_TIME_TICK (R196). -/
def execStationTimeTick (s : State) : Host.Outcome State Fault Refusal := .next (timeTick s)

/-- REFERRAL_DEADLINE of a card's referral (R81). -/
def execReferralDeadline (card : Nat) (s : State) : Host.Outcome State Fault Refusal :=
  .next (referralDeadline call card s)

/-- RELEASE_GUARD_EXPIRY of the release at a dock (R88). -/
def execReleaseGuardExpiry (pos : DockPos) (s : State) : Host.Outcome State Fault Refusal :=
  .next (takeGuardAt call pos s)

/-- SALE_DEADLINE of the offer at a terminal (R104). -/
def execSaleDeadline (terminal : Drop) (s : State) : Host.Outcome State Fault Refusal :=
  .next (saleDeadline call terminal s)

/-- RECENT_RETURN_EXPIRY of the entry at a place in the list (R128). -/
def execRecentReturnExpiry (place : Nat) (s : State) : Host.Outcome State Fault Refusal :=
  .next (expireRecentAt place s)

/-- VAN_ORDER_EXPIRY of the pending order of an id (R135). -/
def execVanOrderExpiry (order : Nat) (s : State) : Host.Outcome State Fault Refusal := .next (expireOrder order s)

/-- VISIT_CLOSE_TIME (R148). -/
def execVisitCloseTime (s : State) : Host.Outcome State Fault Refusal := .next (visitCloseTime call s)

/-- ISLAND_TIMEOUT (R186, R82). -/
def execIslandTimeout (s : State) : Host.Outcome State Fault Refusal := .next (islandTimeout call s)

end Sys2Proof.Machine
end

