-- ==== Sys2Proof/Machine/ExecTrunk.lean ====
section
/-! DEFINITION. The commands of the trunk receiver and transmitter: TRUNK_FRAME_TRUNCATED, TRUNK_FRAME_INVALID,
UNKNOWN_KIND, UNKNOWN_TABLE, OUTBOUND_SEND. -/

namespace Sys2Proof.Machine

open Sys2Proof

/-- The bytes of a trunk frame that its CRC-32 covers: kind, length and body (table 11-6). -/
def TrunkRaw.covered (f : TrunkRaw) : List Byte := f.kind :: beBytes 2 f.length.toNat ++ f.body

/-- A trunk frame that is not complete in time (R185). -/
def frameTruncated (s : State) : State := s.modCounts fun c => { c with truncated := bump16 c.truncated }

/-- A trunk frame as received: one too long or with a wrong CRC-32 is discarded and counted (R185). A valid one belongs to
another row, and leaves the state as it was (log 16). -/
def frameInvalid (f : TrunkRaw) (s : State) : State :=
  if 1024 < f.length.toNat then s.modCounts fun c => { c with length := bump16 c.length }
  else if crc32 (TrunkRaw.covered f) ≠ f.crc then s.modCounts fun c => { c with badCrc := bump16 c.badCrc }
  else s

/-- Whether a code is a kind of table 11-7 that central sends. -/
def knownKind (kind : Nat) : Bool := decide (1 ≤ kind ∧ kind ≤ 10)

/-- A valid frame of unknown kind: it acts on the trunk state and is counted (R185, R186). -/
def frameUnknown (kind : Nat) (s : State) : State :=
  if knownKind kind then s
  else (frameArrives s).modCounts fun c => { c with unknownKind := bump16 c.unknownKind }

/-- Whether an id is one of table 10-5 (11.4). -/
def knownTable (table : Nat) : Bool := decide (1 ≤ table ∧ table ≤ 8)

/-- The LOAD REPLY to a load of a table that is none of table 10-5 (R194). -/
def unknownTableReply (tag table first : Nat) : OutFrame :=
  .loadReply
    { tag := tag, table := table, first := first, entries := Config.entriesUnread tag table first, applied := 0
      result := .unknownTable, refusal := none, clamped := [] }

/-- A TABLE LOAD whose table id is none of table 10-5 (R194). -/
def loadUnknown (tag table first : Nat) (s : State) : State :=
  if knownTable table then s else takeFrame (fun t => t.answer (unknownTableReply tag table first)) s

/-- TRUNK_FRAME_TRUNCATED (R185). -/
def execTrunkFrameTruncated (s : State) : Host.Outcome State Fault Refusal := .next (frameTruncated s)

/-- TRUNK_FRAME_INVALID (R185). -/
def execTrunkFrameInvalid (f : TrunkRaw) (s : State) : Host.Outcome State Fault Refusal := .next (frameInvalid f s)

/-- UNKNOWN_KIND (R185). -/
def execUnknownKind (kind : Nat) (s : State) : Host.Outcome State Fault Refusal := .next (frameUnknown kind s)

/-- UNKNOWN_TABLE (R194): a TABLE LOAD always holds its tag, table id and first index. DESIGN CHOICE, log 75. -/
def execUnknownTable (tag table first : Nat) (s : State) : Host.Outcome State Fault Refusal :=
  .next (loadUnknown tag table first s)

/-- OUTBOUND_SEND (R188, R189). -/
def execOutboundSend (s : State) : Host.Outcome State Fault Refusal := .next (outboundSend s)

end Sys2Proof.Machine
end

