-- ==== Sys2Proof/Machine/Dispatch.lean ====
section
/-! DEFINITION. The meaning of each command: one arm per constructor of Instr, each one call of its meaning. -/

namespace Sys2Proof.Machine

open Sys2Proof

/-- A command's effect on everything but the queue of commands. -/
def exec (i : Instr) (s : State) : Host.Outcome State Fault Refusal :=
  match i with
  | .powerOnReset p => Sys2Proof.Machine.execPowerOnReset p s
  | .holdAssert seg => Sys2Proof.Machine.execHoldAssert seg s
  | .holdRelease seg => Sys2Proof.Machine.execHoldRelease seg s
  | .sweepStart seg now => Sys2Proof.Machine.execSweepStart seg now s
  | .dockBusFrameReceived seg now f => Sys2Proof.Machine.execDockBusFrameReceived seg now f s
  | .replyWindowExpired seg now => Sys2Proof.Machine.execReplyWindowExpired seg now s
  | .stationTimeTick => Sys2Proof.Machine.execStationTimeTick s
  | .referralDeadline card => Sys2Proof.Machine.execReferralDeadline card s
  | .releaseGuardExpiry pos => Sys2Proof.Machine.execReleaseGuardExpiry pos s
  | .saleDeadline terminal => Sys2Proof.Machine.execSaleDeadline terminal s
  | .recentReturnExpiry place => Sys2Proof.Machine.execRecentReturnExpiry place s
  | .vanOrderExpiry order => Sys2Proof.Machine.execVanOrderExpiry order s
  | .visitCloseTime => Sys2Proof.Machine.execVisitCloseTime s
  | .islandTimeout => Sys2Proof.Machine.execIslandTimeout s
  | .trunkFrameTruncated => Sys2Proof.Machine.execTrunkFrameTruncated s
  | .trunkFrameInvalid f => Sys2Proof.Machine.execTrunkFrameInvalid f s
  | .unknownKind kind => Sys2Proof.Machine.execUnknownKind kind s
  | .dropTableLoad f => Sys2Proof.Machine.execDropTableLoad f s
  | .classifierLoad f => Sys2Proof.Machine.execClassifierLoad f s
  | .faultPolicyLoad f => Sys2Proof.Machine.execFaultPolicyLoad f s
  | .stationSettingsLoad f => Sys2Proof.Machine.execStationSettingsLoad f s
  | .passKindsLoad f => Sys2Proof.Machine.execPassKindsLoad f s
  | .cardTableLoad f => Sys2Proof.Machine.execCardTableLoad f s
  | .tariffLoad f => Sys2Proof.Machine.execTariffLoad f s
  | .stockTargetsLoad f => Sys2Proof.Machine.execStockTargetsLoad f s
  | .timeSet f => Sys2Proof.Machine.execTimeSet f s
  | .referralAnswer f => Sys2Proof.Machine.execReferralAnswer f s
  | .journalCollect f => Sys2Proof.Machine.execJournalCollect f s
  | .journalRelease f => Sys2Proof.Machine.execJournalRelease f s
  | .vanOrder f => Sys2Proof.Machine.execVanOrder f s
  | .statusQuery f => Sys2Proof.Machine.execStatusQuery f s
  | .dockListQuery f => Sys2Proof.Machine.execDockListQuery f s
  | .faultListQuery f => Sys2Proof.Machine.execFaultListQuery f s
  | .startService f => Sys2Proof.Machine.execStartService f s
  | .enterMaintenance f => Sys2Proof.Machine.execEnterMaintenance f s
  | .leaveMaintenance f => Sys2Proof.Machine.execLeaveMaintenance f s
  | .restart f => Sys2Proof.Machine.execRestart f s
  | .release f => Sys2Proof.Machine.execRelease f s
  | .cancelRelease f => Sys2Proof.Machine.execCancelRelease f s
  | .clearFault f => Sys2Proof.Machine.execClearFault f s
  | .setDockService f => Sys2Proof.Machine.execSetDockService f s
  | .unknownCommand tag code => Sys2Proof.Machine.execUnknownCommand tag code s
  | .outboundSend => Sys2Proof.Machine.execOutboundSend s
  | .unknownTable tag table first => Sys2Proof.Machine.execUnknownTable tag table first s

end Sys2Proof.Machine
end

