-- ==== Sys2Proof/Machine/Step.lean ====
section
/-! DEFINITION. One step: the command at the front of the queue is taken (log 1); with none waiting, a deferred call is
carried out (log 9), and with none of those the block idles. -/

namespace Sys2Proof.Machine

open Sys2Proof

/-- The deferred call that has waited longest is carried out (log 9). -/
def takeDeferred (s : State) : State :=
  match s.deferred with
  | [] => s
  | c :: cs => call c { s with deferred := cs }

/-- One step of the block. -/
def step (s : State) : Host.Outcome State Fault Refusal :=
  match s.pending with
  | [] => .next (takeDeferred s)
  | c :: cs => exec c { s with pending := cs }

/-- The state with the command that a word spells at the front of its queue; none spells one. -/
def State.withFetchWord (s : State) (nbits w : Nat) : State :=
  match decodeTableWord nbits w with
  | some c => { s with pending := c :: s.pending }
  | none => s

end Sys2Proof.Machine
end

