-- ==== Sys2Proof/WellFormed.lean ====
section
/-! DEFINITION. Well-formed commands: the fields that a frame or a pin can carry, by the widths and the codes of
11_frame_and_record_formats.md and by what tells one row of spec/opcode_table.json from another. -/

namespace Sys2Proof

/-- A request tag or a first index: 0..65,535 (10.1, R194). -/
def fits16 (n : Nat) : Bool := decide (n ≤ 65535)

/-- A number of four bytes: 0..4,294,967,295. -/
def fits32 (n : Nat) : Bool := decide (n ≤ 4294967295)

/-- A number of one byte. -/
def fits8 (n : Nat) : Bool := decide (n ≤ 255)

/-- A frame whose tag and body are well formed. -/
def Frame.check {α : Type} (body : α → Bool) (f : Frame α) : Bool := fits16 f.tag && f.body.all body

/-- A load whose tag, first index and entries are well formed. -/
def Load.check {α : Type} (entry : α → Bool) (f : Load α) : Bool :=
  fits16 f.tag && fits16 f.first && f.body.all fun l => l.all entry

/-- A CARD TABLE entry whose numbers fit their fields (table 4-2). -/
def CardEntry.check (e : CardEntry) : Bool :=
  fits32 e.number && fits16 e.headroom && fits16 e.dayTotal && fits16 e.reward && fits8 e.outCount && fits8 e.maxBikes
    && fits8 e.cls

/-- A FAULT POLICY entry whose numbers fit their fields (R156). -/
def FaultPolicyEntry.check (e : FaultPolicyEntry) : Bool := fits8 e.code && fits16 e.threshold

/-- A CLASSIFIER entry whose numbers fit their fields (table 2-2). -/
def RuleEntry.check (e : RuleEntry) : Bool :=
  fits8 e.index && fits8 e.lo && fits8 e.hi && fits8 e.first && fits8 e.second

/-- A van order whose numbers fit their fields (R133, table 11-9). -/
def VanOrder.check (o : VanOrder) : Bool :=
  fits16 o.id && fits32 o.van && o.named.all fits32 && fits32 o.validFrom && fits32 o.validUntil

/-- A referral answer whose numbers fit their fields (R79). -/
def ReferralReply.check (a : ReferralReply) : Bool := fits32 a.card && a.record.all CardEntry.check

/-- A journal collect whose numbers fit their fields (R175). -/
def collectCheck (q : Nat × Nat) : Bool := fits32 q.1 && fits16 q.2

/-- Well-formed commands. -/
def Instr.wf : Instr → Bool
  | .powerOnReset p => decide (p.station ≤ 4095)
  | .holdAssert _ => true
  | .holdRelease _ => true
  | .sweepStart _ _ => true
  | .dockBusFrameReceived _ _ f => decide (f.payload.length ≤ 63)
  | .replyWindowExpired _ _ => true
  | .stationTimeTick => true
  | .referralDeadline card => fits32 card
  | .releaseGuardExpiry _ => true
  | .saleDeadline _ => true
  | .recentReturnExpiry place => decide (place < 16)
  | .vanOrderExpiry order => fits16 order
  | .visitCloseTime => true
  | .islandTimeout => true
  | .trunkFrameTruncated => true
  | .trunkFrameInvalid f => decide (1024 < f.length.toNat) || decide (f.body.length = f.length.toNat)
  | .unknownKind kind => fits8 kind && !decide (1 ≤ kind ∧ kind ≤ 10)
  | .dropTableLoad f => f.check fun e => fits8 e.addr && fits8 e.pos
  | .classifierLoad f => f.check RuleEntry.check
  | .faultPolicyLoad f => f.check FaultPolicyEntry.check
  | .stationSettingsLoad f => f.check fun _ => true
  | .passKindsLoad f => f.check fun e => fits8 e.kind
  | .cardTableLoad f => f.check CardEntry.check
  | .tariffLoad f => f.check fun e => fits8 e.cls
  | .stockTargetsLoad f => f.check fun e => fits8 e.low && fits8 e.high
  | .timeSet f => f.check fits32
  | .referralAnswer f => f.check ReferralReply.check
  | .journalCollect f => f.check collectCheck
  | .journalRelease f => f.check fits32
  | .vanOrder f => f.check VanOrder.check
  | .statusQuery f => f.check fun _ => true
  | .dockListQuery f => f.check fits8
  | .faultListQuery f => f.check fits16
  | .startService f => f.check fun _ => true
  | .enterMaintenance f => f.check fun _ => true
  | .leaveMaintenance f => f.check fun _ => true
  | .restart f => f.check fun _ => true
  | .release f => f.check fun o => fits8 o.pos && fits32 o.number && fits8 o.medium
  | .cancelRelease f => f.check fun _ => true
  | .clearFault f => f.check fits16
  | .setDockService f => f.check fun o => fits8 o.pos
  | .unknownCommand tag code => fits16 tag && fits8 code && !decide (1 ≤ code ∧ code ≤ 8)
  | .outboundSend => true
  | .unknownTable tag table first => fits16 tag && fits8 table && fits16 first && !decide (1 ≤ table ∧ table ≤ 8)

end Sys2Proof
end

