-- ==== Sys2Proof/Safety.lean ====
section
/-! DEFINITION. What a sound state is, in the terms of the rules that say what a table, list or queue never holds. Each is a
property of its own, kept by every step. -/

namespace Sys2Proof.Machine

open Sys2Proof

/-- The journal holds at most 1,024 records, their sequence numbers are consecutive and end one below the next sequence
number, and that number lies in 1..4,294,967,296 (R172, R174). -/
abbrev Journal.Sound (j : Journal) : Prop :=
  j.records.length ≤ journalRoom ∧ j.next ≤ lastSeq + 1 ∧ j.records.length < j.next ∧
    j.records.map JournalRec.seq = List.range' (j.next - j.records.length) j.records.length

/-- A command queue holds at most 24 entries (R15, R16). -/
abbrev Engine.QueueSound (e : Engine) : Prop := e.queue.length ≤ queueRoom

/-- The outbound queue holds at most 16 frames, the answer wait list at most 4, and an answer waits only while the outbound
queue is full (R188, R189). -/
abbrev Trunk.OutSound (t : Trunk) : Prop :=
  t.queue.length ≤ outboundRoom ∧ t.waiting.length ≤ answerRoom ∧ (t.waiting ≠ [] → t.queue.length = outboundRoom)

/-- A card record within the ranges that it never leaves (R65). -/
abbrev CardRec.Sound (c : CardRec) : Prop := c.reward ≤ rewardRoom ∧ c.headroom ≤ 65535 ∧ c.outCount ≤ c.maxBikes

/-- The card table holds at most 4,096 records, one for each number, each within its ranges (R65). -/
abbrev Hire.CardsSound (h : Hire) : Prop :=
  h.cards.length ≤ cardRoom ∧ h.cards.Pairwise (fun a b => a.number < b.number) ∧ ∀ c ∈ h.cards, CardRec.Sound c

/-- The pass table holds at most 256 records, ordered by the model's slot numbers, no token is held by two records, and every
out count lies within max bikes (R65, R67). -/
abbrev Hire.PassesSound (h : Hire) : Prop :=
  h.passes.length ≤ passRoom ∧ h.passes.Pairwise (fun a b => a.slot < b.slot) ∧
    (∀ a ∈ h.passes, ∀ b ∈ h.passes, a.token.isSome → a.token = b.token → a.slot = b.slot) ∧
    ∀ c ∈ h.passes, c.outCount ≤ c.maxBikes

/-- The referral list holds at most 8 referrals and at most one per card number (R78). -/
abbrev Hire.ReferralsSound (h : Hire) : Prop :=
  h.referrals.length ≤ referralRoom ∧ (h.referrals.map Referral.card).Nodup

/-- There is at most one release record per dock, and at most one per card number or pass token (R83). -/
abbrev Hire.ReleasesSound (h : Hire) : Prop :=
  h.releases.Pairwise (fun a b => a.pos.val < b.pos.val) ∧
    ∀ a ∈ h.releases, ∀ b ∈ h.releases, a.number = b.number → a.medium = b.medium → a.pos = b.pos

/-- The recent-returns list holds at most 16 entries (R128). -/
abbrev Hire.RecentSound (h : Hire) : Prop := h.recent.length ≤ recentRoom

/-- There are at most 4 pending van orders and at most one per order id (R133). -/
abbrev Van.OrdersSound (v : Van) : Prop := v.orders.length ≤ orderRoom ∧ (v.orders.map VanOrder.id).Nodup

/-- The charging list is no longer than the charge slot limit in force (R55). -/
abbrev State.ChargingSound (s : State) : Prop := s.stock.chargingList.length ≤ s.trunk.settings.chargeSlots

/-- The six flags held are those that the dock records and the targets in force give: the Stock Unit computes them afresh
whenever a change may have changed them, and at RESTART (R47, R64). -/
abbrev Stock.FlagsComputed (x : Stock) : Prop := x.flags = x.computed

/-- The fault log holds at most 64 records (R155). -/
abbrev FaultUnit.LogSound (u : FaultUnit) : Prop := u.log.length ≤ faultRoom

/-- The numeric settings that bound other state lie in their ranges (table 10-6). -/
abbrev Settings.Sound (x : Settings) : Prop :=
  x.chargeSlots ≤ 16 ∧ x.strangerHeadroom ≤ 5000 ∧ x.strangerClass ≤ 7 ∧ 80 ≤ x.chargeFull ∧ x.chargeFull ≤ 100
    ∧ 5 ≤ x.rideMin ∧ x.rideMin ≤ 50 ∧ x.rideMin + 5 ≤ x.resume ∧ x.resume ≤ 60 ∧ 1 ≤ x.replyWindow ∧ x.replyWindow ≤ 10
    ∧ 20 ≤ x.sweepInterval ∧ x.sweepInterval ≤ 500 ∧ 10 ≤ x.takeWindow ∧ x.takeWindow ≤ 60 ∧ 1 ≤ x.referralDeadline
    ∧ x.referralDeadline ≤ 15 ∧ 10 ≤ x.islandTimeout ∧ x.islandTimeout ≤ 600 ∧ 30 ≤ x.saleWindow ∧ x.saleWindow ≤ 300
    ∧ x.waiverWindow ≤ 600 ∧ x.minHeadroom ≤ 5000 ∧ x.rewardMinRide ≤ 3600 ∧ -43200 ≤ x.dayOffset
    ∧ x.dayOffset ≤ 43200 ∧ x.defaultAction ≠ .urgentMirror

/-- No dock position is held by two entries of the drop table, at most 4 entries are PAY and at most one is VANPOINT (R2). -/
abbrev State.DropTableSound (s : State) : Prop :=
  (∀ d ∈ allDrops, ∀ e ∈ allDrops, ∀ p, s.entryOf d = .dock p → s.entryOf e = .dock p → d = e) ∧
    allDrops.countP (fun d => s.entryOf d == TableEntry.pay) ≤ 4 ∧
    allDrops.countP (fun d => s.entryOf d == TableEntry.vanpoint) ≤ 1

end Sys2Proof.Machine
end

