-- ==== Sys2Proof/Certificates/Slice0/Obligations.lean ====
section
/-! DEFINITION. The statements for the provers, chapter by chapter of spec/. A statement of what a command does gives its next
state as a whole, so that every field it does not name is as it was. -/

open Sys2Proof Sys2Proof.Machine

/-! ### Words of the statements -/

/-- A state whose island timer a valid inbound frame has restarted (R186). -/
def Sys2Proof.Machine.State.timerRestarted (s : State) : State :=
  { s with
    trunk := { s.trunk with timerOn := true, islandSeconds := 0, islandLimit := s.trunk.settings.islandTimeout } }

/-- A state with a frame at the end of its outbound queue. -/
def Sys2Proof.Machine.State.withFrame (s : State) (f : OutFrame) : State :=
  { s with trunk := { s.trunk with queue := s.trunk.queue ++ [f] } }

/-- A state whose MALFORMED count has risen by one (R185, R203). -/
def Sys2Proof.Machine.State.malformedCounted (s : State) : State :=
  { s with
    trunk :=
      { s.trunk with counts := { s.trunk.counts with malformed := min 65535 (s.trunk.counts.malformed + 1) } } }

/-- A frame from central is taken and its answer joins the outbound queue: the trunk is CONNECTED, the answer wait list holds
fewer than 4 answers (R187) and the outbound queue fewer than 16 frames (R189). -/
abbrev Sys2Proof.Machine.State.Answers (s : State) : Prop :=
  s.trunk.connected = true ∧ s.trunk.waiting.length < 4 ∧ s.trunk.queue.length < 16

/-- The COMMAND REPLY of a command code with its result and the mode after it (R193). -/
def Sys2Proof.Machine.commandReply (tag code : Nat) (r : CommandResult) (m : Mode) : OutFrame :=
  .commandReply tag (.command code r m)

/-- The LOAD REPLY of a load of known entries (R194). -/
def Sys2Proof.Machine.loadReply (tag table first entries applied : Nat) (r : LoadResult)
    (refusal : Option (Nat × EntryRefusal)) (clamped : List Setting) : OutFrame :=
  .loadReply
    { tag := tag, table := table, first := first, entries := entries, applied := applied, result := r
      refusal := refusal, clamped := clamped }

/-- The exchange in progress on a segment is the last of its sweep, and the engine has nothing else to do: no hold asked, no
command queued, no address after the exchange's on the poll list (R4, R6, R7, R8, R20). -/
abbrev Sys2Proof.Machine.State.LastInSweep (s : State) (g : Segment) (x : Exchange) : Prop :=
  (s.eng g).exchange = some x ∧ (s.eng g).holdLine = false ∧ (s.eng g).queue = [] ∧
    (s.eng g).cursor = x.addr.val + 1 ∧ (s.eng g).entries[x.addr] ≠ .none ∧
    ∀ b : Fin 32, x.addr < b → (s.eng g).entries[b] = .none

/-- Engine `b` is engine `a` after the last exchange of a sweep, in WAITING (R4, R8), with one drop record replaced. -/
abbrev Sys2Proof.Machine.Engine.SweptTo (a b : Engine) (d : Fin 32) (r : DropRec) : Prop :=
  b.drops = a.drops.set d (some r) ∧ b.mode = .waiting ∧ b.exchange = none ∧ b.queue = [] ∧ b.errors = a.errors ∧
    b.entries = a.entries ∧ b.sweep = a.sweep ∧ b.holdLine = a.holdLine ∧ b.holdAck = a.holdAck

/-! ### Steps and commands -/

/-- The model's own (log 1): a step with a command at the front of the queue is that command's effect on the state with the
queue's rest. -/
def Obligations.StepTakesTheFrontCommand : Prop :=
  ∀ (c : Instr) (s : State), step { s with pending := c :: s.pending } = exec c s

/-- The model's own (logs 1 and 9): with no command waiting the block idles, or carries out the deferred call that has waited
longest. -/
def Obligations.StepWithNoCommandWaiting : Prop :=
  ∀ s : State, s.pending = [] →
    (s.deferred = [] → step s = .next s) ∧
      ∀ c cs, s.deferred = c :: cs → step s = .next (call c { s with deferred := cs })

/-- No command of the block stops it: every one, in every state, has a next state, as each step of the spec has an effect it
can always take. For a command whose operands are outside its row's case, and for a deadline command that comes early, a next
state that changes nothing is the model's choice (logs 16 and 15). -/
def Obligations.EveryCommandHasANextState : Prop :=
  ∀ (c : Instr) (s : State), ∃ t, exec c s = .next t

/-! ### Chapter 1: the dock bus -/

/-- R20: with no exchange in progress an asserted hold line puts a present engine in HOLDING, hold-acknowledge asserted,
every drop HELD with its former link state kept. With an exchange in progress, with the engine already HOLDING, or with the
segment absent (R1), the line alone changes. -/
def Obligations.HoldAssertEntersHolding : Prop :=
  ∀ (g : Segment) (s : State),
    exec (.holdAssert g) s =
      .next
        (s.setEng g
          (if (g = .A ∨ s.trunk.segB = true) ∧ (s.eng g).exchange = none ∧ (s.eng g).mode ≠ .holding then
            { s.eng g with
              holdLine := true, mode := .holding, holdAck := true, exchange := none
              drops :=
                (s.eng g).drops.map fun x =>
                  x.map fun r =>
                    { r with
                      link :=
                        match r.link with
                        | .free l => .held l
                        | .held l => .held l } }
          else { s.eng g with holdLine := true }))

/-- R21: at the release of an engine in HOLDING hold-acknowledge drops. With no stale UNLOCK-class entry queued and no
address on the poll list it returns to STOPPED. With a poll list, RESYNC ROUND begins: each drop takes back its state before
hold, its resync due mark is set, and the lowest address is sent RESYNC. An engine not in HOLDING changes its line alone. -/
def Obligations.HoldReleaseBeginsResyncRound : Prop :=
  ∀ (g : Segment) (s : State),
    ((s.eng g).mode ≠ .holding →
      exec (.holdRelease g) s = .next (s.setEng g { s.eng g with holdLine := false })) ∧
    ((s.eng g).mode = .holding →
      (∀ x ∈ (s.eng g).queue, x.cmd.cls = .unlock → s.trunk.time ≤ x.time + s.trunk.settings.takeWindow) →
      ((∀ a : Fin 32, (s.eng g).entries[a] = .none) →
        exec (.holdRelease g) s =
          .next (s.setEng g { s.eng g with holdLine := false, holdAck := false, mode := .stopped })) ∧
      ∀ a : Fin 32, (s.eng g).entries[a] ≠ .none → (∀ b : Fin 32, b < a → (s.eng g).entries[b] = .none) →
        exec (.holdRelease g) s =
          .next
            (s.setEng g
              { s.eng g with
                holdLine := false, holdAck := false, mode := .resyncRound, cursor := a.val + 1
                drops :=
                  (s.eng g).drops.map fun x =>
                    x.map fun r =>
                      { r with
                        resyncDue := true
                        link :=
                          match r.link with
                          | .free l => .free l
                          | .held l => .free l }
                exchange :=
                  some
                    { addr := a, purpose := .resyncRound, window := s.trunk.settings.replyWindow
                      sent := resyncBytes a, changed := false } }))

/-- R4, R5: in WAITING and when it is due a sweep starts. The sweep number rises by one, wrapping from 65,535 to 0, and the
lowest address on the poll list, its drop NEW or ACTIVE with no resync due, is sent POLL with its last taken event number.
The model's choice (log 3): the command acts only in WAITING and when the sweep is due, and in any other state leaves all but
the elapsed count as it was, which never goes back. -/
def Obligations.SweepStartPollsTheLowestDrop : Prop :=
  ∀ (g : Segment) (now : Nat) (s : State),
    (¬((s.eng g).mode = .waiting ∧ (s.eng g).due ≤ max s.elapsed now) →
      exec (.sweepStart g now) s = .next { s with elapsed := max s.elapsed now }) ∧
    ∀ (a : Fin 32) (r : DropRec),
      (s.eng g).mode = .waiting → (s.eng g).due ≤ max s.elapsed now →
      (∀ b : Fin 32, b < a → (s.eng g).entries[b] = .none) → (s.eng g).entries[a] ≠ .none →
      (s.eng g).drops[a] = some r → (r.link = .free .new ∨ r.link = .free .active) → r.resyncDue = false →
      exec (.sweepStart g now) s =
        .next
          (({ s with elapsed := max s.elapsed now } : State).setEng g
            { s.eng g with
              mode := .sweeping
              sweep := if 65535 ≤ (s.eng g).sweep then 0 else (s.eng g).sweep + 1
              sweepStart := max s.elapsed now, cursor := a.val + 1
              exchange :=
                some
                  { addr := a, purpose := .poll false, window := s.trunk.settings.replyWindow
                    sent := pollBytes a r.lastEvent, changed := false } })

/-- R9: a frame received while no reply window is open is discarded, not counted, with no effect on any drop record. The
model's choice (log 3): the expiry of a window that is not open has no effect either, and the elapsed count that each command
carries never goes back. -/
def Obligations.NothingHappensWithNoReplyWindowOpen : Prop :=
  ∀ (g : Segment) (now : Nat) (f : BusFrame) (s : State),
    (s.eng g).exchange = none →
      exec (.dockBusFrameReceived g now f) s = .next { s with elapsed := max s.elapsed now } ∧
        exec (.replyWindowExpired g now) s = .next { s with elapsed := max s.elapsed now }

/-- R3, R9, R11: the reply window of a POLL expires. NO REPLY rises by one, and the miss count of the drop, NEW or ACTIVE
with fewer than two misses before, rises by one. Here no command is queued and no address follows, so the tail gap ends at
once and the engine enters WAITING, its next sweep due at the later of the two moments of R4. The moments are those of the
model's elapsed count, which never goes back (log 3). -/
def Obligations.ReplyWindowExpiryIsAMiss : Prop :=
  ∀ (g : Segment) (now : Nat) (s : State) (x : Exchange) (r : DropRec),
    (s.eng g).exchange = some x → (x.purpose = .poll false ∨ x.purpose = .poll true) →
    (s.eng g).drops[x.addr] = some r → (r.link = .free .new ∨ r.link = .free .active) → r.misses < 2 →
    (s.eng g).holdLine = false → (s.eng g).queue = [] → (s.eng g).cursor = x.addr.val + 1 →
    (s.eng g).entries[x.addr] ≠ .none → (∀ b : Fin 32, x.addr < b → (s.eng g).entries[b] = .none) →
      exec (.replyWindowExpired g now) s =
        .next
          (({ s with elapsed := max s.elapsed now } : State).setEng g
            { s.eng g with
              exchange := none
              errors := { (s.eng g).errors with noReply := min 65535 ((s.eng g).errors.noReply + 1) }
              drops := (s.eng g).drops.set x.addr (some { r with misses := r.misses + 1 })
              mode := .waiting, gapSent := 0
              pollEnd := max s.elapsed now, gapEnd := max s.elapsed now
              due :=
                max ((s.eng g).sweepStart + s.trunk.settings.sweepInterval) (max s.elapsed now) })

/-- R9, R10, R12, R13, R14, R51, R56, R62, R96, R152, R202: a good reply of an ACTIVE drop, the last of its sweep, after
which the engine enters WAITING; its miss count becomes 0. An ANSWER ACK to the engine's own RESYNC clears the resync due
mark and sets the last taken event to 0. From an eligible drop that was polled: a STATUS of a PAY or VANPOINT drop sets the
terminal's ready field in its sale record (R96) or the van point's (R152); one of a DOCK that agrees with an EMPTY record,
its gate OPEN in both (R62), no CHARGE OFF owed (R56) and the stock flags computed, sets the record's lock state (R51); an
EVENT whose number is the last taken event is a repeat and is not handed on; any other is taken, its number the last taken
event, and classified, here a DEVICE NOTE that no rule matches, under the default action DELIVER, which no unit consumes.
Each reply here gives pending count 0. The elapsed count that never goes back is the model's choice (log 3). -/
def Obligations.AnswerToOwnResyncMakesTheDropEligible : Prop :=
  ∀ (g : Segment) (now : Nat) (s : State) (x : Exchange) (r : DropRec) (f : BusFrame),
    s.LastInSweep g x → (s.eng g).drops[x.addr] = some r → r.link = .free .active →
    f.crc = crc16 (headerBytes f.header ++ f.payload) →
    let ends (u : State) (q : DropRec) : Prop :=
      ∃ e : Engine,
        exec (.dockBusFrameReceived g now f) s =
            .next (({ u with elapsed := max s.elapsed now } : State).setEng g e) ∧
          (s.eng g).SweptTo e x.addr q
    (x.purpose = .resyncPoll ∨ x.purpose = .resyncSlot → f.header = makeHeader x.addr 5 1 → f.payload = [0x00#8] →
      ends s { r with misses := 0, resyncDue := false, lastEvent := 0 }) ∧
    ((x.purpose = .poll false ∨ x.purpose = .poll true) → r.resyncDue = false →
      (∀ (b : Byte) (y : Ready), f.header = makeHeader x.addr 2 2 → f.payload = [b, 0x00#8] →
        (b = 0x01#8 ∧ y = .yes ∨ b = 0x00#8 ∧ y = .no) →
        (∀ q : SaleRec, s.entryOf ⟨g, x.addr⟩ = .pay → s.saleOf ⟨g, x.addr⟩ = some q →
          ends (s.putSale { q with ready := y }) { r with misses := 0 }) ∧
          (s.entryOf ⟨g, x.addr⟩ = .vanpoint →
            ends { s with van := { s.van with ready := y } } { r with misses := 0 })) ∧
      (∀ p : DockPos, s.entryOf ⟨g, x.addr⟩ = .dock p → (s.dock p).state = .empty → (s.dock p).gate = .opened →
        (s.dock p).offOwed = false → s.stock.flags = s.stock.computed → f.header = makeHeader x.addr 2 7 →
        f.payload = [0x00#8, 0x00#8, 0x00#8, 0x00#8, 0x00#8, 0xFF#8, 0x00#8] →
          ends (s.setDock p { s.dock p with lock := some .locked }) { r with misses := 0 }) ∧
      ∀ (n : Byte) (fields : List Byte) (k : DropKind), n ≠ 0x00#8 → fields.length ≤ 37 →
        (s.entryOf ⟨g, x.addr⟩).kind = some k → f.header = makeHeader x.addr 3 (fields.length + 3) →
        f.payload = n :: 0x3F#8 :: 0x00#8 :: fields →
        (n.toNat = r.lastEvent → ends s { r with misses := 0 }) ∧
          (n.toNat ≠ r.lastEvent →
            (∀ i : Fin 32, (s.classifier.rules[i]).takes ⟨g, x.addr⟩ k 0x3F = false) →
            s.trunk.settings.defaultAction = .deliver →
            ends
              { s with
                classifier :=
                  { s.classifier with defaultHits := min 65535 (s.classifier.defaultHits + 1) } }
              { r with misses := 0, lastEvent := n.toNat }))

/-- 11.1, table 11-1: a header that the block makes is CLEAN and its fields read back as they were given. Any header that the
check finds CLEAN, with one of bits 23..3 inverted, is CORRECTED to what it was, and with two of them inverted is
UNCORRECTABLE. -/
def Obligations.HeaderCheckCorrectsOneBitAndDetectsTwo : Prop :=
  (∀ (a : Fin 32) (kind length : Nat), kind < 16 → length < 64 →
    headerCheck (makeHeader a kind length) = .clean ∧ headerAddr (makeHeader a kind length) = a.val ∧
      headerKind (makeHeader a kind length) = kind ∧ headerLength (makeHeader a kind length) = length) ∧
    ∀ h : BitVec 24, headerCheck h = .clean →
      (∀ i, 3 ≤ i → i < 24 → headerCheck (flipBit h i) = .corrected h) ∧
        ∀ i j, 3 ≤ i → i < j → j < 24 → headerCheck (flipBit (flipBit h i) j) = .uncorrectable

/-- R15, R16: a command submitted for a drop that is not LOST, nor HELD with LOST before hold, joins a queue that has room.
On a full queue a DISPLAY command has the outcome QFULL; one of a higher class displaces the youngest queued DISPLAY command,
whose outcome is QFULL; with none queued its own outcome is QFULL. -/
def Obligations.SubmittedCommandJoinsTheQueue : Prop :=
  ∀ (k : Kont) (d : Drop) (c : Cmd) (w : Submitter) (s : State) (r : DropRec),
    s.dropRec d = some r → r.link ≠ .free .lost → r.link ≠ .held .lost →
    ((s.eng d.seg).queue.length < 24 →
      submitTo k d c w s =
        s.setEng d.seg
          { s.eng d.seg with
            queue := (s.eng d.seg).queue ++ [{ addr := d.addr, cmd := c, who := w, time := s.trunk.time }] }) ∧
    (24 ≤ (s.eng d.seg).queue.length → c.cls = .display → submitTo k d c w s = k (.outcome w .qFull) s) ∧
    (24 ≤ (s.eng d.seg).queue.length → c.cls ≠ .display →
      (∀ x ∈ (s.eng d.seg).queue, x.cmd.cls ≠ .display) → submitTo k d c w s = k (.outcome w .qFull) s) ∧
    ∀ (before after : List QueueEntry) (y : QueueEntry),
      24 ≤ (s.eng d.seg).queue.length → c.cls ≠ .display → (s.eng d.seg).queue = before ++ y :: after →
      y.cmd.cls = .display → (∀ x ∈ after, x.cmd.cls ≠ .display) →
      submitTo k d c w s =
        k (.outcome y.who .qFull)
          (s.setEng d.seg
            { s.eng d.seg with
              queue := before ++ after ++ [{ addr := d.addr, cmd := c, who := w, time := s.trunk.time }] })

/-! ### Chapter 2: event classification -/

/-- R26: the code match of each type; the operands an entry of a load may not have; and the three matches the rule names. -/
def Obligations.CodeMatchTypes : Prop :=
  (∀ first second code : Nat,
    (codeMatches .range first second code = true ↔ first ≤ code ∧ code ≤ second) ∧
      (codeMatches .pair first second code = true ↔ code = first ∨ code = second) ∧
      (codeMatches .mask first second code = true ↔ code &&& first = second)) ∧
    (∀ e : RuleEntry, e.type = some .range → e.second < e.first → ruleOf e = none) ∧
    (∀ e : RuleEntry, e.type = some .mask → e.second &&& e.first ≠ e.second → ruleOf e = none) ∧
    (∀ x code : Nat, codeMatches .pair x x code = true ↔ code = x) ∧
    (∀ code : Nat, codeMatches .mask 0 0 code = true) ∧
    ∀ code : Nat, code ≤ 0x3F → codeMatches .range 0x00 0x3F code = true

/-- R27: the rule that decides an event is the first in index order that matches it, its hit counter rises by one and stops
at 65,535, and its action is taken; with no match the default action is taken and the default hit count rises. -/
def Obligations.FirstMatchingRuleDecides : Prop :=
  ∀ (s : State) (e : EventRec) (kind : DropKind),
    (∀ i : Fin 32, (s.classifier.rules[i]).takes e.drop kind e.code = true →
      (∀ j : Fin 32, j < i → (s.classifier.rules[j]).takes e.drop kind e.code = false) →
        s.decideBy e kind =
          ((s.classifier.rules[i]).action, .rule i,
            { s.classifier with hits := s.classifier.hits.set i (min 65535 (s.classifier.hits[i] + 1)) })) ∧
      ((∀ i : Fin 32, (s.classifier.rules[i]).takes e.drop kind e.code = false) →
        s.decideBy e kind =
          (s.trunk.settings.defaultAction, .default,
            { s.classifier with defaultHits := min 65535 (s.classifier.defaultHits + 1) }))

/-- R24: a PRESENT of a PAY drop is tested against no rule: what it does is what the Sale Unit does with the ready state it
carries, and nothing else. -/
def Obligations.PresentIsNotClassified : Prop :=
  ∀ (k : Kont) (e : EventRec) (s : State),
    e.code = 0x15 → e.entry = .pay →
      (e.fields = [0x01#8] → classify k e s = terminalReady e.drop .yes s) ∧
        (e.fields = [0x00#8] → classify k e s = terminalReady e.drop .no s)

/-- R29, R30: the state-bearing events BIKE DOCKED, BIKE REMOVED and RELOCKED of a DOCK, when well formed, are delivered
whatever the action, and DROP and TRUNK ONLY act on them as DELIVER and MIRROR. -/
def Obligations.StateBearingEventsAreDelivered : Prop :=
  ∀ (a : Action) (e : EventRec) (b : EventBody) (p : DockPos),
    e.entry = .dock p → (e.code = 0x11 ∨ e.code = 0x12 ∨ e.code = 0x13) →
      actsAs a e (some b) =
        actionParts
          (match a with
           | .drop => .deliver
           | .trunkOnly => .mirror
           | x => x)

/-! ### Chapter 3: docks, bikes and charging -/

/-- R37, R193, R203: SET DOCK SERVICE with a position outside 1..60 or a service outside the three is answered RANGE,
MALFORMED rises (log 47) and nothing else changes. For a dock that is OCCUPIED or UNUSED, without a drop reservation, and
while no flag changes, the value is written as the service by central and the reply is DONE. -/
def Obligations.SetDockServiceWritesTheServiceByCentral : Prop :=
  ∀ (s : State) (tag : Nat) (o : ServiceOrder), s.Answers →
    (o.pos = 0 ∨ 60 < o.pos ∨ o.service = none →
      exec (.setDockService { tag := tag, body := some o }) s =
        .next (s.timerRestarted.malformedCounted.withFrame (commandReply tag 8 .range s.trunk.mode))) ∧
    ∀ (p : DockPos) (v : Service), o.pos = p.val + 1 → o.service = some v →
      ((s.dock p).state = .occupied ∨ (s.dock p).state = .unused) → (s.dock p).vanDrop = false →
      (s.setDock p { s.dock p with svcCentral := v }).stock.flags = s.stock.computed →
      exec (.setDockService { tag := tag, body := some o }) s =
        .next
          ((s.setDock p { s.dock p with svcCentral := v }).timerRestarted.withFrame
            (commandReply tag 8 .done s.trunk.mode))

/-- R48, R47: one entry of a STOCK TARGETS load sets the two marks of its kind, and the flags are computed again; while none
of them changes there is no notice. An entry out of range is refused RANGE; here the flags stand as last computed. -/
def Obligations.StockTargetsLoadSetsTheMarks : Prop :=
  ∀ (s : State) (tag first : Nat) (e : TargetEntry), s.Answers →
    ((e.kind = none ∨ e.high < e.low ∨ 60 < e.high) → s.stock.flags = s.stock.computed →
      exec (.stockTargetsLoad { tag := tag, first := first, body := some [e] }) s =
        .next (s.timerRestarted.withFrame (loadReply tag 8 first 1 0 .partly (some (first, .range)) []))) ∧
    ∀ (k : BikeKind) (st : Stock), e.kind = some k → e.low ≤ e.high → e.high ≤ 60 →
      st = { s.stock with low := setPerKind s.stock.low k e.low, high := setPerKind s.stock.high k e.high } →
      st.flags = s.stock.computed →
      exec (.stockTargetsLoad { tag := tag, first := first, body := some [e] }) s =
        .next
          (({ s with stock := st } : State).timerRestarted.withFrame (loadReply tag 8 first 1 1 .done none []))

/-- R47: WANTED and SURPLUS of the three kinds, from the count of OCCUPIED records whose bike is of the kind, unheld and
unreserved at a dock IN SERVICE. -/
def Obligations.StockFlagsFollowTheCounts : Prop :=
  ∀ (st : Stock) (k : BikeKind),
    st.releasable k =
        (positions.filter fun p =>
          decide
            ((st.docks[p]).state = .occupied ∧ (st.docks[p]).service = .inService ∧
              ∃ b ∈ (st.docks[p]).bike, b.kind = k ∧ b.hold = .none ∧ b.pickup = false)).length ∧
      (st.wanted k = true ↔ st.releasable k < perKind st.low k) ∧
      (st.surplus k = true ↔ perKind st.high k < st.releasable k)

/-! ### Chapter 4: cards, passes and releases -/

/-- R66: one entry of a CARD TABLE load replaces or makes the record of its number, its out count brought within max bikes;
an entry with an out of range field is refused RANGE; a new number is refused FULL by a full table; DELETE removes. -/
def Obligations.CardTableLoadPutsTheRecord : Prop :=
  ∀ (s : State) (tag first : Nat) (e : CardEntry), s.Answers →
    ((e.number = 0 ∨ e.standing = none ∨
        (e.standing ≠ some .delete ∧ (e.plan = none ∨ 7 < e.cls ∨ 4 < e.maxBikes ∨ 2000 < e.reward))) →
      exec (.cardTableLoad { tag := tag, first := first, body := some [e] }) s =
        .next (s.timerRestarted.withFrame (loadReply tag 6 first 1 0 .partly (some (first, .range)) []))) ∧
    (e.number ≠ 0 → e.standing = some .delete →
      exec (.cardTableLoad { tag := tag, first := first, body := some [e] }) s =
        .next
          (({ s with
              hire := { s.hire with cards := s.hire.cards.filter fun c => c.number != e.number } } :
              State).timerRestarted.withFrame
            (loadReply tag 6 first 1 1 .done none []))) ∧
    ∀ (st : Standing) (pl : Plan),
      e.number ≠ 0 → e.standing = some (.keep st) → e.plan = some pl → e.cls ≤ 7 → e.maxBikes ≤ 4 → e.reward ≤ 2000 →
      (s.card e.number = none → 4096 ≤ s.hire.cards.length →
        exec (.cardTableLoad { tag := tag, first := first, body := some [e] }) s =
          .next (s.timerRestarted.withFrame (loadReply tag 6 first 1 0 .partly (some (first, .full)) []))) ∧
      ((s.card e.number).isSome ∨ s.hire.cards.length < 4096 →
        exec (.cardTableLoad { tag := tag, first := first, body := some [e] }) s =
          .next
            ((s.putCard
                { number := e.number, plan := pl, standing := st, cls := e.cls, maxBikes := e.maxBikes
                  outCount := min e.maxBikes e.outCount, headroom := e.headroom, day := e.day, dayTotal := e.dayTotal
                  reward := e.reward, expiry := e.expiry, provisional := false }).timerRestarted.withFrame
              (loadReply tag 6 first 1 1 .done none [])))

/-- R79, R80: an answer that refuses ends the referral of its card, and SHOW UNKNOWN CARD is submitted to the referral's
dock, here with room in its queue; an answer that names no open referral and carries no record changes nothing but the island
timer. -/
def Obligations.ReferralAnswerEndsTheReferral : Prop :=
  ∀ (s : State) (tag : Nat) (a : ReferralReply), s.trunk.connected = true → a.record = none →
    ((∀ r ∈ s.hire.referrals, r.card ≠ a.card) →
      exec (.referralAnswer { tag := tag, body := some a }) s = .next s.timerRestarted) ∧
    ∀ (r : Referral) (d : Drop) (x : DropRec),
      s.hire.referrals.find? (fun r => r.card == a.card) = some r → a.allow = false →
      s.dropAt r.pos = some d → s.dropRec d = some x → x.link = .free .active → (s.eng d.seg).queue.length < 24 →
      exec (.referralAnswer { tag := tag, body := some a }) s =
        .next
          (({ s.timerRestarted with
              hire := { s.hire with referrals := s.hire.referrals.filter fun q => q.card != a.card } } :
              State).setEng d.seg
            { s.eng d.seg with
              queue :=
                (s.eng d.seg).queue ++
                  [{ addr := d.addr, cmd := .showReason .unknownCard, who := .discard .hire, time := s.trunk.time }] })

/-- R81, R76: at the deadline of a referral it leaves the list and its tap is decided. Here the station is in service, the
dock can give its bike, the card still has no record and no release, and the stranger rule is REFUSE: SHOW UNKNOWN CARD is
submitted to the dock, with room in its queue. A referral whose deadline lies ahead stays: the model's choice for a command
that comes early (log 15). -/
def Obligations.ReferralDeadlineDecidesTheTap : Prop :=
  ∀ (s : State) (r : Referral),
    s.hire.referrals.find? (fun q => q.card == r.card) = some r →
    (s.trunk.time < r.deadline → exec (.referralDeadline r.card) s = .next s) ∧
    ∀ (d : Drop) (x : DropRec) (b : Bike),
      r.deadline ≤ s.trunk.time → s.trunk.mode = .service → s.journal.level = .normal → s.trunk.timeValid = true →
      (s.dock r.pos).state = .occupied → (s.dock r.pos).service = .inService → (s.dock r.pos).bike = some b →
      b.hold = .none → b.pickup = false → s.card r.card = none → s.inFlight r.card .member = false →
      s.trunk.settings.strangerRule = .refuse →
      s.dropAt r.pos = some d → s.dropRec d = some x → x.link = .free .active → (s.eng d.seg).queue.length < 24 →
      exec (.referralDeadline r.card) s =
        .next
          (({ s with
              hire := { s.hire with referrals := s.hire.referrals.filter fun q => q.card != r.card } } : State).setEng d.seg
            { s.eng d.seg with
              queue :=
                (s.eng d.seg).queue ++
                  [{ addr := d.addr, cmd := .showReason .unknownCard, who := .discard .hire, time := s.trunk.time }] })

/-- R88: the guard of an UNLOCKED release expires: it starts checking, its first RESYNC submitted to the dock as a command of
the Hire Unit. Before the guard's moment, and for a release that is checking, nothing happens: the model's choice for a
command that comes early or names nothing that waits (log 15). -/
def Obligations.GuardExpiryStartsChecking : Prop :=
  ∀ (s : State) (p : DockPos) (r : Release) (g : Nat), s.releaseAt p = some r → r.pos = p → r.guardAt = some g →
    (s.trunk.time < g ∨ r.checking = true → exec (.releaseGuardExpiry p) s = .next s) ∧
    ∀ (d : Drop) (x : DropRec), g ≤ s.trunk.time → r.checking = false →
      s.dropAt p = some d → s.dropRec d = some x → x.link = .free .active → (s.eng d.seg).queue.length < 24 →
      exec (.releaseGuardExpiry p) s =
        .next
          ((s.putRelease { r with checking := true, attempts := 1 }).setEng d.seg
            { s.eng d.seg with
              queue :=
                (s.eng d.seg).queue ++ [{ addr := d.addr, cmd := .resync, who := .check r.id, time := s.trunk.time }] })

/-- R90: CANCEL RELEASE of a dock with no release is answered NONE. A release in flight that is not checking takes the mark
cancel requested and LOCK is submitted to its dock; a checking one takes the mark alone; a second cancel changes nothing. -/
def Obligations.CancelReleaseSubmitsLock : Prop :=
  ∀ (s : State) (tag : Nat) (p : DockPos), s.Answers →
    (s.releaseAt p = none →
      exec (.cancelRelease { tag := tag, body := some p }) s =
        .next (s.timerRestarted.withFrame (commandReply tag 6 .none s.trunk.mode))) ∧
    ∀ r, s.releaseAt p = some r → r.pos = p →
      (r.cancel = true →
        exec (.cancelRelease { tag := tag, body := some p }) s =
          .next (s.timerRestarted.withFrame (commandReply tag 6 .accepted s.trunk.mode))) ∧
      (r.cancel = false → r.checking = true →
        exec (.cancelRelease { tag := tag, body := some p }) s =
          .next
            ((s.putRelease { r with cancel := true }).timerRestarted.withFrame
              (commandReply tag 6 .accepted s.trunk.mode))) ∧
      ∀ (d : Drop) (x : DropRec), r.cancel = false → r.checking = false →
        s.dropAt p = some d → s.dropRec d = some x → x.link = .free .active → (s.eng d.seg).queue.length < 24 →
        exec (.cancelRelease { tag := tag, body := some p }) s =
          .next
            (((s.putRelease { r with cancel := true }).setEng d.seg
                { s.eng d.seg with
                  queue :=
                    (s.eng d.seg).queue ++
                      [{ addr := d.addr, cmd := .lock, who := .discard .hire, time := s.trunk.time }] }).timerRestarted.withFrame
              (commandReply tag 6 .accepted s.trunk.mode))

/-- R91, R77, R83, R84: COMMAND RELEASE at a dock that can give its bike, in SERVICE with the journal NORMAL and time valid,
for a number with no release in flight: the dock is RELEASING, a release record in phase COMMANDED holds the bike and the
grant, and UNLOCK with the hire token and the take window is the last command queued for the dock. Here the dock is not
charging nor waiting to, and no flag changes. -/
def Obligations.RemoteReleaseIsGranted : Prop :=
  ∀ (s : State) (tag number : Nat) (p : DockPos) (b : Bike) (d : Drop) (x : DropRec), s.Answers →
    s.trunk.mode = .service → s.journal.level = .normal → s.trunk.timeValid = true →
    (s.dock p).state = .occupied → (s.dock p).service = .inService → (s.dock p).bike = some b →
    b.hold = .none → b.pickup = false → (s.dock p).charge = .notCharging →
    p ∉ s.stock.waitList → p ∉ s.stock.chargingList → number ≠ 0 → s.inFlight number .member = false →
    s.card number = none →
    (s.setDock p { s.dock p with state := .releasing }).stock.flags = s.stock.computed →
    s.dropAt p = some d → s.dropRec d = some x → x.link = .free .active → (s.eng d.seg).queue.length < 24 →
      exec (.release { tag := tag, body := some { pos := p.val + 1, number := number, medium := 0 } }) s =
        .next
          (((({ s.setDock p { s.dock p with state := .releasing } with
                hire := { s.hire with nextRelease := s.hire.nextRelease + 1 } } : State).putRelease
              { pos := p, kind := .remote, number := number, medium := .member
                flags := { stranger := false, referred := false, islanded := false, remote := true }
                token :=
                  some
                    { number := number, medium := .member, start := s.trunk.time, station := s.trunk.station
                      cls := s.trunk.settings.strangerClass
                      flags := { stranger := false, referred := false, islanded := false, remote := true } }
                grantTime := s.trunk.time, window := s.trunk.settings.takeWindow, bike := b.id, bikeKind := b.kind
                guardAt := none, cancel := false, checking := false, attempts := 0, serial := 0
                id := s.hire.nextRelease }).setEng d.seg
              { s.eng d.seg with
                queue :=
                  (s.eng d.seg).queue ++
                    [{ addr := d.addr
                       cmd :=
                         .unlockHire s.trunk.settings.takeWindow
                           { number := number, medium := .member, start := s.trunk.time, station := s.trunk.station
                             cls := s.trunk.settings.strangerClass
                             flags := { stranger := false, referred := false, islanded := false, remote := true } }
                       who := .unlock s.hire.nextRelease, time := s.trunk.time }] }).timerRestarted.withFrame
            (commandReply tag 5 .accepted s.trunk.mode))

/-! ### Chapter 5: pass sales -/

/-- R104: at the deadline of an offer its reserved slot is freed, SALE LAPSED is appended with cause DEADLINE and the record
becomes LAPSED, its reference and terms kept. Here the journal can take the record and its level stays as it is, and the
station is not MAINTENANCE PENDING. Before the deadline nothing happens: the model's choice for a command that comes early
(log 15). -/
def Obligations.SaleDeadlineLapsesTheOffer : Prop :=
  ∀ (s : State) (r : SaleRec), s.saleOf r.terminal = some r → r.state = .offered →
    (s.trunk.time < r.deadline → exec (.saleDeadline r.terminal) s = .next s) ∧
    ∀ (slot : Nat) (o : OfferTerms), r.deadline ≤ s.trunk.time → r.slot = some slot → r.terms = some o →
      s.journal.level = .normal → s.journal.records.length < 800 → s.journal.next ≤ 4294967295 →
      s.trunk.mode ≠ .maintenancePending →
      exec (.saleDeadline r.terminal) s =
        .next
          (({ s with
              hire := { s.hire with passes := s.hire.passes.filter fun c => c.slot != slot }
              journal :=
                { s.journal with
                  records :=
                    s.journal.records ++
                      [{ seq := s.journal.next, time := s.trunk.time
                         body :=
                           .saleLapsed
                             { terminal := r.terminal, ref := r.ref, kind := o.kind, price := o.entry.price
                               offerTime := r.offerTime }
                             false }]
                  next := s.journal.next + 1 } } : State).putSale
            { r with state := .lapsed, slot := none, unanswered := false })

/-! ### Chapter 6: returns and fares -/

/-- The rate of the block that begins at a chargeable minute, as R118 words it. -/
def Sys2Proof.Machine.blockRate (bands : List Band) (minute : Nat) : Nat :=
  ((bands.dropLast.find? fun b => decide (minute ≤ b.upper)).getD (bands.getLastD { upper := 0, rate := 0 })).rate

/-- R117, R118, R119: billed minutes, chargeable minutes, blocks, band sum, unlock fee and gross of a ride that is not short,
and no unlock fee for a short one. -/
def Obligations.FareOfARideThatIsNotShort : Prop :=
  ∀ (t : Tariff) (kind : BikeKind) (d : Nat),
    (d ≤ t.grace → (priceOf t kind d).unlockFee = 0) ∧
    (t.grace < d → d ≤ 172800 → 1 ≤ t.block → t.bands ≠ [] →
      ∃ m q n : Nat,
        (d ≤ 60 * m ∧ 60 * m < d + 60) ∧ (1 ≤ m ∧ m ≤ 2880) ∧ (priceOf t kind d).minutes = m ∧
          ((t.free < m → q + t.free = m) ∧ (m ≤ t.free → q = 0)) ∧
          (q ≤ n * t.block ∧ n * t.block < q + t.block) ∧ (q = 0 → n = 0 ∧ (priceOf t kind d).bandSum = 0) ∧
          (priceOf t kind d).bandSum =
            min 65535 (((List.range n).map fun j => blockRate t.bands (j * t.block + 1)).sum) ∧
          (priceOf t kind d).unlockFee = perKind t.unlockFee kind ∧
          (priceOf t kind d).gross = min 65535 ((priceOf t kind d).bandSum + perKind t.unlockFee kind)) ∧
    (t.grace < 60 → (priceOf t kind 60).minutes = 1 ∧ (priceOf t kind 61).minutes = 2)

/-- R123, with the clauses of R120, R122 and R124 that it rests on: the reward used, the charge and the cap reduction come to
the gross; the charge is the net, or under a daily cap the smaller of the net and the cap less the day total; it never raises
the day total above the cap; the headroom falls by the charge; the out count falls where the hire began here. -/
def Obligations.ChargeRespectsTheDailyCap : Prop :=
  ∀ (t : Tariff) (gross earns : Nat) (day : Int) (here : Bool) (a : Account),
    let c := chargeOn t gross earns day here a
    let net := gross - min (a.reward.getD 0) gross
    let total := if a.day = day then a.dayTotal else 0
    c.rewardUsed = min (a.reward.getD 0) gross ∧
      (t.dailyCap = 0 → c.charge = net) ∧ (t.dailyCap ≠ 0 → c.charge = min net (t.dailyCap - total)) ∧
      c.capReduction = net - c.charge ∧ c.rewardUsed + c.charge + c.capReduction = gross ∧
      (t.dailyCap ≠ 0 → c.charge ≠ 0 → c.account.dayTotal ≤ t.dailyCap) ∧
      c.account.day = day ∧ c.account.dayTotal = min 65535 (total + c.charge) ∧
      c.account.headroom = a.headroom - c.charge ∧
      c.account.outCount = (if here then a.outCount - 1 else a.outCount)

/-- R128, R135, R197: a recent-returns entry and a pending van order leave their lists when the station time has reached
their moment. Before it they stay: the model's choice for a command that comes early (log 15). -/
def Obligations.ListEntriesLeaveAtTheirMoment : Prop :=
  ∀ s : State,
    (∀ (before after : List RecentReturn) (e : RecentReturn), s.hire.recent = before ++ e :: after →
      (s.trunk.time < e.expiry → exec (.recentReturnExpiry before.length) s = .next s) ∧
        (e.expiry ≤ s.trunk.time →
          exec (.recentReturnExpiry before.length) s =
            .next { s with hire := { s.hire with recent := before ++ after } })) ∧
    ∀ (before after : List VanOrder) (o : VanOrder), s.van.orders = before ++ o :: after →
      (∀ x ∈ before ++ after, x.id ≠ o.id) →
      (s.trunk.time < o.validUntil → exec (.vanOrderExpiry o.id) s = .next s) ∧
        (o.validUntil ≤ s.trunk.time →
          exec (.vanOrderExpiry o.id) s = .next { s with van := { s.van with orders := before ++ after } })

/-! ### Chapter 7: van visits -/

/-- R134: an order whose id is 0 is answered RANGE and nothing else changes, so that MALFORMED does not rise, which is the
model's choice (log 74). While station time is valid an order that meets check 1 is answered EXPIRED when its valid until has
been reached; with no visit active and its id new, a fifth one FULL, and any other is accepted, and takes its place among the
pending orders by its valid from, after those with an equal one. The other cases of check 1, NOTIME, ACTIVE, REPLACED and an
order during a visit are not stated here. -/
def Obligations.VanOrderJoinsThePendingOrders : Prop :=
  ∀ (s : State) (tag : Nat) (o : VanOrder), s.Answers →
    (o.id = 0 →
      exec (.vanOrder { tag := tag, body := some o }) s =
        .next (s.timerRestarted.withFrame (.commandReply tag (.vanOrder o.id .range)))) ∧
    (o.id ≠ 0 → o.van ≠ 0 → o.drops.classic ≤ 40 → o.drops.electric ≤ 40 → o.drops.cargo ≤ 40 →
      o.pickups.classic ≤ 40 → o.pickups.electric ≤ 40 → o.pickups.cargo ≤ 40 → o.named.length ≤ 8 → 0 ∉ o.named →
      o.named.Nodup → o.validFrom < o.validUntil → s.trunk.timeValid = true →
      (o.validUntil ≤ s.trunk.time →
        exec (.vanOrder { tag := tag, body := some o }) s =
          .next (s.timerRestarted.withFrame (.commandReply tag (.vanOrder o.id .expired)))) ∧
      (s.trunk.time < o.validUntil → s.van.visit = none → (∀ x ∈ s.van.orders, x.id ≠ o.id) →
        (4 ≤ s.van.orders.length →
          exec (.vanOrder { tag := tag, body := some o }) s =
            .next (s.timerRestarted.withFrame (.commandReply tag (.vanOrder o.id .full)))) ∧
        ∀ before after : List VanOrder, s.van.orders = before ++ after → s.van.orders.length < 4 →
          (∀ x ∈ before, x.validFrom ≤ o.validFrom) → (∀ x ∈ after.head?, o.validFrom < x.validFrom) →
          exec (.vanOrder { tag := tag, body := some o }) s =
            .next
              (({ s with van := { s.van with orders := before ++ o :: after } } : State).timerRestarted.withFrame
                (.commandReply tag (.vanOrder o.id .accepted)))))

/-- R148, R149, R151: at its close time a visit closes with cause EXPIRED: every reservation leaves the dock records, its VAN
VISIT is appended with the lists and the number of pickups in flight, and SHOW VISIT CLOSED is submitted to the van point, as
a command whose outcome the Van Unit discards. Here no flag changes with the reservations, the journal can take the record
and stays NORMAL, and the van point's drop, not LOST, has room in its queue. Before that moment nothing happens: the model's
choice for a command that comes early (log 15). -/
def Obligations.VisitClosesAtItsCloseTime : Prop :=
  ∀ (s : State) (v : Visit), s.van.visit = some v →
    (s.trunk.time < v.closeAt → exec .visitCloseTime s = .next s) ∧
    ∀ (st : Stock) (d : Drop) (r : DropRec), v.closeAt ≤ s.trunk.time →
      st =
        { s.stock with
          docks :=
            s.stock.docks.map fun x =>
              { x with vanDrop := false, bike := x.bike.map fun b => { b with pickup := false } } } →
      st.flags = s.stock.computed →
      s.vanpoint = some d → s.dropRec d = some r → r.link ≠ .free .lost → r.link ≠ .held .lost →
      (s.eng d.seg).queue.length < 24 →
      s.journal.level = .normal → s.journal.records.length < 800 → s.journal.next ≤ 4294967295 →
      exec .visitCloseTime s =
        .next
          (({ s with
              stock := st
              van := { s.van with visit := none }
              journal :=
                { s.journal with
                  records :=
                    s.journal.records ++
                      [{ seq := s.journal.next, time := s.trunk.time
                         body :=
                           .vanVisit
                             { order := v.plan.map fun x => x.order.id
                               serial := v.serial, van := v.van, operator := v.operator, arrival := v.arrival
                               closedAt := s.trunk.time, cause := .expired
                               unmetDrops := v.plan.map fun x => x.remDrops
                               unmetPickups := v.plan.map fun x => x.remPickups
                               inFlight := v.inFlight.length, load := v.load, dropList := v.dropList } }]
                  next := s.journal.next + 1 } } : State).setEng d.seg
            { s.eng d.seg with
              queue :=
                (s.eng d.seg).queue ++
                  [{ addr := d.addr, cmd := .showReason .visitClosed, who := .discard .van, time := s.trunk.time }] })

/-! ### Chapter 8: faults -/

/-- R168: CLEAR FAULT with id 0 is answered RANGE, with an id no record holds UNKNOWN, with that of a CLEARED record ALREADY
CLEARED, and changes nothing; that MALFORMED does not rise at id 0 is the model's choice (log 47). An uncleared record
against a terminal becomes CLEARED by central, and keeps its place; its actions touch no dock and no bike. Records against
docks and bikes are not stated here. -/
def Obligations.ClearFaultClearsTheRecord : Prop :=
  ∀ (s : State) (tag id : Nat), s.Answers →
    (id = 0 →
      exec (.clearFault { tag := tag, body := some id }) s =
        .next (s.timerRestarted.withFrame (commandReply tag 7 .range s.trunk.mode))) ∧
    (id ≠ 0 → (∀ f ∈ s.fault.log, f.id ≠ id) →
      exec (.clearFault { tag := tag, body := some id }) s =
        .next (s.timerRestarted.withFrame (commandReply tag 7 .unknown s.trunk.mode))) ∧
    ∀ (before after : List FaultRec) (f : FaultRec), id ≠ 0 → s.fault.log = before ++ f :: after → f.id = id →
      (∀ g ∈ before ++ after, g.id ≠ id) →
      (f.state = .clearedByCentral ∨ f.state = .clearedByRemoval →
        exec (.clearFault { tag := tag, body := some id }) s =
          .next (s.timerRestarted.withFrame (commandReply tag 7 .alreadyCleared s.trunk.mode))) ∧
      ∀ d : Drop, (f.state = .opened ∨ f.state = .notified) → f.subject = .terminal d →
        s.fault.busy = false → s.fault.waiting = [] →
        exec (.clearFault { tag := tag, body := some id }) s =
          .next
            (({ s with
                fault :=
                  { s.fault with log := before ++ { f with state := .clearedByCentral } :: after } } :
                State).timerRestarted.withFrame
              (commandReply tag 7 .cleared s.trunk.mode))

/-- R156, R157: in MAINTENANCE one entry of a FAULT POLICY load replaces the entry of its code, where its subject kind is the
code's and its actions fit it; an entry whose code, subject kind, base severity or threshold lies outside its values, or
whose actions are not among the four or do not fit the subject kind, is refused RANGE. Here the log holds no record and every
service by faults stands IN SERVICE, so no record is taken against the policy. -/
def Obligations.FaultPolicyLoadReplacesTheEntry : Prop :=
  ∀ (s : State) (tag first : Nat) (e : FaultPolicyEntry), s.Answers → s.trunk.mode = .maintenance →
    s.fault.log = [] → s.fault.busy = false → s.fault.waiting = [] → (∀ p, (s.dock p).svcFaults = .inService) →
    ((48 ≤ e.code ∨ e.subject ≠ some (subjectOf e.code) ∨ e.base = none ∨ e.threshold = 1 ∨ 255 < e.threshold ∨
        e.actions = none ∨
        ∃ a, e.actions = some a ∧
          (subjectOf e.code = .dock ∧ a.quarantine = true ∨
            subjectOf e.code = .bike ∧ (a.noRelease = true ∨ a.outOfService = true) ∨
            subjectOf e.code = .terminal ∧ a ≠ ⟨false, false, false, false⟩)) →
      exec (.faultPolicyLoad { tag := tag, first := first, body := some [e] }) s =
        .next (s.timerRestarted.withFrame (loadReply tag 3 first 1 0 .partly (some (first, .range)) []))) ∧
    ∀ (c : Fin 48) (v : Severity) (a : FaultActions), e.code = c.val → e.subject = some (subjectOf c.val) →
      e.base = some v → e.actions = some a → e.threshold ≠ 1 → e.threshold ≤ 255 →
      (subjectOf c.val = .dock → a.quarantine = false) →
      (subjectOf c.val = .bike → a.noRelease = false ∧ a.outOfService = false) →
      (subjectOf c.val = .terminal → a = ⟨false, false, false, false⟩) →
      exec (.faultPolicyLoad { tag := tag, first := first, body := some [e] }) s =
        .next
          (({ s with
              fault :=
                { s.fault with
                  policy := s.fault.policy.set c { base := v, threshold := e.threshold, actions := a } } } :
              State).timerRestarted.withFrame
            (loadReply tag 3 first 1 1 .done none []))

/-! ### Chapter 9: the settlement journal -/

/-- R175, R176: JOURNAL COLLECT is answered with a JOURNAL DATA that shows the held range, the next sequence, the level and
COLD START, and carries in ascending order records from the start on: at most n, clamped to 1..16, within the body, and no
record is left out that would have fitted. The body is the 16 bytes of 11.5 and the records' bytes. The journal stays as it
is. -/
def Obligations.JournalCollectCarriesRecordsInOrder : Prop :=
  ∀ (s : State) (tag start n : Nat), s.Answers →
    ∃ l rest : List JournalRec,
      (s.journal.records.filter fun r => decide (start ≤ r.seq)) = l ++ rest ∧ l.length ≤ max 1 (min 16 n) ∧
        (l.map recordBytes).sum ≤ 1024 - 16 ∧
        (∀ r ∈ rest.head?, l.length < max 1 (min 16 n) → 1024 - 16 < (l.map recordBytes).sum + recordBytes r) ∧
        let d : JournalShown :=
          { tag := tag
            held :=
              match s.journal.records.head?, s.journal.records.getLast? with
              | some a, some b => some (a.seq, b.seq)
              | _, _ => none
            next := s.journal.next, level := s.journal.level, coldStart := s.journal.coldStart, records := l
            range := false }
        exec (.journalCollect { tag := tag, body := some (start, n) }) s =
          .next
            (s.timerRestarted.withFrame
              (.journalData { toJournalShown := d, body := journalHead d ++ l.flatMap recordWire }))

/-- R177, R178, R180: JOURNAL RELEASE removes every record up to its sequence, clears COLD START, and the level is evaluated
by the free count that results; the answer carries the journal as it then stands. Here the level is not CLOSED, and 96 or
more places are free. -/
def Obligations.JournalReleaseRemovesRecords : Prop :=
  ∀ (s : State) (tag r : Nat) (j : Journal), s.Answers → s.journal.level ≠ .closed →
    j.records = s.journal.records.filter (fun x => decide (r < x.seq)) → j.next = s.journal.next →
    j.coldStart = false → j.refused = s.journal.refused → j.records.length + 96 ≤ 1024 →
    j.level =
        (if 1024 - j.records.length < 192 then .restricted
         else if s.journal.level = .restricted ∧ 1024 - j.records.length < 256 then .restricted
         else .normal) →
      let d : JournalShown :=
        { tag := tag
          held :=
            match j.records.head?, j.records.getLast? with
            | some a, some b => some (a.seq, b.seq)
            | _, _ => none
          next := j.next, level := j.level, coldStart := false, records := [], range := false }
      exec (.journalRelease { tag := tag, body := some r }) s =
        .next
          (({ s with journal := j } : State).timerRestarted.withFrame
            (.journalData { toJournalShown := d, body := journalHead d }))

/-! ### Chapter 10: the trunk link -/

/-- R185: a truncated frame, one whose length is above 1,024, and one whose CRC-32 does not match are discarded and counted,
each under its own count; they act on nothing else. -/
def Obligations.DiscardedTrunkFramesAreCounted : Prop :=
  ∀ (s : State) (f : TrunkRaw),
    exec .trunkFrameTruncated s =
        .next
          { s with
            trunk :=
              { s.trunk with
                counts := { s.trunk.counts with truncated := min 65535 (s.trunk.counts.truncated + 1) } } } ∧
      (1024 < f.length.toNat →
        exec (.trunkFrameInvalid f) s =
          .next
            { s with
              trunk :=
                { s.trunk with
                  counts := { s.trunk.counts with length := min 65535 (s.trunk.counts.length + 1) } } }) ∧
      (f.length.toNat ≤ 1024 → f.crc ≠ crc32 (f.kind :: beBytes 2 f.length.toNat ++ f.body) →
        exec (.trunkFrameInvalid f) s =
          .next
            { s with
              trunk :=
                { s.trunk with
                  counts := { s.trunk.counts with badCrc := min 65535 (s.trunk.counts.badCrc + 1) } } })

/-- R185, R186: a valid frame of unknown kind is counted and restarts the island timer; while ISLANDED it makes the trunk
CONNECTED first. Here the flags stand as last notified and no OPEN fault is at MAJOR or above, so no notice follows. -/
def Obligations.UnknownKindRestartsTheTimer : Prop :=
  ∀ (s : State) (kind : Nat), (kind = 0 ∨ 10 < kind) → s.stock.flags = s.stock.notified →
    (∀ f ∈ s.fault.log, f.state = .opened → f.severity = .minor) →
      exec (.unknownKind kind) s =
        .next
          { s with
            trunk :=
              { s.trunk with
                connected := true, timerOn := true, islandSeconds := 0, islandLimit := s.trunk.settings.islandTimeout
                counts := { s.trunk.counts with unknownKind := min 65535 (s.trunk.counts.unknownKind + 1) } } }

/-- R193, R194: a command code outside table 10-4 is answered UNKNOWN COMMAND, a table id outside table 10-5 UNKNOWN TABLE
with no entry applied; nothing else changes. -/
def Obligations.UnknownCodesAreAnswered : Prop :=
  ∀ (s : State) (tag code table first : Nat), s.Answers → (code = 0 ∨ 8 < code) → (table = 0 ∨ 8 < table) →
    exec (.unknownCommand tag code) s =
        .next (s.timerRestarted.withFrame (commandReply tag code .unknownCommand s.trunk.mode)) ∧
      ∃ n, exec (.unknownTable tag table first) s =
        .next (s.timerRestarted.withFrame (loadReply tag table first n 0 .unknownTable none []))

/-- Whether a command is a valid inbound frame of a kind that has an answer (table 10-1). -/
def Sys2Proof.Instr.hasAnswer : Instr → Bool
  | .powerOnReset _ => false
  | .holdAssert _ => false
  | .holdRelease _ => false
  | .sweepStart _ _ => false
  | .dockBusFrameReceived _ _ _ => false
  | .replyWindowExpired _ _ => false
  | .stationTimeTick => false
  | .referralDeadline _ => false
  | .releaseGuardExpiry _ => false
  | .saleDeadline _ => false
  | .recentReturnExpiry _ => false
  | .vanOrderExpiry _ => false
  | .visitCloseTime => false
  | .islandTimeout => false
  | .trunkFrameTruncated => false
  | .trunkFrameInvalid _ => false
  | .unknownKind _ => false
  | .referralAnswer _ => false
  | .outboundSend => false
  | .unknownCommand _ code => code = 0 ∨ 8 < code
  | .unknownTable _ table _ => table = 0 ∨ 8 < table
  | .dropTableLoad _ => true
  | .classifierLoad _ => true
  | .faultPolicyLoad _ => true
  | .stationSettingsLoad _ => true
  | .passKindsLoad _ => true
  | .cardTableLoad _ => true
  | .tariffLoad _ => true
  | .stockTargetsLoad _ => true
  | .timeSet _ => true
  | .journalCollect _ => true
  | .journalRelease _ => true
  | .vanOrder _ => true
  | .statusQuery _ => true
  | .dockListQuery _ => true
  | .faultListQuery _ => true
  | .startService _ => true
  | .enterMaintenance _ => true
  | .leaveMaintenance _ => true
  | .restart _ => true
  | .release _ => true
  | .cancelRelease _ => true
  | .clearFault _ => true
  | .setDockService _ => true

/-- R187: while the answer wait list holds 4 frames, a frame of a kind that has an answer is not taken: NOT TAKEN rises and
the island timer restarts, and nothing else happens. -/
def Obligations.FramesAreNotTakenWhileFourAnswersWait : Prop :=
  ∀ (s : State) (c : Instr), c.hasAnswer = true → s.trunk.connected = true → 4 ≤ s.trunk.waiting.length →
    exec c s =
      .next
        { s with
          trunk :=
            { s.trunk with
              timerOn := true, islandSeconds := 0, islandLimit := s.trunk.settings.islandTimeout
              counts := { s.trunk.counts with notTaken := min 65535 (s.trunk.counts.notTaken + 1) } } }

/-- R194: outside MAINTENANCE a load of a protected table is refused MODE and no entry is applied. -/
def Obligations.ProtectedLoadsAreRefusedMode : Prop :=
  ∀ (s : State) (tag first : Nat), s.Answers → s.trunk.mode ≠ .maintenance →
    (∀ l, exec (.dropTableLoad { tag := tag, first := first, body := some l }) s =
      .next (s.timerRestarted.withFrame (loadReply tag 1 first l.length 0 .mode none []))) ∧
    (∀ l, exec (.classifierLoad { tag := tag, first := first, body := some l }) s =
      .next (s.timerRestarted.withFrame (loadReply tag 2 first l.length 0 .mode none []))) ∧
    (∀ l, exec (.faultPolicyLoad { tag := tag, first := first, body := some l }) s =
      .next (s.timerRestarted.withFrame (loadReply tag 3 first l.length 0 .mode none []))) ∧
    (∀ l, exec (.stationSettingsLoad { tag := tag, first := first, body := some l }) s =
      .next (s.timerRestarted.withFrame (loadReply tag 4 first l.length 0 .mode none []))) ∧
    ∀ l, exec (.passKindsLoad { tag := tag, first := first, body := some l }) s =
      .next (s.timerRestarted.withFrame (loadReply tag 5 first l.length 0 .mode none []))

/-- R1, R2, R36: in MAINTENANCE one entry makes a dock of a segment A address whose entry is NONE. Its drop record is that of
a new drop, STOPPED engine A moves to WAITING with its first sweep due at once, and the dock record of the position goes from
UNUSED to UNKNOWN. Here no other address holds the position, no command is queued, no exchange is in progress, segment B is
absent, and the flags stand as last computed. That the engine then waits for the command SWEEP_START, its due moment 0, is
the model's choice (log 3). -/
def Obligations.DropTableLoadMakesADock : Prop :=
  ∀ (s : State) (tag first : Nat) (a : Fin 32) (p : DockPos), s.Answers → s.trunk.mode = .maintenance →
    (∀ d : Drop, s.entryOf d ≠ .dock p) → (s.engA).entries[a] = .none → s.engA.mode = .stopped → s.engA.queue = [] →
    s.engA.exchange = none → (∀ b : Fin 32, s.engB.entries[b] = .none) → s.engB.mode = .stopped →
    (s.dock p).state = .unused → (s.dock p).bike = none → s.stock.flags = s.stock.computed →
      exec
          (.dropTableLoad
            { tag := tag, first := first
              body := some [{ seg := .A, addr := a.val + 1, kind := some .dock, pos := p.val + 1 }] })
          s =
        .next
          (({ s.setDock p { s.dock p with state := .unknown } with
              engA :=
                { s.engA with
                  entries := s.engA.entries.set a (.dock p)
                  drops :=
                    s.engA.drops.set a
                      (some { link := .free .new, misses := 0, resyncDue := false, lastEvent := 0, corrected := 0 })
                  mode := .waiting, due := 0 } } : State).timerRestarted.withFrame
            (loadReply tag 1 first 1 1 .done none []))

/-- R32, R97, R112: an applied entry of the CLASSIFIER, of type RANGE, PAIR or MASK, replaces the whole rule and zeroes its
hit counter, one of PASS KINDS the whole entry of its kind, one of TARIFF the whole class, which is then loaded. A TARIFF
entry whose upper limits do not increase strictly is refused RANGE. -/
def Obligations.RulePassKindAndTariffEntriesReplace : Prop :=
  ∀ (s : State) (tag first : Nat), s.Answers →
    (∀ (e : RuleEntry) (i : Fin 32) (g : SegMatch) (k : KindSet) (y : MatchType) (ac : Action),
      s.trunk.mode = .maintenance → e.index = i.val → e.seg = some g → e.kinds = some k → e.type = some y →
      e.action = some ac → 1 ≤ e.lo → e.lo ≤ e.hi → e.hi ≤ 32 → (k.dock = true ∨ k.pay = true ∨ k.vanpoint = true) →
      e.first ≤ 0x3F → e.second ≤ 0x3F → (y = .range → e.first ≤ e.second) →
      (y = .mask → e.second &&& e.first = e.second) →
      exec (.classifierLoad { tag := tag, first := first, body := some [e] }) s =
        .next
          (({ s with
              classifier :=
                { s.classifier with
                  rules :=
                    s.classifier.rules.set i
                      { enabled := e.enabled, seg := g, lo := e.lo, hi := e.hi, kinds := k, type := y
                        first := e.first, second := e.second, action := ac }
                  hits := s.classifier.hits.set i 0 } } : State).timerRestarted.withFrame
            (loadReply tag 2 first 1 1 .done none []))) ∧
    (∀ (e : PassKindEntry) (i : Fin 4), s.trunk.mode = .maintenance → e.kind = i.val + 1 → e.price ≤ 65535 →
      3600 ≤ e.duration → e.duration ≤ 31622400 → e.rideLimit ≤ 65535 → 1 ≤ e.maxBikes → e.maxBikes ≤ 2 → e.cls ≤ 7 →
      e.headroom ≤ 65535 →
      exec (.passKindsLoad { tag := tag, first := first, body := some [e] }) s =
        .next
          (({ s with
              sale :=
                { s.sale with
                  kinds :=
                    s.sale.kinds.set i
                      { onSale := e.onSale, price := e.price, duration := e.duration, rideLimit := e.rideLimit
                        maxBikes := e.maxBikes, cls := e.cls, headroom := e.headroom } } } :
              State).timerRestarted.withFrame
            (loadReply tag 5 first 1 1 .done none []))) ∧
    ∀ (c : Fin 8) (t : Tariff), t.grace ≤ 600 → t.free ≤ 240 → 1 ≤ t.block → t.block ≤ 60 → 1 ≤ t.bands.length →
      t.bands.length ≤ 4 → t.unlockFee.classic ≤ 1000 → t.unlockFee.electric ≤ 1000 → t.unlockFee.cargo ≤ 1000 →
      t.dailyCap ≤ 65535 → t.reward ≤ 500 → (∀ b ∈ t.bands, 1 ≤ b.upper ∧ b.upper ≤ 2880 ∧ b.rate ≤ 2000) →
      (t.bands.IsChain (fun a b => a.upper < b.upper) →
        exec (.tariffLoad { tag := tag, first := first, body := some [{ cls := c.val, tariff := t }] }) s =
          .next
            (({ s with hire := { s.hire with tariffs := s.hire.tariffs.set c (some t) } } :
                State).timerRestarted.withFrame
              (loadReply tag 7 first 1 1 .done none []))) ∧
      (¬t.bands.IsChain (fun a b => a.upper < b.upper) →
        exec (.tariffLoad { tag := tag, first := first, body := some [{ cls := c.val, tariff := t }] }) s =
          .next (s.timerRestarted.withFrame (loadReply tag 7 first 1 0 .partly (some (first, .range)) [])))

/-- R195, table 10-6, R33: the ranges of the numeric settings, where `ride` is the ride minimum level as the load leaves it;
and a STATION SETTINGS load that gives the island timeout brings it into its range, reports CLAMPED where it lay outside, and
zeroes the default hit count. Here the resume level lies in its range. -/
def Obligations.SettingsAreClampedIntoTheirRanges : Prop :=
  (∀ ride : Nat,
    [NumSetting.replyWindow, .sweepInterval, .takeWindow, .referralDeadline, .islandTimeout, .saleWindow, .waiverWindow,
        .dayOffset, .strangerClass, .strangerHeadroom, .minHeadroom, .rewardMinRide, .chargeSlots, .chargeFull,
        .rideMin, .resume].map (settingRange ride) =
      [(1, 10), (20, 500), (10, 60), (1, 15), (10, 600), (30, 300), (0, 600), (-43200, 43200), (0, 7), (0, 5000),
        (0, 5000), (0, 3600), (0, 16), (80, 100), (5, 50), ((ride : Int) + 5, 60)]) ∧
    ∀ (s : State) (tag first v w : Nat), s.Answers → s.trunk.mode = .maintenance →
      s.trunk.settings.rideMin + 5 ≤ s.trunk.settings.resume → s.trunk.settings.resume ≤ 60 →
      w = max 10 (min 600 v) →
      exec (.stationSettingsLoad { tag := tag, first := first, body := some [.num .islandTimeout v] }) s =
        .next
          (({ s.timerRestarted with
              classifier := { s.classifier with defaultHits := 0 }
              trunk :=
                { s.timerRestarted.trunk with settings := { s.trunk.settings with islandTimeout := w } } } :
              State).withFrame
            (loadReply tag 4 first 1 1 .done none (if w = v then [] else [.num .islandTimeout])))

/-- R190, R191: START SERVICE and LEAVE MAINTENANCE in each mode. The station is ready when the drop table has an entry other
than NONE, tariff class 0 is loaded, time is valid and the station number is not 0; not ready, the mode stays and the answer
marks each condition that failed. What the quiet marks hold in SERVICE is left out. -/
def Obligations.StartServiceAndLeaveMaintenance : Prop :=
  ∀ (s : State) (tag : Nat), s.Answers →
    let ready : Prop :=
      (∃ d : Drop, s.entryOf d ≠ .none) ∧ (s.hire.tariffs[(0 : Fin 8)]).isSome = true ∧ s.trunk.timeValid = true ∧
        s.trunk.station ≠ 0
    let served (code : Nat) (c : Instr) : Prop :=
      (ready →
        ∃ a b : Bool,
          exec c s =
            .next
              (({ s with trunk := { s.trunk with mode := .service, releasesQuiet := a, salesQuiet := b } } :
                  State).timerRestarted.withFrame
                (commandReply tag code .done .service))) ∧
        (¬ready →
          ∃ m : NotReady,
            (m.noDropTable = true ↔ ∀ d : Drop, s.entryOf d = .none) ∧
              (m.noTariff = true ↔ s.hire.tariffs[(0 : Fin 8)] = none) ∧
              (m.noTime = true ↔ s.trunk.timeValid = false) ∧ (m.noStation = true ↔ s.trunk.station = 0) ∧
              exec c s =
                .next (s.timerRestarted.withFrame (commandReply tag code (.notReady m) s.trunk.mode)))
    let unchanged (code : Nat) (c : Instr) (r : CommandResult) : Prop :=
      exec c s = .next (s.timerRestarted.withFrame (commandReply tag code r s.trunk.mode))
    let start : Instr := .startService { tag := tag, body := some () }
    let leave : Instr := .leaveMaintenance { tag := tag, body := some () }
    (s.trunk.mode = .init → served 1 start ∧ unchanged 3 leave .mode) ∧
      (s.trunk.mode = .service → unchanged 1 start .done ∧ unchanged 3 leave .done) ∧
      (s.trunk.mode = .maintenancePending → unchanged 1 start .mode ∧ served 3 leave) ∧
      (s.trunk.mode = .maintenance → unchanged 1 start .mode ∧ served 3 leave)

/-- R190, R192: ENTER MAINTENANCE in each mode. From SERVICE, here with no visit, the two quiet marks are set from the
present state, and the mode becomes MAINTENANCE where both stand, else MAINTENANCE PENDING; the result is ACCEPTED. -/
def Obligations.EnterMaintenanceByMode : Prop :=
  ∀ (s : State) (tag : Nat), s.Answers →
    let enter : Instr := .enterMaintenance { tag := tag, body := some () }
    (s.trunk.mode = .init →
      exec enter s =
        .next
          (({ s with trunk := { s.trunk with mode := .maintenance } } : State).timerRestarted.withFrame
            (commandReply tag 2 .done .maintenance))) ∧
    (s.trunk.mode = .maintenance →
      exec enter s = .next (s.timerRestarted.withFrame (commandReply tag 2 .done .maintenance))) ∧
    (s.trunk.mode = .maintenancePending →
      exec enter s = .next (s.timerRestarted.withFrame (commandReply tag 2 .accepted .maintenancePending))) ∧
    ∀ (a b : Bool) (m : Mode), s.trunk.mode = .service → s.van.visit = none →
      (a = true ↔ s.hire.releases = []) → (b = true ↔ ∀ r ∈ s.sale.sales, r.state ≠ .offered) →
      m = (if a && b then .maintenance else .maintenancePending) →
      exec enter s =
        .next
          (({ s with trunk := { s.trunk with mode := m, releasesQuiet := a, salesQuiet := b } } :
              State).timerRestarted.withFrame
            (commandReply tag 2 .accepted m))

/-- R201 with R22, R34, R64, R95, R108 and R183: RESTART. The mode becomes INIT and the counts 0; queues, tables, journal,
cards and the settings stay; the engines, the dock records, the referrals, releases and recent returns take their RESTART
state (R22, R64): each position with a drop is UNKNOWN, owes a CHARGE OFF and keeps the identifier of a bike in release, the
grant tags and the flags last notified stay, every mark is clear, and the first sweep of a poll list is due at once (log 3).
DONE with mode INIT is the last frame of the queue. Here no offer is OFFERED, no visit is active, both hold lines are low,
every low mark is 0 and the flags last notified are clear, so that no record is appended and no notice made. -/
def Obligations.RestartTakesEveryBlock : Prop :=
  ∀ (s : State) (tag : Nat), s.Answers → (∀ r ∈ s.sale.sales, r.state ≠ .offered) → s.van.visit = none →
    s.engA.holdLine = false → s.engB.holdLine = false → s.stock.low = ⟨0, 0, 0⟩ →
    s.stock.notified = ⟨false, false, false, false, false, false⟩ →
    ∃ t : State,
      exec (.restart { tag := tag, body := some () }) s = .next (t.withFrame (commandReply tag 4 .done .init)) ∧
        t.trunk =
          { s.timerRestarted.trunk with
            mode := .init, releasesQuiet := false, salesQuiet := false, counts := ⟨0, 0, 0, 0, 0, 0⟩
            discards := ⟨0, 0, 0⟩ } ∧
        t.classifier = s.classifier ∧ t.fault = s.fault ∧ t.journal = s.journal ∧
        t.hire = { s.hire with referrals := [], releases := [], recent := [] } ∧
        t.sale = { s.sale with sales := s.sale.sales.map fun r => { r with ready := .unknown } } ∧
        t.van = { s.van with ready := .unknown } ∧ t.elapsed = s.elapsed ∧ t.deferred = s.deferred ∧
        t.pending = s.pending ∧
        (∀ g : Segment,
          (t.eng g).entries = (s.eng g).entries ∧ (t.eng g).queue = [] ∧ (t.eng g).exchange = none ∧
            (t.eng g).sweep = 0 ∧ (t.eng g).errors = ⟨0, 0, 0, 0, 0⟩ ∧ (t.eng g).holdAck = false ∧
            ((t.eng g).mode = .stopped ↔ ∀ a : Fin 32, (s.eng g).entries[a] = .none) ∧
            (∀ a : Fin 32, (s.eng g).entries[a] ≠ .none → (t.eng g).mode = .waiting ∧ (t.eng g).due = 0) ∧
            ∀ a : Fin 32,
              (t.eng g).drops[a] =
                if (s.eng g).entries[a] = .none then none
                else
                  some { link := .free .new, misses := 0, resyncDue := false, lastEvent := 0, corrected := 0 }) ∧
        t.stock.waitList = [] ∧ t.stock.chargingList = [] ∧ t.stock.high = s.stock.high ∧
        t.stock.low = s.stock.low ∧ t.stock.notified = s.stock.notified ∧
        t.stock.computed = ⟨false, false, false, false, false, false⟩ ∧
        ∀ p : DockPos,
          (t.dock p).state = (if (s.dropAt p).isSome then .unknown else .unused) ∧
            (t.dock p).svcCentral = (s.dock p).svcCentral ∧ (t.dock p).svcFaults = (s.dock p).svcFaults ∧
            (t.dock p).gate = (s.dock p).gate ∧ (t.dock p).charge = .notCharging ∧ (t.dock p).vanDrop = false ∧
            (t.dock p).lock = none ∧ (t.dock p).offOwed = (s.dropAt p).isSome ∧ (t.dock p).barred = false ∧
            (t.dock p).settling = false ∧ (t.dock p).offPending = false ∧ (t.dock p).gatePending = false ∧
            (t.dock p).grantTag = (s.dock p).grantTag ∧ ((s.dock p).state ≠ .releasing → (t.dock p).bike = none) ∧
            ((s.dock p).state = .releasing → (s.dropAt p).isSome = true →
              (t.dock p).bike.map Bike.id = (s.dock p).bike.map Bike.id)

/-- R188, R189: while the trunk is CONNECTED and the transmitter is free, the oldest frame of the highest group leaves the
queue, and the oldest waiting answer joins it in that departure. While ISLANDED no sending begins. That the answer joins as
the youngest is the model's reading (log 28). -/
def Obligations.OutboundSendTakesTheOldestOfTheHighestGroup : Prop :=
  ∀ s : State,
    (s.trunk.connected = false ∨ s.trunk.queue = [] → exec .outboundSend s = .next s) ∧
    ∀ (before after : List OutFrame) (f : OutFrame), s.trunk.connected = true →
      s.trunk.queue = before ++ f :: after → (∀ x ∈ before, f.group < x.group) → (∀ x ∈ after, f.group ≤ x.group) →
      exec .outboundSend s =
        .next
          { s with
            trunk :=
              { s.trunk with
                queue := before ++ after ++ s.trunk.waiting.take 1, waiting := s.trunk.waiting.drop 1
                sending := some f } }

/-- R189: a frame offered to the outbound queue. With room it joins. With the queue full, a group 3 frame is discarded; with
a group 3 frame in the queue the youngest of those is removed and the new frame joins; with none, an answer joins the answer
wait list and any other frame is discarded. Each frame removed or discarded is counted under its group. -/
def Obligations.OfferedFrameJoinsOrIsDealtWith : Prop :=
  ∀ (t : Trunk) (f : OutFrame),
    (t.queue.length < 16 → t.offer f = ({ t with queue := t.queue ++ [f] }, true)) ∧
    (16 ≤ t.queue.length →
      (f.group = 3 →
        t.offer f = ({ t with discards := { t.discards with g3 := min 65535 (t.discards.g3 + 1) } }, false)) ∧
      (∀ (before after : List OutFrame) (g : OutFrame), f.group ≠ 3 → t.queue = before ++ g :: after → g.group = 3 →
        (∀ x ∈ after, x.group ≠ 3) →
        t.offer f =
          ({ t with
              queue := before ++ after ++ [f], discards := { t.discards with g3 := min 65535 (t.discards.g3 + 1) } },
            true)) ∧
      ((∀ x ∈ t.queue, x.group ≠ 3) →
        (f.isAnswer = true → t.offer f = ({ t with waiting := t.waiting ++ [f] }, false)) ∧
          (f.group = 2 →
            t.offer f = ({ t with discards := { t.discards with g2 := min 65535 (t.discards.g2 + 1) } }, false)) ∧
          ∀ card pos station stamp, f = .referralRequest card pos station stamp →
            t.offer f = ({ t with discards := { t.discards with g1 := min 65535 (t.discards.g1 + 1) } }, false)))

/-- R196, R186: one second passes: the station time rises by one and stops at 4,294,967,295; a running island timer counts
its own second (log 7). -/
def Obligations.StationTimeTickCountsOneSecond : Prop :=
  ∀ s : State,
    exec .stationTimeTick s =
      .next
        { s with
          trunk :=
            { s.trunk with
              time := min 4294967295 (s.trunk.time + 1)
              islandSeconds := s.trunk.islandSeconds + if s.trunk.timerOn then 1 else 0 } }

/-- R196, R197: TIME SET in every mode: the counter takes the value, time becomes valid, and the reply carries DONE with the
value before and the value set. Here the counter does not move forward, or no block holds a deadline. -/
def Obligations.TimeSetSetsTheCounter : Prop :=
  ∀ (s : State) (tag v : Nat), s.Answers →
    (v ≤ s.trunk.time ∨
      (s.hire.referrals = [] ∧ s.hire.releases = [] ∧ (∀ r ∈ s.sale.sales, r.state ≠ .offered) ∧ s.hire.recent = [] ∧
        s.van.orders = [] ∧ s.van.visit = none)) →
      exec (.timeSet { tag := tag, body := some v }) s =
        .next
          (({ s with trunk := { s.trunk with time := v, timeValid := true } } : State).timerRestarted.withFrame
            (.commandReply tag (.timeSet s.trunk.time v)))

/-- R186: when the island timer reaches the island timeout the trunk becomes ISLANDED and the timer stops. Here no referral
is open. Before that moment, or with the timer stopped, nothing happens: the model's choice for a command that comes early
(log 15), the timer's seconds counted with the station time tick (log 7). -/
def Obligations.IslandTimeoutMakesTheTrunkIslanded : Prop :=
  ∀ s : State,
    (s.trunk.timerOn = false ∨ s.trunk.islandSeconds < s.trunk.islandLimit → exec .islandTimeout s = .next s) ∧
      (s.trunk.timerOn = true → s.trunk.islandLimit ≤ s.trunk.islandSeconds → s.hire.referrals = [] →
        exec .islandTimeout s =
          .next { s with trunk := { s.trunk with connected := false, timerOn := false } })

/-- R184: what the STATUS REPORT carries for the Journal Unit; making it changes no record and no level. -/
def Obligations.StatusReportShowsTheJournal : Prop :=
  ∀ (s : State) (tag : Nat), s.Answers →
    ∃ r : StatusReport,
      exec (.statusQuery { tag := tag, body := some () }) s = .next (s.timerRestarted.withFrame (.statusReport tag r)) ∧
        r.journalHeld = s.journal.records.length ∧ (s.journal.records = [] → r.journalRange = none) ∧
        (∀ a b, s.journal.records.head? = some a → s.journal.records.getLast? = some b →
          r.journalRange = some (a.seq, b.seq)) ∧
        r.journalNext = s.journal.next ∧ r.level = s.journal.level ∧ r.coldStart = s.journal.coldStart ∧
        r.refused = s.journal.refused

/-- R94: what the STATUS REPORT carries for the Hire Unit, and how the DOCK LIST marks a dock with a release in flight;
making a report changes no record. -/
def Obligations.ReportsShowTheHireUnit : Prop :=
  ∀ (s : State) (tag : Nat) (p : DockPos), s.Answers →
    (∃ r : StatusReport,
      exec (.statusQuery { tag := tag, body := some () }) s = .next (s.timerRestarted.withFrame (.statusReport tag r)) ∧
        r.cards = s.hire.cards.length ∧ r.provisional = (s.hire.cards.filter fun c => c.provisional).length ∧
        r.passesActive = (s.hire.passes.filter fun c => c.token.isSome).length ∧
        r.passesReserved = (s.hire.passes.filter fun c => c.token.isNone).length ∧
        r.referrals = s.hire.referrals.length ∧
        r.releasesRider = (s.hire.releases.filter fun x => x.kind == .rider).length ∧
        r.releasesVan = (s.hire.releases.filter fun x => x.kind == .van).length ∧
        r.releasesRemote = (s.hire.releases.filter fun x => x.kind == .remote).length) ∧
    ∃ d : DockList,
      exec (.dockListQuery { tag := tag, body := some (p.val + 1) }) s =
          .next (s.timerRestarted.withFrame (.dockList d)) ∧
        ∀ x ∈ d.docks,
          (s.releaseAt x.pos = none → x.release = none) ∧
            ∀ r, s.releaseAt x.pos = some r →
              x.release =
                some { kind := r.kind, unlocked := r.guardAt.isSome, cancel := r.cancel, checking := r.checking }

/-- R199: the DOCK LIST carries the record of the position named and those after it, in ascending order, and the FAULT LIST
the records from the place named, oldest first, with the number of records in the log; each carries where the next page
starts, or END. How many fit one body is left open (log 11). -/
def Obligations.ListsCarryRecordsInOrder : Prop :=
  ∀ (s : State) (tag : Nat), s.Answers →
    (∀ p : DockPos,
      ∃ d : DockList,
        exec (.dockListQuery { tag := tag, body := some (p.val + 1) }) s =
            .next (s.timerRestarted.withFrame (.dockList d)) ∧
          1 ≤ d.docks.length ∧ (d.docks.map DockReport.pos) <+: positions.drop p.val ∧
          (∀ x ∈ d.docks, x.record = s.dock x.pos ∧ x.drop = s.dropAt x.pos) ∧
          d.next = (if p.val + d.docks.length < 60 then some (p.val + d.docks.length + 1) else none)) ∧
    ∀ place : Nat,
      ∃ l : FaultList,
        exec (.faultListQuery { tag := tag, body := some place }) s =
            .next (s.timerRestarted.withFrame (.faultList l)) ∧
          (l.records.map Prod.fst) <+: s.fault.log.drop place ∧ l.total = s.fault.log.length ∧
          (place < s.fault.log.length → 1 ≤ l.records.length) ∧
          l.next =
            (if place + l.records.length < s.fault.log.length then some (place + l.records.length) else none)

/-! ### Resets -/

/-- R182, R200: a power-on reset. The Trunk Controller takes the state of R200, the straps sampled; after loss of the
retained supply the journal is empty with next sequence 1, COLD START set, the level NORMAL and the counts of appends refused
0, and the station time is 0 and not valid; while the supply held, time is kept with the seconds that passed. -/
def Obligations.PowerOnResetOfTrunkAndJournal : Prop :=
  ∀ (s : State) (p : PowerOn),
    ∃ t : State,
      exec (.powerOnReset p) s = .next t ∧ t.trunk.mode = .init ∧ t.trunk.releasesQuiet = false ∧
        t.trunk.salesQuiet = false ∧ t.trunk.connected = false ∧ t.trunk.timerOn = false ∧ t.trunk.queue = [] ∧
        t.trunk.waiting = [] ∧ t.trunk.counts = ⟨0, 0, 0, 0, 0, 0⟩ ∧ t.trunk.discards = ⟨0, 0, 0⟩ ∧
        t.trunk.settings =
          { replyWindow := 3, sweepInterval := 100, takeWindow := 30, referralDeadline := 4, islandTimeout := 60
            saleWindow := 120, waiverWindow := 180, dayOffset := 14400, strangerRule := .refuse, strangerClass := 0
            strangerHeadroom := 500, minHeadroom := 200, rewardMinRide := 300, chargeSlots := 8, chargeFull := 95
            rideMin := 25, resume := 35, defaultAction := .deliver } ∧
        t.trunk.station = p.station ∧ t.trunk.segB = p.segB ∧
        (p.standbyHeld = true →
          t.trunk.timeValid = s.trunk.timeValid ∧ t.trunk.time = min 4294967295 (s.trunk.time + p.secondsOff)) ∧
        (p.standbyHeld = false →
          t.trunk.timeValid = false ∧ t.trunk.time = 0 ∧ t.journal.records = [] ∧ t.journal.next = 1 ∧
            t.journal.coldStart = true ∧ t.journal.level = .normal ∧ t.journal.refused = Vector.replicate 10 0)

/-- R22, R34, R64, R95, R108, R112, R132, R171, R181 and table 7-4: a power-on reset of the other blocks. A journal whose
supply held keeps its records, next sequence and COLD START mark; its level comes from the free count alone. Every field of
the rules, the dock records, the pass kinds and the fault policy (table 8-4) is given. -/
def Obligations.PowerOnResetOfTheOtherBlocks : Prop :=
  ∀ (s : State) (p : PowerOn),
    ∃ t : State,
      exec (.powerOnReset p) s = .next t ∧
        (∀ g : Segment,
          (∀ a : Fin 32, (t.eng g).entries[a] = .none ∧ (t.eng g).drops[a] = none) ∧ (t.eng g).queue = [] ∧
            (t.eng g).exchange = none ∧ (t.eng g).sweep = 0 ∧ (t.eng g).errors = ⟨0, 0, 0, 0, 0⟩) ∧
        t.engA.mode = (if p.holdA then .holding else .stopped) ∧ t.engA.holdAck = p.holdA ∧
        t.engB.mode = (if p.segB && p.holdB then .holding else .stopped) ∧ t.engB.holdAck = (p.segB && p.holdB) ∧
        (∀ i : Fin 32,
          t.classifier.rules[i] =
              { enabled := false, seg := .any, lo := 1, hi := 32, kinds := { dock := true, pay := true, vanpoint := true }
                type := .range, first := 0x00, second := 0x3F, action := .deliver } ∧
            t.classifier.hits[i] = 0) ∧
        t.classifier.defaultHits = 0 ∧
        (∀ q : DockPos,
          t.dock q =
            { state := .unused, svcCentral := .inService, svcFaults := .inService, gate := .opened, vanDrop := false
              bike := none, lock := none, charge := .notCharging, grantTag := 0, barred := false, offOwed := false
              offPending := false, gatePending := false, settling := false }) ∧
        t.stock.notified = ⟨false, false, false, false, false, false⟩ ∧
        t.stock.computed = ⟨false, false, false, false, false, false⟩ ∧ t.stock.waitList = [] ∧ t.stock.chargingList = [] ∧
        t.stock.low = ⟨0, 0, 0⟩ ∧ t.stock.high = ⟨60, 60, 60⟩ ∧
        t.hire.cards = [] ∧ t.hire.passes = [] ∧ t.hire.referrals = [] ∧ t.hire.releases = [] ∧ t.hire.recent = [] ∧
        (∀ c : Fin 8, t.hire.tariffs[c] = none) ∧ t.sale.sales = [] ∧
        (∀ c : Fin 4,
          t.sale.kinds[c] =
            { onSale := false, price := 0, duration := 3600, rideLimit := 0, maxBikes := 1, cls := 0, headroom := 0 }) ∧
        t.van.ready = .unknown ∧ t.van.orders = [] ∧ t.van.visit = none ∧ t.van.serial = 0 ∧
        t.fault.log = [] ∧
        (let no : FaultActions := { noRelease := false, outOfService := false, quarantine := false, noCharge := false }
        t.fault.policy.toList =
          [⟨.major, 0, { no with noRelease := true }⟩, ⟨.minor, 0, no⟩, ⟨.minor, 0, no⟩,
            ⟨.minor, 0, { no with noCharge := true }⟩, ⟨.major, 0, no⟩, ⟨.minor, 0, no⟩,
            ⟨.major, 0, { no with quarantine := true }⟩, ⟨.minor, 0, no⟩,
            ⟨.major, 0, { no with quarantine := true, noCharge := true }⟩, ⟨.major, 0, { no with quarantine := true }⟩,
            ⟨.major, 0, { no with quarantine := true }⟩, ⟨.minor, 0, no⟩, ⟨.minor, 0, no⟩,
            ⟨.major, 0, { no with quarantine := true }⟩, ⟨.major, 0, { no with quarantine := true }⟩,
            ⟨.major, 0, no⟩] ++ List.replicate 32 ⟨.minor, 0, no⟩) ∧
        t.fault.nextId = 1 ∧ t.fault.discarded = 0 ∧ t.fault.notStored = 0 ∧
        (p.standbyHeld = true →
          t.journal.records = s.journal.records ∧ t.journal.next = s.journal.next ∧
            t.journal.coldStart = s.journal.coldStart ∧ t.journal.refused = Vector.replicate 10 0 ∧
            t.journal.level =
              (if 1024 - s.journal.records.length < 128 then .closed
               else if 1024 - s.journal.records.length < 256 then .restricted
               else .normal))

/-! ### Invariants -/

/-- Every command that waits is well formed. -/
abbrev Sys2Proof.Machine.State.PendingWf (s : State) : Prop := ∀ c ∈ s.pending, c.wf = true

/-- The state after reset has every property of Safety.lean: the journal empty with next sequence 1, every table, list and
queue empty, the settings at their values of table 10-6, no entry in the drop table, the flags computed and the fault log
empty. -/
def Obligations.ResetHasEveryProperty : Prop :=
  let s := State.reset
  s.PendingWf ∧ s.engA.QueueSound ∧ s.engB.QueueSound ∧ s.trunk.OutSound ∧ s.trunk.settings.Sound ∧ s.ChargingSound ∧
    s.hire.CardsSound ∧ s.hire.PassesSound ∧ s.hire.ReferralsSound ∧ s.hire.ReleasesSound ∧ s.hire.RecentSound ∧
    s.van.OrdersSound ∧ s.journal.Sound ∧ s.DropTableSound ∧ s.stock.FlagsComputed ∧ s.fault.LogSound

/-- R172, R174: every step keeps the journal a run of consecutive sequence numbers that ends one below the next sequence
number, of at most 1,024 records. -/
def Obligations.EveryStepKeepsTheJournalARun : Prop :=
  ∀ s t : State, s.PendingWf → s.journal.Sound → step s = .next t → t.journal.Sound ∧ t.PendingWf

/-- R15, R16, R188, R189: every step keeps each command queue within 24 entries, the outbound queue within 16 frames, the
answer wait list within 4, and lets an answer wait only while the outbound queue is full. -/
def Obligations.EveryStepKeepsTheQueuesWithinRoom : Prop :=
  ∀ s t : State, s.PendingWf → step s = .next t →
    (s.engA.QueueSound → t.engA.QueueSound) ∧ (s.engB.QueueSound → t.engB.QueueSound) ∧
      (s.trunk.OutSound → t.trunk.OutSound)

/-- R65, R67, R78, R83, R128: every step keeps the tables of the Hire Unit: at most 4,096 card records, one for each number,
each within its ranges; at most 256 pass records, no token held by two; at most 8 referrals, one per card; at most one
release per dock and per card or token; at most 16 recent returns. -/
def Obligations.EveryStepKeepsTheHireTables : Prop :=
  ∀ s t : State, s.PendingWf → step s = .next t →
    (s.trunk.settings.Sound → s.hire.CardsSound → t.hire.CardsSound) ∧ (s.hire.PassesSound → t.hire.PassesSound) ∧
      (s.hire.ReferralsSound → t.hire.ReferralsSound) ∧ (s.hire.ReleasesSound → t.hire.ReleasesSound) ∧
      (s.hire.RecentSound → t.hire.RecentSound)

/-- R2, R47, R55, R57, R64, R133, R155, R195: every step keeps the drop table without a position held twice, with at most 4
PAY entries and one VANPOINT; the settings in their ranges; the charging list within the charge slot limit; at most 4 pending
orders, one per id; the six stock flags as the dock records and the targets give them, computed afresh; the fault log within
64 records. -/
def Obligations.EveryStepKeepsTablesSettingsAndCharging : Prop :=
  ∀ s t : State, s.PendingWf → step s = .next t →
    (s.DropTableSound → t.DropTableSound) ∧ (s.trunk.settings.Sound → t.trunk.settings.Sound) ∧
      (s.trunk.settings.Sound → s.ChargingSound → t.ChargingSound) ∧ (s.van.OrdersSound → t.van.OrdersSound) ∧
      (s.stock.FlagsComputed → t.stock.FlagsComputed) ∧ (s.fault.LogSound → t.fault.LogSound)
end

