-- ==== Sys2Proof/Laws/Lists.lean ====
section
/-! SUPPORT. Tables by key (lists in strictly ascending order), one lemma for each thing an operation may do to them. -/

namespace Sys2Proof.Machine

open Sys2Proof

variable {α : Type} {key : α → Nat}

/-- The order of a table. -/
abbrev Rising (key : α → Nat) (l : List α) : Prop := l.Pairwise fun a b => key a < key b

/-- What stands in a table after a record was put in: the record, or one that stood there under another key. -/
theorem mem_tablePut {x y : α} {l : List α} (hl : Rising key l) (h : y ∈ tablePut key x l) :
    y = x ∨ y ∈ l ∧ key y ≠ key x := by
  induction l with
  | nil => simpa [tablePut] using h
  | cons z zs ih =>
    have hz : ∀ y ∈ zs, key z < key y := fun y hy => List.rel_of_pairwise_cons hl hy
    have hzs := List.Pairwise.of_cons hl
    unfold tablePut at h
    split at h
    · rcases List.mem_cons.1 h with h | h
      · exact .inl h
      · right
        refine ⟨h, ?_⟩
        rcases List.mem_cons.1 h with rfl | h
        · omega
        · have := hz y h
          omega
    · split at h
      · rcases List.mem_cons.1 h with h | h
        · exact .inl h
        · right
          have := hz y h
          exact ⟨List.mem_cons_of_mem _ h, by omega⟩
      · rcases List.mem_cons.1 h with rfl | h
        · right
          exact ⟨List.mem_cons_self, by omega⟩
        · rcases ih hzs h with h | ⟨h, hk⟩
          · exact .inl h
          · exact .inr ⟨List.mem_cons_of_mem _ h, hk⟩

/-- What stands in a table after a record was put in: the record, or one that stood there. -/
theorem mem_of_mem_tablePut {x y : α} {l : List α} (h : y ∈ tablePut key x l) : y = x ∨ y ∈ l := by
  induction l with
  | nil => simpa [tablePut] using h
  | cons z zs ih =>
    unfold tablePut at h
    split at h
    · simpa using h
    · split at h
      · rcases List.mem_cons.1 h with h | h
        · exact .inl h
        · exact .inr (List.mem_cons_of_mem _ h)
      · rcases List.mem_cons.1 h with h | h
        · exact .inr (by rw [h]; exact List.mem_cons_self)
        · rcases ih h with h | h
          · exact .inl h
          · exact .inr (List.mem_cons_of_mem _ h)

/-- A record that was put in stands in the table. -/
theorem self_mem_tablePut (x : α) (l : List α) : x ∈ tablePut key x l := by
  induction l with
  | nil => simp [tablePut]
  | cons z zs ih =>
    unfold tablePut
    split
    · simp
    · split
      · simp
      · exact List.mem_cons_of_mem _ ih

/-- A record of another key stays when one is put in. -/
theorem mem_tablePut_of_mem {x y : α} {l : List α} (h : y ∈ l) (hk : key y ≠ key x) : y ∈ tablePut key x l := by
  induction l with
  | nil => simp at h
  | cons z zs ih =>
    unfold tablePut
    split
    · exact List.mem_cons_of_mem _ h
    · split
      · rename_i h1 h2
        rcases List.mem_cons.1 h with rfl | h
        · exact absurd h2.symm hk
        · exact List.mem_cons_of_mem _ h
      · rcases List.mem_cons.1 h with rfl | h
        · exact List.mem_cons_self
        · exact List.mem_cons_of_mem _ (ih h)

/-- The order of a table is kept when a record is put in. -/
theorem rising_tablePut {x : α} {l : List α} (hl : Rising key l) : Rising key (tablePut key x l) := by
  induction l with
  | nil => simp [tablePut, Rising]
  | cons z zs ih =>
    have hz : ∀ y ∈ zs, key z < key y := fun y hy => List.rel_of_pairwise_cons hl hy
    have hzs := List.Pairwise.of_cons hl
    unfold tablePut
    split
    · rename_i h
      refine List.pairwise_cons.2 ⟨fun y hy => ?_, hl⟩
      rcases List.mem_cons.1 hy with rfl | hy
      · exact h
      · exact lt_trans h (hz y hy)
    · split
      · rename_i h
        exact List.pairwise_cons.2 ⟨fun y hy => h ▸ hz y hy, hzs⟩
      · rename_i h1 h2
        refine List.pairwise_cons.2 ⟨fun y hy => ?_, ih hzs⟩
        rcases mem_tablePut hzs hy with rfl | ⟨hy, -⟩
        · omega
        · exact hz y hy

/-- A table grows by at most one record when one is put in. -/
theorem length_tablePut_le (x : α) (l : List α) : (tablePut key x l).length ≤ l.length + 1 := by
  induction l with
  | nil => simp [tablePut]
  | cons z zs ih =>
    unfold tablePut
    split
    · simp
    · split
      · simp
      · simpa using ih

/-- A table in which a record of the key stands does not grow. -/
theorem length_tablePut_of_mem {x y : α} {l : List α} (hl : Rising key l) (h : y ∈ l) (hk : key y = key x) :
    (tablePut key x l).length = l.length := by
  induction l with
  | nil => simp at h
  | cons z zs ih =>
    have hz : ∀ y ∈ zs, key z < key y := fun y hy => List.rel_of_pairwise_cons hl hy
    unfold tablePut
    split
    · rename_i h1
      rcases List.mem_cons.1 h with rfl | h
      · omega
      · have := hz y h
        omega
    · split
      · simp
      · rename_i h1 h2
        rcases List.mem_cons.1 h with rfl | h
        · exact absurd hk.symm h2
        · simpa using ih (List.Pairwise.of_cons hl) h

/-- The record found under a key stands in the table, under that key. -/
theorem tableFind_some {n : Nat} {l : List α} {x : α} (h : tableFind key n l = some x) : x ∈ l ∧ key x = n := by
  refine ⟨List.mem_of_find?_eq_some h, ?_⟩
  have := List.find?_some h
  simpa using this

/-- What stands in a table after the record of a key was removed. -/
theorem mem_tableErase {n : Nat} {l : List α} {x : α} : x ∈ tableErase key n l ↔ x ∈ l ∧ key x ≠ n := by
  simp [tableErase]

/-- The order of a table is kept when a record is removed. -/
theorem rising_tableErase {n : Nat} {l : List α} (hl : Rising key l) : Rising key (tableErase key n l) :=
  List.Pairwise.filter _ hl

/-- A table does not grow when a record is removed. -/
theorem length_tableErase_le (n : Nat) (l : List α) : (tableErase key n l).length ≤ l.length :=
  List.length_filter_le _ _

/-- A table in which a record of the key stands loses one when it is removed. -/
theorem length_tableErase_lt {n : Nat} {l : List α} {x : α} (h : x ∈ l) (hk : key x = n) :
    (tableErase key n l).length < l.length := by
  unfold tableErase
  exact List.length_filter_lt_length_iff_exists.2 ⟨x, h, by simp [hk]⟩

/-- One element fewer: the last that meets a test, where one does. -/
theorem length_removeLast {q : α → Bool} {l : List α} {x : α} (h : x ∈ l) (hq : q x = true) :
    (removeLast q l).length + 1 = l.length := by
  unfold removeLast
  have : x ∈ l.reverse := by simpa using h
  have h1 := List.length_eraseP_of_mem this hq
  have h2 : 0 < l.length := List.length_pos_of_mem h
  simp only [List.length_reverse] at *
  omega

/-- Every element left was there before. -/
theorem mem_of_mem_removeLast {q : α → Bool} {l : List α} {x : α} (h : x ∈ removeLast q l) : x ∈ l := by
  unfold removeLast at h
  have := List.mem_of_mem_eraseP (List.mem_reverse.1 h)
  simpa using this

end Sys2Proof.Machine
end

