-- ==== Sys2Proof/Laws/State.lean ====
section
/-! SUPPORT. Each update of State read back field by field, true by rfl. -/

namespace Sys2Proof.Machine

open Sys2Proof

/-! ### setDock -/

@[simp] theorem State.setDock_engA (s : State) (p : DockPos) (d : DockRec) :
    (s.setDock p d).engA = s.engA := rfl

@[simp] theorem State.setDock_engB (s : State) (p : DockPos) (d : DockRec) :
    (s.setDock p d).engB = s.engB := rfl

@[simp] theorem State.setDock_classifier (s : State) (p : DockPos) (d : DockRec) :
    (s.setDock p d).classifier = s.classifier := rfl

@[simp] theorem State.setDock_stock (s : State) (p : DockPos) (d : DockRec) :
    (s.setDock p d).stock = { s.stock with docks := s.stock.docks.set p d } := rfl

@[simp] theorem State.setDock_hire (s : State) (p : DockPos) (d : DockRec) :
    (s.setDock p d).hire = s.hire := rfl

@[simp] theorem State.setDock_sale (s : State) (p : DockPos) (d : DockRec) :
    (s.setDock p d).sale = s.sale := rfl

@[simp] theorem State.setDock_van (s : State) (p : DockPos) (d : DockRec) :
    (s.setDock p d).van = s.van := rfl

@[simp] theorem State.setDock_fault (s : State) (p : DockPos) (d : DockRec) :
    (s.setDock p d).fault = s.fault := rfl

@[simp] theorem State.setDock_journal (s : State) (p : DockPos) (d : DockRec) :
    (s.setDock p d).journal = s.journal := rfl

@[simp] theorem State.setDock_trunk (s : State) (p : DockPos) (d : DockRec) :
    (s.setDock p d).trunk = s.trunk := rfl

@[simp] theorem State.setDock_elapsed (s : State) (p : DockPos) (d : DockRec) :
    (s.setDock p d).elapsed = s.elapsed := rfl

@[simp] theorem State.setDock_deferred (s : State) (p : DockPos) (d : DockRec) :
    (s.setDock p d).deferred = s.deferred := rfl

@[simp] theorem State.setDock_pending (s : State) (p : DockPos) (d : DockRec) :
    (s.setDock p d).pending = s.pending := rfl

/-! ### modDock -/

@[simp] theorem State.modDock_engA (s : State) (p : DockPos) (f : DockRec → DockRec) :
    (s.modDock p f).engA = s.engA := rfl

@[simp] theorem State.modDock_engB (s : State) (p : DockPos) (f : DockRec → DockRec) :
    (s.modDock p f).engB = s.engB := rfl

@[simp] theorem State.modDock_classifier (s : State) (p : DockPos) (f : DockRec → DockRec) :
    (s.modDock p f).classifier = s.classifier := rfl

@[simp] theorem State.modDock_stock (s : State) (p : DockPos) (f : DockRec → DockRec) :
    (s.modDock p f).stock = { s.stock with docks := s.stock.docks.set p (f (s.dock p)) } := rfl

@[simp] theorem State.modDock_hire (s : State) (p : DockPos) (f : DockRec → DockRec) :
    (s.modDock p f).hire = s.hire := rfl

@[simp] theorem State.modDock_sale (s : State) (p : DockPos) (f : DockRec → DockRec) :
    (s.modDock p f).sale = s.sale := rfl

@[simp] theorem State.modDock_van (s : State) (p : DockPos) (f : DockRec → DockRec) :
    (s.modDock p f).van = s.van := rfl

@[simp] theorem State.modDock_fault (s : State) (p : DockPos) (f : DockRec → DockRec) :
    (s.modDock p f).fault = s.fault := rfl

@[simp] theorem State.modDock_journal (s : State) (p : DockPos) (f : DockRec → DockRec) :
    (s.modDock p f).journal = s.journal := rfl

@[simp] theorem State.modDock_trunk (s : State) (p : DockPos) (f : DockRec → DockRec) :
    (s.modDock p f).trunk = s.trunk := rfl

@[simp] theorem State.modDock_elapsed (s : State) (p : DockPos) (f : DockRec → DockRec) :
    (s.modDock p f).elapsed = s.elapsed := rfl

@[simp] theorem State.modDock_deferred (s : State) (p : DockPos) (f : DockRec → DockRec) :
    (s.modDock p f).deferred = s.deferred := rfl

@[simp] theorem State.modDock_pending (s : State) (p : DockPos) (f : DockRec → DockRec) :
    (s.modDock p f).pending = s.pending := rfl

/-! ### modStock -/

@[simp] theorem State.modStock_engA (s : State) (f : Stock → Stock) :
    (s.modStock f).engA = s.engA := rfl

@[simp] theorem State.modStock_engB (s : State) (f : Stock → Stock) :
    (s.modStock f).engB = s.engB := rfl

@[simp] theorem State.modStock_classifier (s : State) (f : Stock → Stock) :
    (s.modStock f).classifier = s.classifier := rfl

@[simp] theorem State.modStock_stock (s : State) (f : Stock → Stock) :
    (s.modStock f).stock = f s.stock := rfl

@[simp] theorem State.modStock_hire (s : State) (f : Stock → Stock) :
    (s.modStock f).hire = s.hire := rfl

@[simp] theorem State.modStock_sale (s : State) (f : Stock → Stock) :
    (s.modStock f).sale = s.sale := rfl

@[simp] theorem State.modStock_van (s : State) (f : Stock → Stock) :
    (s.modStock f).van = s.van := rfl

@[simp] theorem State.modStock_fault (s : State) (f : Stock → Stock) :
    (s.modStock f).fault = s.fault := rfl

@[simp] theorem State.modStock_journal (s : State) (f : Stock → Stock) :
    (s.modStock f).journal = s.journal := rfl

@[simp] theorem State.modStock_trunk (s : State) (f : Stock → Stock) :
    (s.modStock f).trunk = s.trunk := rfl

@[simp] theorem State.modStock_elapsed (s : State) (f : Stock → Stock) :
    (s.modStock f).elapsed = s.elapsed := rfl

@[simp] theorem State.modStock_deferred (s : State) (f : Stock → Stock) :
    (s.modStock f).deferred = s.deferred := rfl

@[simp] theorem State.modStock_pending (s : State) (f : Stock → Stock) :
    (s.modStock f).pending = s.pending := rfl

/-! ### modHire -/

@[simp] theorem State.modHire_engA (s : State) (f : Hire → Hire) :
    (s.modHire f).engA = s.engA := rfl

@[simp] theorem State.modHire_engB (s : State) (f : Hire → Hire) :
    (s.modHire f).engB = s.engB := rfl

@[simp] theorem State.modHire_classifier (s : State) (f : Hire → Hire) :
    (s.modHire f).classifier = s.classifier := rfl

@[simp] theorem State.modHire_stock (s : State) (f : Hire → Hire) :
    (s.modHire f).stock = s.stock := rfl

@[simp] theorem State.modHire_hire (s : State) (f : Hire → Hire) :
    (s.modHire f).hire = f s.hire := rfl

@[simp] theorem State.modHire_sale (s : State) (f : Hire → Hire) :
    (s.modHire f).sale = s.sale := rfl

@[simp] theorem State.modHire_van (s : State) (f : Hire → Hire) :
    (s.modHire f).van = s.van := rfl

@[simp] theorem State.modHire_fault (s : State) (f : Hire → Hire) :
    (s.modHire f).fault = s.fault := rfl

@[simp] theorem State.modHire_journal (s : State) (f : Hire → Hire) :
    (s.modHire f).journal = s.journal := rfl

@[simp] theorem State.modHire_trunk (s : State) (f : Hire → Hire) :
    (s.modHire f).trunk = s.trunk := rfl

@[simp] theorem State.modHire_elapsed (s : State) (f : Hire → Hire) :
    (s.modHire f).elapsed = s.elapsed := rfl

@[simp] theorem State.modHire_deferred (s : State) (f : Hire → Hire) :
    (s.modHire f).deferred = s.deferred := rfl

@[simp] theorem State.modHire_pending (s : State) (f : Hire → Hire) :
    (s.modHire f).pending = s.pending := rfl

/-! ### putCard -/

@[simp] theorem State.putCard_engA (s : State) (c : CardRec) :
    (s.putCard c).engA = s.engA := rfl

@[simp] theorem State.putCard_engB (s : State) (c : CardRec) :
    (s.putCard c).engB = s.engB := rfl

@[simp] theorem State.putCard_classifier (s : State) (c : CardRec) :
    (s.putCard c).classifier = s.classifier := rfl

@[simp] theorem State.putCard_stock (s : State) (c : CardRec) :
    (s.putCard c).stock = s.stock := rfl

@[simp] theorem State.putCard_hire (s : State) (c : CardRec) :
    (s.putCard c).hire = { s.hire with cards := tablePut CardRec.number c s.hire.cards } := rfl

@[simp] theorem State.putCard_sale (s : State) (c : CardRec) :
    (s.putCard c).sale = s.sale := rfl

@[simp] theorem State.putCard_van (s : State) (c : CardRec) :
    (s.putCard c).van = s.van := rfl

@[simp] theorem State.putCard_fault (s : State) (c : CardRec) :
    (s.putCard c).fault = s.fault := rfl

@[simp] theorem State.putCard_journal (s : State) (c : CardRec) :
    (s.putCard c).journal = s.journal := rfl

@[simp] theorem State.putCard_trunk (s : State) (c : CardRec) :
    (s.putCard c).trunk = s.trunk := rfl

@[simp] theorem State.putCard_elapsed (s : State) (c : CardRec) :
    (s.putCard c).elapsed = s.elapsed := rfl

@[simp] theorem State.putCard_deferred (s : State) (c : CardRec) :
    (s.putCard c).deferred = s.deferred := rfl

@[simp] theorem State.putCard_pending (s : State) (c : CardRec) :
    (s.putCard c).pending = s.pending := rfl

/-! ### putPass -/

@[simp] theorem State.putPass_engA (s : State) (c : PassRec) :
    (s.putPass c).engA = s.engA := rfl

@[simp] theorem State.putPass_engB (s : State) (c : PassRec) :
    (s.putPass c).engB = s.engB := rfl

@[simp] theorem State.putPass_classifier (s : State) (c : PassRec) :
    (s.putPass c).classifier = s.classifier := rfl

@[simp] theorem State.putPass_stock (s : State) (c : PassRec) :
    (s.putPass c).stock = s.stock := rfl

@[simp] theorem State.putPass_hire (s : State) (c : PassRec) :
    (s.putPass c).hire = { s.hire with passes := tablePut PassRec.slot c s.hire.passes } := rfl

@[simp] theorem State.putPass_sale (s : State) (c : PassRec) :
    (s.putPass c).sale = s.sale := rfl

@[simp] theorem State.putPass_van (s : State) (c : PassRec) :
    (s.putPass c).van = s.van := rfl

@[simp] theorem State.putPass_fault (s : State) (c : PassRec) :
    (s.putPass c).fault = s.fault := rfl

@[simp] theorem State.putPass_journal (s : State) (c : PassRec) :
    (s.putPass c).journal = s.journal := rfl

@[simp] theorem State.putPass_trunk (s : State) (c : PassRec) :
    (s.putPass c).trunk = s.trunk := rfl

@[simp] theorem State.putPass_elapsed (s : State) (c : PassRec) :
    (s.putPass c).elapsed = s.elapsed := rfl

@[simp] theorem State.putPass_deferred (s : State) (c : PassRec) :
    (s.putPass c).deferred = s.deferred := rfl

@[simp] theorem State.putPass_pending (s : State) (c : PassRec) :
    (s.putPass c).pending = s.pending := rfl

/-! ### erasePass -/

@[simp] theorem State.erasePass_engA (s : State) (n : Nat) :
    (s.erasePass n).engA = s.engA := rfl

@[simp] theorem State.erasePass_engB (s : State) (n : Nat) :
    (s.erasePass n).engB = s.engB := rfl

@[simp] theorem State.erasePass_classifier (s : State) (n : Nat) :
    (s.erasePass n).classifier = s.classifier := rfl

@[simp] theorem State.erasePass_stock (s : State) (n : Nat) :
    (s.erasePass n).stock = s.stock := rfl

@[simp] theorem State.erasePass_hire (s : State) (n : Nat) :
    (s.erasePass n).hire = { s.hire with passes := tableErase PassRec.slot n s.hire.passes } := rfl

@[simp] theorem State.erasePass_sale (s : State) (n : Nat) :
    (s.erasePass n).sale = s.sale := rfl

@[simp] theorem State.erasePass_van (s : State) (n : Nat) :
    (s.erasePass n).van = s.van := rfl

@[simp] theorem State.erasePass_fault (s : State) (n : Nat) :
    (s.erasePass n).fault = s.fault := rfl

@[simp] theorem State.erasePass_journal (s : State) (n : Nat) :
    (s.erasePass n).journal = s.journal := rfl

@[simp] theorem State.erasePass_trunk (s : State) (n : Nat) :
    (s.erasePass n).trunk = s.trunk := rfl

@[simp] theorem State.erasePass_elapsed (s : State) (n : Nat) :
    (s.erasePass n).elapsed = s.elapsed := rfl

@[simp] theorem State.erasePass_deferred (s : State) (n : Nat) :
    (s.erasePass n).deferred = s.deferred := rfl

@[simp] theorem State.erasePass_pending (s : State) (n : Nat) :
    (s.erasePass n).pending = s.pending := rfl

/-! ### putRelease -/

@[simp] theorem State.putRelease_engA (s : State) (r : Release) :
    (s.putRelease r).engA = s.engA := rfl

@[simp] theorem State.putRelease_engB (s : State) (r : Release) :
    (s.putRelease r).engB = s.engB := rfl

@[simp] theorem State.putRelease_classifier (s : State) (r : Release) :
    (s.putRelease r).classifier = s.classifier := rfl

@[simp] theorem State.putRelease_stock (s : State) (r : Release) :
    (s.putRelease r).stock = s.stock := rfl

@[simp] theorem State.putRelease_hire (s : State) (r : Release) :
    (s.putRelease r).hire = { s.hire with releases := tablePut (fun r => r.pos.val) r s.hire.releases } := rfl

@[simp] theorem State.putRelease_sale (s : State) (r : Release) :
    (s.putRelease r).sale = s.sale := rfl

@[simp] theorem State.putRelease_van (s : State) (r : Release) :
    (s.putRelease r).van = s.van := rfl

@[simp] theorem State.putRelease_fault (s : State) (r : Release) :
    (s.putRelease r).fault = s.fault := rfl

@[simp] theorem State.putRelease_journal (s : State) (r : Release) :
    (s.putRelease r).journal = s.journal := rfl

@[simp] theorem State.putRelease_trunk (s : State) (r : Release) :
    (s.putRelease r).trunk = s.trunk := rfl

@[simp] theorem State.putRelease_elapsed (s : State) (r : Release) :
    (s.putRelease r).elapsed = s.elapsed := rfl

@[simp] theorem State.putRelease_deferred (s : State) (r : Release) :
    (s.putRelease r).deferred = s.deferred := rfl

@[simp] theorem State.putRelease_pending (s : State) (r : Release) :
    (s.putRelease r).pending = s.pending := rfl

/-! ### eraseRelease -/

@[simp] theorem State.eraseRelease_engA (s : State) (p : DockPos) :
    (s.eraseRelease p).engA = s.engA := rfl

@[simp] theorem State.eraseRelease_engB (s : State) (p : DockPos) :
    (s.eraseRelease p).engB = s.engB := rfl

@[simp] theorem State.eraseRelease_classifier (s : State) (p : DockPos) :
    (s.eraseRelease p).classifier = s.classifier := rfl

@[simp] theorem State.eraseRelease_stock (s : State) (p : DockPos) :
    (s.eraseRelease p).stock = s.stock := rfl

@[simp] theorem State.eraseRelease_hire (s : State) (p : DockPos) :
    (s.eraseRelease p).hire = { s.hire with releases := tableErase (fun r => r.pos.val) p.val s.hire.releases } := rfl

@[simp] theorem State.eraseRelease_sale (s : State) (p : DockPos) :
    (s.eraseRelease p).sale = s.sale := rfl

@[simp] theorem State.eraseRelease_van (s : State) (p : DockPos) :
    (s.eraseRelease p).van = s.van := rfl

@[simp] theorem State.eraseRelease_fault (s : State) (p : DockPos) :
    (s.eraseRelease p).fault = s.fault := rfl

@[simp] theorem State.eraseRelease_journal (s : State) (p : DockPos) :
    (s.eraseRelease p).journal = s.journal := rfl

@[simp] theorem State.eraseRelease_trunk (s : State) (p : DockPos) :
    (s.eraseRelease p).trunk = s.trunk := rfl

@[simp] theorem State.eraseRelease_elapsed (s : State) (p : DockPos) :
    (s.eraseRelease p).elapsed = s.elapsed := rfl

@[simp] theorem State.eraseRelease_deferred (s : State) (p : DockPos) :
    (s.eraseRelease p).deferred = s.deferred := rfl

@[simp] theorem State.eraseRelease_pending (s : State) (p : DockPos) :
    (s.eraseRelease p).pending = s.pending := rfl

/-! ### putSale -/

@[simp] theorem State.putSale_engA (s : State) (r : SaleRec) :
    (s.putSale r).engA = s.engA := rfl

@[simp] theorem State.putSale_engB (s : State) (r : SaleRec) :
    (s.putSale r).engB = s.engB := rfl

@[simp] theorem State.putSale_classifier (s : State) (r : SaleRec) :
    (s.putSale r).classifier = s.classifier := rfl

@[simp] theorem State.putSale_stock (s : State) (r : SaleRec) :
    (s.putSale r).stock = s.stock := rfl

@[simp] theorem State.putSale_hire (s : State) (r : SaleRec) :
    (s.putSale r).hire = s.hire := rfl

@[simp] theorem State.putSale_sale (s : State) (r : SaleRec) :
    (s.putSale r).sale = { s.sale with sales := tablePut (fun r => dropKey r.terminal) r s.sale.sales } := rfl

@[simp] theorem State.putSale_van (s : State) (r : SaleRec) :
    (s.putSale r).van = s.van := rfl

@[simp] theorem State.putSale_fault (s : State) (r : SaleRec) :
    (s.putSale r).fault = s.fault := rfl

@[simp] theorem State.putSale_journal (s : State) (r : SaleRec) :
    (s.putSale r).journal = s.journal := rfl

@[simp] theorem State.putSale_trunk (s : State) (r : SaleRec) :
    (s.putSale r).trunk = s.trunk := rfl

@[simp] theorem State.putSale_elapsed (s : State) (r : SaleRec) :
    (s.putSale r).elapsed = s.elapsed := rfl

@[simp] theorem State.putSale_deferred (s : State) (r : SaleRec) :
    (s.putSale r).deferred = s.deferred := rfl

@[simp] theorem State.putSale_pending (s : State) (r : SaleRec) :
    (s.putSale r).pending = s.pending := rfl

/-! ### modVan -/

@[simp] theorem State.modVan_engA (s : State) (f : Van → Van) :
    (s.modVan f).engA = s.engA := rfl

@[simp] theorem State.modVan_engB (s : State) (f : Van → Van) :
    (s.modVan f).engB = s.engB := rfl

@[simp] theorem State.modVan_classifier (s : State) (f : Van → Van) :
    (s.modVan f).classifier = s.classifier := rfl

@[simp] theorem State.modVan_stock (s : State) (f : Van → Van) :
    (s.modVan f).stock = s.stock := rfl

@[simp] theorem State.modVan_hire (s : State) (f : Van → Van) :
    (s.modVan f).hire = s.hire := rfl

@[simp] theorem State.modVan_sale (s : State) (f : Van → Van) :
    (s.modVan f).sale = s.sale := rfl

@[simp] theorem State.modVan_van (s : State) (f : Van → Van) :
    (s.modVan f).van = f s.van := rfl

@[simp] theorem State.modVan_fault (s : State) (f : Van → Van) :
    (s.modVan f).fault = s.fault := rfl

@[simp] theorem State.modVan_journal (s : State) (f : Van → Van) :
    (s.modVan f).journal = s.journal := rfl

@[simp] theorem State.modVan_trunk (s : State) (f : Van → Van) :
    (s.modVan f).trunk = s.trunk := rfl

@[simp] theorem State.modVan_elapsed (s : State) (f : Van → Van) :
    (s.modVan f).elapsed = s.elapsed := rfl

@[simp] theorem State.modVan_deferred (s : State) (f : Van → Van) :
    (s.modVan f).deferred = s.deferred := rfl

@[simp] theorem State.modVan_pending (s : State) (f : Van → Van) :
    (s.modVan f).pending = s.pending := rfl

/-! ### setVisit -/

@[simp] theorem State.setVisit_engA (s : State) (v : Option Visit) :
    (s.setVisit v).engA = s.engA := rfl

@[simp] theorem State.setVisit_engB (s : State) (v : Option Visit) :
    (s.setVisit v).engB = s.engB := rfl

@[simp] theorem State.setVisit_classifier (s : State) (v : Option Visit) :
    (s.setVisit v).classifier = s.classifier := rfl

@[simp] theorem State.setVisit_stock (s : State) (v : Option Visit) :
    (s.setVisit v).stock = s.stock := rfl

@[simp] theorem State.setVisit_hire (s : State) (v : Option Visit) :
    (s.setVisit v).hire = s.hire := rfl

@[simp] theorem State.setVisit_sale (s : State) (v : Option Visit) :
    (s.setVisit v).sale = s.sale := rfl

@[simp] theorem State.setVisit_van (s : State) (v : Option Visit) :
    (s.setVisit v).van = { s.van with visit := v } := rfl

@[simp] theorem State.setVisit_fault (s : State) (v : Option Visit) :
    (s.setVisit v).fault = s.fault := rfl

@[simp] theorem State.setVisit_journal (s : State) (v : Option Visit) :
    (s.setVisit v).journal = s.journal := rfl

@[simp] theorem State.setVisit_trunk (s : State) (v : Option Visit) :
    (s.setVisit v).trunk = s.trunk := rfl

@[simp] theorem State.setVisit_elapsed (s : State) (v : Option Visit) :
    (s.setVisit v).elapsed = s.elapsed := rfl

@[simp] theorem State.setVisit_deferred (s : State) (v : Option Visit) :
    (s.setVisit v).deferred = s.deferred := rfl

@[simp] theorem State.setVisit_pending (s : State) (v : Option Visit) :
    (s.setVisit v).pending = s.pending := rfl

/-! ### modVisit -/

@[simp] theorem State.modVisit_engA (s : State) (f : Visit → Visit) :
    (s.modVisit f).engA = s.engA := rfl

@[simp] theorem State.modVisit_engB (s : State) (f : Visit → Visit) :
    (s.modVisit f).engB = s.engB := rfl

@[simp] theorem State.modVisit_classifier (s : State) (f : Visit → Visit) :
    (s.modVisit f).classifier = s.classifier := rfl

@[simp] theorem State.modVisit_stock (s : State) (f : Visit → Visit) :
    (s.modVisit f).stock = s.stock := rfl

@[simp] theorem State.modVisit_hire (s : State) (f : Visit → Visit) :
    (s.modVisit f).hire = s.hire := rfl

@[simp] theorem State.modVisit_sale (s : State) (f : Visit → Visit) :
    (s.modVisit f).sale = s.sale := rfl

@[simp] theorem State.modVisit_van (s : State) (f : Visit → Visit) :
    (s.modVisit f).van = { s.van with visit := s.van.visit.map f } := rfl

@[simp] theorem State.modVisit_fault (s : State) (f : Visit → Visit) :
    (s.modVisit f).fault = s.fault := rfl

@[simp] theorem State.modVisit_journal (s : State) (f : Visit → Visit) :
    (s.modVisit f).journal = s.journal := rfl

@[simp] theorem State.modVisit_trunk (s : State) (f : Visit → Visit) :
    (s.modVisit f).trunk = s.trunk := rfl

@[simp] theorem State.modVisit_elapsed (s : State) (f : Visit → Visit) :
    (s.modVisit f).elapsed = s.elapsed := rfl

@[simp] theorem State.modVisit_deferred (s : State) (f : Visit → Visit) :
    (s.modVisit f).deferred = s.deferred := rfl

@[simp] theorem State.modVisit_pending (s : State) (f : Visit → Visit) :
    (s.modVisit f).pending = s.pending := rfl

/-! ### modFault -/

@[simp] theorem State.modFault_engA (s : State) (f : FaultUnit → FaultUnit) :
    (s.modFault f).engA = s.engA := rfl

@[simp] theorem State.modFault_engB (s : State) (f : FaultUnit → FaultUnit) :
    (s.modFault f).engB = s.engB := rfl

@[simp] theorem State.modFault_classifier (s : State) (f : FaultUnit → FaultUnit) :
    (s.modFault f).classifier = s.classifier := rfl

@[simp] theorem State.modFault_stock (s : State) (f : FaultUnit → FaultUnit) :
    (s.modFault f).stock = s.stock := rfl

@[simp] theorem State.modFault_hire (s : State) (f : FaultUnit → FaultUnit) :
    (s.modFault f).hire = s.hire := rfl

@[simp] theorem State.modFault_sale (s : State) (f : FaultUnit → FaultUnit) :
    (s.modFault f).sale = s.sale := rfl

@[simp] theorem State.modFault_van (s : State) (f : FaultUnit → FaultUnit) :
    (s.modFault f).van = s.van := rfl

@[simp] theorem State.modFault_fault (s : State) (f : FaultUnit → FaultUnit) :
    (s.modFault f).fault = f s.fault := rfl

@[simp] theorem State.modFault_journal (s : State) (f : FaultUnit → FaultUnit) :
    (s.modFault f).journal = s.journal := rfl

@[simp] theorem State.modFault_trunk (s : State) (f : FaultUnit → FaultUnit) :
    (s.modFault f).trunk = s.trunk := rfl

@[simp] theorem State.modFault_elapsed (s : State) (f : FaultUnit → FaultUnit) :
    (s.modFault f).elapsed = s.elapsed := rfl

@[simp] theorem State.modFault_deferred (s : State) (f : FaultUnit → FaultUnit) :
    (s.modFault f).deferred = s.deferred := rfl

@[simp] theorem State.modFault_pending (s : State) (f : FaultUnit → FaultUnit) :
    (s.modFault f).pending = s.pending := rfl

/-! ### setJournal -/

@[simp] theorem State.setJournal_engA (s : State) (j : Journal) :
    (s.setJournal j).engA = s.engA := rfl

@[simp] theorem State.setJournal_engB (s : State) (j : Journal) :
    (s.setJournal j).engB = s.engB := rfl

@[simp] theorem State.setJournal_classifier (s : State) (j : Journal) :
    (s.setJournal j).classifier = s.classifier := rfl

@[simp] theorem State.setJournal_stock (s : State) (j : Journal) :
    (s.setJournal j).stock = s.stock := rfl

@[simp] theorem State.setJournal_hire (s : State) (j : Journal) :
    (s.setJournal j).hire = s.hire := rfl

@[simp] theorem State.setJournal_sale (s : State) (j : Journal) :
    (s.setJournal j).sale = s.sale := rfl

@[simp] theorem State.setJournal_van (s : State) (j : Journal) :
    (s.setJournal j).van = s.van := rfl

@[simp] theorem State.setJournal_fault (s : State) (j : Journal) :
    (s.setJournal j).fault = s.fault := rfl

@[simp] theorem State.setJournal_journal (s : State) (j : Journal) :
    (s.setJournal j).journal = j := rfl

@[simp] theorem State.setJournal_trunk (s : State) (j : Journal) :
    (s.setJournal j).trunk = s.trunk := rfl

@[simp] theorem State.setJournal_elapsed (s : State) (j : Journal) :
    (s.setJournal j).elapsed = s.elapsed := rfl

@[simp] theorem State.setJournal_deferred (s : State) (j : Journal) :
    (s.setJournal j).deferred = s.deferred := rfl

@[simp] theorem State.setJournal_pending (s : State) (j : Journal) :
    (s.setJournal j).pending = s.pending := rfl

/-! ### modTrunk -/

@[simp] theorem State.modTrunk_engA (s : State) (f : Trunk → Trunk) :
    (s.modTrunk f).engA = s.engA := rfl

@[simp] theorem State.modTrunk_engB (s : State) (f : Trunk → Trunk) :
    (s.modTrunk f).engB = s.engB := rfl

@[simp] theorem State.modTrunk_classifier (s : State) (f : Trunk → Trunk) :
    (s.modTrunk f).classifier = s.classifier := rfl

@[simp] theorem State.modTrunk_stock (s : State) (f : Trunk → Trunk) :
    (s.modTrunk f).stock = s.stock := rfl

@[simp] theorem State.modTrunk_hire (s : State) (f : Trunk → Trunk) :
    (s.modTrunk f).hire = s.hire := rfl

@[simp] theorem State.modTrunk_sale (s : State) (f : Trunk → Trunk) :
    (s.modTrunk f).sale = s.sale := rfl

@[simp] theorem State.modTrunk_van (s : State) (f : Trunk → Trunk) :
    (s.modTrunk f).van = s.van := rfl

@[simp] theorem State.modTrunk_fault (s : State) (f : Trunk → Trunk) :
    (s.modTrunk f).fault = s.fault := rfl

@[simp] theorem State.modTrunk_journal (s : State) (f : Trunk → Trunk) :
    (s.modTrunk f).journal = s.journal := rfl

@[simp] theorem State.modTrunk_trunk (s : State) (f : Trunk → Trunk) :
    (s.modTrunk f).trunk = f s.trunk := rfl

@[simp] theorem State.modTrunk_elapsed (s : State) (f : Trunk → Trunk) :
    (s.modTrunk f).elapsed = s.elapsed := rfl

@[simp] theorem State.modTrunk_deferred (s : State) (f : Trunk → Trunk) :
    (s.modTrunk f).deferred = s.deferred := rfl

@[simp] theorem State.modTrunk_pending (s : State) (f : Trunk → Trunk) :
    (s.modTrunk f).pending = s.pending := rfl

/-! ### modCounts -/

@[simp] theorem State.modCounts_engA (s : State) (f : RxCounts → RxCounts) :
    (s.modCounts f).engA = s.engA := rfl

@[simp] theorem State.modCounts_engB (s : State) (f : RxCounts → RxCounts) :
    (s.modCounts f).engB = s.engB := rfl

@[simp] theorem State.modCounts_classifier (s : State) (f : RxCounts → RxCounts) :
    (s.modCounts f).classifier = s.classifier := rfl

@[simp] theorem State.modCounts_stock (s : State) (f : RxCounts → RxCounts) :
    (s.modCounts f).stock = s.stock := rfl

@[simp] theorem State.modCounts_hire (s : State) (f : RxCounts → RxCounts) :
    (s.modCounts f).hire = s.hire := rfl

@[simp] theorem State.modCounts_sale (s : State) (f : RxCounts → RxCounts) :
    (s.modCounts f).sale = s.sale := rfl

@[simp] theorem State.modCounts_van (s : State) (f : RxCounts → RxCounts) :
    (s.modCounts f).van = s.van := rfl

@[simp] theorem State.modCounts_fault (s : State) (f : RxCounts → RxCounts) :
    (s.modCounts f).fault = s.fault := rfl

@[simp] theorem State.modCounts_journal (s : State) (f : RxCounts → RxCounts) :
    (s.modCounts f).journal = s.journal := rfl

@[simp] theorem State.modCounts_trunk (s : State) (f : RxCounts → RxCounts) :
    (s.modCounts f).trunk = { s.trunk with counts := f s.trunk.counts } := rfl

@[simp] theorem State.modCounts_elapsed (s : State) (f : RxCounts → RxCounts) :
    (s.modCounts f).elapsed = s.elapsed := rfl

@[simp] theorem State.modCounts_deferred (s : State) (f : RxCounts → RxCounts) :
    (s.modCounts f).deferred = s.deferred := rfl

@[simp] theorem State.modCounts_pending (s : State) (f : RxCounts → RxCounts) :
    (s.modCounts f).pending = s.pending := rfl

/-! ### offer -/

@[simp] theorem State.offer_engA (s : State) (f : OutFrame) :
    (s.offer f).engA = s.engA := rfl

@[simp] theorem State.offer_engB (s : State) (f : OutFrame) :
    (s.offer f).engB = s.engB := rfl

@[simp] theorem State.offer_classifier (s : State) (f : OutFrame) :
    (s.offer f).classifier = s.classifier := rfl

@[simp] theorem State.offer_stock (s : State) (f : OutFrame) :
    (s.offer f).stock = s.stock := rfl

@[simp] theorem State.offer_hire (s : State) (f : OutFrame) :
    (s.offer f).hire = s.hire := rfl

@[simp] theorem State.offer_sale (s : State) (f : OutFrame) :
    (s.offer f).sale = s.sale := rfl

@[simp] theorem State.offer_van (s : State) (f : OutFrame) :
    (s.offer f).van = s.van := rfl

@[simp] theorem State.offer_fault (s : State) (f : OutFrame) :
    (s.offer f).fault = s.fault := rfl

@[simp] theorem State.offer_journal (s : State) (f : OutFrame) :
    (s.offer f).journal = s.journal := rfl

@[simp] theorem State.offer_trunk (s : State) (f : OutFrame) :
    (s.offer f).trunk = (s.trunk.offer f).1 := rfl

@[simp] theorem State.offer_elapsed (s : State) (f : OutFrame) :
    (s.offer f).elapsed = s.elapsed := rfl

@[simp] theorem State.offer_deferred (s : State) (f : OutFrame) :
    (s.offer f).deferred = s.deferred := rfl

@[simp] theorem State.offer_pending (s : State) (f : OutFrame) :
    (s.offer f).pending = s.pending := rfl

/-! ### answer -/

@[simp] theorem State.answer_engA (s : State) (f : OutFrame) :
    (s.answer f).engA = s.engA := rfl

@[simp] theorem State.answer_engB (s : State) (f : OutFrame) :
    (s.answer f).engB = s.engB := rfl

@[simp] theorem State.answer_classifier (s : State) (f : OutFrame) :
    (s.answer f).classifier = s.classifier := rfl

@[simp] theorem State.answer_stock (s : State) (f : OutFrame) :
    (s.answer f).stock = s.stock := rfl

@[simp] theorem State.answer_hire (s : State) (f : OutFrame) :
    (s.answer f).hire = s.hire := rfl

@[simp] theorem State.answer_sale (s : State) (f : OutFrame) :
    (s.answer f).sale = s.sale := rfl

@[simp] theorem State.answer_van (s : State) (f : OutFrame) :
    (s.answer f).van = s.van := rfl

@[simp] theorem State.answer_fault (s : State) (f : OutFrame) :
    (s.answer f).fault = s.fault := rfl

@[simp] theorem State.answer_journal (s : State) (f : OutFrame) :
    (s.answer f).journal = s.journal := rfl

@[simp] theorem State.answer_trunk (s : State) (f : OutFrame) :
    (s.answer f).trunk = (s.trunk.offer f).1 := rfl

@[simp] theorem State.answer_elapsed (s : State) (f : OutFrame) :
    (s.answer f).elapsed = s.elapsed := rfl

@[simp] theorem State.answer_deferred (s : State) (f : OutFrame) :
    (s.answer f).deferred = s.deferred := rfl

@[simp] theorem State.answer_pending (s : State) (f : OutFrame) :
    (s.answer f).pending = s.pending := rfl

/-! ### setEng and modEng -/

@[simp] theorem State.setEng_classifier (s : State) (g : Segment) (e : Engine) : (s.setEng g e).classifier = s.classifier := by
  cases g <;> rfl

@[simp] theorem State.modEng_classifier (s : State) (g : Segment) (f : Engine → Engine) : (s.modEng g f).classifier = s.classifier := by
  cases g <;> rfl

@[simp] theorem State.setEng_stock (s : State) (g : Segment) (e : Engine) : (s.setEng g e).stock = s.stock := by
  cases g <;> rfl

@[simp] theorem State.modEng_stock (s : State) (g : Segment) (f : Engine → Engine) : (s.modEng g f).stock = s.stock := by
  cases g <;> rfl

@[simp] theorem State.setEng_hire (s : State) (g : Segment) (e : Engine) : (s.setEng g e).hire = s.hire := by
  cases g <;> rfl

@[simp] theorem State.modEng_hire (s : State) (g : Segment) (f : Engine → Engine) : (s.modEng g f).hire = s.hire := by
  cases g <;> rfl

@[simp] theorem State.setEng_sale (s : State) (g : Segment) (e : Engine) : (s.setEng g e).sale = s.sale := by
  cases g <;> rfl

@[simp] theorem State.modEng_sale (s : State) (g : Segment) (f : Engine → Engine) : (s.modEng g f).sale = s.sale := by
  cases g <;> rfl

@[simp] theorem State.setEng_van (s : State) (g : Segment) (e : Engine) : (s.setEng g e).van = s.van := by
  cases g <;> rfl

@[simp] theorem State.modEng_van (s : State) (g : Segment) (f : Engine → Engine) : (s.modEng g f).van = s.van := by
  cases g <;> rfl

@[simp] theorem State.setEng_fault (s : State) (g : Segment) (e : Engine) : (s.setEng g e).fault = s.fault := by
  cases g <;> rfl

@[simp] theorem State.modEng_fault (s : State) (g : Segment) (f : Engine → Engine) : (s.modEng g f).fault = s.fault := by
  cases g <;> rfl

@[simp] theorem State.setEng_journal (s : State) (g : Segment) (e : Engine) : (s.setEng g e).journal = s.journal := by
  cases g <;> rfl

@[simp] theorem State.modEng_journal (s : State) (g : Segment) (f : Engine → Engine) : (s.modEng g f).journal = s.journal := by
  cases g <;> rfl

@[simp] theorem State.setEng_trunk (s : State) (g : Segment) (e : Engine) : (s.setEng g e).trunk = s.trunk := by
  cases g <;> rfl

@[simp] theorem State.modEng_trunk (s : State) (g : Segment) (f : Engine → Engine) : (s.modEng g f).trunk = s.trunk := by
  cases g <;> rfl

@[simp] theorem State.setEng_elapsed (s : State) (g : Segment) (e : Engine) : (s.setEng g e).elapsed = s.elapsed := by
  cases g <;> rfl

@[simp] theorem State.modEng_elapsed (s : State) (g : Segment) (f : Engine → Engine) : (s.modEng g f).elapsed = s.elapsed := by
  cases g <;> rfl

@[simp] theorem State.setEng_deferred (s : State) (g : Segment) (e : Engine) : (s.setEng g e).deferred = s.deferred := by
  cases g <;> rfl

@[simp] theorem State.modEng_deferred (s : State) (g : Segment) (f : Engine → Engine) : (s.modEng g f).deferred = s.deferred := by
  cases g <;> rfl

@[simp] theorem State.setEng_pending (s : State) (g : Segment) (e : Engine) : (s.setEng g e).pending = s.pending := by
  cases g <;> rfl

@[simp] theorem State.modEng_pending (s : State) (g : Segment) (f : Engine → Engine) : (s.modEng g f).pending = s.pending := by
  cases g <;> rfl

@[simp] theorem State.setEng_eng (s : State) (g : Segment) (e : Engine) : (s.setEng g e).eng g = e := by
  cases g <;> rfl

/-- The other segment's engine is left as it was. -/
theorem State.setEng_other (s : State) (g h : Segment) (e : Engine) (hne : h ≠ g) : (s.setEng g e).eng h = s.eng h := by
  cases g <;> cases h <;> first | rfl | exact absurd rfl hne

@[simp] theorem State.modEng_eng (s : State) (g : Segment) (f : Engine → Engine) :
    (s.modEng g f).eng g = f (s.eng g) := by
  cases g <;> rfl

/-- The other segment's engine is left as it was. -/
theorem State.modEng_other (s : State) (g h : Segment) (f : Engine → Engine) (hne : h ≠ g) :
    (s.modEng g f).eng h = s.eng h := State.setEng_other s g h _ hne

/-! ### Dock records -/

@[simp] theorem State.setDock_dock (s : State) (p : DockPos) (d : DockRec) : (s.setDock p d).dock p = d := by
  simp [State.dock]

/-- Another dock's record is left as it was. -/
theorem State.setDock_other (s : State) (p q : DockPos) (d : DockRec) (h : q ≠ p) : (s.setDock p d).dock q = s.dock q := by
  have : p.val ≠ q.val := fun e => h (Fin.ext e.symm)
  simp [State.dock, Vector.getElem_set_ne, this]

@[simp] theorem State.modDock_dock (s : State) (p : DockPos) (f : DockRec → DockRec) :
    (s.modDock p f).dock p = f (s.dock p) := State.setDock_dock s p _

/-- Another dock's record is left as it was. -/
theorem State.modDock_other (s : State) (p q : DockPos) (f : DockRec → DockRec) (h : q ≠ p) :
    (s.modDock p f).dock q = s.dock q := State.setDock_other s p q _ h

/-! ### newRelease -/

@[simp] theorem State.newRelease_engA (s : State) (r : Release) : (s.newRelease r).engA = s.engA := rfl

@[simp] theorem State.newRelease_engB (s : State) (r : Release) : (s.newRelease r).engB = s.engB := rfl

@[simp] theorem State.newRelease_classifier (s : State) (r : Release) : (s.newRelease r).classifier = s.classifier := rfl

@[simp] theorem State.newRelease_stock (s : State) (r : Release) : (s.newRelease r).stock = s.stock := rfl

@[simp] theorem State.newRelease_sale (s : State) (r : Release) : (s.newRelease r).sale = s.sale := rfl

@[simp] theorem State.newRelease_van (s : State) (r : Release) : (s.newRelease r).van = s.van := rfl

@[simp] theorem State.newRelease_fault (s : State) (r : Release) : (s.newRelease r).fault = s.fault := rfl

@[simp] theorem State.newRelease_journal (s : State) (r : Release) : (s.newRelease r).journal = s.journal := rfl

@[simp] theorem State.newRelease_trunk (s : State) (r : Release) : (s.newRelease r).trunk = s.trunk := rfl

@[simp] theorem State.newRelease_elapsed (s : State) (r : Release) : (s.newRelease r).elapsed = s.elapsed := rfl

@[simp] theorem State.newRelease_deferred (s : State) (r : Release) : (s.newRelease r).deferred = s.deferred := rfl

@[simp] theorem State.newRelease_pending (s : State) (r : Release) : (s.newRelease r).pending = s.pending := rfl

end Sys2Proof.Machine
end

