-- ==== Sys2Proof/Laws/Ops.lean ====
section
/-! SUPPORT. What the shared operations can do: one lemma for each of joining a command queue (R15, R16), offering a frame
(R189), sending one (R188), adding to the journal (R173, R174), releasing from it (R177). -/

namespace Sys2Proof.Machine

open Sys2Proof

/-! ### Command queues -/

/-- A command that joined a queue stands last in it; what it displaced was a DISPLAY entry of the full queue (R15, R16). -/
theorem joinQueue_some {q q' : List QueueEntry} {e : QueueEntry} {o : Option QueueEntry}
    (h : joinQueue q e = some (q', o)) :
    (o = none ∧ q.length < queueRoom ∧ q' = q ++ [e]) ∨
      ∃ old, o = some old ∧ old ∈ q ∧ old.isDisplay = true ∧ e.isDisplay = false ∧ queueRoom ≤ q.length ∧
        q' = removeLast QueueEntry.isDisplay q ++ [e] ∧ q'.length = q.length := by
  unfold joinQueue at h
  split at h
  · simp only [Option.some.injEq, Prod.mk.injEq] at h
    exact .inl ⟨h.2.symm, ‹_›, h.1.symm⟩
  · split at h
    · simp at h
    · rename_i h2
      split at h
      · simp at h
      · rename_i old h3
        simp only [Option.some.injEq, Prod.mk.injEq] at h
        have hm : old ∈ q := by simpa using List.mem_of_find?_eq_some h3
        have hd : old.isDisplay = true := by simpa using List.find?_some h3
        have hl := length_removeLast hm hd
        refine .inr ⟨old, h.2.symm, hm, hd, by simpa using h2, by omega, h.1.symm, ?_⟩
        rw [← h.1]
        simpa using hl

/-- A queue within its room stays within it when a command joins (R16). -/
theorem joinQueue_room {q q' : List QueueEntry} {e : QueueEntry} {o : Option QueueEntry}
    (h : joinQueue q e = some (q', o)) (hq : q.length ≤ queueRoom) : q'.length ≤ queueRoom := by
  rcases joinQueue_some h with ⟨-, h1, rfl⟩ | ⟨old, -, -, -, -, -, -, h1⟩
  · simpa using h1
  · omega

/-! ### The outbound queue -/

/-- What offering a frame does (R189): the frame joins a queue with room, or takes the place of the youngest group 3 frame of
a full one, or waits as an answer, or is discarded and counted. -/
theorem offer_cases (t : Trunk) (f : OutFrame) :
    (t.queue.length < outboundRoom ∧ t.offer f = ({ t with queue := t.queue ++ [f] }, true)) ∨
      (outboundRoom ≤ t.queue.length ∧
        ((f.group = 3 ∧ t.offer f = ({ t with discards := t.discards.raise 3 }, false)) ∨
          (f.group ≠ 3 ∧ (∃ g ∈ t.queue, (g.group == 3) = true) ∧
            t.offer f =
              ({ t with queue := removeLast (fun g => g.group == 3) t.queue ++ [f], discards := t.discards.raise 3 },
                true)) ∨
          (f.group ≠ 3 ∧ f.isAnswer = true ∧ t.offer f = ({ t with waiting := t.waiting ++ [f] }, false)) ∨
          (f.group ≠ 3 ∧ f.isAnswer = false ∧
            t.offer f = ({ t with discards := t.discards.raise f.group }, false)))) := by
  unfold Trunk.offer
  by_cases h1 : t.queue.length < outboundRoom
  · simp [h1]
  · right
    refine ⟨by omega, ?_⟩
    by_cases h2 : f.group = 3
    · simp [h1, h2]
    · by_cases h3 : t.queue.any (fun g => g.group == 3) = true
      · right
        left
        refine ⟨h2, List.any_eq_true.1 h3, by simp [h1, h2, h3]⟩
      · by_cases h4 : f.isAnswer = true
        · right
          right
          left
          exact ⟨h2, h4, by simp [h1, h2, h3, h4]⟩
        · right
          right
          right
          exact ⟨h2, by simpa using h4, by simp [h1, h2, h3, h4]⟩

/-- What an offer leaves of the Trunk Controller: all but the queue, the wait list and the discard counts. -/
theorem offer_frame (t : Trunk) (f : OutFrame) :
    (t.offer f).1 =
      { t with
        queue := (t.offer f).1.queue, waiting := (t.offer f).1.waiting, discards := (t.offer f).1.discards } := by
  rcases offer_cases t f with ⟨-, h⟩ | ⟨-, ⟨-, h⟩ | ⟨-, -, h⟩ | ⟨-, -, h⟩ | ⟨-, -, h⟩⟩ <;> rw [h]

/-- An offer neither shortens the outbound queue nor takes it beyond its room. -/
theorem offer_queue (t : Trunk) (f : OutFrame) :
    t.queue.length ≤ (t.offer f).1.queue.length ∧
      (t.queue.length ≤ outboundRoom → (t.offer f).1.queue.length ≤ outboundRoom) := by
  rcases offer_cases t f with ⟨h1, h⟩ | ⟨h1, ⟨-, h⟩ | ⟨-, ⟨g, hg, hg3⟩, h⟩ | ⟨-, -, h⟩ | ⟨-, -, h⟩⟩ <;> rw [h]
  · simp
    omega
  · exact ⟨le_refl _, id⟩
  · have := length_removeLast (q := fun g => OutFrame.group g == 3) hg hg3
    simp
    omega
  · exact ⟨le_refl _, id⟩
  · exact ⟨le_refl _, id⟩

/-- A frame that is no answer leaves the wait list as it was (R189). -/
theorem offer_waiting (t : Trunk) {f : OutFrame} (hf : f.isAnswer = false) : (t.offer f).1.waiting = t.waiting := by
  rcases offer_cases t f with ⟨-, h⟩ | ⟨-, ⟨-, h⟩ | ⟨-, -, h⟩ | ⟨-, h4, h⟩ | ⟨-, -, h⟩⟩ <;> rw [h]
  rw [hf] at h4
  exact absurd h4 (by simp)

/-- An offer to a sound Trunk Controller with room in its wait list leaves it sound (R188, R189). -/
theorem offer_sound {t : Trunk} {f : OutFrame} (h : t.OutSound) (hw : t.waiting.length < answerRoom) :
    (t.offer f).1.OutSound := by
  obtain ⟨h1, h2, h3⟩ := h
  have hq := offer_queue t f
  rcases offer_cases t f with ⟨h4, h⟩ | ⟨h4, ⟨-, h⟩ | ⟨-, ⟨g, hg, hg3⟩, h⟩ | ⟨-, -, h⟩ | ⟨-, -, h⟩⟩ <;> rw [h] at hq ⊢
  · exact ⟨hq.2 h1, h2, fun hw => absurd (h3 hw) (by omega)⟩
  · exact ⟨h1, h2, h3⟩
  · refine ⟨hq.2 h1, h2, fun _ => ?_⟩
    have := hq.2 h1
    have := hq.1
    simp only at *
    omega
  · refine ⟨h1, ?_, fun _ => ?_⟩
    · simpa using hw
    · simp only at *
      omega
  · exact ⟨h1, h2, h3⟩

/-- A frame of the queue that leaves for sending is the first of its group (R188). -/
theorem leaving_mem {t : Trunk} {f : OutFrame} (h : t.leaving = some f) : f ∈ t.queue := by
  unfold Trunk.leaving at h
  obtain ⟨g, -, hg⟩ := List.exists_of_findSome?_eq_some h
  exact List.mem_of_find?_eq_some hg

/-- Sending keeps the queue and the wait list sound (R188, R189). -/
theorem send_sound {t : Trunk} {f : OutFrame} (h : t.OutSound) (hf : f ∈ t.queue) : (t.send f).OutSound := by
  obtain ⟨h1, h2, h3⟩ := h
  have hl := List.length_eraseP_of_mem (p := fun g => OutFrame.group g == f.group) hf (by simp)
  have hp : 0 < t.queue.length := List.length_pos_of_mem hf
  unfold Trunk.send
  refine ⟨?_, ?_, ?_⟩
  · simp only [List.length_append, hl, List.length_take]
    omega
  · simp only [List.length_drop]
    omega
  · intro hw
    have hne : t.waiting ≠ [] := by
      rintro h
      simp [h] at hw
    have := h3 hne
    have : 0 < t.waiting.length := List.length_pos_of_ne_nil hne
    simp only [List.length_append, hl, List.length_take]
    omega

/-! ### The journal -/

/-- One journal follows another by appends: records joined at the newest end, numbered from the next sequence number, and the
bounds of R172 and R174 are kept; the COLD START mark stands. -/
structure Journal.Extends (j i : Journal) : Prop where
  records : ∃ l, i.records = j.records ++ l ∧ l.map JournalRec.seq = List.range' j.next l.length ∧ i.next = j.next + l.length
  room : j.records.length ≤ journalRoom → i.records.length ≤ journalRoom
  last : j.next ≤ lastSeq + 1 → i.next ≤ lastSeq + 1
  cold : i.coldStart = j.coldStart

/-- A journal follows itself. -/
theorem Journal.Extends.refl (j : Journal) : j.Extends j := ⟨⟨[], by simp⟩, id, id, rfl⟩

/-- Appends follow appends. -/
theorem Journal.Extends.trans {a b c : Journal} (h : a.Extends b) (g : b.Extends c) : a.Extends c := by
  obtain ⟨l, h1, h2, h3⟩ := h.records
  obtain ⟨m, g1, g2, g3⟩ := g.records
  refine ⟨⟨l ++ m, ?_, ?_, ?_⟩, g.room ∘ h.room, g.last ∘ h.last, g.cold.trans h.cold⟩
  · rw [g1, h1, List.append_assoc]
  · rw [List.map_append, h2, g2, h3, List.length_append]
    simp
  · rw [g3, h3, List.length_append]
    omega

/-- Appends keep a journal sound (R172). -/
theorem Journal.Extends.sound {j i : Journal} (h : j.Extends i) (hj : j.Sound) : i.Sound := by
  obtain ⟨h1, h2, h3, h4⟩ := hj
  obtain ⟨l, g1, g2, g3⟩ := h.records
  have hlen : i.records.length = j.records.length + l.length := by rw [g1, List.length_append]
  refine ⟨h.room h1, h.last h2, by omega, ?_⟩
  rw [g1, List.map_append, h4, g2, List.length_append, g3]
  have e1 : j.next + l.length - (j.records.length + l.length) = j.next - j.records.length := by omega
  rw [e1, ← List.range'_append (step := 1)]
  congr 2
  omega

/-- What adding a record does: it joins with the next sequence number and the present time, or is refused and counted under
its row (R173, R174). -/
theorem add_cases (j : Journal) (now : Nat) (b : JournalBody) :
    (j.records.length < journalRoom ∧ j.next ≤ lastSeq ∧
        j.add now b = { j with records := j.records ++ [{ seq := j.next, time := now, body := b }], next := j.next + 1 }) ∨
      ((journalRoom ≤ j.records.length ∨ lastSeq < j.next) ∧
        j.add now b = { j with refused := j.refused.set (recordRow b) (bump16 j.refused[recordRow b]) }) := by
  unfold Journal.add Journal.canTake
  by_cases h : (decide (j.records.length < journalRoom) && decide (j.next ≤ lastSeq)) = true
  · rw [if_pos h]
    simp at h
    exact .inl ⟨h.1, h.2, rfl⟩
  · rw [if_neg h]
    simp at h
    exact .inr ⟨by omega, rfl⟩

/-- An append extends the journal. -/
theorem add_evaluate_extends (j : Journal) (now : Nat) (b : JournalBody) : j.Extends (j.add now b).evaluate := by
  rcases add_cases j now b with ⟨h1, h2, h⟩ | ⟨-, h⟩ <;> rw [h]
  · refine ⟨⟨[{ seq := j.next, time := now, body := b }], rfl, by simp, rfl⟩, fun _ => ?_, fun _ => ?_, rfl⟩
    · simpa [Journal.evaluate] using h1
    · simpa [Journal.evaluate] using h2
  · exact ⟨⟨[], by simp [Journal.evaluate]⟩, id, id, rfl⟩

/-- A run of numbers above a bound is a run (R177). -/
theorem range'_filter_above (r a n : Nat) :
    ∃ m, m ≤ n ∧ (List.range' a n).filter (fun x => r < x) = List.range' (a + n - m) m := by
  induction n generalizing a with
  | zero => exact ⟨0, le_refl _, rfl⟩
  | succ n ih =>
    obtain ⟨m, hm, h⟩ := ih (a + 1)
    rw [List.range'_succ, List.filter_cons]
    by_cases hr : r < a
    · have hall : (List.range' (a + 1) n).filter (fun x => decide (r < x)) = List.range' (a + 1) n := by
        apply List.filter_eq_self.2
        intro x hx
        have := (List.mem_range'_1.1 hx).1
        simp
        omega
      refine ⟨n + 1, le_refl _, ?_⟩
      rw [if_pos (by simpa using hr), hall, ← List.range'_succ]
      congr 1
      omega
    · refine ⟨m, by omega, ?_⟩
      rw [if_neg (by simpa using hr), h]
      congr 1
      omega

/-- A release keeps a journal sound: what it removes are the oldest records (R172, R177). -/
theorem released_sound {j : Journal} (r : Nat) (h : j.Sound) : (j.released r).evaluate.Sound := by
  obtain ⟨h1, h2, h3, h4⟩ := h
  obtain ⟨m, hm, hf⟩ := range'_filter_above r (j.next - j.records.length) j.records.length
  have hmap : (j.records.filter fun x => r < x.seq).map JournalRec.seq = List.range' (j.next - m) m := by
    have e : (j.records.filter fun x => r < x.seq).map JournalRec.seq
        = (j.records.map JournalRec.seq).filter fun x => r < x := by
      rw [List.filter_map]
      rfl
    rw [e, h4, hf]
    congr 1
    omega
  have hlen : (j.records.filter fun x => r < x.seq).length = m := by
    have := congrArg List.length hmap
    simpa using this
  refine ⟨?_, h2, ?_, ?_⟩
  · simp only [Journal.evaluate, Journal.released, hlen]
    omega
  · simp only [Journal.evaluate, Journal.released, hlen]
    omega
  · simp only [Journal.evaluate, Journal.released, hlen]
    exact hmap

/-! ### The bytes of a JOURNAL DATA (11.5) -/

@[simp] theorem beBytes_length (w n : Nat) : (beBytes w n).length = w := by simp [beBytes]

/-- A record takes the bytes that its opening and its fields take (11.5). -/
@[simp] theorem recordWire_length (r : JournalRec) : (recordWire r).length = recordBytes r := by
  simp [recordWire, recordBytes]
  omega

/-- A JOURNAL DATA body is 16 bytes and its records (11.5). -/
theorem journalBody_length (d : JournalShown) : (journalBody d).length = 16 + (d.records.map recordBytes).sum := by
  have h : (journalHead d).length = 16 := by
    unfold journalHead
    split <;> simp
  simp [journalBody, List.length_flatMap, h]

/-- The fields of a HIRE END take the 44 bytes of table 11-8. -/
theorem hireEndBytes_length (h : HireEnd) : (hireEndBytes h).length = 44 := by
  unfold hireEndBytes
  split <;> simp

/-- A field of a record whose layout 11.5 does not give takes at most 90 bytes (log 10). -/
theorem recordFieldBytes_length_le (kind place : Nat) (f : RecordField) : (recordFieldBytes kind place f).length ≤ 90 := by
  have := (Config.fieldWidth kind place).isLt
  cases f <;> simp [recordFieldBytes] <;> omega

/-- Such a record fits one JOURNAL DATA body beside its 16 bytes and the record's 11 (R176). -/
theorem recordFields_length_le (b : JournalBody) :
    ((recordFields b).zipIdx.flatMap fun x => recordFieldBytes (recordCode b) x.2 x.1).length ≤ 1024 - 16 - 11 := by
  have few : (recordFields b).length ≤ 11 := by cases b <;> simp [recordFields, hireStartFields, fareWaivedFields,
    saleTermsFields, saleApprovalFields, adjustFields]
  have sum : ∀ l : List (RecordField × Nat),
      (l.flatMap fun x => recordFieldBytes (recordCode b) x.2 x.1).length ≤ 90 * l.length := by
    intro l
    induction l with
    | nil => simp
    | cons x xs ih =>
      have := recordFieldBytes_length_le (recordCode b) x.2 x.1
      simp only [List.flatMap_cons, List.length_append, List.length_cons]
      omega
  have := sum (recordFields b).zipIdx
  rw [List.length_zipIdx] at this
  omega

/-! ### The counts, the flags and the STOCK NOTICE (R47) -/

/-- A dock record changed in what does not count leaves the counts as they were. -/
theorem modDock_releasable {s : State} (p : DockPos) (f : DockRec → DockRec) (hf : ∀ d k, (f d).countsFor k = d.countsFor k)
    (k : BikeKind) : (s.modDock p f).stock.releasable k = s.stock.releasable k := by
  have e : ∀ l : List DockRec, l.countP (fun d => d.countsFor k) = (l.map fun d => d.countsFor k).count true := by
    intro l
    induction l with
    | nil => rfl
    | cons d l ih => cases h : d.countsFor k <;> simp [h, ih]
  unfold Stock.releasable
  rw [e, e]
  congr 1
  have hs : (s.modDock p f).stock.docks.toList = s.stock.docks.toList.set p.val (f s.stock.docks[p]) :=
    Vector.toList_set (h := p.isLt)
  rw [hs, List.map_set, hf]
  refine List.ext_getElem (by simp) fun i h1 h2 => ?_
  rw [List.getElem_set]
  split
  · simp_all
  · rfl

/-- A dock record changed in what does not count leaves the flags as they were. -/
theorem modDock_flags {s : State} (p : DockPos) (f : DockRec → DockRec) (hf : ∀ d k, (f d).countsFor k = d.countsFor k) :
    (s.modDock p f).stock.flags = s.stock.flags := by
  unfold Stock.flags Stock.wanted Stock.surplus
  simp only [modDock_releasable p f hf]
  rfl

/-- A STOCK NOTICE changes neither the flags nor what they were computed from. -/
theorem recount_computed {s : State} (h : s.stock.FlagsComputed) : s.recount.stock.FlagsComputed := by
  unfold State.recount
  split
  · exact h
  · exact h

/-- Counted afresh, the flags are computed. -/
theorem countAfresh_computed (s : State) : s.countAfresh.stock.FlagsComputed := recount_computed (show _ = _ from rfl)

/-- When the Stock Unit has finished, the flags are computed. -/
theorem stockDone_computed (s : State) : (stockDone s).stock.FlagsComputed := by
  unfold stockDone
  split
  · assumption
  · exact countAfresh_computed s

/-- No change of any flag makes no notice (R47). -/
theorem stockDone_of_computed {s : State} (h : s.stock.flags = s.stock.computed) : stockDone s = s := if_pos h

end Sys2Proof.Machine
end

