-- ==== Sys2Proof/Laws/Moves.lean ====
section
/-! SUPPORT. What one unit's work may do to the state, said once: `Moves full s t` for the work that outcomes and raises
lead to (log 9), `Works full s t` for the work of an event or a deadline, which may also begin releases, referrals and
passes. With `full` the stock flags stay computed; without it they may wait for the Stock Unit to finish (R47). Both are
reflexive and transitive, and every function of the units is one of them. -/

namespace Sys2Proof.Machine

open Sys2Proof

variable {full : Bool}

/-! ### The parts -/

/-- Units change of an engine its command queue alone, within its room (R16). -/
structure QueueMoves (a b : Engine) : Prop where
  frame : b = { a with queue := b.queue }
  room : a.queue.length ≤ queueRoom → b.queue.length ≤ queueRoom

theorem QueueMoves.refl (a : Engine) : QueueMoves a a := ⟨rfl, id⟩

theorem QueueMoves.trans {a b c : Engine} (h : QueueMoves a b) (g : QueueMoves b c) : QueueMoves a c :=
  ⟨by rw [g.frame, h.frame], g.room ∘ h.room⟩

/-- Units change of the Trunk Controller its outbound queue, discard counts, mode and quiet marks alone; the queue does not
shrink and stays within its room (R189, R192). -/
structure TrunkMoves (a b : Trunk) : Prop where
  frame :
    b =
      { a with
        queue := b.queue, discards := b.discards, mode := b.mode, releasesQuiet := b.releasesQuiet
        salesQuiet := b.salesQuiet }
  queue : a.queue.length ≤ b.queue.length ∧ (a.queue.length ≤ outboundRoom → b.queue.length ≤ outboundRoom)

theorem TrunkMoves.refl (a : Trunk) : TrunkMoves a a := ⟨rfl, le_refl _, id⟩

theorem TrunkMoves.trans {a b c : Trunk} (h : TrunkMoves a b) (g : TrunkMoves b c) : TrunkMoves a c :=
  ⟨by rw [g.frame, h.frame], h.queue.1.trans g.queue.1, g.queue.2 ∘ h.queue.2⟩

/-- The work that outcomes and raises lead to. -/
structure Moves (full : Bool) (s t : State) : Prop where
  flags : full = true → s.stock.FlagsComputed → t.stock.FlagsComputed
  log : s.fault.LogSound → t.fault.LogSound
  engA : QueueMoves s.engA t.engA
  engB : QueueMoves s.engB t.engB
  classifier : t.classifier = s.classifier
  low : t.stock.low = s.stock.low
  high : t.stock.high = s.stock.high
  charging : t.stock.chargingList.length ≤ max s.stock.chargingList.length s.trunk.settings.chargeSlots
  cards : s.hire.CardsSound → t.hire.CardsSound
  cardCount : s.hire.CardsSound → t.hire.cards.length ≤ s.hire.cards.length
  passes : s.hire.PassesSound → t.hire.PassesSound
  referrals : t.hire.referrals = s.hire.referrals
  releases : s.hire.ReleasesSound → t.hire.ReleasesSound
  keys :
    ∀ r ∈ t.hire.releases, ∃ q ∈ s.hire.releases, q.number = r.number ∧ q.medium = r.medium ∧ q.pos = r.pos
  tariffs : t.hire.tariffs = s.hire.tariffs
  recent : t.hire.recent = s.hire.recent
  kinds : t.sale.kinds = s.sale.kinds
  orders : s.van.OrdersSound → t.van.OrdersSound
  journal : s.journal.Extends t.journal
  trunk : TrunkMoves s.trunk t.trunk
  elapsed : t.elapsed = s.elapsed
  pending : t.pending = s.pending

/-- The work of an event, a request or a deadline. -/
structure Works (full : Bool) (s t : State) : Prop where
  flags : full = true → s.stock.FlagsComputed → t.stock.FlagsComputed
  log : s.fault.LogSound → t.fault.LogSound
  engA : QueueMoves s.engA t.engA
  engB : QueueMoves s.engB t.engB
  classifier : t.classifier = s.classifier
  low : t.stock.low = s.stock.low
  high : t.stock.high = s.stock.high
  charging : t.stock.chargingList.length ≤ max s.stock.chargingList.length s.trunk.settings.chargeSlots
  cards : s.trunk.settings.Sound → s.hire.CardsSound → t.hire.CardsSound
  passes : s.hire.PassesSound → t.hire.PassesSound
  referrals : s.hire.ReferralsSound → t.hire.ReferralsSound
  releases : s.hire.ReleasesSound → t.hire.ReleasesSound
  tariffs : t.hire.tariffs = s.hire.tariffs
  recent : s.hire.RecentSound → t.hire.RecentSound
  kinds : t.sale.kinds = s.sale.kinds
  orders : s.van.OrdersSound → t.van.OrdersSound
  journal : s.journal.Extends t.journal
  trunk : TrunkMoves s.trunk t.trunk
  elapsed : t.elapsed = s.elapsed
  pending : t.pending = s.pending

theorem TrunkMoves.settings {a b : Trunk} (h : TrunkMoves a b) : b.settings = a.settings := by rw [h.frame]

theorem Moves.refl (s : State) : Moves full s s where
  flags _ := id
  log := id
  engA := .refl _
  engB := .refl _
  classifier := rfl
  low := rfl
  high := rfl
  charging := le_max_left _ _
  cards := id
  cardCount _ := le_refl _
  passes := id
  referrals := rfl
  releases := id
  keys r hr := ⟨r, hr, rfl, rfl, rfl⟩
  tariffs := rfl
  recent := rfl
  kinds := rfl
  orders := id
  journal := .refl _
  trunk := .refl _
  elapsed := rfl
  pending := rfl

theorem Moves.trans {s t u : State} (h : Moves full s t) (g : Moves full t u) : Moves full s u where
  flags hf := g.flags hf ∘ h.flags hf
  log := g.log ∘ h.log
  engA := h.engA.trans g.engA
  engB := h.engB.trans g.engB
  classifier := g.classifier.trans h.classifier
  low := g.low.trans h.low
  high := g.high.trans h.high
  charging := by
    have h1 := h.charging
    have h2 := g.charging
    rw [h.trunk.settings] at h2
    omega
  cards := g.cards ∘ h.cards
  cardCount hs := (g.cardCount (h.cards hs)).trans (h.cardCount hs)
  passes := g.passes ∘ h.passes
  referrals := g.referrals.trans h.referrals
  releases := g.releases ∘ h.releases
  keys r hr := by
    obtain ⟨q, hq, e1, e2, e3⟩ := g.keys r hr
    obtain ⟨x, hx, f1, f2, f3⟩ := h.keys q hq
    exact ⟨x, hx, f1.trans e1, f2.trans e2, f3.trans e3⟩
  tariffs := g.tariffs.trans h.tariffs
  recent := g.recent.trans h.recent
  kinds := g.kinds.trans h.kinds
  orders := g.orders ∘ h.orders
  journal := h.journal.trans g.journal
  trunk := h.trunk.trans g.trunk
  elapsed := g.elapsed.trans h.elapsed
  pending := g.pending.trans h.pending

/-- Moves that keep the flags computed are moves. -/
theorem Moves.whole {s t : State} (h : Moves true s t) : Moves full s t := { h with flags := fun _ => h.flags rfl }

/-- What is said of moves without the flags. -/
theorem Moves.part {s t : State} (h : Moves full s t) : Moves false s t := { h with flags := fun hf => nomatch hf }

/-- Moves after which the flags are computed. -/
theorem Moves.counted {s t : State} (h : Moves false s t) (ht : t.stock.FlagsComputed) : Moves full s t :=
  { h with flags := fun _ _ => ht }

theorem Moves.works {s t : State} (h : Moves full s t) : Works full s t where
  flags := h.flags
  log := h.log
  engA := h.engA
  engB := h.engB
  classifier := h.classifier
  low := h.low
  high := h.high
  charging := h.charging
  cards _ := h.cards
  passes := h.passes
  referrals := by
    unfold Hire.ReferralsSound
    rw [h.referrals]
    exact id
  releases := h.releases
  tariffs := h.tariffs
  recent := by
    unfold Hire.RecentSound
    rw [h.recent]
    exact id
  kinds := h.kinds
  orders := h.orders
  journal := h.journal
  trunk := h.trunk
  elapsed := h.elapsed
  pending := h.pending

theorem Works.refl (s : State) : Works full s s := (Moves.refl s).works

theorem Works.trans {s t u : State} (h : Works full s t) (g : Works full t u) : Works full s u where
  flags hf := g.flags hf ∘ h.flags hf
  log := g.log ∘ h.log
  engA := h.engA.trans g.engA
  engB := h.engB.trans g.engB
  classifier := g.classifier.trans h.classifier
  low := g.low.trans h.low
  high := g.high.trans h.high
  charging := by
    have h1 := h.charging
    have h2 := g.charging
    rw [h.trunk.settings] at h2
    omega
  cards hs hc := g.cards (by rw [h.trunk.settings]; exact hs) (h.cards hs hc)
  passes := g.passes ∘ h.passes
  referrals := g.referrals ∘ h.referrals
  releases := g.releases ∘ h.releases
  tariffs := g.tariffs.trans h.tariffs
  recent := g.recent ∘ h.recent
  kinds := g.kinds.trans h.kinds
  orders := g.orders ∘ h.orders
  journal := h.journal.trans g.journal
  trunk := h.trunk.trans g.trunk
  elapsed := g.elapsed.trans h.elapsed
  pending := g.pending.trans h.pending

/-- Work that keeps the flags computed is work. -/
theorem Works.whole {s t : State} (h : Works true s t) : Works full s t := { h with flags := fun _ => h.flags rfl }

/-- What is said of work without the flags. -/
theorem Works.part {s t : State} (h : Works full s t) : Works false s t := { h with flags := fun hf => nomatch hf }

/-- Work after which the flags are computed. -/
theorem Works.counted {s t : State} (h : Works false s t) (ht : t.stock.FlagsComputed) : Works full s t :=
  { h with flags := fun _ _ => ht }

/-- Moves follow work. -/
theorem Works.moves {s t u : State} (h : Works full s t) (g : Moves full t u) : Works full s u := h.trans g.works

/-- A way to carry out calls that moves the state as calls may. -/
abbrev KMoves (k : Kont) : Prop := ∀ c s, Moves true s (k c s)

/-- A fold of moves moves. -/
theorem foldl_moves {α : Type} {f : State → α → State} (hf : ∀ t a, Moves full t (f t a)) {s : State} (l : List α)
    {t : State} (h : Moves full s t) : Moves full s (l.foldl f t) := by
  induction l generalizing t with
  | nil => exact h
  | cons a l ih => exact ih (h.trans (hf t a))

/-- A fold of what works for each element works. -/
theorem foldl_mem_works {α : Type} {f : State → α → State} {s : State} (l : List α) {t : State} (h : Works full s t)
    (hf : ∀ a ∈ l, ∀ u, Works full u (f u a)) : Works full s (l.foldl f t) := by
  induction l generalizing t with
  | nil => exact h
  | cons a l ih => exact ih (h.trans (hf a List.mem_cons_self t)) fun b hb => hf b (List.mem_cons_of_mem a hb)

/-- A fold of work works. -/
theorem foldl_works {α : Type} {f : State → α → State} (hf : ∀ t a, Works full t (f t a)) {s : State} (l : List α)
    {t : State} (h : Works full s t) : Works full s (l.foldl f t) := foldl_mem_works l h fun a _ u => hf u a

/-! ### The plain updates -/

/-- An update of dock records alone, or of any field of the Stock Unit but its targets and charging list. -/
theorem Moves.stock {s t : State} (h : Moves full s t) (x : Stock) (h1 : x.low = t.stock.low) (h2 : x.high = t.stock.high)
    (h3 : x.chargingList.length ≤ max t.stock.chargingList.length t.trunk.settings.chargeSlots)
    (hf : full = true → t.stock.FlagsComputed → x.FlagsComputed) : Moves full s { t with stock := x } :=
  h.trans { Moves.refl (full := full) t with low := h1, high := h2, charging := h3, flags := hf }

/-- An update of the Stock Unit's records, before it counts afresh. -/
theorem Moves.uncounted {s t : State} (h : Moves false s t) (x : Stock) (h1 : x.low = t.stock.low)
    (h2 : x.high = t.stock.high) (h3 : x.chargingList = t.stock.chargingList) : Moves false s { t with stock := x } :=
  h.stock x h1 h2 (by rw [h3]; exact le_max_left _ _) fun hf => nomatch hf

/-- A dock record changed in what does not count (R47). -/
theorem modDock_moves {s t : State} (p : DockPos) (f : DockRec → DockRec) (h : Moves full s t)
    (hf : ∀ d k, (f d).countsFor k = d.countsFor k) : Moves full s (t.modDock p f) :=
  h.stock _ rfl rfl (le_max_left _ _) fun _ hc => by
    have e : (t.modDock p f).stock.flags = t.stock.flags := modDock_flags p f hf
    exact e.trans hc

/-- A dock record changed, before the Stock Unit counts afresh. -/
theorem modDock_part {s t : State} (p : DockPos) (f : DockRec → DockRec) (h : Moves false s t) :
    Moves false s (t.modDock p f) := h.uncounted _ rfl rfl rfl

theorem modBike_part {s t : State} (p : DockPos) (f : Bike → Bike) (h : Moves false s t) : Moves false s (t.modBike p f) :=
  modDock_part p _ h

theorem setVisit_moves {s t : State} (v : Option Visit) (h : Moves full s t) : Moves full s (t.setVisit v) :=
  h.trans { Moves.refl t with orders := id }

theorem modVisit_moves {s t : State} (f : Visit → Visit) (h : Moves full s t) :
    Moves full s (t.modVisit f) := setVisit_moves _ h

/-- The Fault Unit changed with its log kept within its room. -/
theorem modFault_moves {s t : State} (f : FaultUnit → FaultUnit) (hf : t.fault.LogSound → (f t.fault).LogSound)
    (h : Moves full s t) : Moves full s (t.modFault f) := h.trans { Moves.refl t with log := hf }

theorem putSale_moves {s t : State} (r : SaleRec) (h : Moves full s t) : Moves full s (t.putSale r) :=
  h.trans { Moves.refl t with kinds := rfl }

theorem deferred_moves {s t : State} (l : List Call) (h : Moves full s t) : Moves full s { t with deferred := l } :=
  h.trans { Moves.refl t with classifier := rfl }

theorem setJournal_moves {s t : State} (j : Journal) (hj : t.journal.Extends j) (h : Moves full s t) :
    Moves full s (t.setJournal j) := h.trans { Moves.refl t with journal := hj }

/-- An update of the Trunk Controller within what units may do. -/
theorem trunk_moves {s t : State} (x : Trunk) (hx : TrunkMoves t.trunk x) (h : Moves full s t) :
    Moves full s { t with trunk := x } :=
  h.trans { Moves.refl t with trunk := hx }

/-- An offer of a frame that is no answer. -/
theorem offer_trunkMoves (t : Trunk) {f : OutFrame} (hf : f.isAnswer = false) : TrunkMoves t (t.offer f).1 where
  frame := by
    have h := offer_frame t f
    rw [offer_waiting t hf] at h
    rw [h]
  queue := offer_queue t f

theorem offer_moves {s t : State} {f : OutFrame} (hf : f.isAnswer = false) (h : Moves full s t) :
    Moves full s (t.offer f) :=
  trunk_moves _ (offer_trunkMoves t.trunk hf) h

theorem settleMode_trunkMoves (t : Trunk) : TrunkMoves t t.settleMode := by
  unfold Trunk.settleMode
  split
  · exact ⟨rfl, le_refl _, id⟩
  · exact .refl _

/-- A command queue replaced within its room. -/
theorem setQueue_moves {s t : State} (g : Segment) (q : List QueueEntry)
    (hq : (t.eng g).queue.length ≤ queueRoom → q.length ≤ queueRoom) (h : Moves full s t) :
    Moves full s (t.setEng g { t.eng g with queue := q }) := by
  refine h.trans ?_
  cases g
  · exact { Moves.refl t with engA := ⟨rfl, hq⟩ }
  · exact { Moves.refl t with engB := ⟨rfl, hq⟩ }

/-! ### Cards, passes and releases -/

/-- A card record is put back with its ranges kept, under a number that the table holds. -/
theorem putCard_moves {s t : State} (c : CardRec) (hm : ∃ d ∈ t.hire.cards, d.number = c.number)
    (hc : t.hire.CardsSound → CardRec.Sound c) (h : Moves full s t) : Moves full s (t.putCard c) := by
  obtain ⟨d, hd, e⟩ := hm
  have len : t.hire.CardsSound → (tablePut CardRec.number c t.hire.cards).length = t.hire.cards.length :=
    fun hs => length_tablePut_of_mem (key := CardRec.number) (x := c) hs.2.1 hd e
  refine h.trans { Moves.refl t with cards := fun hs => ?_, cardCount := fun hs => (len hs).le }
  obtain ⟨h1, h2, h3⟩ := hs
  refine ⟨(len ⟨h1, h2, h3⟩).le.trans h1, rising_tablePut h2, fun x hx => ?_⟩
  · rcases mem_tablePut (key := CardRec.number) h2 hx with rfl | ⟨hx, -⟩
    · exact hc ⟨h1, h2, h3⟩
    · exact h3 x hx

/-- A pass record is put back with its slot and its token. -/
theorem putPass_moves {s t : State} (c : PassRec) (hm : ∃ d ∈ t.hire.passes, d.slot = c.slot ∧ d.token = c.token)
    (hc : t.hire.PassesSound → c.outCount ≤ c.maxBikes) (h : Moves full s t) : Moves full s (t.putPass c) := by
  refine h.trans { Moves.refl t with passes := fun hs => ?_ }
  obtain ⟨d, hd, e, e'⟩ := hm
  have hs' := hs
  obtain ⟨h1, h2, h3, h4⟩ := hs
  refine ⟨?_, rising_tablePut h2, fun x hx y hy hxt hxy => ?_, fun x hx => ?_⟩
  · have := length_tablePut_of_mem (key := PassRec.slot) (x := c) h2 hd e
    simpa [State.putPass, this] using h1
  · rcases mem_tablePut (key := PassRec.slot) h2 hx with ex | ⟨hx', -⟩ <;>
      rcases mem_tablePut (key := PassRec.slot) h2 hy with ey | ⟨hy', -⟩
    · rw [ex, ey]
    · rw [ex, ← e]
      exact h3 d hd y hy' (by rw [e', ← ex]; exact hxt) (by rw [e', ← ex]; exact hxy)
    · rw [ey, ← e]
      exact h3 x hx' d hd hxt (by rw [hxy, ey, e'])
    · exact h3 x hx' y hy' hxt hxy
  · rcases mem_tablePut (key := PassRec.slot) h2 hx with rfl | ⟨hx, -⟩
    · exact hc hs'
    · exact h4 x hx

theorem erasePass_moves {s t : State} (n : Nat) (h : Moves full s t) : Moves full s (t.erasePass n) := by
  refine h.trans { Moves.refl t with passes := fun hs => ?_ }
  obtain ⟨h1, h2, h3, h4⟩ := hs
  refine ⟨(length_tableErase_le _ _).trans h1, rising_tableErase h2, fun x hx y hy => ?_, fun x hx => ?_⟩
  · exact h3 x (mem_tableErase.1 hx).1 y (mem_tableErase.1 hy).1
  · exact h4 x (mem_tableErase.1 hx).1

/-- A release record is put back under its dock, number and medium. -/
theorem putRelease_moves {s t : State} (r : Release)
    (hm : ∃ q ∈ t.hire.releases, q.number = r.number ∧ q.medium = r.medium ∧ q.pos = r.pos) (h : Moves full s t) :
    Moves full s (t.putRelease r) := by
  obtain ⟨q, hq, e1, e2, e3⟩ := hm
  refine h.trans { Moves.refl t with releases := fun hs => ?_, keys := fun x hx => ?_ }
  · obtain ⟨h1, h2⟩ := hs
    have key : ∀ x ∈ (t.putRelease r).hire.releases, x = r ∨ x ∈ t.hire.releases ∧ x.pos.val ≠ r.pos.val :=
      fun x hx => mem_tablePut (key := fun r : Release => r.pos.val) h1 hx
    refine ⟨rising_tablePut (key := fun r : Release => r.pos.val) h1, fun a ha b hb hn hm => ?_⟩
    rcases key a ha with ea | ⟨ha', -⟩ <;> rcases key b hb with eb | ⟨hb', -⟩
    · rw [ea, eb]
    · rw [ea, ← e3]
      exact h2 q hq b hb' (by rw [e1, ← ea, hn]) (by rw [e2, ← ea, hm])
    · rw [eb, ← e3]
      exact h2 a ha' q hq (by rw [hn, eb, e1]) (by rw [hm, eb, e2])
    · exact h2 a ha' b hb' hn hm
  · have hx' : x = r ∨ x ∈ t.hire.releases := mem_of_mem_tablePut hx
    rcases hx' with rfl | hx'
    · exact ⟨q, hq, e1, e2, e3⟩
    · exact ⟨x, hx', rfl, rfl, rfl⟩

theorem eraseRelease_moves {s t : State} (p : DockPos) (h : Moves full s t) : Moves full s (t.eraseRelease p) := by
  refine h.trans { Moves.refl t with releases := fun hs => ?_, keys := fun x hx => ?_ }
  · obtain ⟨h1, h2⟩ := hs
    exact ⟨rising_tableErase (key := fun r : Release => r.pos.val) h1, fun a ha b hb =>
      h2 a (mem_tableErase.1 ha).1 b (mem_tableErase.1 hb).1⟩
  · exact ⟨x, (mem_tableErase.1 hx).1, rfl, rfl, rfl⟩

/-- A release found by its identity stands in the table. -/
theorem releaseOf_mem {s : State} {n : Nat} {r : Release} (h : s.releaseOf n = some r) : r ∈ s.hire.releases :=
  List.mem_of_find?_eq_some h

/-- A release found at a dock stands in the table. -/
theorem releaseAt_mem {s : State} {p : DockPos} {r : Release} (h : s.releaseAt p = some r) : r ∈ s.hire.releases :=
  (tableFind_some h).1

end Sys2Proof.Machine
end

