-- ==== Sys2Proof/Laws/MovesStock.lean ====
section
/-! SUPPORT. The shared operations and the Stock Unit's functions move the state as `Moves` says. -/

namespace Sys2Proof.Machine

open Sys2Proof

variable {k : Kont} {s t : State} {full : Bool}

theorem call_moves (hk : KMoves k) (c : Call) (h : Moves full s t) : Moves full s (k c t) := h.trans (hk c t).whole

theorem submitTo_moves (hk : KMoves k) (d : Drop) (c : Cmd) (w : Submitter) (h : Moves full s t) :
    Moves full s (submitTo k d c w t) := by
  unfold submitTo
  split
  · exact call_moves hk _ h
  · split
    · exact call_moves hk _ h
    · split
      · exact call_moves hk _ h
      · exact setQueue_moves _ _ (fun hq => joinQueue_room ‹_› hq) h
      · exact call_moves hk _ (setQueue_moves _ _ (fun hq => joinQueue_room ‹_› hq) h)

theorem submitAt_moves (hk : KMoves k) (p : DockPos) (c : Cmd) (w : Submitter) (h : Moves full s t) :
    Moves full s (submitAt k p c w t) := by
  unfold submitAt
  split <;> apply_rules [call_moves, submitTo_moves]

theorem showAt_moves (hk : KMoves k) (u : SubmittingUnit) (p : DockPos) (r : Reason) (h : Moves full s t) :
    Moves full s (showAt k u p r t) := submitAt_moves hk p _ _ h

theorem showVanpoint_moves (hk : KMoves k) (r : Reason) (h : Moves full s t) : Moves full s (showVanpoint k r t) := by
  unfold showVanpoint
  split <;> apply_rules [submitTo_moves]

theorem tellReleasesQuiet_moves (h : Moves full s t) : Moves full s (tellReleasesQuiet t) := by
  unfold tellReleasesQuiet
  split
  · exact trunk_moves _
      (TrunkMoves.trans (b := { t.trunk with releasesQuiet := true }) ⟨rfl, le_refl _, id⟩ (settleMode_trunkMoves _)) h
  · exact h

theorem tellSalesQuiet_moves (h : Moves full s t) : Moves full s (tellSalesQuiet t) := by
  unfold tellSalesQuiet
  split
  · exact trunk_moves _
      (TrunkMoves.trans (b := { t.trunk with salesQuiet := true }) ⟨rfl, le_refl _, id⟩ (settleMode_trunkMoves _)) h
  · exact h

theorem recount_moves (h : Moves full s t) : Moves full s t.recount := by
  unfold State.recount
  split
  · exact Moves.stock (trunk_moves _ (offer_trunkMoves t.trunk rfl) h) _ rfl rfl (le_max_left _ _) fun _ => id
  · exact h

/-- Whatever came before, the flags are computed once they are counted afresh (R47). -/
theorem countAfresh_moves (h : Moves false s t) : Moves full s t.countAfresh :=
  Moves.counted (recount_moves (h.uncounted _ rfl rfl rfl)) (countAfresh_computed t)

/-- Whatever came before, the flags are computed once the Stock Unit has finished (R47). -/
theorem stockDone_moves (h : Moves false s t) : Moves full s (stockDone t) := by
  refine Moves.counted ?_ (stockDone_computed t)
  unfold stockDone
  split
  · exact h
  · exact countAfresh_moves h

theorem setGate_moves (hk : KMoves k) (p : DockPos) (g : Gate) (h : Moves full s t) : Moves full s (setGate k p g t) := by
  unfold setGate
  exact submitAt_moves hk _ _ _ (modDock_moves _ _ h fun _ _ => rfl)

theorem decideGate_moves (hk : KMoves k) (p : DockPos) (h : Moves full s t) : Moves full s (decideGate k p t) := by
  unfold decideGate
  split <;> apply_rules [setGate_moves]

theorem closeGate_moves (hk : KMoves k) (t : State) (p : DockPos) : Moves full t (closeGate k t p) := by
  unfold closeGate
  split <;> apply_rules [setGate_moves, Moves.refl]

theorem openGate_moves (hk : KMoves k) (t : State) (p : DockPos) : Moves full t (openGate k t p) := by
  unfold openGate
  split <;> apply_rules [setGate_moves, Moves.refl]

theorem tellLevel_moves (hk : KMoves k) (l : Level) (h : Moves full s t) : Moves full s (tellLevel k l t) := by
  unfold tellLevel
  split
  · exact stockDone_moves (foldl_moves (closeGate_moves hk) _ h.part)
  · split
    · exact stockDone_moves (foldl_moves (openGate_moves hk) _ h.part)
    · exact h

theorem gateOutcome_moves (p : DockPos) (h : Moves full s t) : Moves full s (gateOutcome p t) :=
  stockDone_moves (modDock_part _ _ h.part)

theorem journalMoves_moves (hk : KMoves k) (j : Journal) (hj : t.journal.Extends j.evaluate) (h : Moves full s t) :
    Moves full s (journalMoves k j t) := tellLevel_moves hk _ (setJournal_moves _ hj h)

theorem append_moves (hk : KMoves k) (b : JournalBody) (h : Moves full s t) : Moves full s (append k b t) :=
  journalMoves_moves hk _ (add_evaluate_extends _ _ _) h

/-! ### Charging -/

/-- A charge state does not count (R47). -/
theorem modDock_charge (p : DockPos) (c : ChargeState) (h : Moves full s t) :
    Moves full s (t.modDock p fun d => { d with charge := c }) := modDock_moves _ _ h fun _ _ => rfl

theorem holdAgain_part (p : DockPos) (h : Moves false s t) : Moves false s (holdAgain p t) := modBike_part _ _ h

theorem joinWait_moves (p : DockPos) (h : Moves full s t) : Moves full s (joinWait p t) := by
  unfold joinWait
  exact (modDock_charge p .waiting h).stock _ rfl rfl (le_max_left _ _) fun _ => id

theorem leaveWait_moves (p : DockPos) (h : Moves full s t) : Moves full s (leaveWait p t) := by
  unfold leaveWait
  exact (modDock_charge p .notCharging h).stock _ rfl rfl (le_max_left _ _) fun _ => id

theorem grantHead_moves (hk : KMoves k) (p : DockPos)
    (hs : t.stock.chargingList.length < t.trunk.settings.chargeSlots) (h : Moves full s t) :
    Moves full s (grantHead k p t) := by
  unfold grantHead
  refine submitAt_moves hk _ _ _ (modDock_moves _ _ (h.stock _ rfl rfl ?_ fun _ => id) fun _ _ => rfl)
  simp
  omega

theorem grantUpTo_moves (hk : KMoves k) (n : Nat) (h : Moves full s t) : Moves full s (grantUpTo k n t) := by
  induction n generalizing t with
  | zero => exact h
  | succ n ih =>
    unfold grantUpTo
    split
    · exact h
    · split
      · exact ih (grantHead_moves hk _ ‹_› h)
      · exact h

theorem grant_moves (hk : KMoves k) (h : Moves full s t) : Moves full s (grant k t) := grantUpTo_moves hk _ h

theorem oweChargeOff_moves (hk : KMoves k) (p : DockPos) (h : Moves full s t) : Moves full s (oweChargeOff k p t) := by
  unfold oweChargeOff
  split <;> apply_rules [submitAt_moves, modDock_moves]
  all_goals exact fun _ _ => rfl

theorem leaveCharging_moves (p : DockPos) (c : ChargeState) (h : Moves full s t) : Moves full s (leaveCharging p c t) := by
  unfold leaveCharging
  refine (modDock_charge p c h).stock _ rfl rfl ?_ fun _ => id
  have : (t.stock.chargingList.erase p).length ≤ t.stock.chargingList.length := (List.erase_sublist).length_le
  simp
  omega

theorem endCharge_moves (hk : KMoves k) (p : DockPos) (c : ChargeState) (h : Moves full s t) :
    Moves full s (endCharge k p c t) := by
  unfold endCharge
  apply_rules [oweChargeOff_moves, leaveCharging_moves]

theorem demote_moves (hk : KMoves k) (p : DockPos) (h : Moves full s t) : Moves full s (demote k p t) := by
  unfold demote
  apply_rules [oweChargeOff_moves, joinWait_moves, leaveCharging_moves]

theorem leaveLists_moves (hk : KMoves k) (p : DockPos) (h : Moves full s t) : Moves full s (leaveLists k p t) := by
  unfold leaveLists
  split <;> apply_rules [grant_moves, endCharge_moves, leaveWait_moves]

theorem chargeWith_moves (hk : KMoves k) {f : State → State} (hf : ∀ {u : State}, Moves full s u → Moves full s (f u)) (p : DockPos)
    (h : Moves full s t) : Moves full s (chargeWith f k p t) := by
  unfold chargeWith
  split <;> apply_rules [endCharge_moves, leaveWait_moves, joinWait_moves]

theorem chargeAgain_moves (hk : KMoves k) (p : DockPos) (h : Moves full s t) : Moves full s (chargeAgain k p t) :=
  chargeWith_moves hk (grant_moves hk) p h

theorem evaluateAgain_part (hk : KMoves k) (p : DockPos) (h : Moves false s t) : Moves false s (evaluateAgain k p t) :=
  chargeAgain_moves hk _ (holdAgain_part _ h)

theorem raiseChargeFault_moves (hk : KMoves k) (p : DockPos) (h : Moves full s t) : Moves full s (raiseChargeFault k p t) :=
  call_moves hk _ h

theorem chargeOnOutcome_moves (hk : KMoves k) (p : DockPos) (n : Nat) (o : CmdOutcome) (h : Moves full s t) :
    Moves full s (chargeOnOutcome k p n o t) := by
  unfold chargeOnOutcome
  split
  · exact stockDone_moves
      (grant_moves hk (raiseChargeFault_moves hk _ (modDock_part _ _ (endCharge_moves hk _ _ h.part))))
  · exact h

theorem chargeOffOutcome_moves (hk : KMoves k) (p : DockPos) (o : CmdOutcome) (h : Moves full s t) :
    Moves full s (chargeOffOutcome k p o t) := by
  unfold chargeOffOutcome
  refine stockDone_moves ?_
  have h1 := modDock_part p (fun d =>
    { d with offPending := false, offOwed := if o = .ack ∧ d.charge ≠ .charging then false else d.offOwed }) h.part
  split
  · exact h1
  · exact h1
  · split <;> apply_rules [raiseChargeFault_moves]

theorem chargeOffAgain_moves (hk : KMoves k) (p : DockPos) (h : Moves full s t) : Moves full s (chargeOffAgain k p t) := by
  unfold chargeOffAgain
  split <;> apply_rules [submitAt_moves, modDock_moves]
  all_goals exact fun _ _ => rfl

theorem contactChanged_moves (hk : KMoves k) (p : DockPos) (c : Contact) (h : Moves full s t) :
    Moves full s (contactChanged k p c t) := by
  unfold contactChanged
  split <;> apply_rules [chargeAgain_moves, call_moves, modDock_moves]
  all_goals exact fun _ _ => rfl

theorem takeContact_part (hk : KMoves k) (p : DockPos) (c : Contact) (h : Moves false s t) :
    Moves false s (takeContact k p c t) := by
  unfold takeContact
  split
  · exact h
  · split <;> apply_rules [contactChanged_moves, modBike_part]

theorem contactResult_moves (hk : KMoves k) (p : DockPos) (c : Contact) (h : Moves full s t) :
    Moves full s (contactResult k p c t) := by
  unfold contactResult
  split
  · refine stockDone_moves ?_
    split <;> apply_rules [chargeAgain_moves, takeContact_part, modDock_part, h.part]
  · exact h

theorem settingsHold_part (t : State) (p : DockPos) : Moves false t (settingsHold t p) := by
  unfold settingsHold
  split <;> apply_rules [holdAgain_part, Moves.refl]

theorem settingsFull_moves (hk : KMoves k) (t : State) (p : DockPos) : Moves full t (settingsFull k t p) :=
  chargeWith_moves hk id _ (.refl _)

/-! ### Reservations -/

theorem placeDrop_moves (p : DockPos) (h : Moves full s t) : Moves full s (placeDrop p t).2 := by
  unfold placeDrop
  split
  · exact stockDone_moves (modDock_part _ _ h.part)
  · exact h

theorem placePickup_moves (p : DockPos) (h : Moves full s t) : Moves full s (placePickup p t).2 := by
  unfold placePickup
  split
  · exact stockDone_moves (modBike_part _ _ h.part)
  · exact h

theorem removeDrop_moves (p : DockPos) (h : Moves full s t) : Moves full s (removeDrop p t) :=
  stockDone_moves (modDock_part _ _ h.part)

theorem removeAll_moves (h : Moves full s t) : Moves full s (removeAll t) :=
  stockDone_moves (h.part.uncounted _ rfl rfl rfl)

theorem reservePickup_moves (p : DockPos) (h : Moves full s t) : Moves full s (reservePickup p t) := by
  unfold reservePickup
  have := placePickup_moves p h
  split
  · rename_i e
    rw [e] at this
    exact modVisit_moves _ this
  · exact h

theorem seekOne_moves (x : BikeKind) (ok : DockPos → Bool) (h : Moves full s t) : Moves full s (seekOne x ok t) := by
  unfold seekOne
  repeat' split
  all_goals apply_rules [reservePickup_moves]

theorem tellPickupRemoved_moves (p : DockPos) (h : Moves full s t) : Moves full s (tellPickupRemoved p t) := by
  unfold tellPickupRemoved
  repeat' split
  all_goals apply_rules [seekOne_moves, modVisit_moves]

theorem tellDropMoved_moves (p q : DockPos) (h : Moves full s t) : Moves full s (tellDropMoved p q t) := modVisit_moves _ h

theorem tellDropLost_moves (p : DockPos) (h : Moves full s t) : Moves full s (tellDropLost p t) := modVisit_moves _ h

theorem tellQuarantine_moves (p : DockPos) (h : Moves full s t) : Moves full s (tellQuarantine p t) := by
  unfold tellQuarantine
  repeat' split
  all_goals apply_rules [reservePickup_moves]

theorem dropPickup_part (p : DockPos) (h : Moves false s t) : Moves false s (dropPickup p t) := by
  unfold dropPickup
  split <;> apply_rules [tellPickupRemoved_moves, modBike_part]

theorem moveDrop_moves (p : DockPos) (h : Moves full s t) : Moves full s (moveDrop p t) := by
  unfold moveDrop
  split <;> apply_rules [tellDropMoved_moves, tellDropLost_moves, modDock_moves]
  all_goals exact fun _ _ => rfl

theorem moveDropFrom_moves (p : DockPos) (h : Moves full s t) : Moves full s (moveDropFrom p t) := by
  unfold moveDropFrom
  split <;> apply_rules [moveDrop_moves]

end Sys2Proof.Machine
end

