-- ==== Sys2Proof/Laws/MovesUnits.lean ====
section
/-! SUPPORT. The Fault Unit, the Van Unit and the ends of releases move the state as `Moves` says, and with them every call
that a command carries out. -/

namespace Sys2Proof.Machine

open Sys2Proof

variable {k : Kont} {s t : State} {full : Bool}

/-! ### Docks -/

theorem emptied_part (hk : KMoves k) (p : DockPos) (h : Moves false s t) : Moves false s (emptied k p t) := by
  unfold emptied
  apply_rules [decideGate_moves, modDock_part, dropPickup_part, leaveLists_moves]

theorem writeOff_part (hk : KMoves k) (p : DockPos) (h : Moves false s t) : Moves false s (writeOff k p t) := by
  unfold writeOff
  split
  · exact emptied_part hk _ h
  · exact emptied_part hk _ (append_moves hk _ (call_moves hk _ h))

theorem cancelRelease_moves (hk : KMoves k) (r : Release) (hr : r ∈ t.hire.releases) (h : Moves full s t) :
    Moves full s (cancelRelease k r t) := by
  unfold cancelRelease
  have h1 : Moves full s (t.putRelease { r with cancel := true }) := by
    refine putRelease_moves _ ?_ h
    exact ⟨r, hr, rfl, rfl, rfl⟩
  dsimp only
  split
  · exact h
  · split
    · exact h1
    · exact submitAt_moves hk _ _ _ h1

theorem cancelAt_moves (hk : KMoves k) (p : DockPos) (h : Moves full s t) : Moves full s (cancelAt k p t) := by
  unfold cancelAt
  split
  · exact h
  · exact cancelRelease_moves hk _ (releaseAt_mem ‹_›) h

theorem serviceChanged_moves (hk : KMoves k) (p : DockPos) (v : Service) (h : Moves full s t) :
    Moves full s (serviceChanged k p v t) := by
  have h1 : Moves full s (if (t.dock p).service ≠ .inService ∧ (t.dock p).state = .releasing then cancelAt k p t else t) := by
    split <;> apply_rules [cancelAt_moves]
  unfold serviceChanged
  dsimp only
  split
  · exact h
  · generalize (if (t.dock p).service ≠ .inService ∧ (t.dock p).state = .releasing then cancelAt k p t else t) = u at h1
    have h2 : Moves full s (if (u.dock p).state = .empty then decideGate k p u else u) := by
      split <;> apply_rules [decideGate_moves]
    split <;> apply_rules [moveDropFrom_moves]

theorem setServiceCentral_moves (hk : KMoves k) (p : DockPos) (v : Service) (h : Moves full s t) :
    Moves full s (setServiceCentral k p v t) := stockDone_moves (serviceChanged_moves hk _ _ (modDock_part _ _ h.part))

theorem setServiceFaults_moves (hk : KMoves k) (p : DockPos) (v : Service) (h : Moves full s t) :
    Moves full s (setServiceFaults k p v t) := stockDone_moves (serviceChanged_moves hk _ _ (modDock_part _ _ h.part))

theorem quarantine_moves (b : Nat) (h : Moves full s t) : Moves full s (quarantine b t) := by
  unfold quarantine
  split
  · exact h
  · exact stockDone_moves (tellQuarantine_moves _ (modBike_part _ _ h.part))

theorem liftQuarantine_moves (p : DockPos) (h : Moves full s t) : Moves full s (liftQuarantine p t) :=
  stockDone_moves (modBike_part _ _ h.part)

theorem beginRelease_moves (hk : KMoves k) (p : DockPos) (h : Moves full s t) : Moves full s (beginRelease k p t) :=
  stockDone_moves (leaveLists_moves hk _ (modDock_part _ _ h.part))

theorem tellEnd_moves (hk : KMoves k) (p : DockPos) (e : DockEnd) (h : Moves full s t) :
    Moves full s (tellEnd k p e t) := by
  unfold tellEnd
  split
  · exact stockDone_moves (emptied_part hk _ h.part)
  · exact stockDone_moves (evaluateAgain_part hk _ (modDock_part _ _ h.part))
  · exact h

/-! ### The Fault Unit -/

theorem submitMark_moves (hk : KMoves k) (j : MarkJob) (h : Moves full s t) : Moves full s (submitMark k j t) :=
  submitAt_moves hk _ _ _ h

theorem markFault_moves (hk : KMoves k) (p : DockPos) (b : Nat) (x : Bool) (h : Moves full s t) :
    Moves full s (markFault k p b x t) := submitMark_moves hk _ h

theorem markOutcome_moves (hk : KMoves k) (j : MarkJob) (o : CmdOutcome) (h : Moves full s t) :
    Moves full s (markOutcome k j o t) := by
  unfold markOutcome
  repeat' split
  · exact stockDone_moves (modBike_part _ _ h.part)
  all_goals apply_rules [submitMark_moves]

theorem holdBike_moves (hk : KMoves k) (b : Nat) (h : Moves full s t) : Moves full s (holdBike k b t) := by
  unfold holdBike
  repeat' split
  all_goals apply_rules [markFault_moves, quarantine_moves]

theorem serviceAgain_moves (hk : KMoves k) (p : DockPos) (h : Moves full s t) : Moves full s (serviceAgain k p t) := by
  unfold serviceAgain
  split <;> apply_rules [setServiceFaults_moves]

theorem tellNoCharge_moves (hk : KMoves k) (x : Subject) (h : Moves full s t) : Moves full s (tellNoCharge k x t) := by
  unfold tellNoCharge
  repeat' split
  all_goals first | exact h | exact stockDone_moves (chargeAgain_moves hk _ h.part)

theorem actOnSubject_moves (hk : KMoves k) (x : Subject) (h : Moves full s t) : Moves full s (actOnSubject k x t) := by
  unfold actOnSubject
  repeat' split
  all_goals first | exact h | exact holdBike_moves hk _ h | exact serviceAgain_moves hk _ h

theorem actOn_moves (hk : KMoves k) (x : Subject) (b : Bool) (h : Moves full s t) : Moves full s (actOn k x b t) := by
  unfold actOn
  split <;> apply_rules [tellNoCharge_moves, actOnSubject_moves]

/-- A fault log with one record changed holds as many. -/
theorem logMap_length (id : Nat) (g : FaultRec → FaultRec) (l : List FaultRec) : (logMap id g l).length = l.length :=
  List.length_map ..

theorem logMap_sound {u : FaultUnit} {id : Nat} {g : FaultRec → FaultRec} (h : u.LogSound) :
    { u with log := logMap id g u.log }.LogSound := (logMap_length id g u.log).le.trans h

theorem notify_moves (n : Nat) (h : Moves full s t) : Moves full s (notify n t) := by
  unfold notify
  split
  · exact h
  · split
    · rename_i f _ _
      have h1 := trunk_moves _ (offer_trunkMoves t.trunk (f := t.noticeOf f true) rfl) h
      dsimp only
      split
      · exact modFault_moves _ logMap_sound h1
      · exact h1
    · exact h

theorem notifyAll_moves (h : Moves full s t) :
    Moves full s (notifyAll t) := foldl_moves (fun _ _ => notify_moves _ (.refl _)) _ h

theorem liftSubject_moves (hk : KMoves k) (x : Subject) (h : Moves full s t) : Moves full s (liftSubject k x t) := by
  unfold liftSubject
  repeat' split
  all_goals
    first | exact h | exact markFault_moves hk _ _ _ (liftQuarantine_moves _ h) | exact serviceAgain_moves hk _ h

theorem lift_moves (hk : KMoves k) (x : Subject) (c : Fin 48) (h : Moves full s t) : Moves full s (lift k x c t) := by
  have h1 := liftSubject_moves hk x h
  unfold lift
  dsimp only
  split
  · exact tellNoCharge_moves hk _ h1
  · exact h1

theorem displace_moves (hk : KMoves k) (f : FaultRec) (h : Moves full s t) : Moves full s (displace k f t) := by
  unfold displace
  have h1 := modFault_moves (fun u => { u with log := u.log.eraseP fun g => g.id == f.id })
    (fun hs => (List.length_eraseP_le).trans hs) h
  split <;> apply_rules [lift_moves]

theorem addFault_moves (hk : KMoves k) (x : Subject) (c : Fin 48) (v : Severity) (hr : t.fault.log.length < faultRoom)
    (h : Moves full s t) : Moves full s (addFault k x c v t) := by
  unfold addFault
  refine notify_moves _ (actOn_moves hk _ _ (modFault_moves _ (fun _ => ?_) h))
  simpa [FaultUnit.LogSound] using hr

theorem unstoredNoCharge_moves (hk : KMoves k) (x : Subject) (h : Moves full s t) :
    Moves full s (unstoredNoCharge k x t) := by
  unfold unstoredNoCharge
  repeat' split
  all_goals first | exact h | exact stockDone_moves (leaveLists_moves hk _ h.part)

theorem unstoredQuarantine_moves (hk : KMoves k) (x : Subject) (h : Moves full s t) :
    Moves full s (unstoredQuarantine k x t) := by
  unfold unstoredQuarantine
  repeat' split
  all_goals apply_rules [markFault_moves, quarantine_moves]

theorem unstoredService_moves (hk : KMoves k) (x : Subject) (v : Service) (h : Moves full s t) :
    Moves full s (unstoredService k x v t) := by
  unfold unstoredService
  repeat' split
  all_goals apply_rules [setServiceFaults_moves]

theorem raiseUnstored_moves (hk : KMoves k) (x : Subject) (c : Fin 48) (v : Severity) (h : Moves full s t) :
    Moves full s (raiseUnstored k x c v t) := by
  unfold raiseUnstored
  dsimp only
  have h1 := modFault_moves (fun u => { u with nextId := u.idAfter u.log, notStored := bump16 u.notStored }) id h
  generalize t.modFault (fun u => { u with nextId := u.idAfter u.log, notStored := bump16 u.notStored }) = u at h1
  have h2 : Moves full s (if (t.fault.actions c).quarantine then unstoredQuarantine k x u else u) := by
    split <;> apply_rules [unstoredQuarantine_moves]
  generalize (if (t.fault.actions c).quarantine then unstoredQuarantine k x u else u) = u2 at h2
  have h3 := unstoredService_moves hk x (serviceGiven (t.fault.actions c) v) h2
  generalize unstoredService k x (serviceGiven (t.fault.actions c) v) u2 = u3 at h3
  have h4 : Moves full s (if (t.fault.actions c).noCharge then unstoredNoCharge k x u3 else u3) := by
    split <;> apply_rules [unstoredNoCharge_moves]
  generalize (if (t.fault.actions c).noCharge then unstoredNoCharge k x u3 else u3) = u4 at h4
  split
  · exact offer_moves rfl h4
  · exact h4

theorem makeRoom_moves (hk : KMoves k) (v : Severity) (h : Moves full s t) : Moves full s (makeRoom k v t) := by
  unfold makeRoom
  repeat' split
  all_goals first | exact h | exact displace_moves hk _ h

theorem raiseWhole_moves (hk : KMoves k) (x : Subject) (c : Fin 48) (h : Moves full s t) :
    Moves full s (raiseWhole k x c t) := by
  unfold raiseWhole
  dsimp only
  split
  · exact notify_moves _ (actOn_moves hk _ _ (modFault_moves _ logMap_sound h))
  · have h1 := makeRoom_moves hk (t.fault.policy[c]).base h
    split
    · exact addFault_moves hk _ _ _ ‹_› h1
    · split
      · exact raiseUnstored_moves hk _ _ _ h1
      · exact modFault_moves _ id h1

theorem faultDone_moves (hk : KMoves k) (h : Moves full s t) : Moves full s (faultDone k t) := by
  unfold faultDone
  split
  · exact modFault_moves _ id h
  · exact call_moves hk _ (modFault_moves _ id h)

theorem raiseFault_moves (hk : KMoves k) (x : Subject) (c : Fin 48) (h : Moves full s t) :
    Moves full s (raiseFault k x c t) := by
  unfold raiseFault faultTakes
  split
  · exact modFault_moves _ id h
  · exact faultDone_moves hk (raiseWhole_moves hk _ _ (modFault_moves _ id h))

theorem clearRecord_moves (hk : KMoves k) (x : FaultState) (f : FaultRec) (h : Moves full s t) :
    Moves full s (clearRecord k x f t) := lift_moves hk _ _ (modFault_moves _ logMap_sound h)

theorem clearBike_moves (hk : KMoves k) (b : Nat) (h : Moves full s t) : Moves full s (clearBike k b t) := by
  unfold clearBike faultTakes
  exact faultDone_moves hk (foldl_moves (fun _ _ => clearRecord_moves hk _ _ (.refl _)) _ (modFault_moves _ id h))

theorem selfTest_moves (hk : KMoves k) (p : DockPos) (a b c d : Bool) (h : Moves full s t) :
    Moves full s (selfTest k p a b c d t) := by
  unfold selfTest
  split
  · exact h
  · rename_i x _
    have step : ∀ (on : Bool) (code : Fin 48) (u : State), Moves full s u →
        Moves full s (if on then k (.raise (.bike x.id) code) u else u) := by
      intro on code u hu
      split <;> apply_rules [call_moves]
    exact step _ _ _ (step _ _ _ (step _ _ _ (step _ _ _ h)))

/-! ### The Van Unit -/

theorem vanReady_moves (r : Ready) (h : Moves full s t) : Moves full s (vanReady r t) :=
  h.trans { Moves.refl t with orders := id }

theorem closeVisit_moves (hk : KMoves k) (c : CloseCause) (h : Moves full s t) : Moves full s (closeVisit k c t) := by
  unfold closeVisit
  split
  · exact h
  · refine setVisit_moves _ ?_
    split <;> apply_rules [append_moves, removeAll_moves, showVanpoint_moves]

theorem visitCloseTime_moves (hk : KMoves k) (h : Moves full s t) : Moves full s (visitCloseTime k t) := by
  unfold visitCloseTime
  repeat' split
  all_goals apply_rules [closeVisit_moves]

theorem vanpointLost_moves (hk : KMoves k) (h : Moves full s t) : Moves full s (vanpointLost k t) :=
  vanReady_moves _ (closeVisit_moves hk _ h)

/-- Fewer pending orders, and any visit and serial. -/
theorem fewerOrders_moves (x : Van) (hx : x.orders.Sublist t.van.orders) (h : Moves full s t) :
    Moves full s { t with van := x } :=
  h.trans
    { Moves.refl t with
      orders := fun hs => ⟨hx.length_le.trans hs.1, hs.2.sublist (hx.map _)⟩ }

theorem expireOrders_moves (h : Moves full s t) : Moves full s (expireOrders t) := fewerOrders_moves _ List.filter_sublist h

theorem expireOrder_moves (n : Nat) (h : Moves full s t) : Moves full s (expireOrder n t) :=
  fewerOrders_moves _ List.filter_sublist h

theorem openDrops_moves (l : List DockPos) (n : Nat) (h : Moves full s t) : Moves full s (openDrops l n t) := by
  induction l generalizing n t with
  | nil => exact h
  | cons p ps ih =>
    cases n with
    | zero => exact h
    | succ n =>
      have := placeDrop_moves p h
      unfold openDrops
      split
      · rename_i e
        rw [e] at this
        exact ih _ (modVisit_moves _ this)
      · exact ih _ h

theorem openPickups_moves (x : BikeKind) (l : List Nat) (n : Nat) (h : Moves full s t) :
    Moves full s (openPickups x l n t) := by
  induction n generalizing t with
  | zero => exact h
  | succ n ih =>
    unfold openPickups
    split
    · exact h
    · exact ih (reservePickup_moves _ h)

theorem openReservations_moves (o : VanOrder) (h : Moves full s t) : Moves full s (openReservations o t) := by
  unfold openReservations
  apply_rules [openPickups_moves, openDrops_moves]

theorem openVisit_moves (hk : KMoves k) (a b c : Nat) (h : Moves full s t) : Moves full s (openVisit k a b c t) := by
  unfold openVisit
  split
  · exact showVanpoint_moves hk _ (openReservations_moves _ (fewerOrders_moves _ List.filter_sublist h))
  · exact showVanpoint_moves hk _ (fewerOrders_moves _ (List.Sublist.refl _) h)

theorem vanArrive_moves (hk : KMoves k) (a b c : Nat) (h : Moves full s t) : Moves full s (vanArrive k a b c t) := by
  unfold vanArrive
  split <;> apply_rules [showVanpoint_moves, openVisit_moves]

theorem loseHeld_moves (p : DockPos) (h : Moves full s t) : Moves full s (loseHeld p t) := by
  unfold loseHeld
  repeat' split
  all_goals apply_rules [seekOne_moves, modVisit_moves]

theorem vanOutcome_moves (hk : KMoves k) (r : Release) (x : Hold) (o : VanOutcome) (h : Moves full s t) :
    Moves full s (vanOutcome k r x o t) := by
  unfold vanOutcome
  repeat' split
  all_goals apply_rules [clearBike_moves, modVisit_moves, loseHeld_moves, append_moves]

theorem dropReservation_moves (p : DockPos) (b : Bool) (h : Moves full s t) : Moves full s (dropReservation p b t) := by
  unfold dropReservation
  repeat' split
  all_goals apply_rules [modVisit_moves, removeDrop_moves]

theorem vanDropped_moves (hk : KMoves k) (p : DockPos) (b : Bike) (n : Nat) (x : Bool) (h : Moves full s t) :
    Moves full s (vanDropped k p b n x t) := by
  unfold vanDropped
  split
  · exact h
  · split
    · apply_rules [dropReservation_moves, modVisit_moves]
    · split <;> apply_rules [modVisit_moves, append_moves]

/-! ### The ends of releases -/

theorem submitClear_moves (hk : KMoves k) (j : ClearJob) (h : Moves full s t) : Moves full s (submitClear k j t) :=
  submitAt_moves hk _ _ _ h

theorem clearOutcome_moves (hk : KMoves k) (j : ClearJob) (o : CmdOutcome) (h : Moves full s t) :
    Moves full s (clearOutcome k j o t) := by
  unfold clearOutcome
  split <;> apply_rules [submitClear_moves]

theorem tellVan_moves (hk : KMoves k) (r : Release) (x : Hold) (o : VanOutcome) (h : Moves full s t) :
    Moves full s (tellVan k r x o t) := by
  unfold tellVan
  split <;> apply_rules [vanOutcome_moves]

theorem releaseGone_moves (hk : KMoves k) (r : Release) (e : DockEnd) (h : Moves full s t) :
    Moves full s (releaseGone k r e t) := tellEnd_moves hk _ _ (eraseRelease_moves _ h)

theorem clearAfter_moves (hk : KMoves k) (r : Release) (b : Bool) (h : Moves full s t) :
    Moves full s (clearAfter k r b t) := by
  unfold clearAfter
  repeat' split
  all_goals apply_rules [submitClear_moves, submitAt_moves]

theorem endFailed_moves (hk : KMoves k) (r : Release) (b : Bool) (h : Moves full s t) :
    Moves full s (endFailed k r b t) := by
  unfold endFailed
  have h1 := releaseGone_moves hk r .returned h
  generalize releaseGone k r .returned t = u at h1
  have h2 : Moves full s (if b then submitAt k r.pos .lock (.discard .hire) u else u) := by
    split <;> apply_rules [submitAt_moves]
  apply_rules [tellReleasesQuiet_moves, tellVan_moves, clearAfter_moves, showAt_moves]

theorem endNotTaken_moves (hk : KMoves k) (r : Release) (h : Moves full s t) : Moves full s (endNotTaken k r t) := by
  unfold endNotTaken
  apply_rules [tellReleasesQuiet_moves, tellVan_moves, clearAfter_moves, releaseGone_moves]

theorem endUnconfirmed_moves (hk : KMoves k) (r : Release) (e : DockEnd) (h : Moves full s t) :
    Moves full s (endUnconfirmed k r e t) := by
  unfold endUnconfirmed
  apply_rules [tellReleasesQuiet_moves, tellVan_moves, releaseGone_moves]

theorem card_mem {n : Nat} {c : CardRec} (h : t.card n = some c) : c ∈ t.hire.cards ∧ c.number = n :=
  tableFind_some h

theorem passSlot_mem {n : Nat} {c : PassRec} (h : t.passSlot n = some c) : c ∈ t.hire.passes ∧ c.slot = n :=
  tableFind_some h

theorem passOf_mem {n : Nat} {c : PassRec} (h : t.passOf n = some c) : c ∈ t.hire.passes ∧ c.token = some n := by
  refine ⟨List.mem_of_find?_eq_some h, ?_⟩
  have := List.find?_some h
  simpa using this

theorem raiseOut_moves (n : Nat) (m : Medium) (h : Moves full s t) : Moves full s (raiseOut n m t) := by
  unfold raiseOut
  split
  · split
    · exact h
    · rename_i c hc
      refine putCard_moves _ ⟨c, (card_mem hc).1, rfl⟩ (fun hs => ?_) h
      obtain ⟨h1, h2, -⟩ := hs.2.2 c (card_mem hc).1
      exact ⟨h1, h2, Nat.min_le_left _ _⟩
  · split
    · exact h
    · rename_i c hc
      exact putPass_moves _ ⟨c, (passOf_mem hc).1, rfl, rfl⟩ (fun _ => Nat.min_le_left _ _) h

theorem endTaken_moves (hk : KMoves k) (r : Release) (n : Nat) (b : Bool) (h : Moves full s t) :
    Moves full s (endTaken k r n b t) := by
  unfold endTaken
  have h1 := releaseGone_moves hk r .emptied h
  dsimp only
  refine tellReleasesQuiet_moves ?_
  split
  · exact vanOutcome_moves hk _ _ _ h1
  · exact append_moves hk _ (raiseOut_moves _ _ h1)

theorem unlockOutcome_moves (hk : KMoves k) (n : Nat) (o : CmdOutcome) (h : Moves full s t) :
    Moves full s (unlockOutcome k n o t) := by
  unfold unlockOutcome
  split
  · exact h
  · split
    · exact h
    · rename_i r hr _
      split
      · exact putRelease_moves _ ⟨r, releaseOf_mem hr, rfl, rfl, rfl⟩ h
      · apply_rules [call_moves, endFailed_moves]
      · apply_rules [endFailed_moves]
      · apply_rules [call_moves, endFailed_moves]

theorem submitCheck_moves (hk : KMoves k) (r : Release)
    (hr : ∃ q ∈ t.hire.releases, q.number = r.number ∧ q.medium = r.medium ∧ q.pos = r.pos) (h : Moves full s t) :
    Moves full s (submitCheck k r t) := submitAt_moves hk _ _ _ (putRelease_moves _ hr h)

theorem checkFailed_moves (hk : KMoves k) (r : Release)
    (hr : ∃ q ∈ t.hire.releases, q.number = r.number ∧ q.medium = r.medium ∧ q.pos = r.pos) (h : Moves full s t) :
    Moves full s (checkFailed k r t) := by
  unfold checkFailed
  split
  · exact submitCheck_moves hk r hr h
  · exact endUnconfirmed_moves hk _ _ h

theorem checkOutcome_moves (hk : KMoves k) (n : Nat) (o : CmdOutcome) (h : Moves full s t) :
    Moves full s (checkOutcome k n o t) := by
  unfold checkOutcome
  split
  · exact h
  · rename_i r hr
    split
    · exact h
    · exact checkFailed_moves hk _ ⟨r, releaseOf_mem hr, rfl, rfl, rfl⟩ h

theorem guardReached_moves (hk : KMoves k) (r : Release) (hr : r ∈ t.hire.releases) (h : Moves full s t) :
    Moves full s (guardReached k r t) := by
  unfold guardReached
  split
  · split
    · exact submitCheck_moves hk _ ⟨r, hr, rfl, rfl, rfl⟩ h
    · exact h
  · exact h

theorem releaseRemoved_moves (hk : KMoves k) (p : DockPos) (n : Nat) (h : Moves full s t) :
    Moves full s (releaseRemoved k p n t) := by
  unfold releaseRemoved
  split <;> apply_rules [endTaken_moves]

theorem releaseRelocked_moves (hk : KMoves k) (p : DockPos) (h : Moves full s t) :
    Moves full s (releaseRelocked k p t) := by
  unfold releaseRelocked
  split <;> apply_rules [endNotTaken_moves]

theorem releasePresent_moves (hk : KMoves k) (p : DockPos) (o : Option Nat) (n : Nat) (h : Moves full s t) :
    Moves full s (releasePresent k p o n t) := by
  unfold releasePresent
  repeat' split
  all_goals with_reducible first | exact h | exact endNotTaken_moves hk _ h | exact endTaken_moves hk _ _ _ h

theorem releaseLost_moves (hk : KMoves k) (p : DockPos) (h : Moves full s t) : Moves full s (releaseLost k p t) := by
  unfold releaseLost
  split <;> apply_rules [endUnconfirmed_moves]

/-! ### Sales reached by an outcome -/

theorem freePass_moves (n : Option Nat) (h : Moves full s t) : Moves full s (freePass n t) := by
  unfold freePass
  split <;> apply_rules [erasePass_moves]

theorem leaveOffer_moves (r : SaleRec) (x : SaleState) (b : Bool) (h : Moves full s t) :
    Moves full s (leaveOffer r x b t) :=
  tellSalesQuiet_moves (putSale_moves _ h)

theorem saleGoOutcome_moves (d : Drop) (n : Nat) (o : CmdOutcome) (h : Moves full s t) :
    Moves full s (saleGoOutcome d n o t) := by
  unfold saleGoOutcome
  repeat' split
  all_goals apply_rules [leaveOffer_moves, freePass_moves]

theorem settleOutcome_moves (p : DockPos) (o : CmdOutcome) (h : Moves full s t) : Moves full s (settleOutcome p o t) := by
  unfold settleOutcome
  split
  · exact h
  · exact stockDone_moves (modDock_part _ _ h.part)

/-! ### Calls -/

theorem takeOutcome_moves (hk : KMoves k) (w : Submitter) (o : CmdOutcome) (h : Moves full s t) :
    Moves full s (takeOutcome k w o t) := by
  unfold takeOutcome
  split <;>
    apply_rules [unlockOutcome_moves, clearOutcome_moves, checkOutcome_moves, settleOutcome_moves, gateOutcome_moves,
      chargeOnOutcome_moves, chargeOffOutcome_moves, saleGoOutcome_moves, markOutcome_moves]

theorem takeCall_moves (hk : KMoves k) (c : Call) (h : Moves full s t) : Moves full s (takeCall k c t) := by
  unfold takeCall
  split <;> apply_rules [takeOutcome_moves, raiseFault_moves]

/-- Calls carried out to any depth move the state as `Moves` says. -/
theorem callTo_moves (n : Nat) : KMoves (callTo n) := by
  induction n with
  | zero => exact fun c s => deferred_moves _ (.refl s)
  | succ n ih => exact fun c s => takeCall_moves ih c (.refl s)

/-- How a command carries out its calls moves the state as `Moves` says. -/
theorem kmoves_call : KMoves call := callTo_moves callDepth

end Sys2Proof.Machine
end

