-- ==== Sys2Proof/Laws/Works.lean ====
section
/-! SUPPORT. The work of events, requests and deadlines: grants, taps, referrals, returns, waivers, docks and sales change
the state as `Works` says. -/

namespace Sys2Proof.Machine

open Sys2Proof

variable {k : Kont} {s t : State} {full : Bool}

/-! ### Cards, passes and releases that join -/

/-- A card record within its ranges joins a table with room. -/
theorem putCard_works {c : CardRec} (hr : t.hire.cards.length < cardRoom)
    (hc : t.trunk.settings.Sound → CardRec.Sound c) (h : Works full s t) : Works full s (t.putCard c) := by
  refine h.trans { Works.refl t with cards := fun hset hs => ?_ }
  obtain ⟨h1, h2, h3⟩ := hs
  refine ⟨?_, rising_tablePut h2, fun x hx => ?_⟩
  · have := length_tablePut_le (key := CardRec.number) c t.hire.cards
    exact this.trans hr
  · rcases mem_tablePut (key := CardRec.number) h2 hx with rfl | ⟨hx, -⟩
    · exact hc hset
    · exact h3 x hx

/-- Card records erased. -/
theorem eraseCard_works (n : Nat) (h : Works full s t) :
    Works full s (t.modHire fun x => { x with cards := tableErase CardRec.number n x.cards }) := by
  refine h.trans { Works.refl t with cards := fun hset hs => ?_ }
  obtain ⟨h1, h2, h3⟩ := hs
  exact ⟨(length_tableErase_le _ _).trans h1, rising_tableErase h2, fun x hx => h3 x (mem_tableErase.1 hx).1⟩

/-- A pass record joins a table with room, under a token that no record holds. -/
theorem putPass_works {c : PassRec} (hr : t.hire.passes.length < passRoom)
    (ht : ∀ q ∈ t.hire.passes, c.token.isSome → q.token ≠ c.token) (hc : c.outCount ≤ c.maxBikes) (h : Works full s t) :
    Works full s (t.putPass c) := by
  refine h.trans { Works.refl t with passes := fun hs => ?_ }
  obtain ⟨h1, h2, h3, h4⟩ := hs
  refine ⟨?_, rising_tablePut h2, fun x hx y hy hxt hxy => ?_, fun x hx => ?_⟩
  · have := length_tablePut_le (key := PassRec.slot) c t.hire.passes
    exact this.trans hr
  · rcases mem_tablePut (key := PassRec.slot) h2 hx with ex | ⟨hx', -⟩ <;>
      rcases mem_tablePut (key := PassRec.slot) h2 hy with ey | ⟨hy', -⟩
    · rw [ex, ey]
    · exact absurd (by rw [← hxy, ex]) (ht y hy' (by rw [← ex]; exact hxt))
    · exact absurd (by rw [hxy, ey]) (ht x hx' (by rw [← ey, ← hxy]; exact hxt))
    · exact h3 x hx' y hy' hxt hxy
  · rcases mem_tablePut (key := PassRec.slot) h2 hx with rfl | ⟨hx, -⟩
    · exact hc
    · exact h4 x hx

/-- A pass record put back in its slot under a token that no record holds. -/
theorem activate_works {c : PassRec} (hm : ∃ d ∈ t.hire.passes, d.slot = c.slot)
    (ht : ∀ q ∈ t.hire.passes, q.token ≠ c.token) (hc : c.outCount ≤ c.maxBikes) (h : Works full s t) :
    Works full s (t.putPass c) := by
  obtain ⟨d, hd, e⟩ := hm
  refine h.trans { Works.refl t with passes := fun hs => ?_ }
  obtain ⟨h1, h2, h3, h4⟩ := hs
  refine ⟨?_, rising_tablePut h2, fun x hx y hy hxt hxy => ?_, fun x hx => ?_⟩
  · have := length_tablePut_of_mem (key := PassRec.slot) (x := c) h2 hd e
    exact this.le.trans h1
  · rcases mem_tablePut (key := PassRec.slot) h2 hx with ex | ⟨hx', -⟩ <;>
      rcases mem_tablePut (key := PassRec.slot) h2 hy with ey | ⟨hy', -⟩
    · rw [ex, ey]
    · exact absurd (by rw [← hxy, ex]) (ht y hy')
    · exact absurd (by rw [hxy, ey]) (ht x hx')
    · exact h3 x hx' y hy' hxt hxy
  · rcases mem_tablePut (key := PassRec.slot) h2 hx with rfl | ⟨hx, -⟩
    · exact hc
    · exact h4 x hx

/-- No release in flight of a number and a medium. -/
theorem not_inFlight {n : Nat} {m : Medium} (h : t.inFlight n m = false) :
    ∀ r ∈ t.hire.releases, r.number = n → r.medium ≠ m := by
  intro r hr hn hm
  unfold State.inFlight at h
  rw [List.any_eq_false] at h
  exact h r hr (by simp [hn, hm])

/-- A release of a number and a medium without one in flight joins. -/
theorem newRelease_works {r : Release} (hn : ∀ q ∈ t.hire.releases, q.number = r.number → q.medium ≠ r.medium)
    (h : Works full s t) : Works full s (t.newRelease r) := by
  refine h.trans { Works.refl t with releases := fun hs => ?_ }
  obtain ⟨h1, h2⟩ := hs
  have key : ∀ x ∈ (t.newRelease r).hire.releases, x = r ∨ x ∈ t.hire.releases := fun x hx => mem_of_mem_tablePut hx
  refine ⟨rising_tablePut (key := fun r : Release => r.pos.val) h1, fun a ha b hb hnum hmed => ?_⟩
  rcases key a ha with ea | ha' <;> rcases key b hb with eb | hb'
  · rw [ea, eb]
  · exact absurd (by rw [← hmed, ea]) (hn b hb' (by rw [← hnum, ea]))
  · exact absurd (by rw [hmed, eb]) (hn a ha' (by rw [hnum, eb]))
  · exact h2 a ha' b hb' hnum hmed

/-- Nothing in flight before moves is in flight after them. -/
theorem Moves.not_inFlight {u : State} {n : Nat} {m : Medium} (h : Moves full t u) (hn : t.inFlight n m = false) :
    ∀ q ∈ u.hire.releases, q.number = n → q.medium ≠ m := by
  intro q hq e1 e2
  obtain ⟨x, hx, f1, f2, -⟩ := h.keys q hq
  exact Machine.not_inFlight hn x hx (f1.trans e1) (f2.trans e2)

/-! ### Grants -/

theorem grantAt_works (hk : KMoves k) (p : DockPos) (b : Bike) (g : Grant) (hf : t.inFlight g.number g.medium = false)
    (hp : g.provisional = true → t.hire.cards.length < cardRoom) (h : Works full s t) : Works full s (grantAt k p b g t) := by
  have hb := beginRelease_moves hk p (Moves.refl (full := full) t)
  have h1 : Works full t ((beginRelease k p t).newRelease
      (t.releaseFor p b g.kind g.number g.medium g.flags (some (t.tokenFor g)) 0)) :=
    newRelease_works (hb.not_inFlight hf) hb.works
  refine h.trans (Works.moves ?_ (submitAt_moves hk _ _ _ (.refl _)))
  split
  · rename_i hg
    refine { h1 with cards := fun hs hc => ?_ }
    have hlen := hb.cardCount hc
    obtain ⟨c1, c2, c3⟩ := hb.cards hc
    have hset : (beginRelease k p t).trunk.settings = t.trunk.settings := hb.trunk.settings
    refine ⟨?_, rising_tablePut c2, fun x hx => ?_⟩
    · have := hp hg
      exact (length_tablePut_le (key := CardRec.number) _ _).trans (lt_of_le_of_lt hlen this)
    · rcases mem_tablePut (key := CardRec.number) c2 hx with rfl | ⟨hx, -⟩
      · refine ⟨Nat.zero_le _, ?_, Nat.zero_le _⟩
        have e : ∀ u : State, u.trunk.settings = t.trunk.settings → (u.provisionalFor g.number).headroom ≤ 65535 := by
          intro u hu
          have := hs.2.1
          show u.trunk.settings.strangerHeadroom ≤ 65535
          rw [hu]
          omega
        exact e _ rfl
      · exact c3 x hx
  · exact h1

theorem grantRelease_works (hk : KMoves k) (p : DockPos) (g : Grant) (hf : t.inFlight g.number g.medium = false)
    (hp : g.provisional = true → t.hire.cards.length < cardRoom) (h : Works full s t) :
    Works full s (grantRelease k p g t).2 := by
  unfold grantRelease
  split
  · exact h
  · exact grantAt_works hk _ _ _ hf hp h
  · exact h

theorem vanGrantAt_works (hk : KMoves k) (p : DockPos) (b : Bike) (n m : Nat) (hf : t.inFlight n .member = false)
    (h : Works full s t) : Works full s (vanGrantAt k p b n m t) := by
  have hb := beginRelease_moves hk p (Moves.refl (full := full) t)
  have h1 : Works full t ((beginRelease k p t).newRelease (t.releaseFor p b .van n .member GrantFlags.none none m)) :=
    newRelease_works (hb.not_inFlight hf) hb.works
  refine h.trans (Works.moves h1 ?_)
  exact submitAt_moves hk _ _ _ (modVisit_moves _ (.refl _))

/-! ### Taps -/

/-- A grant is made only where no release is in flight for its number and medium, and a provisional record only where the
card table has room (R73 to R76). -/
theorem granted_free {path : TapPath} {p : DockPos} {n : Nat} {m : Medium} {g : Grant}
    (h : t.tapVerdict path p n m = .granted g) :
    t.inFlight g.number g.medium = false ∧ (g.provisional = true → t.hire.cards.length < cardRoom) := by
  have stranger : ∀ g, t.strangerVerdict n = .granted g →
      t.inFlight g.number g.medium = false ∧ (g.provisional = true → t.hire.cards.length < cardRoom) := by
    intro g hg
    unfold State.strangerVerdict at hg
    split at hg
    · cases hg
    · rename_i hf
      split at hg
      · cases hg
      · split at hg
        · cases hg
          exact ⟨by simpa [State.riderGrant] using hf, fun _ => ‹_›⟩
        · cases hg
  have lookup : t.lookupVerdict path n m = .granted g →
      t.inFlight g.number g.medium = false ∧ (g.provisional = true → t.hire.cards.length < cardRoom) := by
    intro hg
    unfold State.lookupVerdict at hg
    split at hg
    · split at hg
      · rename_i c hc
        split at hg
        · cases hg
        · rename_i hr
          cases hg
          refine ⟨?_, fun h => by simp [State.riderGrant] at h⟩
          unfold State.cardRefusal at hr
          split at hr
          · cases hr
          · have := (card_mem hc).2
            rename_i hf
            rw [this] at hf
            simpa [State.riderGrant] using hf
      · unfold State.unknownVerdict at hg
        split at hg
        · split at hg
          · cases hg
          · split at hg
            · cases hg
            · exact stranger g hg
        · split at hg
          · cases hg
          · rename_i hf
            cases hg
            exact ⟨by simpa [State.riderGrant] using hf, fun h => by simp [State.riderGrant] at h⟩
        · exact stranger g hg
    · split at hg
      · unfold State.passVerdict at hg
        split at hg
        · cases hg
        · rename_i hf
          repeat' split at hg
          all_goals first
            | cases hg; exact ⟨by simpa [State.riderGrant] using hf, fun h => by simp [State.riderGrant] at h⟩
            | cases hg
      · cases hg
  unfold State.tapVerdict at h
  repeat' split at h
  all_goals first
    | exact lookup h
    | cases h

/-- A referral opens only where the list has room and no referral of the card (R75, R78). -/
theorem referred_free {path : TapPath} {p : DockPos} {n : Nat} {m : Medium}
    (h : t.tapVerdict path p n m = .referred) :
    t.hire.referrals.length < referralRoom ∧ ∀ r ∈ t.hire.referrals, r.card ≠ n := by
  have stranger : t.strangerVerdict n ≠ .referred := by
    unfold State.strangerVerdict
    repeat' split
    all_goals simp
  have lookup : t.lookupVerdict path n m = .referred →
      t.hire.referrals.length < referralRoom ∧ ∀ r ∈ t.hire.referrals, r.card ≠ n := by
    intro hg
    unfold State.lookupVerdict at hg
    split at hg
    · split at hg
      · split at hg <;> cases hg
      · unfold State.unknownVerdict at hg
        split at hg
        · split at hg
          · cases hg
          · split at hg
            · rename_i hc
              refine ⟨hc.2.1, fun r hr e => ?_⟩
              have := hc.2.2
              rw [List.any_eq_false] at this
              exact this r hr (by simp [e])
            · exact absurd hg stranger
        · split at hg <;> cases hg
        · exact absurd hg stranger
    · split at hg
      · unfold State.passVerdict at hg
        repeat' split at hg
        all_goals cases hg
      · cases hg
  unfold State.tapVerdict at h
  repeat' split at h
  all_goals first
    | exact lookup h
    | cases h

theorem staffTap_works (hk : KMoves k) (p : DockPos) (n : Nat) (h : Works full s t) : Works full s (staffTap k p n t) := by
  unfold staffTap
  split
  · split
    · exact h.moves (showAt_moves hk _ _ _ (.refl _))
    · rename_i hr
      refine vanGrantAt_works hk _ _ _ _ ?_ h
      unfold State.staffRefusal at hr
      split at hr
      · split at hr
        · unfold State.vanRefusal at hr
          split at hr
          · cases hr
          · rename_i hf
            simpa using hf
        · cases hr
      · cases hr
  · exact h.moves (showAt_moves hk _ _ _ (.refl _))

/-- Elements of a list with a referral put in its place. -/
theorem mem_referralInsert {r x : Referral} {l : List Referral} : x ∈ referralInsert r l ↔ x = r ∨ x ∈ l := by
  induction l with
  | nil => simp [referralInsert]
  | cons y ys ih =>
    unfold referralInsert
    split
    · simp
    · simp [ih]
      tauto

theorem length_referralInsert (r : Referral) (l : List Referral) : (referralInsert r l).length = l.length + 1 := by
  induction l with
  | nil => simp [referralInsert]
  | cons y ys ih =>
    unfold referralInsert
    split <;> simp [ih]

theorem nodup_referralInsert {r : Referral} {l : List Referral} (hl : (l.map Referral.card).Nodup)
    (hr : ∀ x ∈ l, x.card ≠ r.card) : ((referralInsert r l).map Referral.card).Nodup := by
  induction l with
  | nil => simp [referralInsert]
  | cons y ys ih =>
    unfold referralInsert
    rw [List.map_cons, List.nodup_cons] at hl
    split
    · rw [List.map_cons, List.nodup_cons, List.map_cons, List.nodup_cons]
      refine ⟨?_, hl⟩
      rw [← List.map_cons, List.mem_map]
      rintro ⟨x, hx, e⟩
      exact hr x hx e
    · rw [List.map_cons, List.nodup_cons]
      refine ⟨?_, ih hl.2 fun x hx => hr x (List.mem_cons_of_mem _ hx)⟩
      rw [List.mem_map]
      rintro ⟨x, hx, e⟩
      rcases mem_referralInsert.1 hx with rfl | hx
      · exact hr y List.mem_cons_self e.symm
      · exact hl.1 (List.mem_map.2 ⟨x, hx, e⟩)

theorem openReferral_works (p : DockPos) (n x : Nat) (hr : t.hire.referrals.length < referralRoom)
    (hn : ∀ r ∈ t.hire.referrals, r.card ≠ n) (h : Works full s t) : Works full s (openReferral p n x t) := by
  unfold openReferral
  refine Works.moves ?_ (offer_moves rfl (.refl _))
  refine h.trans { Works.refl t with referrals := fun hs => ⟨?_, ?_⟩ }
  · have := length_referralInsert
      { card := n, pos := p, stamp := x, deadline := satAdd lastTime t.now t.trunk.settings.referralDeadline }
      t.hire.referrals
    show (referralInsert _ t.hire.referrals).length ≤ _
    rw [this]
    omega
  · exact nodup_referralInsert hs.2 hn

theorem dropReferral_works (n : Nat) (h : Works full s t) : Works full s (dropReferral n t) := by
  refine h.trans { Works.refl t with referrals := fun hs => ⟨?_, ?_⟩ }
  · exact (List.length_filter_le _ _).trans hs.1
  · exact hs.2.sublist (List.filter_sublist.map _)

theorem takeTap_works (hk : KMoves k) (path : TapPath) (p : DockPos) (n : Nat) (m : Medium) (x : Nat)
    (h : Works full s t) : Works full s (takeTap k path p n m x t) := by
  unfold takeTap
  split
  · exact h.moves (showAt_moves hk _ _ _ (.refl _))
  · unfold reclaimAfter
    split
    · exact h.moves (erasePass_moves _ (showAt_moves hk _ _ _ (.refl _)))
    · exact h.moves (showAt_moves hk _ _ _ (.refl _))
  · exact staffTap_works hk _ _ h
  · rename_i g hg
    have hw := grantRelease_works hk p g (granted_free hg).1 (granted_free hg).2 h
    split
    · rename_i e
      rw [e] at hw
      exact hw.moves (showAt_moves hk _ _ _ (.refl _))
    · rename_i e
      rw [e] at hw
      exact hw
  · rename_i hg
    exact (openReferral_works p n x (referred_free hg).1 (referred_free hg).2 h).moves (showAt_moves hk _ _ _ (.refl _))

theorem endReferral_works (hk : KMoves k) (r : Referral) (h : Works full s t) : Works full s (endReferral k r t) :=
  takeTap_works hk _ _ _ _ _ (dropReferral_works _ h)

theorem referralDeadline_works (hk : KMoves k) (n : Nat) (h : Works full s t) : Works full s (referralDeadline k n t) := by
  unfold referralDeadline
  repeat' split
  all_goals first | exact h | exact endReferral_works hk _ h

theorem islandReferrals_works (hk : KMoves k) (h : Works full s t) : Works full s (islandReferrals k t) :=
  foldl_works (fun _ _ => endReferral_works hk _ (.refl _)) _ h

/-- A card entry whose numbers fit their fields makes a record within its ranges. -/
theorem cardOfEntry_sound {e : CardEntry} {c : CardRec} (he : e.check = true) (h : cardOfEntry e = some c) :
    CardRec.Sound c := by
  unfold cardOfEntry at h
  split at h
  · split at h
    · cases h
    · rename_i hr
      cases h
      have : e.headroom ≤ 65535 := by
        unfold CardEntry.check fits16 at he
        simp only [Bool.and_eq_true, decide_eq_true_eq] at he
        tauto
      refine ⟨?_, this, Nat.min_le_left _ _⟩
      show e.reward ≤ 2000
      omega
  · cases h

theorem loadCard_works (e : CardEntry) (he : e.check = true) (h : Works full s t) : Works full s (loadCard e t).2 := by
  unfold loadCard
  split
  · split
    · exact h
    · exact eraseCard_works _ h
  · split
    · exact h
    · rename_i c hc
      split
      · rename_i hor
        rcases hor with hs | hl
        · obtain ⟨d, hd⟩ := Option.isSome_iff_exists.1 hs
          exact h.moves (putCard_moves c ⟨d, (card_mem hd).1, (card_mem hd).2⟩ (fun _ => cardOfEntry_sound he hc) (.refl _))
        · exact putCard_works hl (fun _ => cardOfEntry_sound he hc) h
      · exact h

theorem loadCarried_works (a : ReferralReply) (ha : a.check = true) (h : Works full s t) :
    Works full s (loadCarried a t) := by
  unfold loadCarried
  split
  · exact h
  · rename_i e he
    refine loadCard_works e ?_ h
    unfold ReferralReply.check at ha
    rw [he] at ha
    simp at ha
    exact ha.2

theorem takeAnswer_works (hk : KMoves k) (a : ReferralReply) (ha : a.check = true) (h : Works full s t) :
    Works full s (takeAnswer k a t) := by
  unfold takeAnswer
  split
  · exact loadCarried_works a ha h
  · rename_i r _
    have h1 := loadCarried_works a ha (dropReferral_works r.card h)
    dsimp only
    split
    · exact takeTap_works hk _ _ _ _ _ h1
    · exact h1.moves (showAt_moves hk _ _ _ (.refl _))

theorem remoteRelease_works (hk : KMoves k) (o : ReleaseOrder) (h : Works full s t) :
    Works full s (remoteRelease k o t).2 := by
  unfold remoteRelease
  split
  · split
    · exact h
    · split
      · exact h
      · rename_i p m _ _ _ _ hr
        have hf : t.inFlight o.number m = false := by
          unfold State.remoteRefusal at hr
          repeat' split at hr
          all_goals cases hr
          rename_i hf
          simpa using hf
        have hw := grantRelease_works hk p (t.remoteGrant o.number m) hf (fun h => by simp [State.remoteGrant] at h) h
        split
        · rename_i e
          rw [e] at hw
          exact hw
        · rename_i e
          rw [e] at hw
          exact hw
  · exact h

theorem remoteCancel_works (hk : KMoves k) (p : DockPos) (h : Works full s t) : Works full s (remoteCancel k p t).2 := by
  unfold remoteCancel
  split
  · exact h
  · exact h.moves (cancelRelease_moves hk _ (releaseAt_mem ‹_›) (.refl _))

end Sys2Proof.Machine
end

