-- ==== Sys2Proof/Laws/WorksEvents.lean ====
section
/-! SUPPORT. Returns, waivers, dock events, sales and the delivery of any event change the state as `Works` says. -/

namespace Sys2Proof.Machine

open Sys2Proof

variable {k : Kont} {s t : State} {full : Bool}

/-! ### Accounts -/

/-- An account written back whose out count has not risen and whose amounts lie in their ranges. -/
theorem putAccount_moves (n : Nat) (m : Medium) (a : Account)
    (h1 : ∀ b, t.account n m = some b → a.outCount ≤ b.outCount)
    (h2 : ∀ b, t.account n m = some b → b.headroom ≤ 65535 → a.headroom ≤ 65535)
    (h3 : ∀ b, t.account n m = some b → (∀ r, b.reward = some r → r ≤ rewardRoom) → ∀ r, a.reward = some r → r ≤ rewardRoom)
    (h : Moves full s t) : Moves full s (t.putAccount n m a) := by
  unfold State.putAccount
  split
  · split
    · exact h
    · rename_i c hc
      have hac : t.account n .member = some c.account := by simp [State.account, hc]
      refine putCard_moves _ ⟨c, (card_mem hc).1, rfl⟩ (fun hs => ?_) h
      obtain ⟨c1, c2, c3⟩ := hs.2.2 c (card_mem hc).1
      refine ⟨?_, h2 _ hac c2, (h1 _ hac).trans c3⟩
      show a.reward.getD c.reward ≤ rewardRoom
      cases e : a.reward with
      | none => exact c1
      | some r =>
        refine h3 _ hac (fun r hr => ?_) r e
        have : c.reward = r := by simpa [CardRec.account] using hr
        rw [← this]
        exact c1
  · split
    · exact h
    · rename_i c hc
      have hac : t.account n .token = some c.account := by simp [State.account, hc]
      exact putPass_moves _ ⟨c, (passOf_mem hc).1, rfl, rfl⟩
        (fun hs => (h1 _ hac).trans (hs.2.2.2 c (passOf_mem hc).1)) h

theorem returned_le (a : Account) (b : Bool) : (a.returned b).outCount ≤ a.outCount := by
  unfold Account.returned
  dsimp only
  split <;> omega

theorem unpriced_moves (r : Return) (h : Moves full s t) : Moves full s (unpriced r t) := by
  unfold unpriced
  split
  · exact h
  · rename_i a ha
    refine putAccount_moves _ _ _ (fun b hb => ?_) (fun b hb hh => ?_) (fun b hb hh => ?_) h
    · rw [ha] at hb
      cases hb
      exact returned_le _ _
    · rw [ha] at hb
      cases hb
      exact hh
    · rw [ha] at hb
      cases hb
      exact hh

theorem clearReturn_moves (hk : KMoves k) (r : Return) (h : Moves full s t) : Moves full s (clearReturn k r t) :=
  submitClear_moves hk _ h

theorem finishReturn_moves (hk : KMoves k) (r : Return) (x : HireEnd) (h : Moves full s t) :
    Moves full s (finishReturn k r x t) := clearReturn_moves hk _ (append_moves hk _ h)

theorem enterRecent_works (r : Return) (x : HireEnd) (n : Option Nat) (h : Works full s t) :
    Works full s (enterRecent r x n t) := by
  unfold enterRecent
  dsimp only
  split
  · exact h
  · refine h.trans { Works.refl t with recent := fun hs => ?_ }
    have : ∀ (e : RecentReturn) (l : List RecentReturn), l.length ≤ recentRoom → (joinRecent e l).length ≤ recentRoom := by
      intro e l hl
      unfold joinRecent
      split
      · simpa using ‹_›
      · have : 0 < recentRoom := by decide
        simp
        omega
    exact this _ _ hs

/-- What a pricing leaves of an account (R120 to R124). -/
theorem chargeOn_account (x : Tariff) (gross earns : Nat) (day : Int) (here : Bool) (a : Account) :
    (chargeOn x gross earns day here a).account.outCount ≤ a.outCount ∧
      (chargeOn x gross earns day here a).account.headroom ≤ a.headroom ∧
      ((∀ r, a.reward = some r → r ≤ rewardRoom) →
        ∀ r, (chargeOn x gross earns day here a).account.reward = some r → r ≤ rewardRoom) := by
  refine ⟨returned_le a here, Nat.sub_le _ _, fun ha r hr => ?_⟩
  unfold chargeOn at hr
  dsimp only at hr
  cases e : a.reward with
  | none => simp [e] at hr
  | some q =>
    have hq := ha q e
    simp only [e, Option.map_some, Option.some.injEq] at hr
    rw [← hr]
    by_cases he : earns = 0
    · simp only [Option.isSome_some, he, if_true]
      omega
    · simp only [Option.isSome_some, he, if_true, if_false]
      exact Nat.min_le_left _ _

theorem raiseOverdue_moves (hk : KMoves k) (r : Return) (h : Moves full s t) : Moves full s (raiseOverdue k r t) := by
  unfold raiseOverdue
  split <;> apply_rules [call_moves]

theorem settlePriced_moves (r : Return) (c : Nat) (x : Tariff) (h : Moves full s t) :
    Moves full s (settleAccount r (t.priced r c x).2 t) := by
  unfold settleAccount State.priced
  cases e : t.account r.token.number r.token.medium with
  | none => exact h
  | some a =>
    have ha := chargeOn_account x (priceOf x r.kind (durationOf r.token.start r.stamp).d).gross
      (t.earns x r (durationOf r.token.start r.stamp).d) (t.dayOf r.stamp) (t.beganHere r.token) a
    refine putAccount_moves _ _ _ (fun b hb => ?_) (fun b hb hh => ?_) (fun b hb hh => ?_) h
    · rw [e] at hb
      cases hb
      exact ha.1
    · rw [e] at hb
      cases hb
      exact ha.2.1.trans hh
    · rw [e] at hb
      cases hb
      exact ha.2.2 hh

theorem takePriced_works (hk : KMoves k) (r : Return) (c : Nat) (x : Tariff) (h : Works full s t) :
    Works full s (takePriced k r c x t) := by
  unfold takePriced finishPriced
  exact enterRecent_works _ _ _
    ((h.moves (raiseOverdue_moves hk r (.refl _))).moves
      (finishReturn_moves hk _ _ (settlePriced_moves r c x (.refl _))))

theorem takeReturn_works (hk : KMoves k) (r : Return) (h : Works full s t) : Works full s (takeReturn k r t) := by
  unfold takeReturn
  split
  · exact h.moves (finishReturn_moves hk _ _ (.refl _))
  · split
    · exact h.moves (finishReturn_moves hk _ _ (unpriced_moves _ (.refl _)))
    · split
      · exact takePriced_works hk _ _ _ h
      · exact h.moves (finishReturn_moves hk _ _ (unpriced_moves _ (.refl _)))

/-- Fewer recent returns. -/
theorem fewerRecent_works (l : List RecentReturn) (hl : l.length ≤ t.hire.recent.length) (h : Works full s t) :
    Works full s (t.modHire fun x => { x with recent := l }) :=
  h.trans { Works.refl t with recent := fun hs => hl.trans hs }

theorem expireRecentAt_works (n : Nat) (h : Works full s t) : Works full s (expireRecentAt n t) := by
  unfold expireRecentAt
  repeat' split
  · exact h
  · exact fewerRecent_works _ (List.length_eraseIdx_le _ _) h
  · exact h

theorem expireRecents_works (h : Works full s t) : Works full s (expireRecents t) :=
  fewerRecent_works _ (List.length_filter_le _ _) h

/-- A waiver gives back to the account that the entry names, or to none. -/
theorem account_of_waiverAccount {e : RecentReturn} {a : Account} (h : t.waiverAccount e = some a) :
    t.account e.number e.medium = some a := by
  unfold State.waiverAccount at h
  split at h
  · cases h
  · exact h

theorem waive_works (hk : KMoves k) (n : Nat) (e : RecentReturn) (x : Nat) (h : Works full s t) :
    Works full s (waive k n e x t) := by
  unfold waive
  dsimp only
  have h1 : Moves full t (match t.waiverAccount e with
      | some a => t.putAccount e.number e.medium (a.waived e)
      | none => t) := by
    split
    · rename_i a ha
      refine putAccount_moves _ _ _ (fun b hb => ?_) (fun b hb hh => ?_) (fun b hb hh r hr => ?_) (.refl _)
      · rw [account_of_waiverAccount ha] at hb
        cases hb
        exact le_refl _
      · exact Nat.min_le_left _ _
      · unfold Account.waived at hr
        simp only at hr
        cases e1 : a.reward with
        | none => simp [e1] at hr
        | some q =>
          simp only [e1, Option.map_some, Option.some.injEq] at hr
          rw [← hr]
          exact Nat.min_le_left _ _
    · exact .refl _
  exact fewerRecent_works _ (List.length_eraseIdx_le _ _) (h.moves (append_moves hk _ h1))

theorem faultButton_works (hk : KMoves k) (p : DockPos) (x : Nat) (h : Works full s t) :
    Works full s (faultButton k p x t) := by
  unfold faultButton
  split
  · exact h
  · rename_i b _
    have h1 : Works full s (k (.raise (.bike b.id) 10) t) := h.moves (hk _ _).whole
    dsimp only
    repeat' split
    all_goals first | exact h1 | exact waive_works hk _ _ _ h1

/-! ### Dock events -/

theorem giveUp_part (hk : KMoves k) (b x : Nat) (p : DockPos) (t : State) (q : DockPos) :
    Moves false t (giveUp k b x p t q) := by
  unfold giveUp
  repeat' split
  all_goals
    with_reducible
      first
        | exact .refl _
        | exact emptied_part hk _ (.refl _)
        | exact releaseRemoved_moves hk _ _ (.refl _)
        | exact modDock_part _ _ (.refl _)

theorem giveUpAll_part (hk : KMoves k) (b x : Nat) (p : DockPos) (h : Moves false s t) :
    Moves false s (giveUpAll k b x p t) := by
  have h1 := foldl_moves (giveUp_part hk b x p) positions h
  unfold giveUpAll
  dsimp only
  split
  · exact call_moves hk _ h1
  · exact h1

theorem afterHold_moves (hk : KMoves k) (p : DockPos) (b : Bike) (x : Hold × Bool) (h : Moves full s t) :
    Moves full s (afterHold k p b x t) := by
  unfold afterHold
  split
  · refine tellQuarantine_moves _ ?_
    split
    · exact call_moves hk _ h
    · split
      · exact h
      · exact markFault_moves hk _ _ _ h
  · exact h

theorem handOn_works (hk : KMoves k) (p : DockPos) (x : TagReport) (n : Nat) (a b c d : Bool) (h : Works full s t) :
    Works full s (handOn k p x n a b c d t) := by
  unfold handOn
  split
  · dsimp only
    split
    · exact (takeReturn_works hk _ h).moves (moveDrop_moves _ (.refl _))
    · exact takeReturn_works hk _ h
  · split
    · exact h.moves (vanDropped_moves hk _ _ _ _ (.refl _))
    · split
      · exact h
      · exact h.moves (append_moves hk _ (.refl _))

theorem docking_part (hk : KMoves k) (p : DockPos) (x : TagReport) (n : Nat) (a b c : Bool) (h : Works false s t) :
    Works false s (docking k p x n a b c t) := by
  unfold docking
  dsimp only
  refine Works.moves ?_ (chargeAgain_moves hk _ (.refl _))
  refine handOn_works hk _ _ _ _ _ _ _ (h.moves ?_)
  exact afterHold_moves hk _ _ _ (giveUpAll_part hk _ _ _ (modDock_part _ _ (.refl _)))

theorem findAgain_part (hk : KMoves k) (p : DockPos) (b : Bike) (h : Moves false s t) : Moves false s (findAgain k p b t) :=
  chargeAgain_moves hk _ (afterHold_moves hk _ _ _ (modDock_part _ _ h))

theorem updateBike_part (hk : KMoves k) (p : DockPos) (b : Bike) (x : TagReport) (h : Moves false s t) :
    Moves false s (updateBike k p b x t) := by
  unfold updateBike
  split
  · exact findAgain_part hk _ _ h
  · exact evaluateAgain_part hk _ (modDock_part _ _ h)

theorem stockDone_works (h : Works false s t) : Works full s (stockDone t) :=
  (h.moves (stockDone_moves (.refl _))).counted (stockDone_computed t)

theorem takeDocked_part (hk : KMoves k) (p : DockPos) (x : TagReport) (n : Nat) (h : Works false s t) :
    Works false s (takeDocked k p x n t) := by
  unfold takeDocked
  dsimp only
  split
  · exact docking_part hk _ _ _ _ _ _ h
  · exact docking_part hk _ _ _ _ _ _ h
  · split
    · exact h.moves (updateBike_part hk _ _ _ (.refl _))
    · exact docking_part hk _ _ _ _ _ _ (h.moves (writeOff_part hk _ (.refl _)))
  · exact docking_part hk _ _ _ _ _ _ (h.moves (writeOff_part hk _ (.refl _)))
  · split
    · exact h.moves (releaseRelocked_moves hk _ (.refl _))
    · exact docking_part hk _ _ _ _ _ _ (h.moves (releaseRemoved_moves hk _ _ (.refl _)))
  · exact h

theorem bikeDocked_works (hk : KMoves k) (p : DockPos) (x : TagReport) (n : Nat) (h : Works full s t) :
    Works full s (bikeDocked k p x n t) := stockDone_works (takeDocked_part hk _ _ _ h.part)

theorem bikeRemoved_moves (hk : KMoves k) (p : DockPos) (n : Nat) (h : Moves full s t) :
    Moves full s (bikeRemoved k p n t) := by
  unfold bikeRemoved
  refine stockDone_moves ?_
  split
  · exact releaseRemoved_moves hk _ _ h.part
  · exact writeOff_part hk _ h.part
  · exact h.part

theorem bikeRelocked_moves (hk : KMoves k) (p : DockPos) (h : Moves full s t) : Moves full s (bikeRelocked k p t) := by
  unfold bikeRelocked
  refine stockDone_moves ?_
  split
  · exact releaseRelocked_moves hk _ h.part
  · exact modDock_part _ _ h.part
  · exact h.part

theorem settle_moves (hk : KMoves k) (p : DockPos) (h : Moves full s t) : Moves full s (settle k p t) := by
  unfold settle
  split
  · exact h
  · exact submitAt_moves hk _ _ _ (modDock_moves _ _ h fun _ _ => rfl)

theorem presentReleasing_part (hk : KMoves k) (p : DockPos) (x : Option TagReport) (n : Nat) (b : Bool)
    (h : Works false s t) : Works false s (presentReleasing k p x n b t) := by
  unfold presentReleasing
  have h1 : Works false s (releasePresent k p (x.map TagReport.bike) n t) := h.moves (releasePresent_moves hk _ _ _ (.refl _))
  dsimp only
  split
  · exact h1
  · split
    · exact h1
    · exact docking_part hk _ _ _ _ _ _ h1

theorem takePresent_part (hk : KMoves k) (p : DockPos) (x : Option TagReport) (n : Nat) (h : Works false s t) :
    Works false s (takePresent k p x n t) := by
  unfold takePresent
  dsimp only
  split
  · exact docking_part hk _ _ _ _ _ _ h
  · exact h.moves (emptied_part hk _ (.refl _))
  · exact docking_part hk _ _ _ _ _ _ h
  · exact h
  · exact presentReleasing_part hk _ _ _ _ h
  · exact h
  · exact h
  · split
    · exact h.moves (updateBike_part hk _ _ _ (.refl _))
    · exact docking_part hk _ _ _ _ _ _ (h.moves (writeOff_part hk _ (.refl _)))
  · exact h.moves (writeOff_part hk _ (.refl _))
  · exact docking_part hk _ _ _ _ _ _ h

theorem presentDock_works (hk : KMoves k) (p : DockPos) (x : Option TagReport) (n : Nat) (h : Works full s t) :
    Works full s (presentDock k p x n t) := by
  unfold presentDock
  refine stockDone_works (Works.moves ?_ (chargeOffAgain_moves hk _ (.refl _)))
  exact takePresent_part hk _ _ _ (h.part.moves (modDock_part _ _ (.refl _)))

theorem presentMalformed_moves (hk : KMoves k) (p : DockPos) (h : Moves full s t) :
    Moves full s (presentMalformed k p t) := by
  unfold presentMalformed
  have h1 := stockDone_moves (full := full) (modDock_part p (fun d => { d with settling := false }) h.part)
  dsimp only
  split
  · split
    · rename_i r _ hr _
      exact checkFailed_moves hk _ ⟨r, releaseAt_mem hr, rfl, rfl, rfl⟩ h1
    · exact h1
  · exact h1

theorem takeBattery_part (p : DockPos) (n : Option Nat) (h : Moves false s t) : Moves false s (takeBattery p n t) := by
  unfold takeBattery
  dsimp only
  split <;> apply_rules [joinWait_moves, holdAgain_part, modBike_part]

theorem statusUpdate_part (hk : KMoves k) (p : DockPos) (x : DockStatus) (h : Moves false s t) :
    Moves false s (statusUpdate k p x t) := by
  unfold statusUpdate
  apply_rules [chargeAgain_moves, takeContact_part, takeBattery_part]

theorem takeStatus_part (hk : KMoves k) (p : DockPos) (x : DockStatus) (n : Nat) (h : Works false s t) :
    Works false s (takeStatus k p x n t) := by
  unfold takeStatus
  split
  · exact h.moves (settle_moves hk _ (.refl _))
  · exact h
  · exact h.moves (settle_moves hk _ (.refl _))
  · exact takePresent_part hk _ _ _ (h.moves (modDock_part _ _ (.refl _)))
  · exact h.moves (writeOff_part hk _ (.refl _))
  · split
    · exact h.moves (statusUpdate_part hk _ _ (.refl _))
    · exact h.moves (settle_moves hk _ (writeOff_part hk _ (.refl _)))
  · exact h

theorem statusGate_moves (hk : KMoves k) (p : DockPos) (g : Gate) (h : Moves full s t) :
    Moves full s (statusGate k p g t) := by
  unfold statusGate
  split
  · exact setGate_moves hk _ _ h
  · exact h

theorem dockStatus_works (hk : KMoves k) (p : DockPos) (x : DockStatus) (n : Nat) (h : Works full s t) :
    Works full s (dockStatus k p x n t) := by
  unfold dockStatus
  refine stockDone_works (Works.moves ?_ (chargeOffAgain_moves hk _ (statusGate_moves hk _ _ (.refl _))))
  exact takeStatus_part hk _ _ _ (h.part.moves (modDock_part _ _ (.refl _)))

theorem dockLost_moves (hk : KMoves k) (p : DockPos) (h : Moves full s t) : Moves full s (dockLost k p t) := by
  unfold dockLost
  apply_rules [stockDone_moves, call_moves, moveDropFrom_moves, dropPickup_part, leaveLists_moves, releaseLost_moves,
    modDock_part, h.part]

theorem dockRecovered_moves (p : DockPos) (h : Moves full s t) : Moves full s (dockRecovered p t) :=
  stockDone_moves (modDock_part _ _ h.part)

theorem dockTaken_moves (p : DockPos) (h : Moves full s t) : Moves full s (dockTaken p t) :=
  stockDone_moves (modDock_part _ _ h.part)

theorem dockLeft_moves (hk : KMoves k) (p : DockPos) (h : Moves full s t) : Moves full s (dockLeft k p t) := by
  unfold dockLeft
  apply_rules [stockDone_moves, modDock_part, dropPickup_part, moveDropFrom_moves, leaveLists_moves, h.part]

/-! ### Sales -/

theorem saleTaken_moves (d : Drop) (h : Moves full s t) : Moves full s (saleTaken d t) := putSale_moves _ h

theorem saleLeft_moves (d : Drop) (h : Moves full s t) : Moves full s (saleLeft d t) :=
  h.trans { Moves.refl t with kinds := rfl }

theorem modSale_moves (d : Drop) (f : SaleRec → SaleRec) (h : Moves full s t) : Moves full s (t.modSale d f) := by
  unfold State.modSale
  split
  · exact h
  · exact putSale_moves _ h

theorem terminalReady_moves (d : Drop) (r : Ready) (h : Moves full s t) :
    Moves full s (terminalReady d r t) := modSale_moves _ _ h

theorem refuseSale_moves (hk : KMoves k) (d : Drop) (r : Reason) (h : Moves full s t) : Moves full s (refuseSale k d r t) :=
  submitTo_moves hk _ _ _ h

theorem makeReserved_works (hr : t.hire.passes.length < passRoom) (h : Works full s t) : Works full s (makeReserved t).2 :=
  putPass_works hr (fun _ _ hx => absurd hx (by simp [reservedPass])) (by simp [reservedPass]) h

/-- The record that a reserve removes from a full table stands in it. -/
theorem toReclaim_mem {p : PassRec} (h : t.toReclaim = some p) : p ∈ t.hire.passes := by
  have key : ∀ (l : List PassRec) (a : Option PassRec), (∀ q, a = some q → q ∈ t.hire.passes) →
      (∀ q ∈ l, q ∈ t.hire.passes) → ∀ q,
        l.foldl (fun a p => match a with
          | none => some p
          | some q => if reclaimBefore p q then some p else some q) a = some q → q ∈ t.hire.passes := by
    intro l
    induction l with
    | nil => exact fun a ha _ q hq => ha q hq
    | cons x xs ih =>
      intro a ha hl q hq
      refine ih _ (fun y hy => ?_) (fun y hy => hl y (List.mem_cons_of_mem _ hy)) q hq
      dsimp only at hy
      split at hy
      · cases hy
        exact hl _ List.mem_cons_self
      · split at hy
        · cases hy
          exact hl _ List.mem_cons_self
        · cases hy
          exact ha _ rfl
  exact key _ none (fun _ h => by cases h) (fun q hq => (List.mem_filter.1 hq).1) p h

theorem reserveSlot_works (h : Works full s t) : Works full s (reserveSlot t).2 := by
  unfold reserveSlot
  split
  · exact makeReserved_works ‹_› h
  · split
    · exact h
    · rename_i p hp
      have hm := toReclaim_mem hp
      have hlt : (tableErase PassRec.slot p.slot t.hire.passes).length < t.hire.passes.length :=
        length_tableErase_lt hm rfl
      have he := erasePass_moves p.slot (Moves.refl (full := full) t)
      refine h.trans
        { (he.works.trans { Works.refl (t.erasePass p.slot) with passes := id }) with
          passes := fun hs => ?_ }
      have hroom : (t.erasePass p.slot).hire.passes.length < passRoom := lt_of_lt_of_le hlt hs.1
      exact (makeReserved_works (full := full) hroom (.refl _)).passes (he.passes hs)

/-- A reserve makes a record without a token and keeps the others, or removes one. -/
theorem reserveSlot_tokens {n : Nat} (hn : ∀ q ∈ t.hire.passes, q.token ≠ some n) :
    ∀ q ∈ (reserveSlot t).2.hire.passes, q.token ≠ some n := by
  have make : ∀ u : State, (∀ q ∈ u.hire.passes, q.token ≠ some n) →
      ∀ q ∈ (makeReserved u).2.hire.passes, q.token ≠ some n := by
    intro u hu q hq
    rcases mem_of_mem_tablePut hq with rfl | hq
    · simp [reservedPass]
    · exact hu q hq
  unfold reserveSlot
  split
  · exact make t hn
  · split
    · exact hn
    · exact make _ fun q hq => hn q (mem_tableErase.1 hq).1

theorem passOf_none {n : Nat} (h : t.passOf n = none) : ∀ q ∈ t.hire.passes, q.token ≠ some n := by
  intro q hq e
  unfold State.passOf at h
  rw [List.find?_eq_none] at h
  exact h q hq (by simp [e])

theorem openOffer_moves (hk : KMoves k) (r : SaleRec) (x : OfferTerms) (n : Nat) (h : Moves full s t) :
    Moves full s (openOffer k r x n t) := submitTo_moves hk _ _ _ (putSale_moves _ h)

theorem saleRequest_works (hk : KMoves k) (d : Drop) (n : Nat) (h : Works full s t) :
    Works full s (saleRequest k d n t) := by
  unfold saleRequest
  split
  · exact h
  · split
    · exact h.moves (refuseSale_moves hk _ _ (.refl _))
    · split
      · exact h.moves (refuseSale_moves hk _ _ (.refl _))
      · have h1 := reserveSlot_works h
        split
        · rename_i e
          rw [e] at h1
          exact h1.moves (refuseSale_moves hk _ _ (.refl _))
        · rename_i e
          rw [e] at h1
          exact h1.moves (openOffer_moves hk _ _ _ (.refl _))

theorem extendPass_moves (p : PassRec) (x : OfferTerms) (hp : p ∈ t.hire.passes) (h : Moves full s t) :
    Moves full s (extendPass p x t).2 :=
  putPass_moves _ ⟨p, hp, rfl, rfl⟩ (fun hs => hs.2.2.2 p hp) h

theorem activatePass_works (n : Option Nat) (m : Nat) (x : OfferTerms) (hn : ∀ q ∈ t.hire.passes, q.token ≠ some m)
    (h : Works full s t) : Works full s (activatePass n m x t).2 := by
  unfold activatePass
  split
  · exact h
  · split
    · exact h
    · rename_i p hp
      exact activate_works ⟨p, (passSlot_mem hp).1, rfl⟩ hn (Nat.zero_le _) h

theorem completePass_works (r : SaleRec) (x : OfferTerms) (n : Nat) (h : Works full s t) :
    Works full s (completePass r x n t).2 := by
  unfold completePass
  split
  · exact h.moves (freePass_moves _ (.refl _))
  · split
    · rename_i p hp
      exact h.moves (freePass_moves _ (extendPass_moves _ _ (passOf_mem hp).1 (.refl _)))
    · exact activatePass_works _ _ _ (passOf_none ‹_›) h

theorem completeSale_works (hk : KMoves k) (r : SaleRec) (x : OfferTerms) (y : SaleResult) (n : Nat) (h : Works full s t) :
    Works full s (completeSale k r x y n t) := by
  unfold completeSale
  exact (completePass_works r x y.token h).moves (leaveOffer_moves _ _ _ (append_moves hk _ (.refl _)))

theorem orphanPass_works (x : OfferTerms) (n : Nat) (h : Works full s t) : Works full s (orphanPass x n t).2 := by
  unfold orphanPass
  split
  · exact h
  · split
    · rename_i p hp
      exact h.moves (extendPass_moves _ _ (passOf_mem hp).1 (.refl _))
    · rename_i hp
      have h1 := reserveSlot_works h
      have h2 := reserveSlot_tokens (passOf_none hp)
      split
      · rename_i e
        rw [e] at h1
        exact h1
      · rename_i e
        rw [e] at h1 h2
        exact activatePass_works _ _ _ h2 h1

theorem orphanSale_works (hk : KMoves k) (r : SaleRec) (x : OfferTerms) (y : SaleResult) (n : Nat) (h : Works full s t) :
    Works full s (orphanSale k r x y n t) := by
  unfold orphanSale
  exact (orphanPass_works x y.token h).moves (putSale_moves _ (append_moves hk _ (.refl _)))

theorem saleResult_works (hk : KMoves k) (d : Drop) (x : SaleResult) (n : Nat) (h : Works full s t) :
    Works full s (saleResult k d x n t) := by
  unfold saleResult
  split
  · exact h
  · split
    · exact h
    · split
      · exact h
      · split
        · exact completeSale_works hk _ _ _ _ h
        · exact h.moves (leaveOffer_moves _ _ _ (freePass_moves _ (.refl _)))
        · exact orphanSale_works hk _ _ _ _ h
        · exact h.moves (putSale_moves _ (.refl _))
        · split
          · exact orphanSale_works hk _ _ _ _ h
          · exact h
        · split
          · exact h.moves (putSale_moves _ (.refl _))
          · exact h

theorem lapse_moves (hk : KMoves k) (b : Bool) (r : SaleRec) (h : Moves full s t) : Moves full s (lapse k b r t) := by
  unfold lapse
  have h1 := freePass_moves r.slot h
  dsimp only
  refine leaveOffer_moves _ _ _ ?_
  split
  · exact append_moves hk _ h1
  · exact h1

theorem saleDeadline_moves (hk : KMoves k) (d : Drop) (h : Moves full s t) : Moves full s (saleDeadline k d t) := by
  unfold saleDeadline
  repeat' split
  all_goals first | exact h | exact lapse_moves hk _ _ h

/-! ### Delivery -/

theorem deliverDock_works (hk : KMoves k) (p : DockPos) (n : Nat) (b : EventBody) (h : Works full s t) :
    Works full s (deliverDock k p n b t) := by
  unfold deliverDock
  split
  · exact takeTap_works hk _ _ _ _ _ h
  · exact bikeDocked_works hk _ _ _ h
  · exact h.moves (bikeRemoved_moves hk _ _ (.refl _))
  · exact h.moves (bikeRelocked_moves hk _ (.refl _))
  · exact faultButton_works hk _ _ h
  · exact h.moves (hk _ _).whole
  · exact h.moves (hk _ _).whole
  · exact h.moves (contactResult_moves hk _ _ (.refl _))
  · exact h.moves (hk _ _).whole
  · exact h.moves (selfTest_moves hk _ _ _ _ _ (.refl _))
  · exact h

theorem deliverPay_works (hk : KMoves k) (d : Drop) (n : Nat) (b : EventBody) (h : Works full s t) :
    Works full s (deliverPay k d n b t) := by
  unfold deliverPay
  split
  · exact saleRequest_works hk _ _ h
  · exact saleResult_works hk _ _ _ h
  · exact h.moves (hk _ _).whole
  · exact h

theorem deliverVan_moves (hk : KMoves k) (n : Nat) (b : EventBody) (h : Moves full s t) :
    Moves full s (deliverVan k n b t) := by
  unfold deliverVan
  split
  · exact vanArrive_moves hk _ _ _ h
  · exact closeVisit_moves hk _ h
  · exact h

/-- An event delivered changes the state as work may. -/
theorem deliver_works (hk : KMoves k) (e : EventRec) (b : EventBody) (h : Works full s t) :
    Works full s (deliver k e b t) := by
  unfold deliver
  split
  · exact deliverDock_works hk _ _ _ h
  · exact deliverPay_works hk _ _ _ h
  · exact h.moves (deliverVan_moves hk _ _ (.refl _))
  · exact h

/-- A PRESENT changes the state as work may. -/
theorem deliverPresent_works (hk : KMoves k) (e : EventRec) (b : Option EventBody) (h : Works full s t) :
    Works full s (deliverPresent k e b t) := by
  unfold deliverPresent
  split
  · exact presentDock_works hk _ _ _ h
  · exact h.moves (presentMalformed_moves hk _ (.refl _))
  · exact h.moves (terminalReady_moves _ _ (.refl _))
  · exact h.moves (vanReady_moves _ (.refl _))
  · exact h

/-! ### Deadlines together -/

theorem takeGuardAt_moves (hk : KMoves k) (p : DockPos) (h : Moves full s t) : Moves full s (takeGuardAt k p t) := by
  unfold takeGuardAt
  split
  · exact h
  · exact guardReached_moves hk _ (releaseAt_mem ‹_›) h

theorem mem_sortInsert {α : Type} {key : α → Nat} {x y : α} {l : List α} : y ∈ sortInsert key x l ↔ y = x ∨ y ∈ l := by
  induction l with
  | nil => simp [sortInsert]
  | cons z zs ih =>
    unfold sortInsert
    split
    · simp
    · simp [ih, or_left_comm]

/-- Putting a list in order loses and adds nothing. -/
theorem mem_sortBy {α : Type} {key : α → Nat} {y : α} {l : List α} : y ∈ sortBy key l ↔ y ∈ l := by
  have h : ∀ a : List α, y ∈ l.foldl (fun a x => sortInsert key x a) a ↔ y ∈ l ∨ y ∈ a := by
    induction l with
    | nil => simp
    | cons x xs ih => simp [ih, mem_sortInsert, or_left_comm, or_assoc]
  simpa [sortBy] using h []

theorem takeHireDeadlines_works (hk : KMoves k) (h : Works full s t) : Works full s (takeHireDeadlines k t) := by
  refine foldl_mem_works _ h fun d hd u => ?_
  rw [mem_sortBy, hireDeadlines, List.mem_append, List.mem_map, List.mem_filterMap] at hd
  rcases hd with ⟨r, -, rfl⟩ | ⟨r, -, hr⟩
  · exact referralDeadline_works hk _ (.refl _)
  · rw [Option.map_eq_some_iff] at hr
    obtain ⟨g, -, rfl⟩ := hr
    exact (Works.refl u).moves (takeGuardAt_moves hk _ (.refl _))

theorem takeDeadlines_works (hk : KMoves k) (h : Works full s t) : Works full s (takeDeadlines k t) := by
  unfold takeDeadlines
  have h1 : Works full s (takeLapses k (takeHireDeadlines k t)) :=
    (takeHireDeadlines_works hk h).moves (foldl_moves (fun _ _ => saleDeadline_moves hk _ (.refl _)) _ (.refl _))
  exact (expireRecents_works h1).moves (visitCloseTime_moves hk (expireOrders_moves (.refl _)))

end Sys2Proof.Machine
end

