-- ==== Sys2Proof/Laws/Acts.lean ====
section
/-! SUPPORT. What a command may do to the properties of Safety.lean. `Acts` leaves the drop table, the settings and the answer
wait list as they were; `Loads` leaves the wait list alone; `Keeps` says that each property, once it holds, goes on to
hold. -/

namespace Sys2Proof.Machine

open Sys2Proof

variable {k : Kont} {s t : State} {full : Bool}

/-- What a command keeps: each property of Safety.lean on its own; without `full`, the flags may wait for the Stock Unit to
finish (R47). -/
structure Keeps (full : Bool) (s t : State) : Prop where
  queueA : s.engA.QueueSound → t.engA.QueueSound
  queueB : s.engB.QueueSound → t.engB.QueueSound
  out : s.trunk.OutSound → t.trunk.OutSound
  settings : s.trunk.settings.Sound → t.trunk.settings.Sound
  charging : s.trunk.settings.Sound → s.ChargingSound → t.ChargingSound
  cards : s.trunk.settings.Sound → s.hire.CardsSound → t.hire.CardsSound
  passes : s.hire.PassesSound → t.hire.PassesSound
  referrals : s.hire.ReferralsSound → t.hire.ReferralsSound
  releases : s.hire.ReleasesSound → t.hire.ReleasesSound
  recent : s.hire.RecentSound → t.hire.RecentSound
  orders : s.van.OrdersSound → t.van.OrdersSound
  journal : s.journal.Sound → t.journal.Sound
  drops : s.DropTableSound → t.DropTableSound
  flags : full = true → s.stock.FlagsComputed → t.stock.FlagsComputed
  log : s.fault.LogSound → t.fault.LogSound
  pending : t.pending = s.pending

theorem Keeps.refl (s : State) : Keeps full s s :=
  ⟨id, id, id, id, fun _ => id, fun _ => id, id, id, id, id, id, id, id, fun _ => id, id, rfl⟩

theorem Keeps.trans {s t u : State} (h : Keeps full s t) (g : Keeps full t u) : Keeps full s u where
  queueA := g.queueA ∘ h.queueA
  queueB := g.queueB ∘ h.queueB
  out := g.out ∘ h.out
  settings := g.settings ∘ h.settings
  charging hs := g.charging (h.settings hs) ∘ h.charging hs
  cards hs := g.cards (h.settings hs) ∘ h.cards hs
  passes := g.passes ∘ h.passes
  referrals := g.referrals ∘ h.referrals
  releases := g.releases ∘ h.releases
  recent := g.recent ∘ h.recent
  orders := g.orders ∘ h.orders
  journal := g.journal ∘ h.journal
  drops := g.drops ∘ h.drops
  flags hf := g.flags hf ∘ h.flags hf
  log := g.log ∘ h.log
  pending := g.pending.trans h.pending

/-- What a load does: it keeps the properties and leaves the answer wait list alone. -/
structure Loads (full : Bool) (s t : State) : Prop extends Keeps full s t where
  waiting : t.trunk.waiting = s.trunk.waiting

theorem Loads.refl (s : State) : Loads full s s := ⟨.refl s, rfl⟩

theorem Loads.trans {s t u : State} (h : Loads full s t) (g : Loads full t u) : Loads full s u :=
  ⟨h.toKeeps.trans g.toKeeps, g.waiting.trans h.waiting⟩

/-- What a command does beside loads: the drop table, the settings and the answer wait list stay as they were. -/
structure Acts (full : Bool) (s t : State) : Prop where
  queueA : s.engA.QueueSound → t.engA.QueueSound
  queueB : s.engB.QueueSound → t.engB.QueueSound
  entriesA : t.engA.entries = s.engA.entries
  entriesB : t.engB.entries = s.engB.entries
  out : s.trunk.OutSound → t.trunk.OutSound
  settings : t.trunk.settings = s.trunk.settings
  waiting : t.trunk.waiting = s.trunk.waiting
  charging : t.stock.chargingList.length ≤ max s.stock.chargingList.length s.trunk.settings.chargeSlots
  cards : s.trunk.settings.Sound → s.hire.CardsSound → t.hire.CardsSound
  passes : s.hire.PassesSound → t.hire.PassesSound
  referrals : s.hire.ReferralsSound → t.hire.ReferralsSound
  releases : s.hire.ReleasesSound → t.hire.ReleasesSound
  recent : s.hire.RecentSound → t.hire.RecentSound
  orders : s.van.OrdersSound → t.van.OrdersSound
  journal : s.journal.Sound → t.journal.Sound
  flags : full = true → s.stock.FlagsComputed → t.stock.FlagsComputed
  log : s.fault.LogSound → t.fault.LogSound
  pending : t.pending = s.pending

theorem Acts.refl (s : State) : Acts full s s :=
  ⟨id, id, rfl, rfl, id, rfl, rfl, le_max_left _ _, fun _ => id, id, id, id, id, id, id, fun _ => id, id, rfl⟩

theorem Acts.trans {s t u : State} (h : Acts full s t) (g : Acts full t u) : Acts full s u where
  queueA := g.queueA ∘ h.queueA
  queueB := g.queueB ∘ h.queueB
  entriesA := g.entriesA.trans h.entriesA
  entriesB := g.entriesB.trans h.entriesB
  out := g.out ∘ h.out
  settings := g.settings.trans h.settings
  waiting := g.waiting.trans h.waiting
  charging := by
    have h1 := h.charging
    have h2 := g.charging
    rw [h.settings] at h2
    omega
  cards hs := g.cards (by rw [h.settings]; exact hs) ∘ h.cards hs
  passes := g.passes ∘ h.passes
  referrals := g.referrals ∘ h.referrals
  releases := g.releases ∘ h.releases
  recent := g.recent ∘ h.recent
  orders := g.orders ∘ h.orders
  journal := g.journal ∘ h.journal
  flags hf := g.flags hf ∘ h.flags hf
  log := g.log ∘ h.log
  pending := g.pending.trans h.pending

/-- What a command does and ends with the flags computed. -/
theorem Acts.counted (h : Acts false s t) (ht : t.stock.FlagsComputed) : Acts full s t := { h with flags := fun _ _ => ht }

/-- What a load does and ends with the flags computed. -/
theorem Loads.counted (h : Loads false s t) (ht : t.stock.FlagsComputed) : Loads full s t :=
  { h with flags := fun _ _ => ht }

/-- A drop table entry is read from the engine of its segment. -/
theorem entryOf_congr (ha : t.engA.entries = s.engA.entries) (hb : t.engB.entries = s.engB.entries) (d : Drop) :
    t.entryOf d = s.entryOf d := by
  obtain ⟨g, a⟩ := d
  cases g
  · exact congrArg (fun v => v[a]) ha
  · exact congrArg (fun v => v[a]) hb

theorem Acts.loads (h : Acts full s t) : Loads full s t where
  queueA := h.queueA
  queueB := h.queueB
  out := h.out
  settings hs := by rw [h.settings]; exact hs
  charging _ hc := by
    have := h.charging
    unfold State.ChargingSound at *
    rw [h.settings]
    omega
  cards := h.cards
  passes := h.passes
  referrals := h.referrals
  releases := h.releases
  recent := h.recent
  orders := h.orders
  journal := h.journal
  drops hd := by
    have e : ∀ d, t.entryOf d = s.entryOf d := entryOf_congr h.entriesA h.entriesB
    unfold State.DropTableSound at *
    simp only [e]
    exact hd
  flags := h.flags
  log := h.log
  pending := h.pending
  waiting := h.waiting

theorem Acts.keeps (h : Acts full s t) : Keeps full s t := h.loads.toKeeps

/-- Work keeps the properties. -/
theorem Works.acts (h : Works full s t) : Acts full s t where
  queueA := h.engA.room
  queueB := h.engB.room
  entriesA := by rw [h.engA.frame]
  entriesB := by rw [h.engB.frame]
  out hs := by
    obtain ⟨h1, h2, h3⟩ := hs
    have hw : t.trunk.waiting = s.trunk.waiting := by rw [h.trunk.frame]
    refine ⟨h.trunk.queue.2 h1, by rw [hw]; exact h2, fun hne => ?_⟩
    rw [hw] at hne
    have a := h3 hne
    have b := h.trunk.queue.2 h1
    have c := h.trunk.queue.1
    omega
  settings := h.trunk.settings
  waiting := by rw [h.trunk.frame]
  charging := h.charging
  cards := h.cards
  passes := h.passes
  referrals := h.referrals
  releases := h.releases
  recent := h.recent
  orders := h.orders
  journal := h.journal.sound
  flags := h.flags
  log := h.log
  pending := h.pending

theorem Moves.acts (h : Moves full s t) : Acts full s t := h.works.acts

/-- Work follows. -/
theorem Acts.works {u : State} (h : Acts full s t) (g : Works full t u) : Acts full s u := h.trans g.acts

/-- Moves follow. -/
theorem Acts.moves {u : State} (h : Acts full s t) (g : Moves full t u) : Acts full s u := h.trans g.acts

theorem foldl_acts {α : Type} {f : State → α → State} (hf : ∀ t a, Acts full t (f t a)) {s : State} (l : List α)
    {t : State} (h : Acts full s t) : Acts full s (l.foldl f t) := by
  induction l generalizing t with
  | nil => exact h
  | cons a l ih => exact ih (h.trans (hf t a))

/-- An answer offered while the wait list has room (R187, R189). -/
theorem answer_keeps (f : OutFrame) (hw : t.trunk.waiting.length < answerRoom) (h : Keeps full s t) :
    Keeps full s (t.answer f) := by
  have e : (t.trunk.offer f).1.settings = t.trunk.settings := by rw [offer_frame]
  refine h.trans
    { Keeps.refl t with
      out := fun hs => offer_sound hs hw
      settings := fun hs => ?_
      charging := fun _ hc => ?_ }
  · show (t.trunk.offer f).1.settings.Sound
    rw [e]
    exact hs
  · show t.stock.chargingList.length ≤ (t.trunk.offer f).1.settings.chargeSlots
    rw [e]
    exact hc

/-! ### Engines -/

/-- An engine changed with its entries and, but for entries that left it, its command queue. -/
theorem modEng_acts (g : Segment) (f : Engine → Engine) (he : (f (t.eng g)).entries = (t.eng g).entries)
    (hq : (f (t.eng g)).queue.length ≤ (t.eng g).queue.length) (h : Acts full s t) : Acts full s (t.modEng g f) := by
  refine h.trans ?_
  cases g
  · exact { Acts.refl t with queueA := fun hs => le_trans hq hs, entriesA := he }
  · exact { Acts.refl t with queueB := fun hs => le_trans hq hs, entriesB := he }

theorem modDrop_acts (g : Segment) (a : Fin 32) (f : DropRec → DropRec) (h : Acts full s t) :
    Acts full s (t.modDrop g a f) :=
  modEng_acts g _ rfl (le_refl _) h

theorem elapsed_acts (n : Nat) (h : Acts full s t) : Acts full s { t with elapsed := n } :=
  h.trans { Acts.refl t with pending := rfl }

theorem classifier_acts (c : Classifier) (h : Acts full s t) : Acts full s { t with classifier := c } :=
  h.trans { Acts.refl t with pending := rfl }

theorem begin_acts (g : Segment) (a : Fin 32) (w : ExchangeFor) (b : List Byte) (h : Acts full s t) :
    Acts full s (begin_ g a w b t) := modEng_acts g _ rfl (le_refl _) h

theorem sendPoll_acts (g : Segment) (a : Fin 32) (b : Bool) (h : Acts full s t) : Acts full s (sendPoll g a b t) :=
  begin_acts _ _ _ _ h

theorem sendResync_acts (g : Segment) (a : Fin 32) (w : ExchangeFor) (h : Acts full s t) :
    Acts full s (sendResync g a w t) :=
  begin_acts _ _ _ _ h

theorem sendCommand_acts (g : Segment) (x : QueueEntry) (b : Bool) (h : Acts full s t) :
    Acts full s (sendCommand g x b t) := by
  refine begin_acts _ _ _ _ (modEng_acts g _ rfl ?_ h)
  exact List.erase_sublist.length_le

theorem endGap_acts (g : Segment) (n : Nat) (h : Acts full s t) :
    Acts full s (endGap g n t) := modEng_acts g _ rfl (le_refl _) h

theorem tailGap_acts (g : Segment) (m : Nat) (h : Acts full s t) : Acts full s (tailGap g m t) := by
  unfold tailGap
  dsimp only
  split
  · exact sendCommand_acts _ _ _ h
  · exact endGap_acts _ _ h

theorem walk_acts (g : Segment) (m : Nat) (h : Acts full s t) : Acts full s (walk g m t) := by
  unfold walk
  split
  · exact tailGap_acts _ _ (modEng_acts g _ rfl (le_refl _) h)
  · dsimp only
    split
    · exact sendResync_acts _ _ _ (modEng_acts g _ rfl (le_refl _) h)
    · exact sendPoll_acts _ _ _ (modEng_acts g _ rfl (le_refl _) h)

theorem slot_acts (g : Segment) (m : Nat) (h : Acts full s t) : Acts full s (slot g m t) := by
  unfold slot
  split
  · exact sendCommand_acts _ _ _ h
  · exact walk_acts _ _ h

theorem resyncRound_acts (g : Segment) (h : Acts full s t) : Acts full s (resyncRound g t) := by
  unfold resyncRound
  split
  · exact sendResync_acts _ _ _ (modEng_acts g _ rfl (le_refl _) h)
  · exact modEng_acts g _ rfl (le_refl _) h

theorem enterHolding_acts (g : Segment) (h : Acts full s t) :
    Acts full s (enterHolding g t) := modEng_acts g _ rfl (le_refl _) h

theorem flush_acts (hk : KMoves k) (g : Segment) (p : QueueEntry → Bool) (h : Acts full s t) :
    Acts full s (flush k g p t) := by
  unfold flush
  exact foldl_acts (fun _ _ => (hk _ _).whole.acts) _ (modEng_acts g _ rfl (List.length_filter_le _ _) h)

theorem enterRound_acts (g : Segment) (h : Acts full s t) : Acts full s (enterRound g t) := by
  unfold enterRound
  split
  · exact modEng_acts g _ rfl (le_refl _) h
  · exact resyncRound_acts _ (modEng_acts g _ rfl (le_refl _) h)

theorem holdAssert_acts (g : Segment) (h : Acts full s t) : Acts full s (holdAssert g t) := by
  have h1 := modEng_acts g (fun e => { e with holdLine := true }) rfl (le_refl _) h
  unfold holdAssert
  dsimp only
  split
  · exact enterHolding_acts _ h1
  · exact h1

theorem holdRelease_acts (hk : KMoves k) (g : Segment) (h : Acts full s t) : Acts full s (holdRelease k g t) := by
  have h1 := modEng_acts g (fun e => { e with holdLine := false }) rfl (le_refl _) h
  unfold holdRelease
  dsimp only
  split
  · exact enterRound_acts _ (flush_acts hk _ _ (modEng_acts g _ rfl (le_refl _) h1))
  · exact h1

theorem goOn_acts (g : Segment) (m : Nat) (n : Next) (h : Acts full s t) : Acts full s (goOn g m n t) := by
  unfold goOn
  split
  · exact enterHolding_acts _ h
  · split
    · exact modEng_acts g _ rfl (le_refl _) h
    · split
      · exact sendPoll_acts _ _ _ h
      · exact sendResync_acts _ _ _ h
      · exact slot_acts _ _ h
      · exact walk_acts _ _ h
      · exact tailGap_acts _ _ h
      · exact resyncRound_acts _ h

theorem countError_acts (g : Segment) (x : FrameError) (h : Acts full s t) : Acts full s (countError g x t) :=
  modEng_acts g _ rfl (le_refl _) h

theorem giveOutcome_acts (hk : KMoves k) (w : ExchangeFor) (o : CmdOutcome) (h : Acts full s t) :
    Acts full s (giveOutcome k w o t) := by
  unfold giveOutcome
  split
  · exact h.moves (hk _ _).whole
  · exact h

theorem reportLost_acts (hk : KMoves k) (d : Drop) (h : Acts full s t) : Acts full s (reportLost k d t) := by
  unfold reportLost
  split
  · exact h.moves (dockLost_moves hk _ (.refl _))
  · exact h.moves (hk _ _).whole
  · exact h.moves (vanpointLost_moves hk (.refl _))
  · exact h

theorem dropLost_acts (hk : KMoves k) (g : Segment) (a : Fin 32) (w : ExchangeFor) (h : Acts full s t) :
    Acts full s (dropLost k g a w t) := by
  unfold dropLost
  exact reportLost_acts hk _
    (modDrop_acts _ _ _ (giveOutcome_acts hk _ _ (flush_acts hk _ _ (modDrop_acts _ _ _ h))))

theorem miss_acts (hk : KMoves k) (g : Segment) (x : Exchange) (h : Acts full s t) : Acts full s (miss k g x t) := by
  unfold miss
  split
  · exact giveOutcome_acts hk _ _ h
  · split
    · exact giveOutcome_acts hk _ _ h
    · exact giveOutcome_acts hk _ _ h
    · split
      · exact dropLost_acts hk _ _ _ h
      · exact giveOutcome_acts hk _ _ (modDrop_acts _ _ _ h)

theorem reportRecovered_acts (d : Drop) (h : Acts full s t) : Acts full s (reportRecovered d t) := by
  unfold reportRecovered
  split
  · exact h.moves (dockRecovered_moves _ (.refl _))
  · exact h

theorem recovered_acts (hk : KMoves k) (g : Segment) (x : Exchange) (b : Bool) (y : Reply) (h : Acts full s t) :
    Acts full s (recovered k g x b y t) := by
  unfold recovered
  have h1 := modDrop_acts g x.addr (fun r => { r with link := .free .active, misses := 0, resyncDue := true }) h
  dsimp only
  have h2 : Acts full s (if b = true then
      reportRecovered ⟨g, x.addr⟩
        (t.modDrop g x.addr fun r => { r with link := .free .active, misses := 0, resyncDue := true })
      else t.modDrop g x.addr fun r => { r with link := .free .active, misses := 0, resyncDue := true }) := by
    split
    · exact reportRecovered_acts _ h1
    · exact h1
  split
  · exact h2.moves (hk _ _).whole
  · exact modDrop_acts _ _ _ h2
  · exact h2

theorem passStatus_acts (hk : KMoves k) (d : Drop) (y : Reply) (h : Acts full s t) : Acts full s (passStatus k d y t) := by
  unfold passStatus
  split
  · exact h.works (dockStatus_works hk _ _ _ (.refl _))
  · exact h.moves (terminalReady_moves _ _ (.refl _))
  · exact h.moves (vanReady_moves _ (.refl _))
  · exact h

theorem forward_moves (f : Forward) (x : EventFrame) (h : Moves full s t) : Moves full s (forward f x t) := by
  unfold forward
  split
  · split
    · exact h
    · exact offer_moves rfl h
    · exact offer_moves rfl h
  · exact h

theorem classify_acts (hk : KMoves k) (e : EventRec) (h : Acts full s t) : Acts full s (classify k e t) := by
  unfold classify
  split
  · exact h
  · split
    · exact h.works (deliverPresent_works hk _ _ (.refl _))
    · unfold decideEvent
      dsimp only
      split
      · refine Acts.works ?_ (deliver_works hk _ _ (.refl _))
        exact (classifier_acts _ h).moves (forward_moves _ _ (.refl _))
      · exact (classifier_acts _ h).moves (forward_moves _ _ (.refl _))

theorem takeEvent_acts (hk : KMoves k) (d : Drop) (r : DropRec) (a b : Nat) (l : List Byte) (h : Acts full s t) :
    Acts full s (takeEvent k d r a b l t) := by
  unfold takeEvent
  split
  · exact h
  · exact classify_acts hk _ (modDrop_acts _ _ _ h)

theorem takeReply_acts (hk : KMoves k) (g : Segment) (x : Exchange) (r : DropRec) (y : Reply) (h : Acts full s t) :
    Acts full s (takeReply k g x r y t) := by
  unfold takeReply
  have h1 := modDrop_acts g x.addr (fun r => { r with misses := 0 }) h
  dsimp only
  split
  · split
    · exact h1.moves (hk _ _).whole
    · exact modDrop_acts _ _ _ h1
  · exact takeEvent_acts hk _ _ _ _ _ h1
  · exact passStatus_acts hk _ _ h1

theorem goodReply_acts (hk : KMoves k) (g : Segment) (x : Exchange) (y : Reply) (h : Acts full s t) :
    Acts full s (goodReply k g x y t).2 := by
  unfold goodReply
  split
  · exact h
  · split
    · exact recovered_acts hk _ _ _ _ h
    · exact recovered_acts hk _ _ _ _ h
    · exact takeReply_acts hk _ _ _ _ h

theorem exchangeEnds_acts (g : Segment) (m : Nat) (x : Exchange) (h : Acts full s t) : Acts full s (exchangeEnds g m x t) :=
  modEng_acts g _ rfl (le_refl _) h

theorem missed_acts (hk : KMoves k) (g : Segment) (m : Nat) (x : Exchange) (e : FrameError) (h : Acts full s t) :
    Acts full s (missed k g m x e t) := goOn_acts _ _ _ (miss_acts hk _ _ (countError_acts _ _ h))

theorem countCorrected_acts (g : Segment) (x : Exchange) (c : Bool) (h : Acts full s t) :
    Acts full s (countCorrected g x c t) := by
  unfold countCorrected
  split
  · exact modDrop_acts _ _ _ h
  · exact h

/-- A frame that fails a check of table 1-6, whatever a drop sent, is counted by the error and is a miss (R10, R19). -/
theorem frameEnds_of_error (k : Kont) {g : Segment} {m : Nat} {x : Exchange} {f : BusFrame} {er : FrameError}
    (h : (checkFrame (s.entryOf ⟨g, x.addr⟩).kind x f).result = .error er) :
    frameEnds k g m x f s =
      missed k g m x er (countCorrected g x (checkFrame (s.entryOf ⟨g, x.addr⟩).kind x f).corrected s) := by
  unfold frameEnds
  simp only [h]

theorem frameEnds_acts (hk : KMoves k) (g : Segment) (m : Nat) (x : Exchange) (f : BusFrame) (h : Acts full s t) :
    Acts full s (frameEnds k g m x f t) := by
  unfold frameEnds
  dsimp only
  split
  · exact missed_acts hk _ _ _ _ (countCorrected_acts _ _ _ h)
  · exact goOn_acts _ _ _ (goodReply_acts hk _ _ _ (countCorrected_acts _ _ _ h))

theorem changedEnds_acts (hk : KMoves k) (g : Segment) (m : Nat) (x : Exchange) (h : Acts full s t) :
    Acts full s (changedEnds k g m x t) := goOn_acts _ _ _ (giveOutcome_acts hk _ _ h)

theorem frameReceived_acts (hk : KMoves k) (g : Segment) (n : Nat) (f : BusFrame) (h : Acts full s t) :
    Acts full s (frameReceived k g n f t) := by
  unfold frameReceived
  have h1 := elapsed_acts (max t.elapsed n) h
  dsimp only
  split
  · exact h1
  · split
    · exact changedEnds_acts hk _ _ _ (exchangeEnds_acts _ _ _ h1)
    · exact frameEnds_acts hk _ _ _ _ (exchangeEnds_acts _ _ _ h1)

theorem windowExpired_acts (hk : KMoves k) (g : Segment) (n : Nat) (h : Acts full s t) :
    Acts full s (windowExpired k g n t) := by
  unfold windowExpired
  have h1 := elapsed_acts (max t.elapsed n) h
  dsimp only
  split
  · exact h1
  · split
    · exact changedEnds_acts hk _ _ _ (countError_acts _ _ (exchangeEnds_acts _ _ _ h1))
    · exact missed_acts hk _ _ _ _ (exchangeEnds_acts _ _ _ h1)

theorem sweepStart_acts (g : Segment) (n : Nat) (h : Acts full s t) : Acts full s (sweepStart g n t) := by
  unfold sweepStart
  have h1 := elapsed_acts (max t.elapsed n) h
  dsimp only
  split
  · exact walk_acts _ _ (modEng_acts g _ rfl (le_refl _) h1)
  · exact h1

theorem engineAfterLoad_acts (g : Segment) (h : Acts full s t) : Acts full s (engineAfterLoad g t) := by
  unfold engineAfterLoad
  dsimp only
  split
  · exact h
  · split
    · split
      · exact h
      · exact modEng_acts g _ rfl (le_refl _) h
    · split
      · exact modEng_acts g _ rfl (le_refl _) h
      · exact h

/-! ### The trunk -/

/-- The Trunk Controller changed in fields that no property names. -/
theorem modTrunk_acts (f : Trunk → Trunk) (hq : (f t.trunk).queue = t.trunk.queue)
    (hw : (f t.trunk).waiting = t.trunk.waiting) (hs : (f t.trunk).settings = t.trunk.settings) (h : Acts full s t) :
    Acts full s (t.modTrunk f) :=
  h.trans
    { Acts.refl t with
      out := fun ho => by
        show (f t.trunk).OutSound
        unfold Trunk.OutSound
        rw [hq, hw]
        exact ho
      settings := hs
      waiting := hw }

theorem modCounts_acts (f : RxCounts → RxCounts) (h : Acts full s t) : Acts full s (t.modCounts f) :=
  modTrunk_acts _ rfl rfl rfl h

theorem connect_acts (h : Acts full s t) : Acts full s (connect t) := by
  unfold connect
  have h1 := modTrunk_acts (fun t => { t with connected := true }) rfl rfl rfl h
  exact h1.moves (notifyAll_moves (recount_moves (.refl _)))

theorem frameArrives_acts (h : Acts full s t) : Acts full s (frameArrives t) := by
  unfold frameArrives
  have h1 := modTrunk_acts Trunk.restartTimer rfl rfl rfl h
  dsimp only
  split
  · exact h1
  · exact connect_acts h1

theorem islandTimeout_acts (hk : KMoves k) (h : Acts full s t) : Acts full s (islandTimeout k t) := by
  unfold islandTimeout
  split
  · have h1 := modTrunk_acts (fun t => { t with connected := false, timerOn := false }) rfl rfl rfl h
    exact h1.works (islandReferrals_works hk (.refl _))
  · exact h

theorem timeTick_acts (h : Acts full s t) : Acts full s (timeTick t) := modTrunk_acts _ rfl rfl rfl h

/-- A frame with an answer keeps the properties if what it does with room in the wait list keeps them (R187). -/
theorem takeFrame_keeps (act : State → State)
    (ha : ∀ t, t.trunk.waiting.length < answerRoom → Keeps full t (act t)) (h : Keeps full s t) : Keeps full s (takeFrame act t) := by
  have h1 := h.trans (frameArrives_acts (.refl t)).keeps
  unfold takeFrame
  dsimp only
  split
  · exact h1.trans (ha _ ‹_›)
  · exact h1.trans (modCounts_acts _ (.refl _)).keeps

theorem malformed_keeps (f : OutFrame) (hw : t.trunk.waiting.length < answerRoom) : Keeps full t (malformed f t) :=
  answer_keeps f hw (modCounts_acts _ (.refl _)).keeps

theorem serveIfReady_acts (h : Acts full s t) : Acts full s (serveIfReady t).2 := by
  unfold serveIfReady
  split
  · dsimp only
    exact modTrunk_acts _ rfl rfl rfl h
  · exact h

theorem startService_acts (h : Acts full s t) : Acts full s (startService t).2 := by
  unfold startService
  split
  · exact serveIfReady_acts h
  · exact h
  · exact h

theorem leaveMaintenance_acts (h : Acts full s t) : Acts full s (leaveMaintenance t).2 := by
  unfold leaveMaintenance
  split
  · exact h
  · exact h
  · exact serveIfReady_acts h

theorem settleMode_acts (h : Acts full s t) : Acts full s (t.modTrunk Trunk.settleMode) := by
  refine h.moves (trunk_moves _ (settleMode_trunkMoves _) (.refl _))

theorem enterMaintenance_acts (hk : KMoves k) (h : Acts full s t) : Acts full s (enterMaintenance k t).2 := by
  unfold enterMaintenance
  split
  · dsimp only
    exact modTrunk_acts _ rfl rfl rfl h
  · unfold enterPending setMarks
    refine settleMode_acts (modTrunk_acts _ rfl rfl rfl ?_)
    exact (modTrunk_acts _ rfl rfl rfl h).moves (closeVisit_moves hk _ (.refl _))
  · exact h
  · exact h

theorem timeSet_acts (hk : KMoves k) (n : Nat) (h : Acts full s t) : Acts full s (timeSet k n t) := by
  unfold timeSet
  have h1 := modTrunk_acts (fun t => { t with time := n, timeValid := true }) rfl rfl rfl h
  dsimp only
  split
  · exact h1.works (takeDeadlines_works hk (.refl _))
  · exact h1

theorem clearFault_acts (hk : KMoves k) (n : Nat) (h : Acts full s t) : Acts full s (clearFault k n t).2 := by
  unfold clearFault
  split
  · exact h
  · split
    · exact h
    · split
      · unfold faultTakes
        exact h.moves (faultDone_moves hk (clearRecord_moves hk _ _ (modFault_moves _ id (.refl _))))
      · exact h

theorem setDockService_acts (hk : KMoves k) (o : ServiceOrder) (h : Acts full s t) :
    Acts full s (setDockService k o t).2 := by
  unfold setDockService
  split
  · exact h.moves (setServiceCentral_moves hk _ _ (.refl _))
  · exact h

theorem outboundSend_keeps (h : Keeps full s t) : Keeps full s (outboundSend t) := by
  unfold outboundSend
  split
  · split
    · rename_i f hf
      exact h.trans { Keeps.refl t with out := fun ho => send_sound ho (leaving_mem hf) }
    · exact h
  · exact h

/-! ### Orders -/

theorem length_orderInsert (o : VanOrder) (l : List VanOrder) : (orderInsert o l).length = l.length + 1 := by
  induction l with
  | nil => simp [orderInsert]
  | cons y ys ih =>
    unfold orderInsert
    split <;> simp [ih]

theorem mem_orderInsert {o x : VanOrder} {l : List VanOrder} : x ∈ orderInsert o l ↔ x = o ∨ x ∈ l := by
  induction l with
  | nil => simp [orderInsert]
  | cons y ys ih =>
    unfold orderInsert
    split
    · simp
    · simp [ih]
      tauto

theorem nodup_orderInsert {o : VanOrder} {l : List VanOrder} (hl : (l.map VanOrder.id).Nodup)
    (ho : ∀ x ∈ l, x.id ≠ o.id) : ((orderInsert o l).map VanOrder.id).Nodup := by
  induction l with
  | nil => simp [orderInsert]
  | cons y ys ih =>
    unfold orderInsert
    rw [List.map_cons, List.nodup_cons] at hl
    split
    · rw [List.map_cons, List.nodup_cons, List.map_cons, List.nodup_cons]
      refine ⟨?_, hl⟩
      rw [← List.map_cons, List.mem_map]
      rintro ⟨x, hx, e⟩
      exact ho x hx e
    · rw [List.map_cons, List.nodup_cons]
      refine ⟨?_, ih hl.2 fun x hx => ho x (List.mem_cons_of_mem _ hx)⟩
      rw [List.mem_map]
      rintro ⟨x, hx, e⟩
      rcases mem_orderInsert.1 hx with rfl | hx
      · exact ho y List.mem_cons_self e.symm
      · exact hl.1 (List.mem_map.2 ⟨x, hx, e⟩)

/-- A REPLACED order names a pending one (R134). -/
theorem orderResult_replaced {o : VanOrder} (h : t.orderResult o = .replaced) : ∃ x ∈ t.van.orders, x.id = o.id := by
  unfold State.orderResult at h
  split_ifs at h with h1 h2 h3 h4 h5 h6
  obtain ⟨x, hx, e⟩ := List.any_eq_true.1 h5
  exact ⟨x, hx, by simpa using e⟩

/-- An ACCEPTED order names no pending one, and the list has room (R134). -/
theorem orderResult_accepted {o : VanOrder} (h : t.orderResult o = .accepted) :
    t.van.orders.length < orderRoom ∧ ∀ x ∈ t.van.orders, x.id ≠ o.id := by
  unfold State.orderResult at h
  split_ifs at h with h1 h2 h3 h4 h5 h6
  refine ⟨by omega, fun x hx e => h5 (List.any_eq_true.2 ⟨x, hx, by simp [e]⟩)⟩

/-- Taking a van order keeps the list of pending orders sound (R133, R134). -/
theorem takeOrder_acts (o : VanOrder) (h : Acts full s t) : Acts full s (takeOrder o (t.orderResult o) t) := by
  unfold takeOrder
  split
  · rename_i hr
    obtain ⟨x, hx, e⟩ := orderResult_replaced hr
    refine h.trans { Acts.refl t with orders := fun hs => ⟨?_, ?_⟩ }
    · have hlt : (t.van.orders.filter fun x => x.id != o.id).length < t.van.orders.length :=
        List.length_filter_lt_length_iff_exists.2 ⟨x, hx, by simp [e]⟩
      show (orderInsert o _).length ≤ _
      rw [length_orderInsert]
      exact lt_of_lt_of_le hlt hs.1
    · exact nodup_orderInsert (hs.2.sublist (List.filter_sublist.map _)) fun x hx => by
        simpa using (List.mem_filter.1 hx).2
  · rename_i hr
    obtain ⟨h1, h2⟩ := orderResult_accepted hr
    refine h.trans { Acts.refl t with orders := fun hs => ⟨?_, nodup_orderInsert hs.2 h2⟩ }
    show (orderInsert o _).length ≤ _
    rw [length_orderInsert]
    omega
  · exact h

end Sys2Proof.Machine
end

