-- ==== Sys2Proof/Laws/LoadsKeep.lean ====
section
/-! SUPPORT. The table loads and the resets keep the properties of Safety.lean. -/

namespace Sys2Proof.Machine

open Sys2Proof

variable {k : Kont} {s t : State} {full : Bool}

/-! ### Entries one by one -/

/-- Entries taken in order keep what each of them keeps. -/
theorem takeEntries_loads {α : Type} {f : α → State → Option EntryRefusal × State} {l : List α}
    (hf : ∀ e ∈ l, ∀ u, Loads full u (f e u).2) (n : Nat) (r : LoadRun) : Loads full r.state (takeEntries f l n r).state := by
  induction l generalizing n r with
  | nil => exact .refl _
  | cons e es ih =>
    have h1 : (r.take f n e).state = (f e r.state).2 := by
      unfold LoadRun.take
      split <;> rename_i h <;> rw [h]
    have h2 := hf e List.mem_cons_self r.state
    rw [← h1] at h2
    exact h2.trans (ih (fun x hx => hf x (List.mem_cons_of_mem _ hx)) (n + 1) (r.take f n e))

/-! ### The drop table (R2) -/

theorem nodup_allDrops : allDrops.Nodup := by decide

/-- The entry at a drop replaced, as a load first does. -/
theorem withEntry_entryOf (s : State) (d : Drop) (x : TableEntry) (c : Drop) :
    (s.modEng d.seg fun e => e.withEntry d.addr x).entryOf c = if c = d then x else s.entryOf c := by
  obtain ⟨g, a⟩ := d
  obtain ⟨h, b⟩ := c
  have e : ∀ e : Engine, (e.withEntry a x).entries[b] = if b = a then x else e.entries[b] := by
    intro e
    show (e.entries.set a.val x)[b] = _
    by_cases hb : b = a
    · subst hb
      simp
    · have : a.val ≠ b.val := fun h => hb (Fin.ext h.symm)
      simp [Vector.getElem_set_ne, this, hb]
  cases g <;> cases h <;> simp only [Drop.mk.injEq, reduceCtorEq, false_and, true_and, if_false]
  · exact e s.engA
  · rfl
  · rfl
  · exact e s.engB

/-- The number of entries of a kind after one entry was replaced. -/
theorem countP_replaced (s : State) (d : Drop) (x y : TableEntry) :
    allDrops.countP (fun c => (if c = d then x else s.entryOf c) == y) ≤
      s.entriesElsewhere d y + if x = y then 1 else 0 := by
  have key : ∀ l : List Drop, l.Nodup →
      l.countP (fun c => (if c = d then x else s.entryOf c) == y) ≤
        l.countP (fun c => c != d && s.entryOf c == y) + if x = y then (if d ∈ l then 1 else 0) else 0 := by
    intro l
    induction l with
    | nil => simp
    | cons c cs ih =>
      intro hn
      rw [List.nodup_cons] at hn
      have := ih hn.2
      rw [List.countP_cons, List.countP_cons]
      by_cases hc : c = d
      · subst hc
        by_cases hx : x = y
        · simp [hx, hn.1] at this ⊢
          omega
        · simp [hx] at this ⊢
          omega
      · by_cases hx : x = y
        · simp [hx, hc, Ne.symm hc] at this ⊢
          omega
        · simp [hx, hc] at this ⊢
          omega
  refine (key allDrops nodup_allDrops).trans ?_
  unfold State.entriesElsewhere
  split
  · split <;> omega
  · omega

theorem entriesElsewhere_le (s : State) (d : Drop) (y : TableEntry) :
    s.entriesElsewhere d y ≤ allDrops.countP (fun c => s.entryOf c == y) := by
  unfold State.entriesElsewhere
  exact List.countP_mono_left fun c _ h => by
    simp at h ⊢
    exact h.2

theorem mem_allDrops (d : Drop) : d ∈ allDrops := by
  obtain ⟨g, a⟩ := d
  unfold allDrops addresses
  cases g <;> simp

/-- An entry that is not refused leaves the drop table sound (R2, table 1-2). -/
theorem withEntry_drops {d : Drop} {x : TableEntry} (hr : s.entryRefusal d x = none) (hs : s.DropTableSound) :
    (s.modEng d.seg fun e => e.withEntry d.addr x).DropTableSound := by
  have e := withEntry_entryOf s d x
  obtain ⟨h1, h2, h3⟩ := hs
  refine ⟨fun a _ b _ p ha hb => ?_, ?_, ?_⟩
  · rw [e] at ha hb
    have alone : ∀ c, c ≠ d → s.entryOf c = .dock p → x ≠ .dock p := by
      rintro c hc hcp rfl
      unfold State.entryRefusal at hr
      have : 0 < s.entriesElsewhere d (.dock p) :=
        List.countP_pos_iff.2 ⟨c, mem_allDrops c, by simp [hc, hcp]⟩
      simp [this] at hr
    by_cases had : a = d <;> by_cases hbd : b = d
    · rw [had, hbd]
    · rw [if_pos had] at ha
      rw [if_neg hbd] at hb
      exact absurd ha (alone b hbd hb)
    · rw [if_neg had] at ha
      rw [if_pos hbd] at hb
      exact absurd hb (alone a had ha)
    · rw [if_neg had] at ha
      rw [if_neg hbd] at hb
      exact h1 a (mem_allDrops a) b (mem_allDrops b) p ha hb
  · simp only [e]
    refine (countP_replaced s d x .pay).trans ?_
    have := entriesElsewhere_le s d .pay
    split
    · rename_i hx
      subst hx
      simp [State.entryRefusal] at hr
      omega
    · omega
  · simp only [e]
    refine (countP_replaced s d x .vanpoint).trans ?_
    have := entriesElsewhere_le s d .vanpoint
    split
    · rename_i hx
      subst hx
      simp [State.entryRefusal] at hr
      omega
    · omega

theorem withEntry_loads {d : Drop} {x : TableEntry} (hr : s.entryRefusal d x = none) :
    Loads full s (s.modEng d.seg fun e => e.withEntry d.addr x) := by
  have hd := withEntry_drops hr
  obtain ⟨g, a⟩ := d
  cases g
  · exact { Loads.refl s with drops := hd }
  · exact { Loads.refl s with drops := hd }

theorem tellLeft_acts (hk : KMoves k) (d : Drop) (x : TableEntry) (h : Acts full s t) : Acts full s (tellLeft k d x t) := by
  unfold tellLeft
  split
  · exact h.moves (dockLeft_moves hk _ (.refl _))
  · exact h.moves (saleLeft_moves _ (.refl _))
  · exact h.moves (vanReady_moves _ (.refl _))
  · exact h

theorem tellTaken_acts (d : Drop) (x : TableEntry) (h : Acts full s t) : Acts full s (tellTaken d x t) := by
  unfold tellTaken
  split
  · exact h.moves (dockTaken_moves _ (.refl _))
  · exact h.moves (saleTaken_moves _ (.refl _))
  · exact h.moves (vanReady_moves _ (.refl _))
  · exact h

theorem changeEntry_loads (hk : KMoves k) {d : Drop} {x : TableEntry} (hr : s.entryRefusal d x = none) :
    Loads full s (changeEntry k d x s) := by
  refine (withEntry_loads hr).trans (Acts.loads ?_)
  unfold changeEntry
  exact tellTaken_acts _ _ (tellLeft_acts hk _ _ (modEng_acts _ _ rfl (le_refl _) (flush_acts hk _ _ (.refl _))))

theorem loadDrop_loads (hk : KMoves k) (e : DropEntry) (s : State) : Loads full s (loadDrop k e s).2 := by
  unfold loadDrop
  split
  · split
    · exact .refl _
    · split
      · exact .refl _
      · dsimp only
        split
        · exact .refl _
        · exact changeEntry_loads hk ‹_›
  · exact .refl _

theorem afterDropTable_acts (s : State) : Acts full s (afterDropTable s) :=
  engineAfterLoad_acts _ (engineAfterLoad_acts _ (.refl _))

/-! ### The plain tables -/

theorem loadRule_acts (e : RuleEntry) (s : State) : Acts full s (loadRule e s).2 := by
  unfold loadRule
  split
  · split
    · exact classifier_acts _ (.refl _)
    · exact .refl _
  · exact .refl _

theorem loadPolicy_moves (e : FaultPolicyEntry) (s : State) : Moves full s (loadPolicy e s).2 := by
  unfold loadPolicy
  split
  · split
    · split
      · dsimp only
        exact modFault_moves _ id (.refl _)
      · exact .refl _
    · exact .refl _
  · exact .refl _

theorem loadPassKind_acts (e : PassKindEntry) (s : State) : Acts full s (loadPassKind e s).2 := by
  unfold loadPassKind
  split
  · split
    · exact { Acts.refl s with pending := rfl }
    · exact .refl _
  · exact .refl _

theorem loadTariff_acts (e : TariffEntry) (s : State) : Acts full s (loadTariff e s).2 := by
  unfold loadTariff
  split
  · split
    · exact { Acts.refl s with pending := rfl }
    · exact .refl _
  · exact .refl _

theorem loadTarget_part (e : TargetEntry) (s : State) : Acts false s (loadTarget e s).2 := by
  unfold loadTarget
  split
  · split
    · exact { Acts.refl (full := false) s with charging := le_max_left _ _, flags := fun hf => nomatch hf }
    · exact .refl _
  · exact .refl _

/-! ### The fault policy (R157) -/

theorem policyBike_moves (hk : KMoves k) (b : FaultUnit) (s : State) (p : DockPos) : Moves full s (policyBike k b s p) := by
  unfold policyBike
  split
  · exact .refl _
  · split
    · exact holdBike_moves hk _ (.refl _)
    · split
      · exact markFault_moves hk _ _ _ (liftQuarantine_moves _ (.refl _))
      · exact .refl _
    · exact .refl _

theorem policyCharge_moves (hk : KMoves k) (b : FaultUnit) (s : State) (p : DockPos) :
    Moves full s (policyCharge k b s p) := by
  unfold policyCharge
  split
  · exact stockDone_moves (chargeAgain_moves hk _ (.refl _))
  · exact .refl _

theorem policyApplied_moves (hk : KMoves k) (b : FaultUnit) (h : Moves full s t) : Moves full s (policyApplied k b t) := by
  unfold policyApplied
  exact foldl_moves (policyCharge_moves hk b) _
    (foldl_moves (policyBike_moves hk b) _ (foldl_moves (fun _ _ => serviceAgain_moves hk _ (.refl _)) _ h))

theorem takeEntries_policy (l : List FaultPolicyEntry) (n : Nat) (r : LoadRun) :
    Moves full r.state (takeEntries loadPolicy l n r).state := by
  induction l generalizing n r with
  | nil => exact .refl _
  | cons e es ih =>
    have h1 : (r.take loadPolicy n e).state = (loadPolicy e r.state).2 := by
      unfold LoadRun.take
      split <;> rename_i h <;> rw [h]
    have h2 := loadPolicy_moves (full := full) e r.state
    rw [← h1] at h2
    exact h2.trans (ih (n + 1) (r.take loadPolicy n e))

theorem policyOwner_acts (hk : KMoves k) (f : Load FaultPolicyEntry) (l : List FaultPolicyEntry) (s : State) :
    Acts full s (policyOwner k f l s).2 := by
  have h1 : ∀ u, Moves full u (takeEntries loadPolicy l f.first (LoadRun.start u)).state := fun u =>
    takeEntries_policy l f.first (LoadRun.start u)
  have h2 : ∀ u, Moves full u (policyApplied k s.fault (takeEntries loadPolicy l f.first (LoadRun.start u)).state) := fun u =>
    policyApplied_moves hk s.fault (h1 u)
  have h3 := (modFault_moves (fun u => { u with busy := true }) id (Moves.refl s)).trans (h2 _)
  exact (faultDone_moves hk h3).acts

/-! ### The settings (R195, R57) -/

/-- Settings within their ranges but for the resume level, which is taken when a load is complete (R195). -/
abbrev Settings.SoundBut (x : Settings) : Prop :=
  x.chargeSlots ≤ 16 ∧ x.strangerHeadroom ≤ 5000 ∧ x.strangerClass ≤ 7 ∧ 80 ≤ x.chargeFull ∧ x.chargeFull ≤ 100
    ∧ 5 ≤ x.rideMin ∧ x.rideMin ≤ 50 ∧ 1 ≤ x.replyWindow ∧ x.replyWindow ≤ 10
    ∧ 20 ≤ x.sweepInterval ∧ x.sweepInterval ≤ 500 ∧ 10 ≤ x.takeWindow ∧ x.takeWindow ≤ 60 ∧ 1 ≤ x.referralDeadline
    ∧ x.referralDeadline ≤ 15 ∧ 10 ≤ x.islandTimeout ∧ x.islandTimeout ≤ 600 ∧ 30 ≤ x.saleWindow ∧ x.saleWindow ≤ 300
    ∧ x.waiverWindow ≤ 600 ∧ x.minHeadroom ≤ 5000 ∧ x.rewardMinRide ≤ 3600 ∧ -43200 ≤ x.dayOffset
    ∧ x.dayOffset ≤ 43200 ∧ x.defaultAction ≠ .urgentMirror

theorem clampInt_bounds {lo hi v : Int} (h : lo ≤ hi) : lo ≤ clampInt lo hi v ∧ clampInt lo hi v ≤ hi := by
  unfold clampInt
  omega

theorem mark_settings (r : SettingsRun) (x : Setting) (b : Bool) : (r.mark x b).settings = r.settings := by
  unfold SettingsRun.mark
  split <;> rfl

theorem putSetting_soundBut (m : Nat) (n : NumSetting) (v : Int) {x : Settings} (h : x.SoundBut) :
    (putSetting n (clampInt (settingRange m n).1 (settingRange m n).2 v) x).SoundBut := by
  by_cases hn : n = .resume
  · subst hn
    exact h
  obtain ⟨a1, a2, a3, a4, a5, a6, a7, a8, a9, a10, a11, a12, a13, a14, a15, a16, a17, a18, a19, a20, a21, a22, a23, a24,
    a25⟩ := h
  have hr : (settingRange m n).1 ≤ (settingRange m n).2 := by cases n <;> simp [settingRange] at hn ⊢
  obtain ⟨b1, b2⟩ := clampInt_bounds (v := v) hr
  generalize clampInt (settingRange m n).1 (settingRange m n).2 v = w at b1 b2
  cases n <;> simp only [settingRange] at b1 b2 <;> simp only [putSetting, Settings.SoundBut] <;>
    refine ⟨?_, ?_, ?_, ?_, ?_, ?_, ?_, ?_, ?_, ?_, ?_, ?_, ?_, ?_, ?_, ?_, ?_, ?_, ?_, ?_, ?_, ?_, ?_, ?_, a25⟩ <;>
    with_reducible first
    | assumption
    | (clear a1 a2 a3 a4 a5 a6 a7 a8 a9 a10 a11 a12 a13 a14 a15 a16 a17 a18 a19 a20 a21 a22 a23 a24 a25; omega)

theorem entry_soundBut {m : Nat} {r q : SettingsRun} {e : SettingEntry} (he : r.entry m e = some q) (h : r.settings.SoundBut) :
    q.settings.SoundBut := by
  unfold SettingsRun.entry at he
  split at he
  · simp only [Option.some.injEq] at he
    rw [← he, mark_settings]
    exact putSetting_soundBut _ _ _ h
  · simp only [Option.some.injEq] at he
    rw [← he, mark_settings]
    exact h
  · simp only [Option.some.injEq] at he
    rw [← he, mark_settings]
    obtain ⟨a1, a2, a3, a4, a5, a6, a7, a8, a9, a10, a11, a12, a13, a14, a15, a16, a17, a18, a19, a20, a21, a22, a23,
      a24, -⟩ := h
    refine ⟨a1, a2, a3, a4, a5, a6, a7, a8, a9, a10, a11, a12, a13, a14, a15, a16, a17, a18, a19, a20, a21, a22, a23, a24, ?_⟩
    rename_i x
    rcases x with _ | x
    · simp
    · cases x <;> simp
  · cases he

theorem settingsEntries_soundBut (m : Nat) (l : List SettingEntry) (n : Nat) {r : SettingsLoad}
    (h : r.run.settings.SoundBut) : (settingsEntries m l n r).run.settings.SoundBut := by
  induction l generalizing n r with
  | nil => exact h
  | cons e es ih =>
    unfold settingsEntries
    refine ih _ ?_
    split
    · exact entry_soundBut ‹_› h
    · exact h

/-- A load of settings leaves them within their ranges (R195). -/
theorem settingsOf_sound (x : Settings) (l : List SettingEntry) (n : Nat) (h : x.Sound) :
    (settingsOf x l n).run.settings.Sound := by
  obtain ⟨a1, a2, a3, a4, a5, a6, a7, a8, a9, a10, a11, a12, a13, a14, a15, a16, a17, a18, a19, a20, a21, a22, a23, a24,
    a25, a26, a27⟩ := h
  have hb := settingsEntries_soundBut (rideMinAfter x.rideMin l) l n (r := { applied := 0, refusal := none, run := { settings := x, clamped := [] } })
    ⟨a1, a2, a3, a4, a5, a6, a7, a10, a11, a12, a13, a14, a15, a16, a17, a18, a19, a20, a21, a22, a23, a24, a25, a26, a27⟩
  unfold settingsOf
  dsimp only
  generalize settingsEntries (rideMinAfter x.rideMin l) l n { applied := 0, refusal := none, run := { settings := x, clamped := [] } } = r at hb
  unfold SettingsRun.finish
  dsimp only
  rw [mark_settings]
  obtain ⟨b1, b2, b3, b4, b5, b6, b7, b8, b9, b10, b11, b12, b13, b14, b15, b16, b17, b18, b19, b20, b21, b22, b23, b24,
    b25⟩ := hb
  refine ⟨b1, b2, b3, b4, b5, b6, b7, ?_, ?_, b8, b9, b10, b11, b12, b13, b14, b15, b16, b17, b18, b19, b20, b21, b22, b23,
    b24, b25⟩
  · show r.run.settings.rideMin + 5 ≤ clampNat (r.run.settings.rideMin + 5) 60 r.run.settings.resume
    unfold clampNat
    omega
  · show clampNat (r.run.settings.rideMin + 5) 60 r.run.settings.resume ≤ 60
    unfold clampNat
    omega

/-- A demotion shortens a charging list that is too long (R57). -/
theorem demote_length (hk : KMoves k) {p : DockPos} (hp : p ∈ t.stock.chargingList) :
    (demote k p t).stock.chargingList.length ≤ max (t.stock.chargingList.length - 1) t.trunk.settings.chargeSlots := by
  have h1 : (leaveCharging p .notCharging t).stock.chargingList.length = t.stock.chargingList.length - 1 :=
    List.length_erase_of_mem hp
  have h2 := (oweChargeOff_moves hk p (joinWait_moves p (Moves.refl (full := true) (leaveCharging p .notCharging t)))).charging
  rw [h1] at h2
  exact h2

theorem demoteUpTo_length (hk : KMoves k) (n : Nat) :
    (demoteUpTo k n t).stock.chargingList.length ≤
        max (t.stock.chargingList.length - n) t.trunk.settings.chargeSlots ∧
      Moves full t (demoteUpTo k n t) := by
  induction n generalizing t with
  | zero => exact ⟨by simp [demoteUpTo], .refl _⟩
  | succ n ih =>
    unfold demoteUpTo
    split
    · rename_i h
      rw [List.getLast?_eq_none_iff] at h
      exact ⟨by simp [h], .refl _⟩
    · rename_i p hp
      split
      · have hm : p ∈ t.stock.chargingList := List.mem_of_getLast? hp
        have h1 := demote_length hk hm
        have h2 := demote_moves hk p (Moves.refl (full := full) t)
        obtain ⟨h3, h4⟩ := ih (t := demote k p t)
        rw [h2.trunk.settings] at h3
        exact ⟨by omega, h2.trans h4⟩
      · exact ⟨by omega, .refl _⟩

theorem chargingSettings_moves (hk : KMoves k) (h : Moves full s t) : Moves full s (chargingSettings k t) := by
  have h1 := foldl_moves settingsHold_part positions h.part
  have h2 := foldl_moves (settingsFull_moves hk) positions h1
  exact stockDone_moves (grant_moves hk (h2.trans (demoteUpTo_length hk 60).2))

/-- The charging list is within the charge slot limit after a change of the charging settings (R57). -/
theorem chargingSettings_length (hk : KMoves k) (h60 : t.stock.chargingList.length ≤ 60 + t.trunk.settings.chargeSlots) :
    (chargingSettings k t).stock.chargingList.length ≤ t.trunk.settings.chargeSlots := by
  have h1 := foldl_moves settingsHold_part positions (Moves.refl t)
  have h2 := foldl_moves (settingsFull_moves hk) positions h1
  generalize hu : positions.foldl (settingsFull k) (positions.foldl settingsHold t) = u at h2
  obtain ⟨h3, h4⟩ := demoteUpTo_length (full := true) hk 60 (t := u)
  have h5 := stockDone_moves (full := true) (grant_moves hk (Moves.refl (demoteUpTo k 60 u)))
  have e : chargingSettings k t = stockDone (grant k (demoteUpTo k 60 u)) := by
    subst hu
    rfl
  rw [e]
  have a := h5.charging
  have b := h2.charging
  have c := h2.trunk.settings
  have d := h4.trunk.settings
  rw [d, c] at a
  rw [c] at h3
  omega

theorem chargingSettings_sound (hk : KMoves k) (h60 : t.stock.chargingList.length ≤ 60 + t.trunk.settings.chargeSlots) :
    (chargingSettings k t).ChargingSound := by
  have h1 := chargingSettings_length hk h60
  have h2 := (chargingSettings_moves hk (Moves.refl (full := true) t)).trunk.settings
  generalize chargingSettings k t = u at *
  unfold State.ChargingSound
  rw [h2]
  exact h1

theorem settingsApplied_loads (hk : KMoves k) (x : Settings) (hx : s.trunk.settings.Sound → x.Sound) :
    Loads full s (settingsApplied k x s) := by
  have base : ∀ u : State, Moves full
      { s with
        trunk := { s.trunk with settings := x }
        classifier := { s.classifier with defaultHits := 0 } } u →
      (s.trunk.settings.Sound → s.ChargingSound → u.ChargingSound) → Loads full s u := by
    intro u hu hc
    have hw := hu.works.acts.loads
    exact
      ⟨⟨hw.queueA, hw.queueB, hw.out, fun hs => hw.settings (hx hs), hc, fun hs => hw.cards (hx hs), hw.passes,
        hw.referrals, hw.releases, hw.recent, hw.orders, hw.journal, hw.drops, hw.flags, hw.log, hw.pending⟩, hw.waiting⟩
  unfold settingsApplied
  dsimp only
  split
  · rename_i hsame
    refine base _ (.refl _) fun _ hc => ?_
    unfold sameCharging at hsame
    simp only [Bool.and_eq_true, beq_iff_eq] at hsame
    show s.stock.chargingList.length ≤ x.chargeSlots
    rw [← hsame.1.1.1]
    exact hc
  · refine base _ (chargingSettings_moves hk (.refl _)) fun hs hc => ?_
    have h2 : s.stock.chargingList.length ≤ s.trunk.settings.chargeSlots := hc
    have h3 : s.trunk.settings.chargeSlots ≤ 16 := hs.1
    have h4 : s.stock.chargingList.length ≤ 60 + x.chargeSlots := by omega
    exact chargingSettings_sound hk h4

theorem settingsOwner_loads (hk : KMoves k) (f : Load SettingEntry) (l : List SettingEntry) (s : State) :
    Loads full s (settingsOwner k f l s).2 := by
  have h := settingsOf_sound s.trunk.settings l f.first
  unfold settingsOwner
  dsimp only
  exact settingsApplied_loads hk _ h

/-! ### Every load (R194) -/

/-- A load keeps the properties if its owner does. -/
theorem takeLoad_keeps {α : Type} (id : TableId) (f : Load α) (owner : List α → State → OutFrame × State)
    (ho : ∀ l, f.body = some l → ∀ u, Loads full u (owner l u).2) (s : State) : Keeps full s (takeLoad id f owner s) := by
  unfold takeLoad
  refine takeFrame_keeps _ (fun u hw => ?_) (.refl _)
  split
  · exact answer_keeps _ hw (.refl _)
  · split
    · exact malformed_keeps _ hw
    · rename_i l hl
      have h1 := ho l hl u
      exact answer_keeps _ (by rw [h1.waiting]; exact hw) h1.toKeeps

/-- The owner of a table of entries keeps the properties if each entry does. -/
theorem entriesOwner_loads {α : Type} (id : TableId) (f : Load α) {take : α → State → Option EntryRefusal × State}
    {after : State → State} (l : List α) (hf : ∀ e ∈ l, ∀ u, Loads full u (take e u).2)
    (ha : ∀ u, Loads full u (after u)) (s : State) : Loads full s (entriesOwner id f take after l s).2 :=
  (takeEntries_loads hf f.first (LoadRun.start s)).trans (ha _)

/-! ### Resets -/

theorem setSales_moves (f : SaleRec → SaleRec) :
    Moves full t { t with sale := { t.sale with sales := t.sale.sales.map f } } := { Moves.refl t with kinds := rfl }

theorem salesRestart_moves (hk : KMoves k) (h : Moves full s t) : Moves full s (salesRestart k t) := by
  unfold salesRestart
  have h1 := foldl_moves (fun u (r : SaleRec) => lapse_moves hk true r (.refl u))
    (t.sale.sales.filter fun r => r.state == .offered) h
  exact h1.trans (setSales_moves _)

/-- RESTART keeps the properties (R201). -/
theorem restart_loads (hk : KMoves k) (s : State) : Loads full s (restart k s) := by
  have h1 : Acts false s (s.modTrunk Trunk.restarted) := modTrunk_acts _ rfl rfl rfl (.refl _)
  have h2 : ∀ u : State, Acts false u { u with engA := u.engA.restarted true, engB := u.engB.restarted u.trunk.segB } := by
    intro u
    exact { Acts.refl u with queueA := fun _ => Nat.zero_le _, queueB := fun _ => Nat.zero_le _ }
  have h3 : ∀ u : State, Acts false u { u with stock := u.stockRestarted } := by
    intro u
    have e : u.stockRestarted.chargingList = [] := rfl
    generalize u.stockRestarted = x at e
    exact { Acts.refl (full := false) u with charging := by simp [e], flags := fun hf => nomatch hf }
  have h4 : ∀ u : State, Acts full u (u.modHire Hire.restarted) := by
    intro u
    exact
      { Acts.refl u with
        cards := fun _ => id
        referrals := fun _ => ⟨Nat.zero_le _, List.nodup_nil⟩
        releases := fun _ => ⟨List.Pairwise.nil, fun a ha => absurd ha (by simp [State.modHire, Hire.restarted])⟩
        recent := fun _ => Nat.zero_le _ }
  have h5 : ∀ u : State, Moves false u u.countAfresh := fun u => countAfresh_moves (.refl u)
  have h6 : ∀ u : State, Moves full u (vanReady .unknown (closeVisit k .restart (salesRestart k u))) := fun u =>
    vanReady_moves .unknown (closeVisit_moves hk .restart (salesRestart_moves hk (.refl u)))
  unfold restart
  generalize s.modTrunk Trunk.restarted = a at h1
  refine Acts.loads ?_
  extract_lets a' b c d
  have counted : Acts full s c :=
    (((h1.trans (h2 _)).trans (h3 b)).moves (h5 _)).counted (countAfresh_computed _)
  exact (counted.trans (h4 c)).moves (h6 d)

/-- The state after a power-on reset has the properties, but for the journal, which it may keep (R181, R200). -/
theorem powerOn_keeps (p : PowerOn) (s : State) : Keeps full s (powerOn p s) where
  queueA _ := Nat.zero_le _
  queueB _ := Nat.zero_le _
  out _ := ⟨Nat.zero_le _, Nat.zero_le _, fun h => absurd rfl h⟩
  settings _ := by
    show Settings.reset.Sound
    decide
  charging _ _ := Nat.zero_le _
  cards _ _ := ⟨Nat.zero_le _, List.Pairwise.nil, fun _ h => absurd h List.not_mem_nil⟩
  passes _ := ⟨Nat.zero_le _, List.Pairwise.nil, fun _ h => absurd h List.not_mem_nil, fun _ h => absurd h List.not_mem_nil⟩
  referrals _ := ⟨Nat.zero_le _, List.nodup_nil⟩
  releases _ := ⟨List.Pairwise.nil, fun _ h => absurd h List.not_mem_nil⟩
  recent _ := Nat.zero_le _
  orders _ := ⟨Nat.zero_le _, List.nodup_nil⟩
  journal h := by
    show (s.journal.atPowerOn p.standbyHeld).Sound
    unfold Journal.atPowerOn
    split
    · exact h
    · exact ⟨Nat.zero_le _, by decide, by decide, rfl⟩
  drops _ := by
    have e : ∀ d, (powerOn p s).entryOf d = .none := by
      rintro ⟨g, a⟩
      cases g
      · show (Vector.replicate 32 TableEntry.none)[a] = _
        simp
      · show (Vector.replicate 32 TableEntry.none)[a] = _
        simp
    refine ⟨fun d _ e' _ q h => ?_, ?_, ?_⟩
    · rw [e] at h
      cases h
    · simp only [e]
      decide
    · simp only [e]
      decide
  flags _ _ := by
    show State.reset.stock.flags = State.reset.stock.computed
    decide
  log _ := Nat.zero_le _
  pending := rfl

/-! ### Every command -/

/-- A command that hands its body on keeps the properties if what it does before its answer does (R193). -/
theorem takeCommand_keeps {α : Type} (code : Nat) (f : Frame α) (act : α → State → CommandResult × State)
    (ha : ∀ x u, Loads full u (act x u).2) (s : State) : Keeps full s (takeCommand code f act s) := by
  unfold takeCommand
  refine takeFrame_keeps _ (fun u hw => ?_) (.refl _)
  split
  · exact malformed_keeps _ hw
  · rename_i x _
    have h1 := ha x u
    exact answer_keeps _ (by rw [h1.waiting]; exact hw) h1.toKeeps

/-- Another frame with an answer keeps the properties if what it does with its body does (R187). -/
theorem takeBody_keeps {α : Type} (f : Frame α) (range : State → OutFrame) (act : α → State → State)
    (ha : ∀ x, f.body = some x → ∀ u, u.trunk.waiting.length < answerRoom → Keeps full u (act x u)) (s : State) :
    Keeps full s (takeBody f range act s) := by
  unfold takeBody
  refine takeFrame_keeps _ (fun u hw => ?_) (.refl _)
  split
  · exact malformed_keeps _ hw
  · exact ha _ ‹_› u hw

theorem releaseJournal_keeps (hk : KMoves k) (tag r : Nat) {u : State} (hw : u.trunk.waiting.length < answerRoom) :
    Keeps full u (releaseJournal k tag r u) := by
  unfold releaseJournal journalMoves
  have h1 : Acts full u (u.setJournal (u.journal.released r).evaluate) :=
    { Acts.refl u with journal := released_sound r }
  have h2 := h1.moves (tellLevel_moves hk u.journal.level (.refl _))
  exact answer_keeps _ (by rw [h2.waiting]; exact hw) h2.keeps

/-- Every well-formed command keeps the properties of Safety.lean. -/
theorem exec_keeps {c : Instr} {s t : State} (hc : c.wf = true) (h : exec c s = .next t) : Keeps true s t := by
  have hk := kmoves_call
  cases c <;> cases h
  case powerOnReset => exact powerOn_keeps _ _
  case holdAssert => exact (holdAssert_acts _ (.refl _)).keeps
  case holdRelease => exact (holdRelease_acts hk _ (.refl _)).keeps
  case sweepStart => exact (sweepStart_acts _ _ (.refl _)).keeps
  case dockBusFrameReceived => exact (frameReceived_acts hk _ _ _ (.refl _)).keeps
  case replyWindowExpired => exact (windowExpired_acts hk _ _ (.refl _)).keeps
  case stationTimeTick => exact (timeTick_acts (.refl _)).keeps
  case referralDeadline => exact (referralDeadline_works hk _ (.refl _)).acts.keeps
  case releaseGuardExpiry => exact (takeGuardAt_moves hk _ (.refl _)).acts.keeps
  case saleDeadline => exact (saleDeadline_moves hk _ (.refl _)).acts.keeps
  case recentReturnExpiry => exact (expireRecentAt_works _ (.refl _)).acts.keeps
  case vanOrderExpiry => exact (expireOrder_moves _ (.refl _)).acts.keeps
  case visitCloseTime => exact (visitCloseTime_moves hk (.refl _)).acts.keeps
  case islandTimeout => exact (islandTimeout_acts hk (.refl _)).keeps
  case trunkFrameTruncated => exact (modCounts_acts _ (.refl _)).keeps
  case trunkFrameInvalid =>
    unfold frameInvalid
    repeat' split
    all_goals first | exact (modCounts_acts _ (.refl _)).keeps | exact .refl _
  case unknownKind =>
    unfold frameUnknown
    split
    · exact .refl _
    · exact (modCounts_acts _ (frameArrives_acts (.refl _))).keeps
  case dropTableLoad =>
    exact takeLoad_keeps _ _ _ (fun l _ u => entriesOwner_loads _ _ l (fun e _ u => loadDrop_loads hk e u)
      (fun u => (afterDropTable_acts u).loads) u) _
  case classifierLoad =>
    exact takeLoad_keeps _ _ _ (fun l _ u => entriesOwner_loads _ _ l (fun e _ u => (loadRule_acts e u).loads)
      (fun u => .refl u) u) _
  case faultPolicyLoad => exact takeLoad_keeps _ _ _ (fun l _ u => (policyOwner_acts hk _ l u).loads) _
  case stationSettingsLoad => exact takeLoad_keeps _ _ _ (fun l _ u => settingsOwner_loads hk _ l u) _
  case passKindsLoad =>
    exact takeLoad_keeps _ _ _ (fun l _ u => entriesOwner_loads _ _ l (fun e _ u => (loadPassKind_acts e u).loads)
      (fun u => .refl u) u) _
  case cardTableLoad f =>
    refine takeLoad_keeps _ _ _ (fun l hl u => entriesOwner_loads _ _ l (fun e he u => ?_) (fun u => .refl u) u) _
    refine (loadCard_works e ?_ (.refl u)).acts.loads
    simp only [Instr.wf, Load.check, hl, Option.all_some, Bool.and_eq_true, List.all_eq_true] at hc
    exact hc.2 e he
  case tariffLoad =>
    exact takeLoad_keeps _ _ _ (fun l _ u => entriesOwner_loads _ _ l (fun e _ u => (loadTariff_acts e u).loads)
      (fun u => .refl u) u) _
  case stockTargetsLoad =>
    refine takeLoad_keeps _ _ _ (fun l _ u => ?_) _
    exact (entriesOwner_loads _ _ l (fun e _ u => (loadTarget_part e u).loads)
      (fun u => (stockDone_moves (.refl u)).acts.loads) u).counted (stockDone_computed _)
  case timeSet =>
    refine takeBody_keeps _ _ _ (fun x _ u hw => ?_) _
    have h1 := timeSet_acts (full := true) hk x (.refl u)
    exact answer_keeps _ (by rw [h1.waiting]; exact hw) h1.keeps
  case referralAnswer f =>
    unfold answerReferral
    dsimp only
    split
    · exact (modCounts_acts _ (frameArrives_acts (.refl _))).keeps
    · rename_i a ha
      refine ((frameArrives_acts (.refl _)).works (takeAnswer_works hk a ?_ (.refl _))).keeps
      simp only [Instr.wf, Frame.check, ha, Option.all_some, Bool.and_eq_true] at hc
      exact hc.2
  case journalCollect => exact takeBody_keeps _ _ _ (fun _ _ _ hw => answer_keeps _ hw (.refl _)) _
  case journalRelease => exact takeBody_keeps _ _ _ (fun _ _ _ hw => releaseJournal_keeps hk _ _ hw) _
  case vanOrder =>
    refine takeBody_keeps _ _ _ (fun o _ u hw => ?_) _
    have h1 := takeOrder_acts (full := true) o (.refl u)
    exact answer_keeps _ (by rw [h1.waiting]; exact hw) h1.keeps
  case statusQuery => exact takeBody_keeps _ _ _ (fun _ _ _ hw => answer_keeps _ hw (.refl _)) _
  case dockListQuery =>
    refine takeBody_keeps _ _ _ (fun x _ u hw => ?_) _
    unfold reportDocks
    split
    · exact answer_keeps _ hw (.refl _)
    · exact malformed_keeps _ hw
  case faultListQuery => exact takeBody_keeps _ _ _ (fun _ _ _ hw => answer_keeps _ hw (.refl _)) _
  case startService => exact takeCommand_keeps _ _ _ (fun _ _ => (startService_acts (.refl _)).loads) _
  case enterMaintenance => exact takeCommand_keeps _ _ _ (fun _ _ => (enterMaintenance_acts hk (.refl _)).loads) _
  case leaveMaintenance => exact takeCommand_keeps _ _ _ (fun _ _ => (leaveMaintenance_acts (.refl _)).loads) _
  case restart => exact takeCommand_keeps _ _ _ (fun _ u => restart_loads hk u) _
  case release => exact takeCommand_keeps _ _ _ (fun _ _ => (remoteRelease_works hk _ (.refl _)).acts.loads) _
  case cancelRelease => exact takeCommand_keeps _ _ _ (fun _ _ => (remoteCancel_works hk _ (.refl _)).acts.loads) _
  case clearFault => exact takeCommand_keeps _ _ _ (fun _ _ => (clearFault_acts hk _ (.refl _)).loads) _
  case setDockService => exact takeCommand_keeps _ _ _ (fun _ _ => (setDockService_acts hk _ (.refl _)).loads) _
  case unknownCommand =>
    unfold commandUnknown
    split
    · exact .refl _
    · exact takeFrame_keeps _ (fun _ hw => answer_keeps _ hw (.refl _)) (.refl _)
  case outboundSend => exact outboundSend_keeps (.refl _)
  case unknownTable =>
    unfold loadUnknown
    split
    · exact .refl _
    · exact takeFrame_keeps _ (fun _ hw => answer_keeps _ hw (.refl _)) (.refl _)

end Sys2Proof.Machine
end

