-- ==== Sys2Proof/Tests/Slice0.lean ====
section
/-! SUPPORT. Tests: ill-formed commands that each check refuses, frames and fares worked by hand from the spec, and for every
statement with hypotheses a state and operands that meet them. -/

namespace Sys2Proof.Tests

set_option Elab.async false

open Sys2Proof Sys2Proof.Machine

/-! ### Ill-formed commands (WellFormed.lean) -/

theorem test_station_above_4095_refused :
    (Instr.powerOnReset ⟨false, 0, 4096, false, false, false⟩).wf = false ∧
      (Instr.powerOnReset ⟨false, 0, 4095, false, false, false⟩).wf = true := by decide

theorem test_bus_payload_above_63_refused :
    (Instr.dockBusFrameReceived .A 0 ⟨0, List.replicate 64 0, 0⟩).wf = false := by decide

theorem test_card_number_above_32_bits_refused : (Instr.referralDeadline 4294967296).wf = false := by decide

theorem test_recent_place_16_refused : (Instr.recentReturnExpiry 16).wf = false := by decide

theorem test_order_id_above_16_bits_refused : (Instr.vanOrderExpiry 65536).wf = false := by decide

theorem test_trunk_body_shorter_than_length_refused :
    (Instr.trunkFrameInvalid ⟨1, 3, [0], 0⟩).wf = false ∧ (Instr.trunkFrameInvalid ⟨1, 1, [0], 0⟩).wf = true := by decide

theorem test_known_kind_refused :
    (Instr.unknownKind 10).wf = false ∧ (Instr.unknownKind 256).wf = false ∧ (Instr.unknownKind 11).wf = true := by decide

theorem test_known_command_refused : (Instr.unknownCommand 0 8).wf = false ∧ (Instr.unknownCommand 0 9).wf = true := by decide

theorem test_known_table_refused : (Instr.unknownTable 0 1 0).wf = false ∧ (Instr.unknownTable 0 0 0).wf = true := by decide

theorem test_tag_above_16_bits_refused :
    (Instr.startService ⟨65536, some ()⟩).wf = false ∧ (Instr.enterMaintenance ⟨65536, some ()⟩).wf = false ∧
      (Instr.leaveMaintenance ⟨65536, some ()⟩).wf = false ∧ (Instr.restart ⟨65536, some ()⟩).wf = false ∧
      (Instr.statusQuery ⟨65536, some ()⟩).wf = false ∧ (Instr.cancelRelease ⟨65536, some 0⟩).wf = false ∧
      (Instr.stationSettingsLoad ⟨65536, 0, some []⟩).wf = false := by decide

theorem test_bodies_that_do_not_fit_their_fields_refused :
    (Instr.timeSet ⟨0, some 4294967296⟩).wf = false ∧ (Instr.journalRelease ⟨0, some 4294967296⟩).wf = false ∧
      (Instr.journalCollect ⟨0, some (0, 65536)⟩).wf = false ∧ (Instr.dockListQuery ⟨0, some 256⟩).wf = false ∧
      (Instr.faultListQuery ⟨0, some 65536⟩).wf = false ∧ (Instr.clearFault ⟨0, some 65536⟩).wf = false ∧
      (Instr.release ⟨0, some ⟨256, 1, 0⟩⟩).wf = false ∧ (Instr.setDockService ⟨0, some ⟨256, none⟩⟩).wf = false ∧
      (Instr.referralAnswer ⟨0, some ⟨4294967296, true, none⟩⟩).wf = false ∧
      (Instr.vanOrder ⟨0, some ⟨65536, 1, ⟨0, 0, 0⟩, ⟨0, 0, 0⟩, [], 0, 1⟩⟩).wf = false := by decide

theorem test_load_entries_that_do_not_fit_refused :
    (Instr.dropTableLoad ⟨0, 0, some [⟨.A, 256, none, 0⟩]⟩).wf = false ∧
      (Instr.classifierLoad ⟨0, 0, some [⟨256, true, none, 0, 0, none, none, 0, 0, none⟩]⟩).wf = false ∧
      (Instr.faultPolicyLoad ⟨0, 0, some [⟨256, none, none, 0, none⟩]⟩).wf = false ∧
      (Instr.passKindsLoad ⟨0, 0, some [⟨256, true, 0, 0, 0, 0, 0, 0⟩]⟩).wf = false ∧
      (Instr.tariffLoad ⟨0, 0, some [⟨256, ⟨0, 0, 1, [], ⟨0, 0, 0⟩, 0, 0⟩⟩]⟩).wf = false ∧
      (Instr.stockTargetsLoad ⟨0, 0, some [⟨none, 256, 0⟩]⟩).wf = false ∧
      (Instr.cardTableLoad ⟨0, 0, some [⟨1, none, none, 256, 0, 0, 0, 0, 0, 0, none⟩]⟩).wf = false ∧
      (Instr.cardTableLoad ⟨0, 65536, some []⟩).wf = false := by decide

/-! ### Words: the table gives no row any bits -/

theorem test_no_row_has_bits : decodeTableWord 0 0 = none ∧ decodeTableWord 16 0xFFFF = none := by decide

/-! ### Frames worked by hand from 11.1 -/

/-- Address A 1, kind POLL 1, length 1: data bits 9 and 15 are ones, at code positions 3 and 11, so the position bit at
position 8 (bit 7) is set, and the three ones set the overall parity bit. -/
theorem test_header_of_poll_to_address_1 : makeHeader 0 1 1 = 0x008288#24 := by decide

theorem test_header_corrected : headerCheck 0x008288#24 = .clean ∧ headerCheck 0x008088#24 = .corrected 0x008288#24 ∧
    headerCheck 0x008280#24 = .corrected 0x008288#24 ∧ headerCheck 0x008080#24 = .uncorrectable := by decide

/-- The published check value of this CRC-16 over the digits 1 to 9 is 29B1H. -/
theorem test_crc16_check_value :
    crc16 [0x31#8, 0x32#8, 0x33#8, 0x34#8, 0x35#8, 0x36#8, 0x37#8, 0x38#8, 0x39#8] = 0x29B1#16 := by decide +kernel

/-- The published check value of this CRC-32 over the digits 1 to 9 is CBF43926H. -/
theorem test_crc32_check_value :
    crc32 [0x31#8, 0x32#8, 0x33#8, 0x34#8, 0x35#8, 0x36#8, 0x37#8, 0x38#8, 0x39#8] = 0xCBF43926#32 := by decide +kernel

/-! ### Fares worked by hand (R116 to R119) -/

/-- A class with grace 60 s, 30 free minutes, blocks of 15 minutes, bands up to 60 at 100 and beyond at 200, and an unlock fee
of 50 for a classic bike. -/
def tariff : Tariff :=
  { grace := 60, free := 30, block := 15, bands := [⟨60, 100⟩, ⟨120, 200⟩], unlockFee := ⟨50, 150, 250⟩, dailyCap := 1000
    reward := 20 }

/-- 31 minutes and 1 second: 32 billed minutes, 2 chargeable, one block at 100. -/
theorem test_fare_of_one_block : priceOf tariff .classic 1861 = ⟨false, 32, 100, 50, 150⟩ := by decide

/-- 120 minutes: 90 chargeable, blocks at minutes 1, 16, 31, 46 at 100 and 61, 76 at 200. -/
theorem test_fare_beyond_the_first_band : priceOf tariff .cargo 7200 = ⟨false, 120, 800, 250, 1050⟩ := by decide

/-- The return priced in 6.8: class 1, ELECTRIC, 5,527 s. -/
def tariff1 : Tariff :=
  { grace := 60, free := 30, block := 15, bands := [⟨30, 100⟩, ⟨90, 150⟩, ⟨2880, 250⟩], unlockFee := ⟨0, 100, 50⟩
    dailyCap := 1200, reward := 50 }

theorem test_fare_of_the_example_of_6_8 : priceOf tariff1 .electric 5527 = ⟨false, 93, 650, 100, 750⟩ := by decide

theorem test_charge_of_the_example_of_6_8 :
    let c := chargeOn tariff1 750 50 11 false { reward := some 40, day := 11, dayTotal := 800, headroom := 1500, outCount := 0 }
    (c.rewardUsed, c.rewardEarned, c.capReduction, c.charge) = (40, 50, 310, 400) ∧
      c.account = { reward := some 50, day := 11, dayTotal := 1200, headroom := 1100, outCount := 0 } := by decide

theorem test_fare_of_a_short_ride : priceOf tariff .classic 60 = ⟨true, 0, 0, 0, 0⟩ := by decide

/-! ### States of the witnesses -/

/-- In SERVICE, CONNECTED, time 1,000 and valid, station 7. -/
def base : State :=
  { State.reset with
    trunk :=
      { Trunk.reset with connected := true, timerOn := true, time := 1000, timeValid := true, station := 7, mode := .service } }

/-- The same in MAINTENANCE. -/
def upkeep : State := { base with trunk := { base.trunk with mode := .maintenance } }

/-- An ACTIVE drop with one miss, its last taken event 7. -/
def active : DropRec := { link := .free .active, misses := 1, resyncDue := false, lastEvent := 7, corrected := 0 }

/-- A classic bike at rest. -/
def bike : Bike :=
  { id := 9, kind := .classic, dockedAt := 500, battery := none, contact := .none, hold := .none, pickup := false
    mark := false, idOnly := false }

/-- A dock record with that bike. -/
def full : DockRec := { DockRec.reset with state := .occupied, bike := some bike, lock := some .locked }

/-- Drop A 5 is the dock of position 3, ACTIVE, OCCUPIED by the bike. -/
def docked : State :=
  { base with
    engA :=
      { Engine.reset with
        entries := Engine.reset.entries.set 4 (.dock 2), drops := Engine.reset.drops.set 4 (some active), mode := .waiting
        sweep := 65535, due := 50 }
    stock := { Stock.reset with docks := Stock.reset.docks.set 2 full } }

/-- An exchange with drop A 5. -/
def exchangeFor (w : ExchangeFor) : Exchange := { addr := 4, purpose := w, window := 3, sent := [], changed := false }

/-- A sweep at the last drop of the list, its exchange in progress. -/
def inExchange (w : ExchangeFor) : State :=
  { docked with engA := { docked.engA with mode := .sweeping, cursor := 5, exchange := some (exchangeFor w) } }

/-! ### Witnesses: steps and the dock bus -/

theorem meets_StepWithNoCommandWaiting : base.pending = [] ∧ base.deferred = [] := by decide

theorem meets_StepWithNoCommandWaiting_deferred :
    let s := { base with deferred := [Call.raise (.dock 0) 3] }
    s.pending = [] ∧ s.deferred = [Call.raise (.dock 0) 3] := by decide

/-- A segment in HOLDING with a display command queued, and one with an UNLOCK queued no earlier than the take window. -/
theorem meets_HoldReleaseBeginsResyncRound :
    let e : QueueEntry := { addr := 4, cmd := .unlockVan 30, who := .discard .hire, time := 970 }
    let s := { docked with engA := { docked.engA with mode := .holding, queue := [e] } }
    (s.eng .A).mode = .holding ∧
      (∀ x ∈ (s.eng .A).queue, x.cmd.cls = .unlock → s.trunk.time ≤ x.time + s.trunk.settings.takeWindow) ∧
      (s.eng .A).entries[(4 : Fin 32)] ≠ .none ∧ (∀ b : Fin 32, b < 4 → (s.eng .A).entries[b] = .none) ∧
      (docked.eng .A).mode ≠ .holding := by decide

theorem meets_HoldReleaseBeginsResyncRound_stopped :
    let s := { base with engA := { base.engA with mode := .holding } }
    (s.eng .A).mode = .holding ∧ (s.eng .A).queue = [] ∧ ∀ a : Fin 32, (s.eng .A).entries[a] = .none := by decide

theorem meets_SweepStartPollsTheLowestDrop :
    (docked.eng .A).mode = .waiting ∧ (docked.eng .A).due ≤ max docked.elapsed 50 ∧
      (∀ b : Fin 32, b < 4 → (docked.eng .A).entries[b] = .none) ∧ (docked.eng .A).entries[(4 : Fin 32)] ≠ .none ∧
      (docked.eng .A).drops[(4 : Fin 32)] = some active ∧ active.link = .free .active ∧ active.resyncDue = false ∧
      ¬((docked.eng .A).mode = .waiting ∧ (docked.eng .A).due ≤ max docked.elapsed 49) := by decide

theorem meets_NothingHappensWithNoReplyWindowOpen : (docked.eng .A).exchange = none := by decide

theorem meets_ReplyWindowExpiryIsAMiss :
    let s := inExchange (.poll true)
    (s.eng .A).exchange = some (exchangeFor (.poll true)) ∧ (s.eng .A).drops[(4 : Fin 32)] = some active ∧
      active.link = .free .active ∧ active.misses < 2 ∧ (s.eng .A).holdLine = false ∧ (s.eng .A).queue = [] ∧
      (s.eng .A).cursor = (4 : Fin 32).val + 1 ∧ (s.eng .A).entries[(4 : Fin 32)] ≠ .none ∧
      ∀ b : Fin 32, 4 < b → (s.eng .A).entries[b] = .none := by decide

/-- A frame of a kind from drop A 5, its CRC as the block computes it. -/
def frameOf (kind : Nat) (payload : List Byte) : BusFrame :=
  let h := makeHeader 4 kind payload.length
  { header := h, payload := payload, crc := crc16 (headerBytes h ++ payload) }

theorem meets_AnswerToOwnResyncMakesTheDropEligible :
    let s := inExchange .resyncSlot
    let f := frameOf 5 [0x00#8]
    s.LastInSweep .A (exchangeFor .resyncSlot) ∧ (s.eng .A).drops[(4 : Fin 32)] = some active ∧
      active.link = .free .active ∧ f.header = makeHeader 4 5 1 ∧ f.payload = [0x00#8] ∧
      f.crc = crc16 (headerBytes f.header ++ f.payload) := by decide +kernel

/-- Drop A 5 made a PAY drop with a sale record, or the VANPOINT, in a POLL exchange. -/
def polled (e : TableEntry) : State :=
  let s := inExchange (.poll false)
  { s with
    engA := { s.engA with entries := s.engA.entries.set 4 e }
    sale := { s.sale with sales := [newSale ⟨.A, 4⟩] } }

theorem meets_AnswerToOwnResyncMakesTheDropEligible_status :
    (polled .pay).LastInSweep .A (exchangeFor (.poll false)) ∧ active.resyncDue = false ∧
      (polled .pay).entryOf ⟨.A, 4⟩ = .pay ∧ (polled .pay).saleOf ⟨.A, 4⟩ = some (newSale ⟨.A, 4⟩) ∧
      (polled .vanpoint).LastInSweep .A (exchangeFor (.poll false)) ∧ (polled .vanpoint).entryOf ⟨.A, 4⟩ = .vanpoint ∧
      (frameOf 2 [0x01#8, 0x00#8]).header = makeHeader 4 2 2 := by decide +kernel

/-- The dock of position 4 stands EMPTY. -/
theorem meets_AnswerToOwnResyncMakesTheDropEligible_dock :
    let s := (polled (.dock 3)).setDock 3 { DockRec.reset with state := .empty }
    let f := frameOf 2 [0x00#8, 0x00#8, 0x00#8, 0x00#8, 0x00#8, 0xFF#8, 0x00#8]
    s.LastInSweep .A (exchangeFor (.poll false)) ∧ s.entryOf ⟨.A, 4⟩ = .dock 3 ∧ (s.dock 3).state = .empty ∧
      (s.dock 3).gate = .opened ∧ (s.dock 3).offOwed = false ∧ s.stock.flags = s.stock.computed ∧
      f.header = makeHeader 4 2 7 ∧ f.crc = crc16 (headerBytes f.header ++ f.payload) := by decide +kernel

/-- The longest DEVICE NOTE, a repeat with number 7 or new with number 8. -/
theorem meets_AnswerToOwnResyncMakesTheDropEligible_event :
    let s := inExchange (.poll true)
    let fields : List Byte := List.replicate 37 0xFF#8
    let f := frameOf 3 (0x07#8 :: 0x3F#8 :: 0x00#8 :: fields)
    s.LastInSweep .A (exchangeFor (.poll true)) ∧ (s.entryOf ⟨.A, 4⟩).kind = some .dock ∧
      f.header = makeHeader 4 3 (fields.length + 3) ∧ f.crc = crc16 (headerBytes f.header ++ f.payload) ∧
      (0x07#8).toNat = active.lastEvent ∧ (0x08#8).toNat ≠ active.lastEvent ∧
      (∀ i : Fin 32, (s.classifier.rules[i]).takes ⟨.A, 4⟩ .dock 0x3F = false) ∧
      s.trunk.settings.defaultAction = .deliver := by decide +kernel

theorem meets_HeaderCheckCorrectsOneBitAndDetectsTwo : headerCheck (makeHeader 31 15 63) = .clean := by decide

/-- A queue of 24 entries, the first of them a SHOW where asked. -/
def fullQueue (show_ : Bool) : State :=
  let e : QueueEntry := { addr := 4, cmd := .lock, who := .discard .hire, time := 0 }
  let d : QueueEntry := { addr := 4, cmd := .showReason .wait, who := .discard .hire, time := 0 }
  { docked with engA := { docked.engA with queue := (if show_ then d else e) :: List.replicate 23 e } }

theorem meets_SubmittedCommandJoinsTheQueue :
    docked.dropRec ⟨.A, 4⟩ = some active ∧ active.link ≠ .free .lost ∧ active.link ≠ .held .lost ∧
      (docked.eng .A).queue.length < 24 ∧ 24 ≤ ((fullQueue false).eng .A).queue.length ∧
      (∀ x ∈ ((fullQueue false).eng .A).queue, x.cmd.cls ≠ .display) ∧ (Cmd.showReason .wait).cls = .display ∧
      Cmd.resync.cls ≠ .display := by decide +kernel

theorem meets_SubmittedCommandJoinsTheQueue_displaced :
    let e : QueueEntry := { addr := 4, cmd := .lock, who := .discard .hire, time := 0 }
    let d : QueueEntry := { addr := 4, cmd := .showReason .wait, who := .discard .hire, time := 0 }
    24 ≤ ((fullQueue true).eng .A).queue.length ∧ ((fullQueue true).eng .A).queue = [] ++ d :: List.replicate 23 e ∧
      d.cmd.cls = .display ∧ ∀ x ∈ List.replicate 23 e, x.cmd.cls ≠ .display := by decide +kernel

/-! ### Witnesses: classification -/

/-- An event of a drop. -/
def event (entry : TableEntry) (code : Nat) (fields : List Byte) : EventRec :=
  { drop := ⟨.A, 4⟩, entry := entry, number := 8, code := code, stamp := 1000, fields := fields }

/-- Rule 1 is enabled and takes every code. -/
def ruled : State :=
  { base with
    classifier := { Classifier.reset with rules := Classifier.reset.rules.set 1 { Rule.reset with enabled := true } } }

theorem meets_FirstMatchingRuleDecides :
    (ruled.classifier.rules[(1 : Fin 32)]).takes ⟨.A, 4⟩ .dock 0x3F = true ∧
      (∀ j : Fin 32, j < 1 → (ruled.classifier.rules[j]).takes ⟨.A, 4⟩ .dock 0x3F = false) ∧
      ∀ i : Fin 32, (base.classifier.rules[i]).takes ⟨.A, 4⟩ .dock 0x3F = false := by decide

theorem meets_CodeMatchTypes :
    let e : RuleEntry := ⟨0, true, none, 0, 0, none, some .range, 2, 1, none⟩
    let m : RuleEntry := ⟨0, true, none, 0, 0, none, some .mask, 1, 2, none⟩
    e.type = some .range ∧ e.second < e.first ∧ m.type = some .mask ∧ m.second &&& m.first ≠ m.second := by decide

theorem meets_PresentIsNotClassified :
    let e := event .pay 0x15 [0x01#8]
    e.code = 0x15 ∧ e.entry = .pay ∧ e.fields = [0x01#8] := by decide

theorem meets_StateBearingEventsAreDelivered :
    let e := event (.dock 2) 0x13 []
    e.entry = .dock 2 ∧ (e.code = 0x11 ∨ e.code = 0x12 ∨ e.code = 0x13) := by decide

/-! ### Witnesses: docks, cards and releases -/

theorem meets_SetDockServiceWritesTheServiceByCentral :
    docked.Answers ∧ (docked.dock 2).state = .occupied ∧ (docked.dock 59).state = .unused ∧
      (docked.dock 2).vanDrop = false ∧
      (docked.setDock 2 { docked.dock 2 with svcCentral := .noRelease }).stock.flags = docked.stock.computed ∧
      (docked.setDock 59 { docked.dock 59 with svcCentral := .outOfService }).stock.flags = docked.stock.computed := by
  decide +kernel

theorem meets_StockTargetsLoadSetsTheMarks :
    let st := { docked.stock with low := setPerKind docked.stock.low .classic 1, high := setPerKind docked.stock.high .classic 60 }
    docked.Answers ∧ st.flags = docked.stock.computed ∧ 1 ≤ 60 ∧ 60 < 61 ∧
      docked.stock.flags = docked.stock.computed := by decide +kernel

/-- A card record. -/
def card : CardRec :=
  { number := 77, plan := .rider, standing := .good, cls := 0, maxBikes := 2, outCount := 0, headroom := 500, day := 0
    dayTotal := 0, reward := 0, expiry := none, provisional := false }

theorem meets_CardTableLoadPutsTheRecord :
    let s := { base with hire := { base.hire with cards := [card] } }
    let full := { base with hire := { base.hire with cards := List.replicate 4096 card } }
    s.Answers ∧ (s.card 77).isSome ∧ s.hire.cards.length < 4096 ∧ full.Answers ∧ full.card 78 = none ∧
      4096 ≤ full.hire.cards.length := by
  decide +kernel

/-- A referral of card 77 at the dock. -/
def referral : Referral := { card := 77, pos := 2, stamp := 990, deadline := 1000 }

/-- The dock with the referral open. -/
def referred : State := { docked with hire := { docked.hire with referrals := [referral] } }

theorem meets_ReferralAnswerEndsTheReferral :
    referred.trunk.connected = true ∧ referred.hire.referrals.find? (fun r => r.card == 77) = some referral ∧
      referred.dropAt referral.pos = some ⟨.A, 4⟩ ∧ referred.dropRec ⟨.A, 4⟩ = some active ∧ active.link = .free .active ∧
      (referred.eng .A).queue.length < 24 ∧ ∀ r ∈ base.hire.referrals, r.card ≠ 77 := by decide +kernel

theorem meets_ReferralDeadlineDecidesTheTap :
    referred.hire.referrals.find? (fun q => q.card == referral.card) = some referral ∧
      referral.deadline ≤ referred.trunk.time ∧ referred.trunk.mode = .service ∧ referred.journal.level = .normal ∧
      referred.trunk.timeValid = true ∧ (referred.dock referral.pos).state = .occupied ∧
      (referred.dock referral.pos).service = .inService ∧ (referred.dock referral.pos).bike = some bike ∧
      bike.hold = .none ∧ bike.pickup = false ∧ referred.card referral.card = none ∧
      referred.inFlight referral.card .member = false ∧ referred.trunk.settings.strangerRule = .refuse ∧
      referred.dropAt referral.pos = some ⟨.A, 4⟩ ∧ referred.dropRec ⟨.A, 4⟩ = some active ∧
      (referred.eng .A).queue.length < 24 := by decide +kernel

theorem meets_ReferralDeadlineDecidesTheTap_early :
    let r := { referral with deadline := 1001 }
    let s := { docked with hire := { docked.hire with referrals := [r] } }
    s.hire.referrals.find? (fun q => q.card == r.card) = some r ∧ s.trunk.time + 1 = r.deadline := by decide +kernel

/-- A rider's release at the dock, UNLOCKED until its guard. -/
def unlocked : Release :=
  { pos := 2, kind := .rider, number := 77, medium := .member, flags := ⟨false, false, false, false⟩, token := none
    grantTime := 980, window := 30, bike := 9, bikeKind := .classic, guardAt := some 1000, cancel := false
    checking := false, attempts := 0, serial := 0, id := 3 }

/-- The dock RELEASING, with that release. -/
def releasing (r : Release) : State :=
  { docked with
    hire := { docked.hire with releases := [r] }
    stock := { docked.stock with docks := docked.stock.docks.set 2 { full with state := .releasing } } }

theorem meets_GuardExpiryStartsChecking :
    (releasing unlocked).releaseAt 2 = some unlocked ∧ unlocked.pos = 2 ∧ unlocked.guardAt = some 1000 ∧
      1000 ≤ (releasing unlocked).trunk.time ∧ unlocked.checking = false ∧
      (releasing unlocked).dropAt 2 = some ⟨.A, 4⟩ ∧ (releasing unlocked).dropRec ⟨.A, 4⟩ = some active ∧
      active.link = .free .active ∧ ((releasing unlocked).eng .A).queue.length < 24 := by decide +kernel

theorem meets_GuardExpiryStartsChecking_early :
    let a := { unlocked with guardAt := some 1001 }
    let b := { unlocked with checking := true }
    (releasing a).releaseAt 2 = some a ∧ (releasing a).trunk.time + 1 = 1001 ∧ (releasing b).releaseAt 2 = some b ∧
      b.guardAt = some (releasing b).trunk.time ∧ b.checking = true := by decide +kernel

theorem meets_CancelReleaseSubmitsLock :
    (releasing unlocked).Answers ∧ (releasing unlocked).releaseAt 2 = some unlocked ∧ unlocked.pos = 2 ∧
      unlocked.cancel = false ∧ unlocked.checking = false ∧ (releasing unlocked).dropAt 2 = some ⟨.A, 4⟩ ∧
      (releasing unlocked).dropRec ⟨.A, 4⟩ = some active ∧ active.link = .free .active ∧
      ((releasing unlocked).eng .A).queue.length < 24 ∧ (releasing unlocked).releaseAt 3 = none := by decide +kernel

theorem meets_CancelReleaseSubmitsLock_marked :
    let a := { unlocked with cancel := true }
    let b := { unlocked with checking := true }
    (releasing a).Answers ∧ (releasing a).releaseAt 2 = some a ∧ a.cancel = true ∧ (releasing b).Answers ∧
      (releasing b).releaseAt 2 = some b ∧ b.cancel = false ∧ b.checking = true := by decide +kernel

theorem meets_RemoteReleaseIsGranted :
    let s := docked
    let p : DockPos := 2
    s.Answers ∧ s.trunk.mode = .service ∧ s.journal.level = .normal ∧ s.trunk.timeValid = true ∧
      (s.dock p).state = .occupied ∧ (s.dock p).service = .inService ∧ (s.dock p).bike = some bike ∧
      bike.hold = .none ∧ bike.pickup = false ∧ (s.dock p).charge = .notCharging ∧ p ∉ s.stock.waitList ∧
      p ∉ s.stock.chargingList ∧ s.inFlight 77 .member = false ∧ s.card 77 = none ∧
      (s.setDock p { s.dock p with state := .releasing }).stock.flags = s.stock.computed ∧
      s.dropAt p = some ⟨.A, 4⟩ ∧ s.dropRec ⟨.A, 4⟩ = some active ∧ (s.eng .A).queue.length < 24 := by decide +kernel

/-! ### Witnesses: sales, fares, lists and visits -/

/-- An offer whose deadline is now, its pass slot reserved. -/
def offered : SaleRec :=
  { terminal := ⟨.A, 8⟩, state := .offered, ref := 5
    terms := some { kind := 1, entry := { PassKind.reset with onSale := true, price := 400 } }, slot := some 6
    offerTime := 880, deadline := 1000, unanswered := false, ready := .yes }

theorem meets_SaleDeadlineLapsesTheOffer :
    let s := { base with sale := { base.sale with sales := [offered] } }
    s.saleOf offered.terminal = some offered ∧ offered.state = .offered ∧ offered.deadline ≤ s.trunk.time ∧
      offered.slot = some 6 ∧ offered.terms.isSome ∧ s.journal.level = .normal ∧ s.journal.records.length < 800 ∧
      s.journal.next ≤ 4294967295 ∧ s.trunk.mode ≠ .maintenancePending := by decide +kernel

theorem meets_SaleDeadlineLapsesTheOffer_early :
    let r := { offered with deadline := 1001 }
    let s := { base with sale := { base.sale with sales := [r] } }
    s.saleOf r.terminal = some r ∧ r.state = .offered ∧ s.trunk.time + 1 = r.deadline := by decide +kernel

theorem meets_FareOfARideThatIsNotShort :
    tariff.grace < 61 ∧ 172800 ≤ 172800 ∧ 1 ≤ tariff.block ∧ tariff.bands ≠ [] ∧
      ({ tariff with grace := 59 } : Tariff).grace < 60 := by decide

theorem meets_ChargeRespectsTheDailyCap :
    let a : Account := { reward := none, day := 3, dayTotal := 990, headroom := 40, outCount := 1 }
    let c := chargeOn tariff 150 0 3 true a
    tariff.dailyCap ≠ 0 ∧ c.charge ≠ 0 ∧ a.day = 3 ∧ a.day ≠ 4 := by decide

/-- A recent return that leaves at 1,000. -/
def recent : RecentReturn :=
  { pos := 2, bike := 9, number := 77, medium := .member, charge := 50, rewardUsed := 0, day := 0, seq := some 4
    expiry := 1000, noRecord := false }

/-- An order valid until 1,000. -/
def order : VanOrder :=
  { id := 4, van := 1, drops := ⟨1, 0, 0⟩, pickups := ⟨0, 0, 0⟩, named := [9], validFrom := 900, validUntil := 1000 }

theorem meets_ListEntriesLeaveAtTheirMoment :
    let s := { base with hire := { base.hire with recent := [recent] }, van := { base.van with orders := [order] } }
    s.hire.recent = [] ++ recent :: [] ∧ recent.expiry ≤ s.trunk.time ∧ s.van.orders = [] ++ order :: [] ∧
      order.validUntil ≤ s.trunk.time ∧ ¬(s.trunk.time < order.validUntil) := by decide +kernel

theorem meets_ListEntriesLeaveAtTheirMoment_early :
    let e := { recent with expiry := 1001 }
    let o := { order with validUntil := 1001 }
    let s := { base with hire := { base.hire with recent := [e] }, van := { base.van with orders := [o] } }
    s.hire.recent = [] ++ e :: [] ∧ s.trunk.time + 1 = e.expiry ∧ s.van.orders = [] ++ o :: [] ∧
      s.trunk.time + 1 = o.validUntil := by decide +kernel

theorem meets_VanOrderJoinsThePendingOrders :
    let o := { order with id := 9, validUntil := 1001 }
    let s := { base with van := { base.van with orders := [order] } }
    let four := { base with van := { base.van with orders := List.replicate 4 order } }
    s.Answers ∧ o.id ≠ 0 ∧ o.van ≠ 0 ∧ o.drops.classic ≤ 40 ∧ o.named.length ≤ 8 ∧ 0 ∉ o.named ∧ o.named.Nodup ∧
      o.validFrom < o.validUntil ∧ s.trunk.timeValid = true ∧ s.trunk.time < o.validUntil ∧ s.van.visit = none ∧
      (∀ x ∈ s.van.orders, x.id ≠ o.id) ∧ s.van.orders = [order] ++ [] ∧ order.validFrom ≤ o.validFrom ∧
      four.Answers ∧ 4 ≤ four.van.orders.length ∧ order.validUntil ≤ s.trunk.time := by decide +kernel

/-- A visit with no plan that closes at 1,000. -/
def visit : Visit :=
  { serial := 2, plan := none, van := 1, operator := 77, arrival := 100, closeAt := 1000, drops := [], pickups := []
    inFlight := [], load := [], dropList := [] }

/-- A PLANNED visit with a bike and a dock reserved; drop A 8 is the van point. -/
def visited : State :=
  let p : Pickup := { pos := 2, bike := 9, kind := .classic, held := false }
  { docked with
    engA :=
      { docked.engA with
        entries := docked.engA.entries.set 7 .vanpoint, drops := docked.engA.drops.set 7 (some active) }
    stock :=
      { docked.stock with
        docks :=
          (docked.stock.docks.set 2 { full with bike := some { bike with pickup := true } }).set 5
            { DockRec.reset with state := .empty, vanDrop := true } }
    van :=
      { docked.van with
        visit :=
          some
            { visit with
              plan := some { order := order, remDrops := ⟨1, 0, 0⟩, remPickups := ⟨1, 0, 0⟩ }, drops := [5], pickups := [p] } } }

theorem meets_VisitClosesAtItsCloseTime :
    visited.van.visit.any (fun v => decide (v.closeAt ≤ visited.trunk.time)) = true ∧
      ({ visited.stock with
          docks :=
            visited.stock.docks.map fun x =>
              { x with vanDrop := false, bike := x.bike.map fun b => { b with pickup := false } } } : Stock).flags =
        visited.stock.computed ∧
      visited.vanpoint = some ⟨.A, 7⟩ ∧ visited.dropRec ⟨.A, 7⟩ = some active ∧ active.link ≠ .free .lost ∧
      active.link ≠ .held .lost ∧ (visited.eng .A).queue.length < 24 ∧ visited.journal.level = .normal ∧
      visited.journal.records.length < 800 ∧ visited.journal.next ≤ 4294967295 := by decide +kernel

theorem meets_VisitClosesAtItsCloseTime_early :
    let v := { visit with closeAt := 1001 }
    let s := { base with van := { base.van with visit := some v } }
    s.van.visit = some v ∧ s.trunk.time + 1 = v.closeAt := by decide +kernel

/-! ### Witnesses: faults and the journal -/

/-- A fault record against a terminal. -/
def fault (v : FaultState) : FaultRec :=
  { id := 5, subject := .terminal ⟨.A, 8⟩, code := 20, severity := .minor, first := 10, last := 10, repeats := 1, state := v }

theorem meets_ClearFaultClearsTheRecord :
    let s := { base with fault := { base.fault with log := [fault .opened] } }
    s.Answers ∧ s.fault.log = [] ++ fault .opened :: [] ∧ (fault .opened).id = 5 ∧
      (fault .opened).subject = .terminal ⟨.A, 8⟩ ∧ s.fault.busy = false ∧ s.fault.waiting = [] ∧
      ∀ f ∈ s.fault.log, f.id ≠ 6 := by decide +kernel

theorem meets_ClearFaultClearsTheRecord_cleared :
    let s := { base with fault := { base.fault with log := [fault .clearedByRemoval] } }
    s.Answers ∧ s.fault.log = [] ++ fault .clearedByRemoval :: [] ∧
      (fault .clearedByRemoval).state = .clearedByRemoval := by decide +kernel

theorem meets_FaultPolicyLoadReplacesTheEntry :
    let a : FaultActions := ⟨false, true, false, true⟩
    upkeep.Answers ∧ upkeep.trunk.mode = .maintenance ∧ upkeep.fault.log = [] ∧ upkeep.fault.busy = false ∧
      upkeep.fault.waiting = [] ∧ (∀ p, (upkeep.dock p).svcFaults = .inService) ∧ subjectOf 0 = .dock ∧
      (subjectOf 0 = .dock → a.quarantine = false) := by decide +kernel

/-- Thresholds on both sides of 255, and actions that do not fit each kind of subject. -/
theorem meets_FaultPolicyLoadReplacesTheEntry_range :
    let q : FaultActions := ⟨true, false, false, false⟩
    let n : FaultActions := ⟨false, true, false, false⟩
    ¬(255 < 255) ∧ 255 < 256 ∧ subjectOf 5 = .dock ∧ q.quarantine = true ∧ subjectOf 14 = .bike ∧
      n.noRelease = true ∧ subjectOf 15 = .terminal ∧ n ≠ ⟨false, false, false, false⟩ ∧ ¬(48 ≤ 47) ∧ 48 ≤ 48 := by decide

theorem meets_JournalCollectCarriesRecordsInOrder : base.Answers := by decide +kernel

theorem meets_JournalReleaseRemovesRecords :
    let j := { base.journal with coldStart := false }
    base.Answers ∧ base.journal.level ≠ .closed ∧
      j.records = base.journal.records.filter (fun x => decide (7 < x.seq)) ∧ j.records.length + 96 ≤ 1024 ∧
      j.level = .normal := by decide +kernel

/-- 769 records, sequence 8 on each: 255 places free, so a RESTRICTED journal stays RESTRICTED. -/
theorem meets_JournalReleaseRemovesRecords_restricted :
    let h : HireStart :=
      { number := 1, medium := .member, bike := 1, kind := .classic, pos := 0, grantTime := 0, stamp := 0, cls := 0
        flags := ⟨false, false, false, false⟩, unconfirmed := false, despiteCancel := false }
    let x : JournalRec := { seq := 8, time := 0, body := .hireStart h }
    let s := { base with journal := { base.journal with level := .restricted, records := List.replicate 769 x } }
    let j := { s.journal with coldStart := false }
    s.Answers ∧ j.records = s.journal.records.filter (fun x => decide (7 < x.seq)) ∧ j.records.length + 96 ≤ 1024 ∧
      1024 - j.records.length < 256 ∧ j.level = .restricted := by decide +kernel

/-! ### Witnesses: the trunk link and the loads -/

theorem meets_DiscardedTrunkFramesAreCounted :
    let f : TrunkRaw := { kind := 1, length := 1025, body := List.replicate 1025 0, crc := 0 }
    let g : TrunkRaw := { kind := 1, length := 1, body := [0], crc := 0 }
    1024 < f.length.toNat ∧ g.length.toNat ≤ 1024 ∧ g.crc ≠ crc32 (g.kind :: beBytes 2 g.length.toNat ++ g.body) := by
  decide +kernel

theorem meets_UnknownKindRestartsTheTimer :
    State.reset.stock.flags = State.reset.stock.notified ∧
      ∀ f ∈ State.reset.fault.log, f.state = .opened → f.severity = .minor := by decide +kernel

theorem meets_UnknownCodesAreAnswered : base.Answers ∧ 8 < 9 := by decide +kernel

theorem meets_FramesAreNotTakenWhileFourAnswersWait :
    let s := { base with trunk := { base.trunk with waiting := List.replicate 4 (commandReply 1 1 .done .service) } }
    (Instr.statusQuery ⟨3, none⟩).hasAnswer = true ∧ s.trunk.connected = true ∧ 4 ≤ s.trunk.waiting.length := by
  decide +kernel

theorem meets_ProtectedLoadsAreRefusedMode : base.Answers ∧ base.trunk.mode ≠ .maintenance := by decide +kernel

theorem meets_DropTableLoadMakesADock :
    upkeep.Answers ∧ upkeep.trunk.mode = .maintenance ∧ (∀ a : Fin 32, upkeep.entryOf ⟨.A, a⟩ ≠ .dock 59) ∧
      (∀ a : Fin 32, upkeep.entryOf ⟨.B, a⟩ ≠ .dock 59) ∧ upkeep.engA.entries[(31 : Fin 32)] = .none ∧
      upkeep.engA.mode = .stopped ∧ upkeep.engA.queue = [] ∧ upkeep.engA.exchange = none ∧
      (∀ b : Fin 32, upkeep.engB.entries[b] = .none) ∧ upkeep.engB.mode = .stopped ∧
      (upkeep.dock 59).state = .unused ∧ (upkeep.dock 59).bike = none ∧ upkeep.stock.flags = upkeep.stock.computed := by
  decide +kernel

theorem meets_RulePassKindAndTariffEntriesReplace :
    upkeep.Answers ∧ upkeep.trunk.mode = .maintenance ∧ tariff.grace ≤ 600 ∧ tariff.free ≤ 240 ∧ tariff.block ≤ 60 ∧
      tariff.bands.length ≤ 4 ∧ (∀ b ∈ tariff.bands, 1 ≤ b.upper ∧ b.upper ≤ 2880 ∧ b.rate ≤ 2000) ∧
      tariff.bands.IsChain (fun a b => a.upper < b.upper) ∧
      ¬tariff.bands.reverse.IsChain (fun a b => a.upper < b.upper) := by decide +kernel

/-- Entries of the CLASSIFIER of type PAIR, first above second, and of type MASK, the mask in `first`. -/
theorem meets_RulePassKindAndTariffEntriesReplace_pair_mask :
    let k : KindSet := ⟨false, true, false⟩
    let e : RuleEntry := ⟨31, true, some .any, 32, 32, some k, some .pair, 0x3F, 0, some .drop⟩
    let m : RuleEntry := { e with type := some .mask, first := 0x30, second := 0x20 }
    e.index = (31 : Fin 32).val ∧ e.first ≤ 0x3F ∧ e.second < e.first ∧ m.second ≤ 0x3F ∧
      m.second &&& m.first = m.second ∧ k.pay = true := by decide

theorem meets_SettingsAreClampedIntoTheirRanges :
    upkeep.Answers ∧ upkeep.trunk.mode = .maintenance ∧
      upkeep.trunk.settings.rideMin + 5 ≤ upkeep.trunk.settings.resume ∧ upkeep.trunk.settings.resume ≤ 60 ∧
      600 = max 10 (min 600 601) := by decide +kernel

/-- The dock with a tariff, so that the station is ready, in a mode. -/
def ready (m : Mode) : State :=
  { docked with
    hire := { docked.hire with tariffs := docked.hire.tariffs.set 0 (some tariff) }
    trunk := { docked.trunk with mode := m } }

theorem meets_StartServiceAndLeaveMaintenance :
    (ready .init).Answers ∧ (ready .maintenancePending).Answers ∧ (ready .init).entryOf ⟨.A, 4⟩ ≠ .none ∧
      ((ready .init).hire.tariffs[(0 : Fin 8)]).isSome = true ∧ (ready .init).trunk.timeValid = true ∧
      (ready .init).trunk.station ≠ 0 ∧ base.hire.tariffs[(0 : Fin 8)] = none := by decide +kernel

theorem meets_EnterMaintenanceByMode :
    (ready .init).Answers ∧ (ready .maintenance).Answers ∧ (ready .maintenancePending).Answers ∧ base.Answers ∧
      base.trunk.mode = .service ∧ base.van.visit = none := by decide +kernel

theorem meets_RestartTakesEveryBlock :
    let s := releasing unlocked
    s.Answers ∧ (∀ r ∈ s.sale.sales, r.state ≠ .offered) ∧ s.van.visit = none ∧ s.engA.holdLine = false ∧
      s.engB.holdLine = false ∧ s.stock.low = ⟨0, 0, 0⟩ ∧ s.stock.notified = ⟨false, false, false, false, false, false⟩ ∧
      s.engA.entries[(4 : Fin 32)] ≠ .none ∧ (s.dock 2).state = .releasing ∧ (s.dropAt 2).isSome = true ∧
      (s.dock 3).state ≠ .releasing := by decide +kernel

/-- A group 1, a group 2 and a group 3 frame. -/
def frames : List OutFrame :=
  [.telemetry { drop := ⟨.A, 4⟩, kind := .dock, pos := some 2, number := 1, code := 0x3F, stamp := 9, fields := [], by_ := .default }
    , .referralRequest 77 2 7 1000
    , .stockNotice ⟨false, false, false, false, false, false⟩ ⟨0, 0, 0⟩]

theorem meets_OutboundSendTakesTheOldestOfTheHighestGroup :
    let f : OutFrame := .referralRequest 77 2 7 1000
    frames = frames.take 1 ++ f :: frames.drop 2 ∧ (∀ x ∈ frames.take 1, f.group < x.group) ∧
      ∀ x ∈ frames.drop 2, f.group ≤ x.group := by decide +kernel

theorem meets_OfferedFrameJoinsOrIsDealtWith :
    let f : OutFrame := .referralRequest 77 2 7 1000
    let g : OutFrame := .stockNotice ⟨false, false, false, false, false, false⟩ ⟨0, 0, 0⟩
    f.group ≠ 3 ∧ g.group = 3 ∧ (List.replicate 15 f ++ g :: []).length = 16 ∧ f.isAnswer = false ∧
      (commandReply 1 1 .done .service).isAnswer = true ∧
      ∀ x ∈ List.replicate 16 f, x.group ≠ 3 := by decide +kernel

theorem meets_TimeSetSetsTheCounter :
    base.Answers ∧ 1000 ≤ base.trunk.time ∧ base.hire.referrals = [] ∧ base.hire.releases = [] ∧
      (∀ r ∈ base.sale.sales, r.state ≠ .offered) ∧ base.hire.recent = [] ∧ base.van.orders = [] ∧
      base.van.visit = none := by decide +kernel

theorem meets_IslandTimeoutMakesTheTrunkIslanded :
    let s := { base with trunk := { base.trunk with islandSeconds := 60 } }
    s.trunk.timerOn = true ∧ s.trunk.islandLimit ≤ s.trunk.islandSeconds ∧ s.hire.referrals = [] ∧
      base.trunk.islandSeconds < base.trunk.islandLimit := by decide +kernel

theorem meets_IslandTimeoutMakesTheTrunkIslanded_early :
    let s := { base with trunk := { base.trunk with islandSeconds := 59 } }
    s.trunk.timerOn = true ∧ s.trunk.islandSeconds + 1 = s.trunk.islandLimit ∧ State.reset.trunk.timerOn = false := by
  decide +kernel

theorem meets_StatusReportShowsTheJournal : base.Answers ∧ base.journal.records = [] := by decide +kernel

theorem meets_ReportsShowTheHireUnit :
    (releasing unlocked).Answers ∧ (releasing unlocked).releaseAt 2 = some unlocked := by decide +kernel

theorem meets_ListsCarryRecordsInOrder :
    let s := { base with fault := { base.fault with log := [fault .opened] } }
    s.Answers ∧ 0 < s.fault.log.length := by decide +kernel

/-! ### One step each, worked by hand from the rule -/

/-- The state after a command, or the state before it. -/
def after (c : Instr) (s : State) : State :=
  match exec c s with
  | .next t => t
  | _ => s

/-- R195: a resume level of 70 is reported CLAMPED though a later entry of the load replaces it by 40. -/
theorem test_an_overwritten_resume_entry_is_reported_clamped :
    let r := settingsOf Settings.reset [.num .resume 70, .num .resume 40] 0
    (r.applied, r.run.clamped, r.run.settings.resume) = (2, [.num .resume], 40) := by decide

/-- R195: a ride minimum of 40 later in the load puts the resume level's range at 45..60. -/
theorem test_the_resume_range_is_that_of_the_whole_load :
    let r := settingsOf Settings.reset [.num .resume 41, .num .rideMin 40] 0
    (r.run.clamped, r.run.settings.resume) = ([.num .resume], 45) := by decide

/-- R203: a medium outside its encoding makes a RELEASE MALFORMED; R91: a number 0 is refused by the command's own rule. -/
theorem test_release_outside_its_encoding :
    (after (.release ⟨1, some ⟨3, 77, 2⟩⟩) docked).trunk.counts.malformed = 1 ∧
      (after (.release ⟨1, some ⟨3, 0, 1⟩⟩) docked).trunk.counts.malformed = 0 := by decide +kernel

/-- R47: WANTED stood computed and its notice was discarded; a change of service that changes no flag makes no notice. -/
theorem test_no_notice_without_a_change_of_a_flag :
    let w : StockFlags := ⟨true, false, false, false, false, false⟩
    let s := { docked with stock := { docked.stock with low := ⟨9, 0, 0⟩, computed := w } }
    s.stock.flags = w ∧ (after (.setDockService ⟨1, some ⟨3, some .noRelease⟩⟩) s).trunk.queue.length = 1 ∧
      (after (.setDockService ⟨1, some ⟨3, some .noRelease⟩⟩)
        { s with stock := { s.stock with low := ⟨1, 0, 0⟩, computed := ⟨false, false, false, false, false, false⟩ } }
          ).trunk.queue.length = 2 := by
  decide +kernel

/-- R171, R43: the bike that a RESTART kept has a QUARANTINE record, and is held again at its first PRESENT. -/
theorem test_a_kept_bike_is_held_again :
    let f : FaultRec :=
      { id := 1, subject := .bike 9, code := 10, severity := .major, first := 10, last := 10, repeats := 1, state := .notified }
    let s := { releasing unlocked with fault := { base.fault with log := [f] } }
    let t := after (.restart ⟨1, some ()⟩) s
    let x : TagReport := { bike := 9, kind := .classic, mark := true, contact := .none, battery := none, token := none }
    (t.dock 2).bike.map Bike.id = some 9 ∧
      ((presentDock call 2 (some x) 1000 t).dock 2).bike.map Bike.hold = some .quarantine := by decide +kernel

/-- R131: the card of a return priced with NO RECORD has been loaded since; its waiver leaves the headroom as it is. -/
theorem test_waiver_of_a_return_without_a_record :
    let s := { base with hire := { base.hire with cards := [card] } }
    let headroom (e : RecentReturn) := (waive call 0 e 1000 s).hire.cards.map CardRec.headroom
    headroom { recent with number := card.number, noRecord := true } = [card.headroom] ∧
      headroom { recent with number := card.number } = [card.headroom + 50] := by decide +kernel

/-- R54: a battery of 90 moves the WAITING dock at position index 2 behind the one at 5. -/
theorem test_a_battery_moves_a_waiting_dock :
    let b (id n : Nat) : Bike := { bike with id := id, kind := .electric, battery := some n, contact := .good }
    let s :=
      { docked with
        stock :=
          { docked.stock with
            waitList := [2, 5]
            docks :=
              (docked.stock.docks.set 2 { full with bike := some (b 9 40), charge := .waiting }).set 5
                { full with bike := some (b 8 60), charge := .waiting } } }
    (takeBattery 2 (some 90) s).stock.waitList = [5, 2] ∧ (takeBattery 2 (some 50) s).stock.waitList = [2, 5] := by
  decide +kernel

/-- R129: a press at the second of the expiry, taken before it, waives the fare; one a second later does not. -/
theorem test_waiver_in_the_second_of_the_expiry :
    let e := { recent with bike := bike.id, number := card.number }
    let s (now : Nat) : State :=
      { docked with
        hire := { docked.hire with cards := [card], recent := [e] }, trunk := { docked.trunk with time := now } }
    (faultButton call 2 1000 (s 1000)).hire.recent = [] ∧ (faultButton call 2 1000 (s 1001)).hire.recent = [e] := by
  decide +kernel

/-- R197: a guard of 997 is taken before the referral of 998, and a guard of 999 after it. -/
theorem test_hire_deadlines_go_in_order :
    let s (g : Nat) : State :=
      { releasing { unlocked with guardAt := some g } with
        hire := { base.hire with referrals := [{ referral with deadline := 998 }], releases := [{ unlocked with guardAt := some g }] } }
    ((takeDeadlines call (s 997)).engA.queue.map fun x => x.cmd.cls) = [.control, .display] ∧
      ((takeDeadlines call (s 999)).engA.queue.map fun x => x.cmd.cls) = [.display, .control] := by decide +kernel

/-- R57: with S 1 and the full level lowered, the dock of the lower position joins with the higher battery, and the slot goes to
the dock of the lower battery, both eligible again in step (2). -/
theorem test_settings_grant_after_the_whole_of_step_two :
    let b (id n : Nat) : Bike := { bike with id := id, kind := .electric, battery := some n, contact := .good }
    let s :=
      { docked with
        engA :=
          { docked.engA with
            entries := docked.engA.entries.set 9 (.dock 5), drops := docked.engA.drops.set 9 (some active) }
        stock :=
          { docked.stock with
            docks :=
              (docked.stock.docks.set 2 { full with bike := some (b 9 85), charge := .full }).set 5
                { full with bike := some (b 8 60), charge := .full } }
        trunk := { docked.trunk with settings := { Settings.reset with chargeSlots := 1 } } }
    (chargingSettings call s).stock.chargingList = [5] ∧ (chargingSettings call s).stock.waitList = [2] := by decide +kernel

/-! ### Witnesses: resets and invariants -/

theorem meets_PowerOnResetOfTrunkAndJournal :
    (⟨true, 5, 7, true, false, false⟩ : PowerOn).standbyHeld = true ∧
      (⟨false, 0, 0, false, true, true⟩ : PowerOn).standbyHeld = false := by decide

theorem meets_EveryStepKeepsTheJournalARun :
    let s := { base with pending := [.stationTimeTick] }
    s.PendingWf ∧ s.journal.Sound := by decide +kernel

theorem meets_EveryStepKeepsTheQueuesWithinRoom :
    let s := { docked with pending := [.statusQuery ⟨1, some ()⟩] }
    s.PendingWf ∧ s.engA.QueueSound ∧ s.engB.QueueSound ∧ s.trunk.OutSound := by decide +kernel

theorem meets_EveryStepKeepsTheHireTables :
    let s := { referred with pending := [.referralDeadline 77] }
    s.PendingWf ∧ s.trunk.settings.Sound ∧ s.hire.CardsSound ∧ s.hire.PassesSound ∧ s.hire.ReferralsSound ∧
      s.hire.ReleasesSound ∧ s.hire.RecentSound := by decide +kernel

theorem meets_EveryStepKeepsTablesSettingsAndCharging :
    let s := { docked with pending := [.stationTimeTick] }
    s.PendingWf ∧ s.trunk.settings.Sound ∧ s.ChargingSound ∧ s.van.OrdersSound ∧ s.stock.FlagsComputed ∧
      s.fault.LogSound := by decide +kernel

end Sys2Proof.Tests
end

section
/-! The code match (R26) and the operands that a CLASSIFIER load accepts (R26, R32). -/

namespace Sys2Proof.Machine

/-- RANGE: both ends are inside. -/
@[simp] theorem codeMatches_range_iff (first second code : Nat) :
    codeMatches .range first second code = true ↔ first ≤ code ∧ code ≤ second := by
  simp [codeMatches]

@[simp] theorem codeMatches_pair_iff (first second code : Nat) :
    codeMatches .pair first second code = true ↔ code = first ∨ code = second := by
  simp [codeMatches]

/-- MASK: the first operand is the mask, the second the value. -/
@[simp] theorem codeMatches_mask_iff (first second code : Nat) :
    codeMatches .mask first second code = true ↔ code &&& first = second := by
  simp [codeMatches]

/-- An entry that gives a rule names the rule's type, and its operands keep what R26 asks of that type. -/
theorem operands_of_ruleOf_eq_some {e : RuleEntry} {r : Rule} (h : ruleOf e = some r) :
    e.type = some r.type ∧ (r.type = .range → e.first ≤ e.second) ∧
      (r.type = .mask → e.second &&& e.first = e.second) := by
  unfold ruleOf at h
  split at h
  next _ _ type _ _ _ htype _ =>
    split at h
    next hguard =>
      obtain ⟨-, -, -, -, -, -, hrange, hmask⟩ := hguard
      obtain rfl := Option.some.inj h
      exact ⟨htype, hrange, hmask⟩
    next => cases h
  next => cases h

theorem ruleOf_range_eq_none {e : RuleEntry} (htype : e.type = some .range) (hlt : e.second < e.first) :
    ruleOf e = none := by
  refine Option.eq_none_iff_forall_ne_some.mpr fun r hr => ?_
  obtain ⟨hr_type, hrange, -⟩ := operands_of_ruleOf_eq_some hr
  have hle : e.first ≤ e.second := hrange (Option.some.inj (hr_type.symm.trans htype))
  omega

theorem ruleOf_mask_eq_none {e : RuleEntry} (htype : e.type = some .mask)
    (hbits : e.second &&& e.first ≠ e.second) : ruleOf e = none := by
  refine Option.eq_none_iff_forall_ne_some.mpr fun r hr => ?_
  obtain ⟨hr_type, -, hmask⟩ := operands_of_ruleOf_eq_some hr
  exact hbits (hmask (Option.some.inj (hr_type.symm.trans htype)))

end Sys2Proof.Machine

open Sys2Proof Sys2Proof.Machine

/-- Settles O12: the three code matches and the two refused kinds of operands are the lemmas above, and each named match
(one code, any code, all of 0x00..0x3F) is its type's match at those operands. -/
theorem codeMatchTypes : Obligations.CodeMatchTypes := by
  unfold Obligations.CodeMatchTypes
  refine ⟨fun first second code => ?types, fun e => ruleOf_range_eq_none, fun e => ruleOf_mask_eq_none,
    fun x code => ?oneCode, fun code => ?anyCode, fun code hcode => ?fullRange⟩
  case types =>
    exact ⟨codeMatches_range_iff first second code, codeMatches_pair_iff first second code,
      codeMatches_mask_iff first second code⟩
  case oneCode => exact (codeMatches_pair_iff x x code).trans or_self_iff
  case anyCode => exact (codeMatches_mask_iff 0 0 code).mpr (Nat.and_zero code)
  case fullRange => exact (codeMatches_range_iff 0x00 0x3F code).mpr ⟨Nat.zero_le code, hcode⟩

end

section
/-! Frames from central that are taken and answered (R186 to R189), and what the two reports show of the Hire Unit (R94). -/

namespace Sys2Proof.Machine

variable {s : State}

/-! ### Taking a frame, and its answer -/

/-- While the trunk is CONNECTED a valid frame restarts the island timer and does no more (R186). -/
theorem frameArrives_of_connected (h : s.trunk.connected = true) : frameArrives s = s.timerRestarted :=
  if_pos h

theorem takeFrame_of_answers (act : State → State) (h : s.Answers) : takeFrame act s = act s.timerRestarted := by
  obtain ⟨hconnected, hwaiting, -⟩ := h
  unfold takeFrame
  rw [frameArrives_of_connected hconnected]
  exact if_pos hwaiting

theorem takeBody_some_of_answers {α : Type} (tag : Nat) (x : α) (range : State → OutFrame) (act : α → State → State)
    (h : s.Answers) : takeBody { tag := tag, body := some x } range act s = act x s.timerRestarted :=
  takeFrame_of_answers _ h

/-- An answer joins an outbound queue that has room (R189). -/
theorem answer_of_room (f : OutFrame) (h : s.trunk.queue.length < 16) : s.answer f = s.withFrame f := by
  have hoffer : s.trunk.offer f = ({ s.trunk with queue := s.trunk.queue ++ [f] }, true) := if_pos h
  unfold State.answer State.offer State.withFrame
  rw [hoffer]

/-- The timer restarted leaves the outbound queue as it is, so an answer made then joins it as well. -/
theorem answer_timerRestarted (f : OutFrame) (h : s.Answers) :
    s.timerRestarted.answer f = s.timerRestarted.withFrame f := by
  obtain ⟨-, -, hroom⟩ := h
  exact answer_of_room f hroom

/-- A frame carries a position by its number, from 1. -/
@[simp] theorem posOf_val_add_one (p : DockPos) : posOf (p.val + 1) = some p := by
  have hrange : 1 ≤ p.val + 1 ∧ p.val + 1 ≤ 60 := by omega
  simp [posOf, hrange]

/-! ### The queries for the two reports (R199) -/

theorem exec_statusQuery_of_answers (tag : Nat) (h : s.Answers) :
    exec (.statusQuery { tag := tag, body := some () }) s =
      .next (s.timerRestarted.withFrame (.statusReport tag s.timerRestarted.statusReport)) := by
  have hrun : exec (.statusQuery { tag := tag, body := some () }) s =
      .next (takeBody { tag := tag, body := some () } (rangeReply tag 8) (reportStatus tag) s) := rfl
  rw [hrun, takeBody_some_of_answers _ _ _ _ h]
  exact congrArg _ (answer_timerRestarted _ h)

theorem exec_dockListQuery_of_answers (tag : Nat) (p : DockPos) (h : s.Answers) :
    exec (.dockListQuery { tag := tag, body := some (p.val + 1) }) s =
      .next (s.timerRestarted.withFrame (.dockList (s.timerRestarted.dockList tag p))) := by
  have hrun : exec (.dockListQuery { tag := tag, body := some (p.val + 1) }) s =
      .next (takeBody { tag := tag, body := some (p.val + 1) } (rangeReply tag 9) (reportDocks tag) s) := rfl
  rw [hrun, takeBody_some_of_answers _ _ _ _ h]
  simp only [reportDocks, posOf_val_add_one, answer_timerRestarted _ h]

/-! ### What the reports carry (R94) -/

theorem timerRestarted_releaseAt (s : State) (p : DockPos) : s.timerRestarted.releaseAt p = s.releaseAt p := rfl

theorem releasesOf_eq_length_filter (u : Hire) (k : ReleaseKind) :
    u.releasesOf k = (u.releases.filter fun r => r.kind == k).length :=
  List.countP_eq_length_filter

/-- What the DOCK LIST marks of a release in flight (R94). -/
def Release.mark (r : Release) : ReleaseMark :=
  { kind := r.kind, unlocked := r.guardAt.isSome, cancel := r.cancel, checking := r.checking }

theorem dockReport_release (s : State) (p : DockPos) :
    (s.dockReport p).release = (s.releaseAt p).map Release.mark := rfl

/-- Every record of a DOCK LIST is the report of its own position. -/
theorem eq_dockReport_of_mem_dockList {tag : Nat} {first : DockPos} {x : DockReport}
    (hx : x ∈ (s.dockList tag first).docks) : x = s.dockReport x.pos := by
  obtain ⟨p, -, rfl⟩ := List.mem_map.mp hx
  rfl

end Sys2Proof.Machine

open Sys2Proof Sys2Proof.Machine

/-- Settles O52: each query is answered with a report of the state whose timer has restarted, and that state has the Hire
Unit of the state before; the counts are those of its tables, and a dock's mark is that of the release at its position. -/
theorem reportsShowTheHireUnit : Obligations.ReportsShowTheHireUnit := by
  unfold Obligations.ReportsShowTheHireUnit
  intro s tag p h
  refine ⟨⟨s.timerRestarted.statusReport, exec_statusQuery_of_answers tag h, ?counts⟩,
    s.timerRestarted.dockList tag p, exec_dockListQuery_of_answers tag p h, fun x hx => ?mark⟩
  case counts =>
    exact ⟨rfl, List.countP_eq_length_filter, List.countP_eq_length_filter, List.countP_eq_length_filter, rfl,
      releasesOf_eq_length_filter _ _, releasesOf_eq_length_filter _ _, releasesOf_eq_length_filter _ _⟩
  case mark =>
    have hrelease : x.release = (s.releaseAt x.pos).map Release.mark := by
      rw [← timerRestarted_releaseAt, ← dockReport_release, ← eq_dockReport_of_mem_dockList hx]
    constructor
    · intro hnone
      rw [hrelease, hnone, Option.map_none]
    · intro r hsome
      rw [hrelease, hsome, Option.map_some, Release.mark]

end

section
/-! The stages of a fare (R117 to R119), and the charge on an account (R120 to R124). -/

namespace Sys2Proof.Machine

/-! ### Minutes and blocks (R117, R118) -/

/-- The billed minutes are the least whole number of minutes that holds the ride. -/
theorem billedMinutes_bounds (d : Nat) : d ≤ 60 * billedMinutes d ∧ 60 * billedMinutes d < d + 60 := by
  unfold billedMinutes
  omega

/-- A ride of 1 s to 48 hours is billed 1 to 2,880 minutes. -/
theorem billedMinutes_range {d : Nat} (hpos : 0 < d) (hle : d ≤ 172800) :
    1 ≤ billedMinutes d ∧ billedMinutes d ≤ 2880 := by
  have hbounds := billedMinutes_bounds d
  omega

@[simp] theorem blockCount_zero {block : Nat} (hblock : 1 ≤ block) : blockCount 0 block = 0 :=
  Nat.div_eq_of_lt (by omega)

/-- The blocks are the fewest that hold the chargeable minutes. -/
theorem blockCount_bounds (q : Nat) {block : Nat} (hblock : 1 ≤ block) :
    q ≤ blockCount q block * block ∧ blockCount q block * block < q + block := by
  have hdivision : blockCount q block * block + (q + (block - 1)) % block = q + (block - 1) :=
    Nat.div_add_mod' _ _
  have hrest : (q + (block - 1)) % block < block := Nat.mod_lt _ hblock
  omega

/-! ### The band sum (R118) -/

/-- The model's walk down the bands finds the rate that R118 words: the first band but the last whose limit reaches the
minute, else the last. -/
theorem rateAt_eq_blockRate (minute : Nat) : ∀ bands : List Band, rateAt minute bands = blockRate bands minute
  | [] => rfl
  | [_] => rfl
  | b :: c :: bs => by
    have ih := rateAt_eq_blockRate minute (c :: bs)
    by_cases hreach : minute ≤ b.upper
    · simp [rateAt, blockRate, hreach]
    · simpa [rateAt, blockRate, hreach] using ih

/-- Adding the block rates one by one, each time saturating, gives their sum saturated once. -/
theorem bandSumTo_eq (t : Tariff) (n : Nat) :
    bandSumTo t n = min 65535 (((List.range n).map fun j => blockRate t.bands (j * t.block + 1)).sum) := by
  induction n with
  | zero => rfl
  | succ n ih =>
    simp only [bandSumTo, addMoney, satAdd, ih, rateAt_eq_blockRate, List.range_succ, List.map_append, List.map_cons,
      List.map_nil, List.sum_append, List.sum_singleton]
    omega

/-! ### The price -/

theorem priceOf_of_short {t : Tariff} {d : Nat} (kind : BikeKind) (h : d ≤ t.grace) :
    priceOf t kind d = ⟨true, 0, 0, 0, 0⟩ :=
  if_pos h

theorem priceOf_of_grace_lt {t : Tariff} {d : Nat} (kind : BikeKind) (h : t.grace < d) :
    priceOf t kind d =
      { short := false, minutes := billedMinutes d
        bandSum := bandSumTo t (blockCount (billedMinutes d - t.free) t.block), unlockFee := perKind t.unlockFee kind
        gross :=
          addMoney (bandSumTo t (blockCount (billedMinutes d - t.free) t.block)) (perKind t.unlockFee kind) } :=
  if_neg (Nat.not_le.mpr h)

/-! ### The daily cap (R123) -/

@[simp] theorem capped_zero (total net : Nat) : capped 0 total net = net :=
  if_pos rfl

theorem capped_of_ne_zero {cap : Nat} (h : cap ≠ 0) (total net : Nat) : capped cap total net = min net (cap - total) :=
  if_neg h

theorem capped_le (cap total net : Nat) : capped cap total net ≤ net := by
  unfold capped
  split
  · exact le_rfl
  · exact Nat.min_le_left _ _

/-- What a cap leaves to charge, where it leaves anything, does not take the day total above the cap. -/
theorem add_capped_le {cap total net : Nat} (hcap : cap ≠ 0) (hcharge : capped cap total net ≠ 0) :
    total + capped cap total net ≤ cap := by
  rw [capped_of_ne_zero hcap] at hcharge ⊢
  omega

/-! ### The charge on an account (R120, R122 to R124) -/

/-- The day total that an account brings to a return of a day (R122). -/
def Account.totalOn (a : Account) (day : Int) : Nat := if a.day = day then a.dayTotal else 0

section
variable (t : Tariff) (gross earns : Nat) (day : Int) (here : Bool) (a : Account)

/-- An account without a reward balance uses none, as one whose balance is 0 (R120). -/
theorem chargeOn_rewardUsed : (chargeOn t gross earns day here a).rewardUsed = min (a.reward.getD 0) gross := by
  unfold chargeOn
  cases a.reward with
  | none => exact (Nat.zero_min gross).symm
  | some r => rfl

theorem chargeOn_charge :
    (chargeOn t gross earns day here a).charge =
      capped t.dailyCap (a.totalOn day) (gross - min (a.reward.getD 0) gross) := by
  rw [← chargeOn_rewardUsed t gross earns day here a]
  rfl

theorem chargeOn_capReduction :
    (chargeOn t gross earns day here a).capReduction =
      gross - min (a.reward.getD 0) gross - (chargeOn t gross earns day here a).charge := by
  rw [← chargeOn_rewardUsed t gross earns day here a]
  rfl

theorem chargeOn_account_day : (chargeOn t gross earns day here a).account.day = day := rfl

theorem chargeOn_account_dayTotal :
    (chargeOn t gross earns day here a).account.dayTotal =
      min 65535 (a.totalOn day + (chargeOn t gross earns day here a).charge) := rfl

theorem chargeOn_account_headroom :
    (chargeOn t gross earns day here a).account.headroom =
      a.headroom - (chargeOn t gross earns day here a).charge := rfl

theorem chargeOn_account_outCount :
    (chargeOn t gross earns day here a).account.outCount = if here then a.outCount - 1 else a.outCount := rfl

/-- Reward used, charge and cap reduction come to the gross (R120, R123). -/
theorem chargeOn_parts :
    (chargeOn t gross earns day here a).rewardUsed + (chargeOn t gross earns day here a).charge +
      (chargeOn t gross earns day here a).capReduction = gross := by
  have hle := capped_le t.dailyCap (a.totalOn day) (gross - min (a.reward.getD 0) gross)
  rw [chargeOn_capReduction, chargeOn_rewardUsed, chargeOn_charge]
  omega

/-- A charge never takes the day total above the daily cap (R123). -/
theorem chargeOn_dayTotal_le_dailyCap (hcap : t.dailyCap ≠ 0)
    (hcharge : (chargeOn t gross earns day here a).charge ≠ 0) :
    (chargeOn t gross earns day here a).account.dayTotal ≤ t.dailyCap := by
  rw [chargeOn_account_dayTotal]
  rw [chargeOn_charge] at hcharge ⊢
  exact (Nat.min_le_right _ _).trans (add_capped_le hcap hcharge)

end

end Sys2Proof.Machine

open Sys2Proof Sys2Proof.Machine

/-- Settles O26: m, q and n are the model's billed minutes, their excess over the free minutes, and the block count; the
band sum is that of the first n block rates. -/
theorem fareOfARideThatIsNotShort : Obligations.FareOfARideThatIsNotShort := by
  unfold Obligations.FareOfARideThatIsNotShort
  intro t kind d
  refine ⟨fun hshort => ?short, fun hgrace hlongest hblock _ => ?priced, fun hgrace => ?oneMinute⟩
  case short => rw [priceOf_of_short kind hshort]
  case priced =>
    rw [priceOf_of_grace_lt kind hgrace]
    refine ⟨billedMinutes d, billedMinutes d - t.free, blockCount (billedMinutes d - t.free) t.block,
      billedMinutes_bounds d, billedMinutes_range (by omega) hlongest, rfl,
      ⟨fun hfree => Nat.sub_add_cancel hfree.le, Nat.sub_eq_zero_of_le⟩, blockCount_bounds _ hblock,
      fun hq => ?noBlocks, bandSumTo_eq t _, rfl, rfl⟩
    case noBlocks =>
      simp only [hq, blockCount_zero hblock]
      exact ⟨trivial, rfl⟩
  case oneMinute =>
    rw [priceOf_of_grace_lt kind hgrace, priceOf_of_grace_lt kind (hgrace.trans (by decide))]
    exact ⟨rfl, rfl⟩

/-- Settles O27: each clause is what `chargeOn` gives in that field, and the two rows of the cap are `capped`'s. -/
theorem chargeRespectsTheDailyCap : Obligations.ChargeRespectsTheDailyCap := by
  unfold Obligations.ChargeRespectsTheDailyCap
  intro t gross earns day here a
  refine ⟨chargeOn_rewardUsed t gross earns day here a, fun hcap => ?uncapped, fun hcap => ?capped,
    chargeOn_capReduction t gross earns day here a, chargeOn_parts t gross earns day here a,
    chargeOn_dayTotal_le_dailyCap t gross earns day here a, chargeOn_account_day t gross earns day here a,
    chargeOn_account_dayTotal t gross earns day here a, chargeOn_account_headroom t gross earns day here a,
    chargeOn_account_outCount t gross earns day here a⟩
  case uncapped => rw [chargeOn_charge, hcap, capped_zero]
  case capped => exact (chargeOn_charge t gross earns day here a).trans (capped_of_ne_zero hcap _ _)

end

section
/-! What the STATUS REPORT shows of the Journal Unit (R184). -/

namespace Sys2Proof.Machine

variable {j : Journal}

/-! ### The held range (R172) -/

theorem range_eq_none_of_empty (h : j.records = []) : j.range = none := by
  simp only [Journal.range, h, List.head?_nil]

/-- The held range runs from the oldest record to the youngest. -/
theorem range_eq_some_of_ends {a b : JournalRec} (ha : j.records.head? = some a) (hb : j.records.getLast? = some b) :
    j.range = some (a.seq, b.seq) := by
  simp only [Journal.range, ha, hb]

/-! ### What the query leaves unchanged (R184, R186) -/

theorem timerRestarted_journal (s : State) : s.timerRestarted.journal = s.journal := rfl

theorem statusReport_journalRange (s : State) : s.statusReport.journalRange = s.journal.range := rfl

end Sys2Proof.Machine

open Sys2Proof Sys2Proof.Machine

/-- Settles O51: the query is answered with a report of the state whose timer has restarted, and that state has the journal
of the state before; the range reported is that journal's held range, and the other items are its fields. -/
theorem statusReportShowsTheJournal : Obligations.StatusReportShowsTheJournal := by
  unfold Obligations.StatusReportShowsTheJournal
  intro s tag h
  have hrange : s.timerRestarted.statusReport.journalRange = s.journal.range := by
    rw [statusReport_journalRange, timerRestarted_journal]
  refine ⟨s.timerRestarted.statusReport, exec_statusQuery_of_answers tag h, rfl, fun hempty => ?empty,
    fun a b holdest hyoungest => ?held, rfl, rfl, rfl, rfl⟩
  case empty => exact hrange.trans (range_eq_none_of_empty hempty)
  case held => exact hrange.trans (range_eq_some_of_ends holdest hyoungest)

end

section
/-! START SERVICE and LEAVE MAINTENANCE (R190), with the conditions of readiness (R191). -/

namespace Sys2Proof.Machine

variable {s : State}

/-! ### Readiness (R191) -/

/-- The model asks of the two segments at once, address by address. -/
theorem notReady_noDropTable_iff : s.notReady.noDropTable = true ↔ ∀ d : Drop, s.entryOf d = .none := by
  simp only [State.notReady, addresses, List.all_eq_true, List.mem_finRange, Bool.and_eq_true, beq_iff_eq, true_imp_iff]
  constructor
  · rintro hnone ⟨g, a⟩
    obtain ⟨hnoneA, hnoneB⟩ := hnone a
    cases g
    case A => exact hnoneA
    case B => exact hnoneB
  · exact fun hnone a => ⟨hnone ⟨.A, a⟩, hnone ⟨.B, a⟩⟩

theorem notReady_noTariff_iff : s.notReady.noTariff = true ↔ s.hire.tariffs[(0 : Fin 8)] = none :=
  Option.isNone_iff_eq_none

theorem notReady_noTime_iff : s.notReady.noTime = true ↔ s.trunk.timeValid = false :=
  (Bool.not_eq_true' s.trunk.timeValid).to_iff

theorem notReady_noStation_iff : s.notReady.noStation = true ↔ s.trunk.station = 0 :=
  beq_iff_eq

/-- The station is ready where no mark is set. -/
theorem ready_iff_marks :
    s.ready = true ↔
      ¬s.notReady.noDropTable = true ∧ ¬s.notReady.noTariff = true ∧ ¬s.notReady.noTime = true ∧
        ¬s.notReady.noStation = true := by
  rw [State.ready, beq_iff_eq, NotReady.mk.injEq]
  simp only [Bool.not_eq_true]

theorem ready_iff :
    s.ready = true ↔
      (∃ d : Drop, s.entryOf d ≠ .none) ∧ (s.hire.tariffs[(0 : Fin 8)]).isSome = true ∧ s.trunk.timeValid = true ∧
        s.trunk.station ≠ 0 := by
  rw [ready_iff_marks, notReady_noDropTable_iff, notReady_noTariff_iff, notReady_noTime_iff, notReady_noStation_iff,
    not_forall, Option.isSome_iff_ne_none, Bool.not_eq_false]

/-- Readiness rests on nothing that the island timer's restart changes. -/
theorem timerRestarted_notReady (s : State) : s.timerRestarted.notReady = s.notReady := rfl

theorem timerRestarted_ready (s : State) : s.timerRestarted.ready = s.ready := rfl

/-! ### A COMMAND that is taken and answered (R193) -/

/-- What a COMMAND's work came to, with its COMMAND REPLY offered; the reply carries the mode after it. -/
def commandAnswered (tag code : Nat) (r : CommandResult × State) : State :=
  r.2.answer (commandReply tag code r.1 r.2.trunk.mode)

theorem takeCommand_some_of_answers {α : Type} (tag code : Nat) (x : α) (act : α → State → CommandResult × State)
    (h : s.Answers) :
    takeCommand code { tag := tag, body := some x } act s = commandAnswered tag code (act x s.timerRestarted) :=
  takeFrame_of_answers _ h

/-- A COMMAND that changes nothing is answered with the mode as it was. -/
theorem commandAnswered_unchanged (tag code : Nat) (r : CommandResult) (h : s.Answers) :
    commandAnswered tag code (r, s.timerRestarted) =
      s.timerRestarted.withFrame (commandReply tag code r s.trunk.mode) :=
  answer_timerRestarted _ h

theorem exec_startService_of_answers (tag : Nat) (h : s.Answers) :
    exec (.startService { tag := tag, body := some () }) s =
      .next (commandAnswered tag 1 (startService s.timerRestarted)) :=
  congrArg Host.Outcome.next (takeCommand_some_of_answers tag 1 () (fun _ t => startService t) h)

theorem exec_leaveMaintenance_of_answers (tag : Nat) (h : s.Answers) :
    exec (.leaveMaintenance { tag := tag, body := some () }) s =
      .next (commandAnswered tag 3 (leaveMaintenance s.timerRestarted)) :=
  congrArg Host.Outcome.next (takeCommand_some_of_answers tag 3 () (fun _ t => leaveMaintenance t) h)

/-! ### What the two commands do in each mode (R190) -/

theorem startService_of_init (h : s.trunk.mode = .init) : startService s = serveIfReady s := by
  rw [startService, h]

theorem startService_of_service (h : s.trunk.mode = .service) : startService s = (.done, s) := by
  rw [startService, h]

theorem startService_of_maintenance (h : s.trunk.mode = .maintenancePending ∨ s.trunk.mode = .maintenance) :
    startService s = (.mode, s) := by
  obtain hmode | hmode := h <;> rw [startService, hmode]

theorem leaveMaintenance_of_init (h : s.trunk.mode = .init) : leaveMaintenance s = (.mode, s) := by
  rw [leaveMaintenance, h]

theorem leaveMaintenance_of_service (h : s.trunk.mode = .service) : leaveMaintenance s = (.done, s) := by
  rw [leaveMaintenance, h]

theorem leaveMaintenance_of_maintenance (h : s.trunk.mode = .maintenancePending ∨ s.trunk.mode = .maintenance) :
    leaveMaintenance s = serveIfReady s := by
  obtain hmode | hmode := h <;> rw [leaveMaintenance, hmode]

/-! ### Entering SERVICE, or not (R191) -/

/-- The mode becomes SERVICE and the answer is DONE; the model clears the two quiet marks (log 32). -/
theorem commandAnswered_serveIfReady_of_ready (tag code : Nat) (h : s.Answers) (hready : s.ready = true) :
    commandAnswered tag code (serveIfReady s.timerRestarted) =
      ({ s with trunk := { s.trunk with mode := .service, releasesQuiet := false, salesQuiet := false } } :
          State).timerRestarted.withFrame (commandReply tag code .done .service) := by
  obtain ⟨-, -, hroom⟩ := h
  rw [serveIfReady, timerRestarted_ready, if_pos hready]
  exact answer_of_room _ hroom

theorem commandAnswered_serveIfReady_of_not_ready (tag code : Nat) (h : s.Answers) (hready : ¬s.ready = true) :
    commandAnswered tag code (serveIfReady s.timerRestarted) =
      s.timerRestarted.withFrame (commandReply tag code (.notReady s.notReady) s.trunk.mode) := by
  rw [serveIfReady, timerRestarted_ready, if_neg hready, timerRestarted_notReady]
  exact commandAnswered_unchanged tag code _ h

end Sys2Proof.Machine

open Sys2Proof Sys2Proof.Machine

/-- Settles O43: in each mode a command either changes nothing or is `serveIfReady`, whose two branches are the two clauses
of `served`; the marks of the answer are `State.notReady`, each tied to its condition. -/
theorem startServiceAndLeaveMaintenance : Obligations.StartServiceAndLeaveMaintenance := by
  unfold Obligations.StartServiceAndLeaveMaintenance
  intro s tag h ready served unchanged start leave
  have hstart : exec start s = .next (commandAnswered tag 1 (startService s.timerRestarted)) :=
    exec_startService_of_answers tag h
  have hleave : exec leave s = .next (commandAnswered tag 3 (leaveMaintenance s.timerRestarted)) :=
    exec_leaveMaintenance_of_answers tag h
  have served_of {code : Nat} {c : Instr} {r : CommandResult × State}
      (hrun : exec c s = .next (commandAnswered tag code r)) (hr : r = serveIfReady s.timerRestarted) :
      served code c := by
    subst hr
    refine ⟨fun hready => ⟨false, false, hrun.trans (congrArg _ ?_)⟩,
      fun hready => ⟨s.notReady, notReady_noDropTable_iff, notReady_noTariff_iff, notReady_noTime_iff,
        notReady_noStation_iff, hrun.trans (congrArg _ ?_)⟩⟩
    · exact commandAnswered_serveIfReady_of_ready tag code h (ready_iff.mpr hready)
    · exact commandAnswered_serveIfReady_of_not_ready tag code h (mt ready_iff.mp hready)
  have unchanged_of {code : Nat} {c : Instr} {r : CommandResult × State} {a : CommandResult}
      (hrun : exec c s = .next (commandAnswered tag code r)) (hr : r = (a, s.timerRestarted)) :
      unchanged code c a := by
    subst hr
    exact hrun.trans (congrArg _ (commandAnswered_unchanged tag code a h))
  refine ⟨fun hmode => ?init, fun hmode => ?service, fun hmode => ?pending, fun hmode => ?maintenance⟩
  case init =>
    exact ⟨served_of hstart (startService_of_init hmode), unchanged_of hleave (leaveMaintenance_of_init hmode)⟩
  case service =>
    exact ⟨unchanged_of hstart (startService_of_service hmode), unchanged_of hleave (leaveMaintenance_of_service hmode)⟩
  case pending =>
    exact ⟨unchanged_of hstart (startService_of_maintenance (.inl hmode)),
      served_of hleave (leaveMaintenance_of_maintenance (.inl hmode))⟩
  case maintenance =>
    exact ⟨unchanged_of hstart (startService_of_maintenance (.inr hmode)),
      served_of hleave (leaveMaintenance_of_maintenance (.inr hmode))⟩

end

section
/-! The power-on reset of the Trunk Controller and of the journal (R181, R182, R196, R200). -/

namespace Sys2Proof.Machine

/-! ### The clock (R196) -/

theorem atPowerOn_timeValid_of_held (t : Trunk) {p : PowerOn} (h : p.standbyHeld = true) :
    (t.atPowerOn p).timeValid = t.timeValid := by
  rw [Trunk.atPowerOn, h, Bool.true_and]

/-- While the supply held, the seconds that passed are added, up to the last time. -/
theorem atPowerOn_time_of_held (t : Trunk) {p : PowerOn} (h : p.standbyHeld = true) :
    (t.atPowerOn p).time = min 4294967295 (t.time + p.secondsOff) :=
  if_pos h

theorem atPowerOn_timeValid_of_lost (t : Trunk) {p : PowerOn} (h : p.standbyHeld = false) :
    (t.atPowerOn p).timeValid = false := by
  rw [Trunk.atPowerOn, h, Bool.false_and]

theorem atPowerOn_time_of_lost (t : Trunk) {p : PowerOn} (h : p.standbyHeld = false) : (t.atPowerOn p).time = 0 :=
  if_neg (ne_true_of_eq_false h)

/-! ### The journal (R181, R182) -/

theorem journal_atPowerOn_of_lost (j : Journal) : j.atPowerOn false = Journal.reset := rfl

/-! ### The state after the reset -/

theorem exec_powerOnReset (p : PowerOn) (s : State) : exec (.powerOnReset p) s = .next (powerOn p s) := rfl

theorem powerOn_trunk (p : PowerOn) (s : State) : (powerOn p s).trunk = s.trunk.atPowerOn p := rfl

theorem powerOn_journal_of_lost (s : State) {p : PowerOn} (h : p.standbyHeld = false) :
    (powerOn p s).journal = Journal.reset := by
  rw [← journal_atPowerOn_of_lost s.journal, ← h]
  rfl

end Sys2Proof.Machine

open Sys2Proof Sys2Proof.Machine

/-- Settles O54: R200's items are fields of `Trunk.reset` or the straps; the clock and the journal depend on the retained
supply, and each case of it has its own lemmas. -/
theorem powerOnResetOfTrunkAndJournal : Obligations.PowerOnResetOfTrunkAndJournal := by
  unfold Obligations.PowerOnResetOfTrunkAndJournal
  intro s p
  refine ⟨powerOn p s, exec_powerOnReset p s, rfl, rfl, rfl, rfl, rfl, rfl, rfl, rfl, rfl, rfl, rfl, rfl,
    fun hheld => ?held, fun hlost => ?lost⟩
  case held =>
    rw [powerOn_trunk]
    exact ⟨atPowerOn_timeValid_of_held s.trunk hheld, atPowerOn_time_of_held s.trunk hheld⟩
  case lost =>
    rw [powerOn_trunk, powerOn_journal_of_lost s hlost]
    exact ⟨atPowerOn_timeValid_of_lost s.trunk hlost, atPowerOn_time_of_lost s.trunk hlost, rfl, rfl, rfl, rfl, rfl⟩

end

section
/-! What one step keeps: every property of Safety.lean (chapters 1, 3, 4, 6, 7, 8, 9, 10). -/

namespace Sys2Proof.Machine

/-- A step keeps each property of Safety.lean: it carries out a well-formed command, a deferred call, or nothing, on the
state with its two queues of what is still to come shortened. -/
theorem step_keeps {s t : State} (hwf : s.PendingWf) (h : step s = .next t) :
    ∃ (rest : List Instr) (later : List Call),
      (∀ c ∈ rest, c.wf = true) ∧ Keeps true { s with pending := rest, deferred := later } t := by
  unfold step at h
  split at h
  next hpending =>
    obtain rfl : takeDeferred s = t := by simpa using h
    refine ⟨s.pending, s.deferred.tail, hwf, ?_⟩
    cases hdeferred : s.deferred with
    | nil =>
      have hidle : takeDeferred s = s := by simp only [takeDeferred, hdeferred]
      have hsame : ({ s with pending := s.pending, deferred := [] } : State) = s := by rw [← hdeferred]
      rw [hidle, List.tail_nil, hsame]
      exact .refl s
    | cons c cs =>
      have hcall : takeDeferred s = call c { s with deferred := cs } := by simp only [takeDeferred, hdeferred]
      rw [hcall]
      exact (kmoves_call c _).acts.keeps
  next c cs hpending =>
    have hfront : c.wf = true := hwf c (hpending ▸ List.mem_cons_self)
    have hrest : ∀ x ∈ cs, x.wf = true := fun x hx => hwf x (hpending ▸ List.mem_cons_of_mem c hx)
    exact ⟨cs, s.deferred, hrest, exec_keeps hfront h⟩

end Sys2Proof.Machine

open Sys2Proof Sys2Proof.Machine

/-- Settles O57: `step_keeps`, whose commands still to come are a rest of those that waited. -/
theorem everyStepKeepsTheJournalARun : Obligations.EveryStepKeepsTheJournalARun := by
  unfold Obligations.EveryStepKeepsTheJournalARun
  intro s t hwf hsound hstep
  obtain ⟨rest, later, hrest, hkeeps⟩ := step_keeps hwf hstep
  refine ⟨hkeeps.journal hsound, ?_⟩
  have hpending : t.pending = rest := hkeeps.pending
  rw [State.PendingWf, hpending]
  exact hrest

/-- Settles O58: `step_keeps` for the two command queues and the Trunk Controller's two lists. -/
theorem everyStepKeepsTheQueuesWithinRoom : Obligations.EveryStepKeepsTheQueuesWithinRoom := by
  unfold Obligations.EveryStepKeepsTheQueuesWithinRoom
  intro s t hwf hstep
  obtain ⟨rest, later, -, hkeeps⟩ := step_keeps hwf hstep
  exact ⟨hkeeps.queueA, hkeeps.queueB, hkeeps.out⟩

/-- Settles O59: `step_keeps` for the five tables of the Hire Unit. -/
theorem everyStepKeepsTheHireTables : Obligations.EveryStepKeepsTheHireTables := by
  unfold Obligations.EveryStepKeepsTheHireTables
  intro s t hwf hstep
  obtain ⟨rest, later, -, hkeeps⟩ := step_keeps hwf hstep
  exact ⟨hkeeps.cards, hkeeps.passes, hkeeps.referrals, hkeeps.releases, hkeeps.recent⟩

/-- Settles O60: `step_keeps` for the drop table, the settings, the charging list, the orders, the flags and the log. -/
theorem everyStepKeepsTablesSettingsAndCharging : Obligations.EveryStepKeepsTablesSettingsAndCharging := by
  unfold Obligations.EveryStepKeepsTablesSettingsAndCharging
  intro s t hwf hstep
  obtain ⟨rest, later, -, hkeeps⟩ := step_keeps hwf hstep
  exact ⟨hkeeps.drops, hkeeps.settings, hkeeps.charging, hkeeps.orders, hkeeps.flags rfl, hkeeps.log⟩

end

section
/-! Steps and commands in general (logs 1, 9, 15, 16): which command a step takes, and that every command has a next
state. -/

namespace Sys2Proof.Machine

variable {s : State}

theorem takeDeferred_of_nil (h : s.deferred = []) : takeDeferred s = s := by
  rw [takeDeferred, h]

theorem takeDeferred_of_cons {c : Call} {cs : List Call} (h : s.deferred = c :: cs) :
    takeDeferred s = call c { s with deferred := cs } := by
  rw [takeDeferred, h]

theorem step_of_pending_nil (h : s.pending = []) : step s = .next (takeDeferred s) := by
  rw [step, h]

end Sys2Proof.Machine

open Sys2Proof Sys2Proof.Machine

/-- Settles O1: the front of the queue given is the command named, and the rest of it is the queue of `s`. -/
theorem stepTakesTheFrontCommand : Obligations.StepTakesTheFrontCommand := by
  unfold Obligations.StepTakesTheFrontCommand
  intro c s
  exact show exec c { s with pending := s.pending } = exec c s from rfl

/-- Settles O2: with no command waiting a step is `takeDeferred`, by its two cases. -/
theorem stepWithNoCommandWaiting : Obligations.StepWithNoCommandWaiting := by
  unfold Obligations.StepWithNoCommandWaiting
  intro s hpending
  rw [step_of_pending_nil hpending]
  exact ⟨fun hnone => congrArg _ (takeDeferred_of_nil hnone), fun c cs hcons => congrArg _ (takeDeferred_of_cons hcons)⟩

/-- Settles O3: command by command, the arm of `exec` is the `.next` of its meaning. -/
theorem everyCommandHasANextState : Obligations.EveryCommandHasANextState := by
  unfold Obligations.EveryCommandHasANextState
  intro c s
  cases c <;> exact ⟨_, rfl⟩

end

section
/-! The receiver of the Trunk Controller (R185 to R187, R193, R194), the island timer and the clock's tick (R186, R196). -/

namespace Sys2Proof.Machine

variable {s : State}

/-! ### Frames that are discarded (R185) -/

theorem frameInvalid_of_long {f : TrunkRaw} (h : 1024 < f.length.toNat) :
    frameInvalid f s = s.modCounts fun c => { c with length := bump16 c.length } :=
  if_pos h

theorem frameInvalid_of_bad_crc {f : TrunkRaw} (hlen : f.length.toNat ≤ 1024) (hcrc : f.crc ≠ crc32 (TrunkRaw.covered f)) :
    frameInvalid f s = s.modCounts fun c => { c with badCrc := bump16 c.badCrc } := by
  rw [frameInvalid, if_neg (Nat.not_lt.mpr hlen), if_pos hcrc.symm]

/-! ### The trunk becomes CONNECTED (R186, R47, R167) -/

theorem modTrunk_eq_self {f : Trunk → Trunk} (h : f s.trunk = s.trunk) : s.modTrunk f = s := by
  rw [State.modTrunk, h]

theorem Trunk.eq_self_of_connected {t : Trunk} (h : t.connected = true) : { t with connected := true } = t := by
  cases t
  cases h
  rfl

/-- Flags that stand as last notified make no STOCK NOTICE (R47). -/
theorem recount_of_notified (h : s.stock.flags = s.stock.notified) : s.recount = s :=
  if_neg fun hdiffers => hdiffers.2 h

/-- The notice of a record that is not to be offered is not offered (R166). -/
theorem notify_of_not_offerable (id : Nat) (h : ∀ f ∈ s.fault.log, f.offerable = false) : notify id s = s := by
  unfold notify
  split
  next => rfl
  next f hfound =>
    have hoff : f.offerable = false := h f (List.mem_of_find?_eq_some hfound)
    exact if_neg fun hboth => absurd hboth.1 (by rw [hoff]; decide)

theorem offerable_of_minor {f : FaultRec} (h : f.state = .opened → f.severity = .minor) : f.offerable = false := by
  rw [FaultRec.offerable, Bool.and_eq_false_imp]
  intro hopened
  rw [h (beq_iff_eq.mp hopened)]
  rfl

theorem connect_of_quiet (hflags : s.stock.flags = s.stock.notified) (hlog : ∀ f ∈ s.fault.log, f.offerable = false) :
    connect s = s.modTrunk fun t => { t with connected := true } := by
  unfold connect
  rw [recount_of_notified (s := s.modTrunk fun t => { t with connected := true }) hflags]
  exact List.foldl_fixed' (fun f =>
    notify_of_not_offerable (s := s.modTrunk fun t => { t with connected := true }) f.id hlog) _

/-- A valid frame that meets no notice to be made restarts the timer, and leaves the trunk CONNECTED (R186). -/
theorem frameArrives_of_quiet (hflags : s.stock.flags = s.stock.notified)
    (hlog : ∀ f ∈ s.fault.log, f.offerable = false) :
    frameArrives s = s.timerRestarted.modTrunk fun t => { t with connected := true } := by
  cases hconnected : s.trunk.connected with
  | true =>
    rw [frameArrives_of_connected hconnected]
    exact (modTrunk_eq_self (Trunk.eq_self_of_connected (t := s.timerRestarted.trunk) hconnected)).symm
  | false =>
    have harrives : frameArrives s = connect s.timerRestarted := if_neg (ne_true_of_eq_false hconnected)
    rw [harrives]
    exact connect_of_quiet hflags hlog

theorem frameUnknown_of_unknown {kind : Nat} (h : kind = 0 ∨ 10 < kind) :
    frameUnknown kind s = (frameArrives s).modCounts fun c => { c with unknownKind := bump16 c.unknownKind } :=
  if_neg fun hknown => by have := of_decide_eq_true hknown; omega

/-! ### Codes outside the tables (R193, R194) -/

theorem commandUnknown_of_unknown (tag : Nat) {code : Nat} (h : code = 0 ∨ 8 < code) :
    commandUnknown tag code s =
      takeFrame (fun t => t.answer (commandReply tag code .unknownCommand t.trunk.mode)) s :=
  if_neg fun hknown => by have := of_decide_eq_true hknown; omega

theorem loadUnknown_of_unknown (tag first : Nat) {table : Nat} (h : table = 0 ∨ 8 < table) :
    loadUnknown tag table first s = takeFrame (fun t => t.answer (unknownTableReply tag table first)) s :=
  if_neg fun hknown => by have := of_decide_eq_true hknown; omega

/-! ### Frames that are not taken (R187) -/

/-- While four answers wait, a frame that has an answer restarts the timer, is counted and does no more. -/
theorem takeFrame_of_four_waiting (act : State → State) (hconnected : s.trunk.connected = true)
    (hfull : 4 ≤ s.trunk.waiting.length) :
    takeFrame act s = s.timerRestarted.modCounts fun c => { c with notTaken := bump16 c.notTaken } := by
  unfold takeFrame
  rw [frameArrives_of_connected hconnected]
  exact if_neg (Nat.not_lt.mpr hfull)

/-- A command with an answer is a frame that `takeFrame` takes or leaves. -/
theorem exec_of_hasAnswer {c : Instr} (h : c.hasAnswer = true) :
    ∃ act : State → State, ∀ s, exec c s = .next (takeFrame act s) := by
  cases c
  case unknownCommand tag code =>
    exact ⟨_, fun s => congrArg _ (commandUnknown_of_unknown tag (of_decide_eq_true h))⟩
  case unknownTable tag table first =>
    exact ⟨_, fun s => congrArg _ (loadUnknown_of_unknown tag first (of_decide_eq_true h))⟩
  all_goals first | exact absurd h Bool.false_ne_true | exact ⟨_, fun _ => rfl⟩

/-! ### The island timer (R186) -/

theorem islandTimeout_of_early (k : Kont) (h : s.trunk.timerOn = false ∨ s.trunk.islandSeconds < s.trunk.islandLimit) :
    islandTimeout k s = s :=
  if_neg fun hreached => by
    obtain ⟨hon, hlimit⟩ := hreached
    obtain hoff | hearly := h
    · exact absurd hon (ne_true_of_eq_false hoff)
    · exact absurd hearly (Nat.not_lt.mpr hlimit)

/-- With no referral open the timeout acts on the trunk alone. -/
theorem islandTimeout_of_reached (k : Kont) (hon : s.trunk.timerOn = true)
    (hlimit : s.trunk.islandLimit ≤ s.trunk.islandSeconds) (hnone : s.hire.referrals = []) :
    islandTimeout k s = s.modTrunk fun t => { t with connected := false, timerOn := false } := by
  rw [islandTimeout, if_pos ⟨hon, hlimit⟩, islandReferrals]
  exact congrArg (List.foldl _ _) hnone

/-! ### The tick (R196) -/

theorem timeTick_eq (s : State) :
    timeTick s =
      { s with
        trunk :=
          { s.trunk with
            time := min 4294967295 (s.trunk.time + 1)
            islandSeconds := s.trunk.islandSeconds + if s.trunk.timerOn then 1 else 0 } } := by
  cases hon : s.trunk.timerOn <;> simp [timeTick, State.modTrunk, hon, bump, lastTime]

end Sys2Proof.Machine

open Sys2Proof Sys2Proof.Machine

/-- Settles O35: a truncated frame is counted, and the two reasons to discard one received whole are the first two branches
of `frameInvalid`. -/
theorem discardedTrunkFramesAreCounted : Obligations.DiscardedTrunkFramesAreCounted := by
  unfold Obligations.DiscardedTrunkFramesAreCounted
  intro s f
  exact ⟨rfl, fun hlong => congrArg _ (frameInvalid_of_long hlong),
    fun hlen hcrc => congrArg _ (frameInvalid_of_bad_crc hlen hcrc)⟩

/-- Settles O36: the frame is counted after it has acted on the trunk, which makes no notice here. -/
theorem unknownKindRestartsTheTimer : Obligations.UnknownKindRestartsTheTimer := by
  unfold Obligations.UnknownKindRestartsTheTimer
  intro s kind hkind hflags hminor
  have hrun : exec (.unknownKind kind) s = .next (frameUnknown kind s) := rfl
  rw [hrun, frameUnknown_of_unknown hkind,
    frameArrives_of_quiet hflags fun f hf => offerable_of_minor (hminor f hf)]
  rfl

/-- Settles O37: outside the tables both commands are frames that are taken and answered. -/
theorem unknownCodesAreAnswered : Obligations.UnknownCodesAreAnswered := by
  unfold Obligations.UnknownCodesAreAnswered
  intro s tag code table first h hcode htable
  refine ⟨?command, Config.entriesUnread tag table first, ?table⟩
  case command =>
    have hrun : exec (.unknownCommand tag code) s = .next (commandUnknown tag code s) := rfl
    rw [hrun, commandUnknown_of_unknown tag hcode, takeFrame_of_answers _ h]
    exact congrArg _ (answer_timerRestarted _ h)
  case table =>
    have hrun : exec (.unknownTable tag table first) s = .next (loadUnknown tag table first s) := rfl
    rw [hrun, loadUnknown_of_unknown tag first htable, takeFrame_of_answers _ h]
    exact congrArg _ (answer_timerRestarted _ h)

/-- Settles O38: every command with an answer is a frame for `takeFrame`, which four waiting answers keep out. -/
theorem framesAreNotTakenWhileFourAnswersWait : Obligations.FramesAreNotTakenWhileFourAnswersWait := by
  unfold Obligations.FramesAreNotTakenWhileFourAnswersWait
  intro s c hanswer hconnected hfull
  obtain ⟨act, hrun⟩ := exec_of_hasAnswer hanswer
  rw [hrun, takeFrame_of_four_waiting act hconnected hfull]
  rfl

/-- Settles O48: the tick is that one update of the Trunk Controller. -/
theorem stationTimeTickCountsOneSecond : Obligations.StationTimeTickCountsOneSecond := by
  unfold Obligations.StationTimeTickCountsOneSecond
  intro s
  exact congrArg Host.Outcome.next (timeTick_eq s)

/-- Settles O50: before its moment the command has no effect, and at it the trunk becomes ISLANDED. -/
theorem islandTimeoutMakesTheTrunkIslanded : Obligations.IslandTimeoutMakesTheTrunkIslanded := by
  unfold Obligations.IslandTimeoutMakesTheTrunkIslanded
  intro s
  exact ⟨fun hearly => congrArg Host.Outcome.next (islandTimeout_of_early call hearly),
    fun hon hlimit hnone => congrArg Host.Outcome.next (islandTimeout_of_reached call hon hlimit hnone)⟩

end

section
/-! The outbound queue: what an offer does (R189), and which frame a departure takes (R188). -/

namespace Sys2Proof.Machine

/-! ### The last and the first element that meet a test -/

theorem eraseP_split {α : Type} {q : α → Bool} {before after : List α} {x : α} (hbefore : ∀ y ∈ before, ¬q y = true)
    (hx : q x = true) : (before ++ x :: after).eraseP q = before ++ after := by
  rw [List.eraseP_append_right _ hbefore, List.eraseP_cons_of_pos hx]

theorem removeLast_split {α : Type} {q : α → Bool} {before after : List α} {x : α} (hx : q x = true)
    (hafter : ∀ y ∈ after, ¬q y = true) : removeLast q (before ++ x :: after) = before ++ after := by
  have hreverse : (before ++ x :: after).reverse = after.reverse ++ x :: before.reverse := by simp
  have hrest : ∀ y ∈ after.reverse, ¬q y = true := fun y hy => hafter y (List.mem_reverse.mp hy)
  rw [removeLast, hreverse, eraseP_split hrest hx, List.reverse_append, List.reverse_reverse, List.reverse_reverse]

/-! ### An offer (R189) -/

variable {t : Trunk} {f : OutFrame}

theorem offer_of_room (h : t.queue.length < 16) : t.offer f = ({ t with queue := t.queue ++ [f] }, true) :=
  if_pos h

theorem not_room_of_full (h : 16 ≤ t.queue.length) : ¬t.queue.length < outboundRoom := Nat.not_lt.mpr h

theorem offer_of_group3 (hfull : 16 ≤ t.queue.length) (h3 : f.group = 3) :
    t.offer f = ({ t with discards := t.discards.raise 3 }, false) := by
  rw [Trunk.offer, if_neg (not_room_of_full hfull), if_pos h3]

/-- The youngest group 3 frame of a full queue gives way to a frame of another group. -/
theorem offer_of_displacing {before after : List OutFrame} {g : OutFrame} (hfull : 16 ≤ t.queue.length)
    (h3 : f.group ≠ 3) (hqueue : t.queue = before ++ g :: after) (hg : g.group = 3) (hafter : ∀ x ∈ after, x.group ≠ 3) :
    t.offer f = ({ t with queue := before ++ after ++ [f], discards := t.discards.raise 3 }, true) := by
  have hremoved : removeLast (fun x => x.group == 3) t.queue = before ++ after := by
    rw [hqueue]
    exact removeLast_split (beq_iff_eq.mpr hg) fun x hx hx3 => hafter x hx (beq_iff_eq.mp hx3)
  have hany : t.queue.any (fun x => x.group == 3) = true :=
    List.any_eq_true.mpr ⟨g, by simp [hqueue], beq_iff_eq.mpr hg⟩
  rw [Trunk.offer, if_neg (not_room_of_full hfull), if_neg h3, if_pos hany, hremoved]

/-- With no group 3 frame to give way, what becomes of a frame rests on whether it is an answer. -/
theorem offer_of_full (hfull : 16 ≤ t.queue.length) (h3 : f.group ≠ 3) (hnone : ∀ x ∈ t.queue, x.group ≠ 3) :
    t.offer f =
      if f.isAnswer then ({ t with waiting := t.waiting ++ [f] }, false)
      else ({ t with discards := t.discards.raise f.group }, false) := by
  have hany : ¬t.queue.any (fun x => x.group == 3) = true := fun h => by
    obtain ⟨x, hx, hx3⟩ := List.any_eq_true.mp h
    exact hnone x hx (beq_iff_eq.mp hx3)
  rw [Trunk.offer, if_neg (not_room_of_full hfull), if_neg h3, if_neg hany]

theorem group_of_isAnswer (h : f.isAnswer = true) : f.group = 1 := by
  cases f <;> simp_all [OutFrame.isAnswer, OutFrame.group]

theorem isAnswer_of_group2 (h : f.group = 2) : f.isAnswer = false :=
  Bool.eq_false_iff.mpr fun hanswer => by rw [group_of_isAnswer hanswer] at h; omega

/-! ### A departure (R188) -/

theorem group_cases (f : OutFrame) : f.group = 1 ∨ f.group = 2 ∨ f.group = 3 := by
  cases f <;> simp [OutFrame.group]

section

variable {before after : List OutFrame} (hqueue : t.queue = before ++ f :: after)
  (hbefore : ∀ x ∈ before, f.group < x.group)

include hqueue hbefore

/-- No frame stands in a group higher than that of a frame that none before it outranks and none after it outranks. -/
theorem find?_higher_group (hafter : ∀ x ∈ after, f.group ≤ x.group) {g : Nat} (hg : g < f.group) :
    t.queue.find? (fun x => x.group == g) = none := by
  refine List.find?_eq_none.mpr fun x hx hxg => ?_
  have hxg : x.group = g := beq_iff_eq.mp hxg
  rw [hqueue, List.mem_append, List.mem_cons] at hx
  obtain hx | rfl | hx := hx
  · have := hbefore x hx; omega
  · omega
  · have := hafter x hx; omega

theorem find?_own_group : t.queue.find? (fun x => x.group == f.group) = some f := by
  refine List.find?_eq_some_iff_append.mpr ⟨beq_iff_eq.mpr rfl, before, after, hqueue, fun x hx => ?_⟩
  have := hbefore x hx
  exact (Bool.not_eq_true' _).mpr (beq_false_of_ne (by omega))

theorem leaving_of_highest (hafter : ∀ x ∈ after, f.group ≤ x.group) : t.leaving = some f := by
  have hhigher : ∀ g, g < f.group → t.queue.find? (fun x => x.group == g) = none :=
    fun _ => find?_higher_group hqueue hbefore hafter
  have hown := find?_own_group hqueue hbefore
  unfold Trunk.leaving
  obtain h | h | h := group_cases f <;> rw [h] at hhigher hown
  · simp only [List.findSome?, hown]
  · simp only [List.findSome?, hown, hhigher 1 (by omega)]
  · simp only [List.findSome?, hown, hhigher 1 (by omega), hhigher 2 (by omega)]

theorem send_of_highest :
    t.send f =
      { t with queue := before ++ after ++ t.waiting.take 1, waiting := t.waiting.drop 1, sending := some f } := by
  have herased : t.queue.eraseP (fun x => x.group == f.group) = before ++ after := by
    rw [hqueue]
    refine eraseP_split (fun x hx hsame => ?_) (beq_iff_eq.mpr rfl)
    have := hbefore x hx
    have : x.group = f.group := beq_iff_eq.mp hsame
    omega
  rw [Trunk.send, herased]

end

theorem leaving_of_empty (h : t.queue = []) : t.leaving = none := by
  simp [Trunk.leaving, h]

theorem outboundSend_of_nothing {s : State} (h : s.trunk.connected = false ∨ s.trunk.queue = []) : outboundSend s = s := by
  unfold outboundSend
  obtain hislanded | hempty := h
  · exact if_neg (ne_true_of_eq_false hislanded)
  · rw [leaving_of_empty hempty]
    exact ite_self _

theorem outboundSend_of_leaving {s : State} (hconnected : s.trunk.connected = true)
    (h : s.trunk.leaving = some f) : outboundSend s = s.modTrunk fun t => t.send f := by
  rw [outboundSend, if_pos hconnected, h]

end Sys2Proof.Machine

open Sys2Proof Sys2Proof.Machine

/-- Settles O46: the frame that leaves is the first of the highest group that holds one, and `send` takes it out. -/
theorem outboundSendTakesTheOldestOfTheHighestGroup : Obligations.OutboundSendTakesTheOldestOfTheHighestGroup := by
  unfold Obligations.OutboundSendTakesTheOldestOfTheHighestGroup
  intro s
  refine ⟨fun hnothing => congrArg Host.Outcome.next (outboundSend_of_nothing hnothing), ?_⟩
  intro before after f hconnected hqueue hbefore hafter
  have hrun : exec .outboundSend s = .next (outboundSend s) := rfl
  rw [hrun, outboundSend_of_leaving hconnected (leaving_of_highest hqueue hbefore hafter), State.modTrunk,
    send_of_highest hqueue hbefore]

/-- Settles O47: the branches of `Trunk.offer`, one lemma each. -/
theorem offeredFrameJoinsOrIsDealtWith : Obligations.OfferedFrameJoinsOrIsDealtWith := by
  unfold Obligations.OfferedFrameJoinsOrIsDealtWith
  intro t f
  refine ⟨offer_of_room, fun hfull => ⟨offer_of_group3 hfull, fun before after g h3 hqueue hg hafter =>
    offer_of_displacing hfull h3 hqueue hg hafter, fun hnone => ⟨fun hanswer => ?answer, fun h2 => ?group2, ?request⟩⟩⟩
  case answer =>
    have h1 := group_of_isAnswer hanswer
    rw [offer_of_full hfull (by omega) hnone, if_pos hanswer]
  case group2 =>
    rw [offer_of_full hfull (by omega) hnone, isAnswer_of_group2 h2, h2]
    rfl
  case request =>
    rintro card pos station stamp rfl
    exact offer_of_full hfull (by decide : 1 ≠ 3) hnone

end

section
/-! ENTER MAINTENANCE (R190, R192), TIME SET (R196, R197) and the two lists (R199). -/

namespace Sys2Proof.Machine

variable {s : State}

/-! ### ENTER MAINTENANCE -/

theorem exec_enterMaintenance_of_answers (tag : Nat) (h : s.Answers) :
    exec (.enterMaintenance { tag := tag, body := some () }) s =
      .next (commandAnswered tag 2 (enterMaintenance call s.timerRestarted)) :=
  congrArg Host.Outcome.next (takeCommand_some_of_answers tag 2 () (fun _ t => enterMaintenance call t) h)

theorem enterMaintenance_of_init (k : Kont) (h : s.trunk.mode = .init) :
    enterMaintenance k s = (.done, s.modTrunk fun t => { t with mode := .maintenance }) := by
  rw [enterMaintenance, h]

theorem enterMaintenance_of_service (k : Kont) (h : s.trunk.mode = .service) :
    enterMaintenance k s = (.accepted, enterPending k s) := by
  rw [enterMaintenance, h]

theorem enterMaintenance_of_pending (k : Kont) (h : s.trunk.mode = .maintenancePending) :
    enterMaintenance k s = (.accepted, s) := by
  rw [enterMaintenance, h]

theorem enterMaintenance_of_maintenance (k : Kont) (h : s.trunk.mode = .maintenance) :
    enterMaintenance k s = (.done, s) := by
  rw [enterMaintenance, h]

theorem closeVisit_of_none (k : Kont) (c : CloseCause) (h : s.van.visit = none) : closeVisit k c s = s := by
  rw [closeVisit, h]

theorem settleMode_pending {t : Trunk} (h : t.mode = .maintenancePending) :
    t.settleMode = { t with mode := if t.releasesQuiet && t.salesQuiet then .maintenance else .maintenancePending } := by
  unfold Trunk.settleMode
  cases t
  cases h
  simp only [true_and, Bool.and_eq_true]
  split <;> rfl

/-- With no visit to close, the marks are set and the mode is settled by them (R192). -/
theorem enterPending_of_no_visit (k : Kont) {a b : Bool} {m : Mode} (hvisit : s.van.visit = none)
    (ha : a = true ↔ s.hire.releases = []) (hb : b = true ↔ ∀ r ∈ s.sale.sales, r.state ≠ .offered)
    (hm : m = if a && b then .maintenance else .maintenancePending) :
    enterPending k s = s.modTrunk fun t => { t with mode := m, releasesQuiet := a, salesQuiet := b } := by
  have hreleases : s.hire.releases.isEmpty = a := Bool.eq_iff_iff.mpr (List.isEmpty_iff.trans ha.symm)
  have hsales : (s.sale.sales.all fun r => r.state != .offered) = b :=
    Bool.eq_iff_iff.mpr ((by simp [List.all_eq_true] : _ ↔ _).trans hb.symm)
  unfold enterPending
  rw [closeVisit_of_none k .maintenance (s := s.modTrunk fun t => { t with mode := .maintenancePending }) hvisit]
  subst hm hreleases hsales
  have hpending : (setMarks (s.modTrunk fun t => { t with mode := .maintenancePending })).trunk.mode =
      .maintenancePending := rfl
  rw [State.modTrunk, settleMode_pending hpending]
  rfl

/-! ### TIME SET -/

theorem exec_timeSet_of_answers (tag v : Nat) (h : s.Answers) :
    exec (.timeSet { tag := tag, body := some v }) s =
      .next ((timeSet call v s.timerRestarted).answer (.commandReply tag (.timeSet s.trunk.time v))) :=
  congrArg Host.Outcome.next (takeBody_some_of_answers tag v (rangeReply tag 2) (setTime call tag) h)

/-- No block holds a deadline of R197. -/
structure State.NoDeadline (s : State) : Prop where
  referrals : s.hire.referrals = []
  releases : s.hire.releases = []
  sales : ∀ r ∈ s.sale.sales, r.state ≠ .offered
  recent : s.hire.recent = []
  orders : s.van.orders = []
  visit : s.van.visit = none

theorem takeHireDeadlines_of_none (k : Kont) (h : s.NoDeadline) : takeHireDeadlines k s = s := by
  have hnone : hireDeadlines k s = [] := by simp [hireDeadlines, h.referrals, h.releases]
  rw [takeHireDeadlines, hnone]
  rfl

theorem filter_offered_of_none {l : List SaleRec} (h : ∀ r ∈ l, r.state ≠ .offered) :
    l.filter (fun r => r.state == .offered) = [] :=
  List.filter_eq_nil_iff.mpr fun r hr hoffered => h r hr (beq_iff_eq.mp hoffered)

theorem takeLapses_of_none (k : Kont) (h : s.NoDeadline) : takeLapses k s = s := by
  rw [takeLapses, filter_offered_of_none h.sales]
  rfl

theorem modHire_eq_self {f : Hire → Hire} (h : f s.hire = s.hire) : s.modHire f = s := by
  rw [State.modHire, h]

theorem modVan_eq_self {f : Van → Van} (h : f s.van = s.van) : s.modVan f = s := by
  rw [State.modVan, h]

theorem expireRecents_of_none (h : s.NoDeadline) : expireRecents s = s :=
  modHire_eq_self (by simp only [h.recent, List.filter_nil]; rw [← h.recent])

theorem expireOrders_of_none (h : s.NoDeadline) : expireOrders s = s :=
  modVan_eq_self (by simp only [h.orders, List.filter_nil]; rw [← h.orders])

theorem visitCloseTime_of_none (k : Kont) (h : s.van.visit = none) : visitCloseTime k s = s := by
  rw [visitCloseTime, h]

theorem takeDeadlines_of_none (k : Kont) (h : s.NoDeadline) : takeDeadlines k s = s := by
  rw [takeDeadlines, takeHireDeadlines_of_none k h, takeLapses_of_none k h, expireRecents_of_none h,
    expireOrders_of_none h, visitCloseTime_of_none k h.visit]

theorem timeSet_of_no_deadline (k : Kont) (v : Nat) (h : v ≤ s.trunk.time ∨ s.NoDeadline) :
    timeSet k v s = s.modTrunk fun t => { t with time := v, timeValid := true } := by
  obtain hback | hnone := h
  · exact if_neg (Nat.not_lt.mpr hback)
  · have hset : (s.modTrunk fun t => { t with time := v, timeValid := true }).NoDeadline := { hnone with }
    simp only [timeSet, takeDeadlines_of_none k hset, ite_self]

/-! ### The lists -/

theorem exec_faultListQuery_of_answers (tag place : Nat) (h : s.Answers) :
    exec (.faultListQuery { tag := tag, body := some place }) s =
      .next (s.timerRestarted.withFrame (.faultList (s.timerRestarted.faultList tag place))) := by
  have hrun : exec (.faultListQuery { tag := tag, body := some place }) s =
      .next (takeBody { tag := tag, body := some place } (rangeReply tag 10) (reportFaults tag) s) := rfl
  rw [hrun, takeBody_some_of_answers _ _ _ _ h]
  exact congrArg _ (answer_timerRestarted _ h)

/-- Of some records a body carries at least one, and no more than there are (R199). -/
theorem carried_bounds (fits : Nat) {n : Nat} (h : 1 ≤ n) : 1 ≤ carried fits n ∧ carried fits n ≤ n := by
  unfold carried
  omega

theorem carried_le (fits n : Nat) : carried fits n ≤ n := Nat.min_le_left _ _

theorem length_dockList (tag : Nat) (p : DockPos) :
    (s.dockList tag p).docks.length = carried (Config.dockListFits p.val (60 - p.val)) (60 - p.val) := by
  have hlen : (positions.drop p.val).length = 60 - p.val := by simp [positions]
  have hle := carried_le (Config.dockListFits p.val (60 - p.val)) (60 - p.val)
  simp only [State.dockList, List.length_map, List.length_take, hlen]
  omega

theorem dockList_pos_prefix (tag : Nat) (p : DockPos) :
    ((s.dockList tag p).docks.map DockReport.pos) <+: positions.drop p.val := by
  have hpos : DockReport.pos ∘ s.dockReport = id := rfl
  rw [State.dockList, List.map_map, hpos, List.map_id]
  exact List.take_prefix _ _

theorem dockList_next (tag : Nat) (p : DockPos) :
    (s.dockList tag p).next =
      if p.val + (s.dockList tag p).docks.length < 60 then some (p.val + (s.dockList tag p).docks.length + 1)
      else none := by
  have hlen : (positions.drop p.val).length = 60 - p.val := by simp [positions]
  rw [length_dockList]
  simp only [State.dockList, hlen]
  refine if_congr ⟨?_, ?_⟩ (congrArg some (by omega)) rfl <;> omega

theorem length_faultList (tag place : Nat) :
    (s.faultList tag place).records.length =
      carried (Config.faultListFits place (s.fault.log.length - place)) (s.fault.log.length - place) := by
  have hle := carried_le (Config.faultListFits place (s.fault.log.length - place)) (s.fault.log.length - place)
  simp only [State.faultList, List.length_map, List.length_take, List.length_drop]
  omega

theorem faultList_prefix (tag place : Nat) :
    ((s.faultList tag place).records.map Prod.fst) <+: s.fault.log.drop place := by
  rw [State.faultList, List.map_map]
  exact (List.map_id _).symm ▸ List.take_prefix _ _

theorem faultList_next (tag place : Nat) :
    (s.faultList tag place).next =
      if place + (s.faultList tag place).records.length < s.fault.log.length then
        some (place + (s.faultList tag place).records.length)
      else none := by
  rw [length_faultList]
  simp only [State.faultList, List.length_drop]
  refine if_congr ⟨?_, ?_⟩ rfl rfl <;> omega

end Sys2Proof.Machine

open Sys2Proof Sys2Proof.Machine

/-- Settles O44: the four modes are the four branches of `enterMaintenance`; in SERVICE the marks and the mode they give are
those of `enterPending`. -/
theorem enterMaintenanceByMode : Obligations.EnterMaintenanceByMode := by
  unfold Obligations.EnterMaintenanceByMode
  intro s tag h enter
  have hrun : exec enter s = .next (commandAnswered tag 2 (enterMaintenance call s.timerRestarted)) :=
    exec_enterMaintenance_of_answers tag h
  refine ⟨fun hmode => ?init, fun hmode => ?maintenance, fun hmode => ?pending, ?service⟩
  case init =>
    rw [hrun, enterMaintenance_of_init (s := s.timerRestarted) call hmode]
    exact congrArg _ (answer_of_room _ h.2.2)
  case maintenance =>
    rw [hrun, enterMaintenance_of_maintenance (s := s.timerRestarted) call hmode, commandAnswered_unchanged tag 2 .done h, hmode]
  case pending =>
    rw [hrun, enterMaintenance_of_pending (s := s.timerRestarted) call hmode, commandAnswered_unchanged tag 2 .accepted h, hmode]
  case service =>
    intro a b m hmode hvisit ha hb hm
    rw [hrun, enterMaintenance_of_service (s := s.timerRestarted) call hmode,
      enterPending_of_no_visit (s := s.timerRestarted) call hvisit ha hb hm]
    exact congrArg _ (answer_of_room _ h.2.2)

/-- Settles O49: without a deadline reached, TIME SET is the one update of the clock. -/
theorem timeSetSetsTheCounter : Obligations.TimeSetSetsTheCounter := by
  unfold Obligations.TimeSetSetsTheCounter
  intro s tag v h hquiet
  have hquiet : v ≤ s.timerRestarted.trunk.time ∨ s.timerRestarted.NoDeadline :=
    hquiet.imp id fun ⟨hreferrals, hreleases, hsales, hrecent, horders, hvisit⟩ =>
      ⟨hreferrals, hreleases, hsales, hrecent, horders, hvisit⟩
  rw [exec_timeSet_of_answers tag v h, timeSet_of_no_deadline call v hquiet]
  exact congrArg _ (answer_of_room _ h.2.2)

/-- Settles O53: each list is a front part of the records from the place named, of a length between one and all of them, and its
next place follows the last record carried. -/
theorem listsCarryRecordsInOrder : Obligations.ListsCarryRecordsInOrder := by
  unfold Obligations.ListsCarryRecordsInOrder
  intro s tag h
  refine ⟨fun p => ?docks, fun place => ?faults⟩
  case docks =>
    refine ⟨s.timerRestarted.dockList tag p, exec_dockListQuery_of_answers tag p h, ?atLeastOne,
      dockList_pos_prefix tag p, fun x hx => ?record, dockList_next tag p⟩
    case atLeastOne =>
      rw [length_dockList]
      exact (carried_bounds _ (by omega)).1
    case record =>
      rw [eq_dockReport_of_mem_dockList hx]
      exact ⟨rfl, rfl⟩
  case faults =>
    refine ⟨s.timerRestarted.faultList tag place, exec_faultListQuery_of_answers tag place h,
      faultList_prefix tag place, rfl, fun hplace => ?_, faultList_next tag place⟩
    have hsome : 1 ≤ s.timerRestarted.fault.log.length - place := Nat.le_sub_of_add_le (by rw [Nat.add_comm]; exact hplace)
    rw [length_faultList]
    exact (carried_bounds _ hsome).1

end

section
/-! Table loads of one entry (R194), and what the tables without effects elsewhere make of it: CLASSIFIER (R32), STATION
SETTINGS (R33, R195), PASS KINDS (R97), CARD TABLE (R66), TARIFF (R112), STOCK TARGETS (R48). -/

namespace Sys2Proof.Machine

variable {s : State} {α : Type}

/-! ### A load that is taken, and its answer (R194) -/

theorem takeLoad_of_answers {id : TableId} {tag first : Nat} {l : List α} (owner : List α → State → OutFrame × State)
    (h : s.Answers) (hmode : tableProtected id = true → s.trunk.mode = .maintenance) :
    takeLoad id { tag := tag, first := first, body := some l } owner s =
      (owner l s.timerRestarted).2.answer (owner l s.timerRestarted).1 := by
  unfold takeLoad
  rw [takeFrame_of_answers _ h]
  exact if_neg fun hrefused => hrefused.2 (hmode hrefused.1)

theorem takeLoad_of_mode {id : TableId} {tag first : Nat} {l : List α} (owner : List α → State → OutFrame × State)
    (h : s.Answers) (hprotected : tableProtected id = true) (hmode : s.trunk.mode ≠ .maintenance) :
    takeLoad id { tag := tag, first := first, body := some l } owner s =
      s.timerRestarted.withFrame (loadReply tag (tableCode id) first l.length 0 .mode none []) := by
  unfold takeLoad
  rw [takeFrame_of_answers _ h]
  exact (if_pos ⟨hprotected, hmode⟩).trans (answer_timerRestarted _ h)

section

variable {id : TableId} {tag first : Nat} {e : α} {take : α → State → Option EntryRefusal × State}
  {after : State → State} (h : s.Answers) (hmode : tableProtected id = true → s.trunk.mode = .maintenance)

include h hmode

/-- One entry that is applied: `u` is the state that it leads to, but for the timer's restart. -/
theorem takeLoad_of_applied {t u : State} (htake : take e s.timerRestarted = (none, t))
    (hafter : after t = u.timerRestarted) (hqueue : u.trunk.queue = s.trunk.queue) :
    takeLoad id { tag := tag, first := first, body := some [e] }
        (entriesOwner id { tag := tag, first := first, body := some [e] } take after) s =
      u.timerRestarted.withFrame (loadReply tag (tableCode id) first 1 1 .done none []) := by
  have hrun : takeEntries take [e] first (LoadRun.start s.timerRestarted) = ⟨1, none, t⟩ := by
    simp only [takeEntries, LoadRun.take, LoadRun.start, htake]
  have hroom : u.timerRestarted.trunk.queue.length < 16 := by
    obtain ⟨-, -, hroom⟩ := h
    exact hqueue ▸ hroom
  rw [takeLoad_of_answers _ h hmode]
  simp only [entriesOwner, hrun, hafter]
  exact answer_of_room _ hroom

/-- One entry that is refused, which leaves the state as it was. -/
theorem takeLoad_of_refused {x : EntryRefusal} (htake : take e s.timerRestarted = (some x, s.timerRestarted))
    (hafter : after s.timerRestarted = s.timerRestarted) :
    takeLoad id { tag := tag, first := first, body := some [e] }
        (entriesOwner id { tag := tag, first := first, body := some [e] } take after) s =
      s.timerRestarted.withFrame (loadReply tag (tableCode id) first 1 0 .partly (some (first, x)) []) := by
  have hrun : takeEntries take [e] first (LoadRun.start s.timerRestarted) = ⟨0, some (first, x), s.timerRestarted⟩ := by
    simp only [takeEntries, LoadRun.take, LoadRun.start, htake, Option.orElse_none]
  rw [takeLoad_of_answers _ h hmode]
  simp only [entriesOwner, hrun, hafter]
  exact answer_timerRestarted _ h

end

/-! ### STOCK TARGETS (R48) -/

theorem loadTarget_of_range {e : TargetEntry} (h : e.kind = none ∨ e.high < e.low ∨ 60 < e.high) :
    loadTarget e s = (some .range, s) := by
  unfold loadTarget
  split
  next k hkind =>
    refine if_neg fun hrange => ?_
    obtain hnone | hlimit | hlimit := h
    · exact absurd (hkind.symm.trans hnone) (by simp)
    all_goals omega
  next => rfl

theorem loadTarget_of_fits {e : TargetEntry} {k : BikeKind} (hkind : e.kind = some k) (hlow : e.low ≤ e.high)
    (hhigh : e.high ≤ 60) :
    loadTarget e s =
      (none, s.modStock fun st =>
        { st with low := setPerKind st.low k e.low, high := setPerKind st.high k e.high }) := by
  simp only [loadTarget, hkind]
  exact if_pos ⟨hlow, hhigh⟩

/-! ### CARD TABLE (R66) -/

theorem cardOfEntry_of_range {e : CardEntry}
    (h : e.number = 0 ∨ e.standing = none ∨
      (e.standing ≠ some .delete ∧ (e.plan = none ∨ 7 < e.cls ∨ 4 < e.maxBikes ∨ 2000 < e.reward))) :
    cardOfEntry e = none := by
  unfold cardOfEntry
  split
  next st pl hstanding hplan =>
    refine if_pos ?_
    obtain hnumber | hnone | ⟨-, hnone | hrange⟩ := h
    · exact .inl hnumber
    · exact absurd (hstanding.symm.trans hnone) (by simp)
    · exact absurd (hplan.symm.trans hnone) (by simp)
    · exact .inr hrange
  next => rfl

theorem loadCard_of_range {e : CardEntry}
    (h : e.number = 0 ∨ e.standing = none ∨
      (e.standing ≠ some .delete ∧ (e.plan = none ∨ 7 < e.cls ∨ 4 < e.maxBikes ∨ 2000 < e.reward))) :
    loadCard e s = (some .range, s) := by
  unfold loadCard
  split
  next hdelete =>
    refine if_pos ?_
    obtain hnumber | hnone | ⟨hkept, -⟩ := h
    · exact hnumber
    · exact absurd (hdelete.symm.trans hnone) (by simp)
    · exact absurd hdelete hkept
  next => rw [cardOfEntry_of_range h]

theorem loadCard_of_delete {e : CardEntry} (hnumber : e.number ≠ 0) (hdelete : e.standing = some .delete) :
    loadCard e s =
      (none, s.modHire fun h => { h with cards := h.cards.filter fun c => c.number != e.number }) := by
  rw [loadCard, hdelete]
  exact if_neg hnumber

section

variable {e : CardEntry} {st : Standing} {pl : Plan} (hnumber : e.number ≠ 0) (hstanding : e.standing = some (.keep st))
  (hplan : e.plan = some pl) (hcls : e.cls ≤ 7) (hbikes : e.maxBikes ≤ 4) (hreward : e.reward ≤ 2000)

include hnumber hstanding hplan hcls hbikes hreward

theorem cardOfEntry_of_fits :
    cardOfEntry e =
      some
        { number := e.number, plan := pl, standing := st, cls := e.cls, maxBikes := e.maxBikes
          outCount := min e.maxBikes e.outCount, headroom := e.headroom, day := e.day, dayTotal := e.dayTotal
          reward := e.reward, expiry := e.expiry, provisional := false } := by
  simp only [cardOfEntry, hstanding, hplan]
  exact if_neg (by omega)

theorem loadCard_of_fits :
    loadCard e s =
      if (s.card e.number).isSome ∨ s.hire.cards.length < 4096 then
        (none,
          s.putCard
            { number := e.number, plan := pl, standing := st, cls := e.cls, maxBikes := e.maxBikes
              outCount := min e.maxBikes e.outCount, headroom := e.headroom, day := e.day, dayTotal := e.dayTotal
              reward := e.reward, expiry := e.expiry, provisional := false })
      else (some .full, s) := by
  rw [loadCard, hstanding, cardOfEntry_of_fits hnumber hstanding hplan hcls hbikes hreward]
  rfl

end

/-! ### CLASSIFIER (R32) -/

theorem loadRule_of_some {e : RuleEntry} {i : Fin 32} {r : Rule} (hindex : e.index = i.val) (hrule : ruleOf e = some r) :
    loadRule e s =
      (none,
        { s with
          classifier :=
            { s.classifier with rules := s.classifier.rules.set i r, hits := s.classifier.hits.set i 0 } }) := by
  have hin : e.index < 32 := hindex ▸ i.isLt
  rw [loadRule, dif_pos hin, hrule]
  simp only [hindex]

/-! ### PASS KINDS (R97) -/

theorem loadPassKind_of_fits {e : PassKindEntry} {i : Fin 4} (hkind : e.kind = i.val + 1)
    (hfits : e.price ≤ 65535 ∧ 3600 ≤ e.duration ∧ e.duration ≤ 31622400 ∧ e.rideLimit ≤ 65535 ∧ 1 ≤ e.maxBikes
      ∧ e.maxBikes ≤ 2 ∧ e.cls ≤ 7 ∧ e.headroom ≤ 65535) :
    loadPassKind e s =
      (none,
        { s with
          sale :=
            { s.sale with
              kinds :=
                s.sale.kinds.set i
                  { onSale := e.onSale, price := e.price, duration := e.duration, rideLimit := e.rideLimit
                    maxBikes := e.maxBikes, cls := e.cls, headroom := e.headroom } } }) := by
  have hin : 1 ≤ e.kind ∧ e.kind ≤ 4 := by omega
  rw [loadPassKind, dif_pos hin, if_pos hfits]
  simp only [hkind, Nat.add_sub_cancel]

/-! ### TARIFF (R112) -/

/-- Upper limits that increase strictly, in the words of the library. -/
theorem uppersRise_iff (l : List Band) : uppersRise l = true ↔ l.IsChain fun a b => a.upper < b.upper := by
  induction l with
  | nil => simp [uppersRise]
  | cons a l ih =>
    cases l with
    | nil => simp [uppersRise]
    | cons b l => rw [uppersRise, Bool.and_eq_true, decide_eq_true_iff, ih, List.isChain_cons_cons]

theorem loadTariff_of_class (c : Fin 8) (t : Tariff) :
    loadTariff { cls := c.val, tariff := t } s =
      if Tariff.inRange t then (none, s.modHire fun x => { x with tariffs := x.tariffs.set c (some t) })
      else (some .range, s) :=
  dif_pos c.isLt

/-! ### STATION SETTINGS (R195, R33) -/

theorem clampInt_natCast (lo hi v : Nat) : clampInt lo hi v = (max lo (min hi v) : Nat) := by
  unfold clampInt
  omega

/-- A resume level in its range is no more clamped at the end of a load. -/
theorem finish_of_resume {r : SettingsRun} (hlow : r.settings.rideMin + 5 ≤ r.settings.resume)
    (hhigh : r.settings.resume ≤ 60) : r.finish = r := by
  have hclamp : clampNat (r.settings.rideMin + 5) 60 r.settings.resume = r.settings.resume := by
    unfold clampNat
    omega
  simp only [SettingsRun.finish, hclamp, SettingsRun.mark, bne_self_eq_false, Bool.false_eq_true, false_and, if_false]

/-- The island timeout given alone is brought into its range, and marked where it lay outside. -/
theorem settingsOf_islandTimeout {x : Settings} (first v : Nat) (hlow : x.rideMin + 5 ≤ x.resume) (hhigh : x.resume ≤ 60) :
    settingsOf x [.num .islandTimeout v] first =
      { applied := 1, refusal := none
        run :=
          { settings := { x with islandTimeout := max 10 (min 600 v) }
            clamped := if max 10 (min 600 v) = v then [] else [.num .islandTimeout] } } := by
  have hclamp : clampInt (settingRange x.rideMin .islandTimeout).1 (settingRange x.rideMin .islandTimeout).2 v =
      (max 10 (min 600 v) : Nat) := clampInt_natCast 10 600 v
  have hentry : SettingsRun.entry x.rideMin { settings := x, clamped := [] } (.num .islandTimeout v) =
      some
        { settings := { x with islandTimeout := max 10 (min 600 v) }
          clamped := if max 10 (min 600 v) = v then [] else [.num .islandTimeout] } := by
    simp only [SettingsRun.entry, hclamp, putSetting, Int.toNat_natCast, SettingsRun.mark]
    by_cases hin : max 10 (min 600 v) = v
    · simp [hin]
    · have hout : ((max 10 (min 600 v) : Nat) != (v : Int)) = true :=
        bne_iff_ne.mpr fun hcast => hin (Int.ofNat_inj.mp hcast)
      simp only [hout, hin, List.contains_nil, and_self, if_true, if_false, List.nil_append]
  simp only [settingsOf, rideMinAfter, settingsEntries, hentry]
  rw [finish_of_resume hlow hhigh]

/-- Settings that leave the charging settings as they were take effect alone, but for the default hit count (R33). -/
theorem settingsApplied_of_same (k : Kont) {x : Settings} (h : sameCharging s.trunk.settings x = true) :
    settingsApplied k x s =
      { s with
        trunk := { s.trunk with settings := x }
        classifier := { s.classifier with defaultHits := 0 } } :=
  if_pos h

theorem sameCharging_islandTimeout (x : Settings) (w : Nat) : sameCharging x { x with islandTimeout := w } = true := by
  simp [sameCharging]

end Sys2Proof.Machine

open Sys2Proof Sys2Proof.Machine

/-- Settles O39: the mode is checked before the owner of a protected table is asked. -/
theorem protectedLoadsAreRefusedMode : Obligations.ProtectedLoadsAreRefusedMode := by
  unfold Obligations.ProtectedLoadsAreRefusedMode
  intro s tag first h hmode
  exact ⟨fun l => congrArg Host.Outcome.next (takeLoad_of_mode (id := .dropTable) _ h rfl hmode),
    fun l => congrArg Host.Outcome.next (takeLoad_of_mode (id := .classifier) _ h rfl hmode),
    fun l => congrArg Host.Outcome.next (takeLoad_of_mode (id := .faultPolicy) _ h rfl hmode),
    fun l => congrArg Host.Outcome.next (takeLoad_of_mode (id := .stationSettings) _ h rfl hmode),
    fun l => congrArg Host.Outcome.next (takeLoad_of_mode (id := .passKinds) _ h rfl hmode)⟩

/-- Settles O17: an entry out of range is refused by `loadTarget`, another sets its two marks; neither makes a notice while
the flags stand as computed. -/
theorem stockTargetsLoadSetsTheMarks : Obligations.StockTargetsLoadSetsTheMarks := by
  unfold Obligations.StockTargetsLoadSetsTheMarks
  intro s tag first e h
  refine ⟨fun hrange hflags => ?_, fun k st hkind hlow hhigh hst hflags => ?_⟩
  · exact congrArg Host.Outcome.next
      (takeLoad_of_refused (id := .stockTargets) h (fun hprotected => absurd hprotected (by decide))
        (loadTarget_of_range hrange) (stockDone_of_computed hflags))
  · subst hst
    exact congrArg Host.Outcome.next
      (takeLoad_of_applied (id := .stockTargets) h (fun hprotected => absurd hprotected (by decide))
        (loadTarget_of_fits hkind hlow hhigh) (stockDone_of_computed hflags) rfl)

/-- Settles O19: the four ways an entry goes are the branches of `loadCard`. -/
theorem cardTableLoadPutsTheRecord : Obligations.CardTableLoadPutsTheRecord := by
  unfold Obligations.CardTableLoadPutsTheRecord
  intro s tag first e h
  have hopen : tableProtected .cardTable = true → s.trunk.mode = .maintenance := fun hprotected =>
    absurd hprotected (by decide)
  refine ⟨fun hrange => ?range, fun hnumber hdelete => ?delete, ?keep⟩
  case range => exact congrArg Host.Outcome.next (takeLoad_of_refused h hopen (loadCard_of_range hrange) rfl)
  case delete =>
    exact congrArg Host.Outcome.next (takeLoad_of_applied h hopen (loadCard_of_delete hnumber hdelete) rfl rfl)
  case keep =>
    intro st pl hnumber hstanding hplan hcls hbikes hreward
    have hload := loadCard_of_fits (s := s.timerRestarted) hnumber hstanding hplan hcls hbikes hreward
    refine ⟨fun hnew hfull => ?full, fun hroom => ?put⟩
    case full =>
      have hnone : ¬((s.card e.number).isSome = true ∨ s.hire.cards.length < 4096) := by simp [hnew, hfull]
      exact congrArg Host.Outcome.next (takeLoad_of_refused h hopen (hload.trans (if_neg hnone)) rfl)
    case put =>
      exact congrArg Host.Outcome.next (takeLoad_of_applied h hopen (hload.trans (if_pos hroom)) rfl rfl)

/-- Settles O41: each entry of a known place is applied as the record that it gives; a tariff's limits are what its range
check adds to the limits given. -/
theorem rulePassKindAndTariffEntriesReplace : Obligations.RulePassKindAndTariffEntriesReplace := by
  unfold Obligations.RulePassKindAndTariffEntriesReplace
  intro s tag first h
  refine ⟨?rule, ?passKind, ?tariff⟩
  case rule =>
    intro e i g k y ac hmode hindex hseg hkinds htype haction hlo hlohi hhi hset hfirst hsecond hrange hmask
    have hrule : ruleOf e = some
        { enabled := e.enabled, seg := g, lo := e.lo, hi := e.hi, kinds := k, type := y, first := e.first
          second := e.second, action := ac } := by
      have hany : (k.dock || k.pay || k.vanpoint) = true := by simpa [or_assoc] using hset
      simp only [ruleOf, hseg, hkinds, htype, haction]
      exact if_pos ⟨hlo, hlohi, hhi, hany, hfirst, hsecond, hrange, hmask⟩
    exact congrArg Host.Outcome.next
      (takeLoad_of_applied (id := .classifier) h (fun _ => hmode) (loadRule_of_some hindex hrule) rfl rfl)
  case passKind =>
    intro e i hmode hkind hprice hshort hlong hrides hbike hbikes hcls hheadroom
    have hload := loadPassKind_of_fits (s := s.timerRestarted) hkind
      ⟨hprice, hshort, hlong, hrides, hbike, hbikes, hcls, hheadroom⟩
    exact congrArg Host.Outcome.next (takeLoad_of_applied (id := .passKinds) h (fun _ => hmode) hload rfl rfl)
  case tariff =>
    intro c t hgrace hfree hblock hblocks hband hbands hclassic helectric hcargo hcap hreward hlimits
    have hopen : tableProtected .tariff = true → s.trunk.mode = .maintenance := fun hprotected =>
      absurd hprotected (by decide)
    have hall : (t.bands.all fun b => decide (1 ≤ b.upper ∧ b.upper ≤ 2880 ∧ b.rate ≤ 2000)) = true :=
      List.all_eq_true.mpr fun b hb => decide_eq_true (hlimits b hb)
    have hinRange : Tariff.inRange t = uppersRise t.bands := by
      rw [Tariff.inRange, hall, decide_eq_true
        ⟨hgrace, hfree, hblock, hblocks, hband, hbands, hclassic, helectric, hcargo, hcap, hreward⟩]
      rfl
    have hload := loadTariff_of_class (s := s.timerRestarted) c t
    rw [hinRange] at hload
    refine ⟨fun hchain => ?_, fun hchain => ?_⟩
    · exact congrArg Host.Outcome.next
        (takeLoad_of_applied h hopen (hload.trans (if_pos ((uppersRise_iff _).mpr hchain))) rfl rfl)
    · exact congrArg Host.Outcome.next
        (takeLoad_of_refused h hopen (hload.trans (if_neg (mt (uppersRise_iff _).mp hchain))) rfl)

/-- Settles O42: the ranges are read off `settingRange`, and the load is `settingsOf_islandTimeout` taking effect. -/
theorem settingsAreClampedIntoTheirRanges : Obligations.SettingsAreClampedIntoTheirRanges := by
  unfold Obligations.SettingsAreClampedIntoTheirRanges
  refine ⟨fun ride => rfl, fun s tag first v w h hmode hlow hhigh hw => ?_⟩
  have hload := settingsOf_islandTimeout (x := s.timerRestarted.trunk.settings) first v hlow hhigh
  have hrun : exec (.stationSettingsLoad { tag := tag, first := first, body := some [.num .islandTimeout v] }) s =
      .next (takeLoad .stationSettings { tag := tag, first := first, body := some [.num .islandTimeout v] }
        (settingsOwner call { tag := tag, first := first, body := some [.num .islandTimeout v] }) s) := rfl
  rw [hrun, takeLoad_of_answers _ h fun _ => hmode, settingsOwner, hload, hw,
    settingsApplied_of_same call (sameCharging_islandTimeout _ _)]
  exact congrArg _ (answer_of_room _ h.2.2)

end

section
/-! Submitting a command to a Segment Engine (R15, R16), and what units submit: the referral's SHOW (R79 to R81), the check
of a release (R88), the LOCK of a cancel (R90). -/

namespace Sys2Proof.Machine

variable {s : State} {k : Kont}

/-! ### A command joins a queue, displaces or is QFULL (R15, R16) -/

/-- The state with a command at the end of its drop's queue. -/
def State.enqueued (s : State) (d : Drop) (c : Cmd) (w : Submitter) : State :=
  s.setEng d.seg
    { s.eng d.seg with
      queue := (s.eng d.seg).queue ++ [{ addr := d.addr, cmd := c, who := w, time := s.trunk.time }] }

theorem isLost_eq_false {l : LinkState} (hfree : l ≠ .free .lost) (hheld : l ≠ .held .lost) : l.isLost = false := by
  unfold LinkState.isLost
  split <;> simp_all

theorem isDisplay_iff (x : QueueEntry) : x.isDisplay = true ↔ x.cmd.cls = .display := beq_iff_eq

section

variable {q : List QueueEntry} {e : QueueEntry}

theorem joinQueue_of_room (h : q.length < 24) : joinQueue q e = some (q ++ [e], none) := if_pos h

theorem joinQueue_of_full (h : 24 ≤ q.length) :
    joinQueue q e =
      if e.isDisplay then none
      else
        match q.reverse.find? QueueEntry.isDisplay with
        | none => none
        | some old => some (removeLast QueueEntry.isDisplay q ++ [e], some old) := by
  have hfull : ¬q.length < queueRoom := Nat.not_lt.mpr h
  exact if_neg hfull

theorem joinQueue_of_display (h : 24 ≤ q.length) (he : e.cmd.cls = .display) : joinQueue q e = none := by
  rw [joinQueue_of_full h, if_pos ((isDisplay_iff e).mpr he)]

theorem joinQueue_of_no_display (h : 24 ≤ q.length) (he : e.cmd.cls ≠ .display) (hq : ∀ x ∈ q, x.cmd.cls ≠ .display) :
    joinQueue q e = none := by
  have hnone : q.reverse.find? QueueEntry.isDisplay = none :=
    List.find?_eq_none.mpr fun x hx hdisplay => hq x (List.mem_reverse.mp hx) ((isDisplay_iff x).mp hdisplay)
  rw [joinQueue_of_full h, if_neg (mt (isDisplay_iff e).mp he), hnone]

/-- The youngest DISPLAY entry of a full queue gives way. -/
theorem joinQueue_of_displacing {before after : List QueueEntry} {y : QueueEntry} (h : 24 ≤ q.length)
    (he : e.cmd.cls ≠ .display) (hq : q = before ++ y :: after) (hy : y.cmd.cls = .display)
    (hafter : ∀ x ∈ after, x.cmd.cls ≠ .display) : joinQueue q e = some (before ++ after ++ [e], some y) := by
  have hshow : y.isDisplay = true := (isDisplay_iff y).mpr hy
  have hrest : ∀ x ∈ after, ¬x.isDisplay = true := fun x hx => mt (isDisplay_iff x).mp (hafter x hx)
  have hfound : q.reverse.find? QueueEntry.isDisplay = some y := by
    refine List.find?_eq_some_iff_append.mpr ⟨hshow, after.reverse, before.reverse, by simp [hq], fun x hx => ?_⟩
    simpa using hrest x (List.mem_reverse.mp hx)
  rw [joinQueue_of_full h, if_neg (mt (isDisplay_iff e).mp he), hfound, hq, removeLast_split hshow hrest]

end

section

variable {d : Drop} {c : Cmd} {w : Submitter} {r : DropRec} (hrec : s.dropRec d = some r) (hlost : r.link.isLost = false)

include hrec hlost

/-- At a drop that is not LOST, what becomes of a command rests on its queue (R15). -/
theorem submitTo_of_not_lost :
    submitTo k d c w s =
      match joinQueue (s.eng d.seg).queue { addr := d.addr, cmd := c, who := w, time := s.trunk.time } with
      | none => k (.outcome w .qFull) s
      | some (q, none) => s.setEng d.seg { s.eng d.seg with queue := q }
      | some (q, some old) => k (.outcome old.who .qFull) (s.setEng d.seg { s.eng d.seg with queue := q }) := by
  rw [submitTo, hrec]
  exact if_neg (ne_true_of_eq_false hlost)

theorem submitTo_of_room (hroom : (s.eng d.seg).queue.length < 24) : submitTo k d c w s = s.enqueued d c w := by
  rw [submitTo_of_not_lost hrec hlost, joinQueue_of_room hroom]
  rfl

end

/-- A command for an ACTIVE dock with room in its queue joins it. -/
theorem submitAt_of_active {p : DockPos} {c : Cmd} {w : Submitter} {d : Drop} {x : DropRec} (hdrop : s.dropAt p = some d)
    (hrec : s.dropRec d = some x) (hactive : x.link = .free .active) (hroom : (s.eng d.seg).queue.length < 24) :
    submitAt k p c w s = s.enqueued d c w := by
  have hlost : x.link.isLost = false := by rw [hactive]; rfl
  rw [submitAt, hdrop]
  exact submitTo_of_room hrec hlost hroom

/-- An answer made after a command has joined a queue joins the outbound queue. -/
theorem commandAnswered_enqueued (tag code : Nat) (r : CommandResult) (d : Drop) (c : Cmd) (w : Submitter)
    (h : s.trunk.queue.length < 16) :
    commandAnswered tag code (r, s.timerRestarted.enqueued d c w) =
      (s.enqueued d c w).timerRestarted.withFrame (commandReply tag code r s.trunk.mode) := by
  obtain ⟨g, a⟩ := d
  cases g <;> exact answer_of_room _ h

/-! ### The answer to a referral (R79, R80) -/

theorem answerReferral_of_connected (tag : Nat) (a : ReferralReply) (h : s.trunk.connected = true) :
    answerReferral k { tag := tag, body := some a } s = takeAnswer k a s.timerRestarted := by
  simp only [answerReferral, frameArrives_of_connected h]

theorem takeAnswer_of_late {a : ReferralReply} (hrecord : a.record = none) (hlate : ∀ r ∈ s.hire.referrals, r.card ≠ a.card) :
    takeAnswer k a s = s := by
  have hnone : s.hire.referrals.find? (fun r => r.card == a.card) = none :=
    List.find?_eq_none.mpr fun r hr hcard => hlate r hr (beq_iff_eq.mp hcard)
  simp only [takeAnswer, hnone, loadCarried, hrecord]

theorem takeAnswer_of_refusal {a : ReferralReply} {r : Referral} (hrecord : a.record = none) (hallow : a.allow = false)
    (hfound : s.hire.referrals.find? (fun r => r.card == a.card) = some r) :
    takeAnswer k a s = showAt k .hire r.pos .unknownCard (dropReferral a.card s) := by
  have hcard : (r.card == a.card) = true := by simpa using List.find?_some hfound
  simp only [takeAnswer, hfound, hallow, loadCarried, hrecord, beq_iff_eq.mp hcard, Bool.false_eq_true, if_false]

/-! ### The deadline of a referral (R81, R76) -/

/-- The station takes taps: SERVICE, the journal NORMAL, the time valid (R71). -/
theorem stationRefusal_of_open (hmode : s.trunk.mode = .service) (hlevel : s.journal.level = .normal)
    (htime : s.trunk.timeValid = true) : s.stationRefusal = none := by
  simp [State.stationRefusal, hmode, hlevel, htime]

theorem presenceRefusal_of_occupied {p : DockPos} (h : (s.dock p).state = .occupied) : s.presenceRefusal p = none := by
  rw [State.presenceRefusal, h]

theorem fitnessRefusal_of_fit {p : DockPos} {b : Bike} (hservice : (s.dock p).service = .inService)
    (hbike : (s.dock p).bike = some b) (hhold : b.hold = .none) (hpickup : b.pickup = false) :
    s.fitnessRefusal p = none := by
  simp [State.fitnessRefusal, hservice, hbike, hhold, hpickup]

theorem isStaffTap_of_no_card {n : Nat} (m : Medium) (h : s.card n = none) : s.isStaffTap n m = false := by
  simp [State.isStaffTap, h]

theorem strangerVerdict_of_refuse {n : Nat} (hflight : s.inFlight n .member = false)
    (hrule : s.trunk.settings.strangerRule = .refuse) : s.strangerVerdict n = .refused .unknownCard := by
  simp [State.strangerVerdict, hflight, hrule]

/-- A tap taken after its referral, of a card still without a record or a release, goes by the stranger rule. -/
theorem tapVerdict_of_stranger {p : DockPos} {n : Nat} {b : Bike} (hmode : s.trunk.mode = .service)
    (hlevel : s.journal.level = .normal) (htime : s.trunk.timeValid = true) (hstate : (s.dock p).state = .occupied)
    (hservice : (s.dock p).service = .inService) (hbike : (s.dock p).bike = some b) (hhold : b.hold = .none)
    (hpickup : b.pickup = false) (hcard : s.card n = none) :
    s.tapVerdict .ended p n .member = s.strangerVerdict n := by
  simp only [State.tapVerdict, stationRefusal_of_open hmode hlevel htime, presenceRefusal_of_occupied hstate,
    isStaffTap_of_no_card .member hcard, fitnessRefusal_of_fit hservice hbike hhold hpickup, State.lookupVerdict, hcard,
    State.unknownVerdict, Bool.false_eq_true, if_false]

theorem takeTap_of_refused {path : TapPath} {p : DockPos} {n : Nat} {m : Medium} {r : Reason} (stamp : Nat)
    (h : s.tapVerdict path p n m = .refused r) : takeTap k path p n m stamp s = showAt k .hire p r s := by
  rw [takeTap, h]

theorem referralDeadline_of_found {n : Nat} {r : Referral} (h : s.hire.referrals.find? (fun q => q.card == n) = some r) :
    referralDeadline k n s = if r.deadline ≤ s.trunk.time then endReferral k r s else s := by
  rw [referralDeadline, h]
  rfl

/-! ### The guard of a release (R88) -/

theorem takeGuardAt_of_found {p : DockPos} {r : Release} (h : s.releaseAt p = some r) :
    takeGuardAt k p s = guardReached k r s := by
  rw [takeGuardAt, h]

theorem guardReached_of_early {r : Release} {g : Nat} (hguard : r.guardAt = some g)
    (h : s.trunk.time < g ∨ r.checking = true) : guardReached k r s = s := by
  rw [guardReached, hguard]
  refine if_neg fun hreached => ?_
  obtain ⟨hmoment, hunchecked⟩ := hreached
  obtain hearly | hchecking := h
  · exact absurd hmoment (Nat.not_le.mpr hearly)
  · exact absurd hunchecked (by rw [hchecking]; decide)

theorem guardReached_of_reached {r : Release} {g : Nat} (hguard : r.guardAt = some g) (hmoment : g ≤ s.trunk.time)
    (hunchecked : r.checking = false) :
    guardReached k r s =
      submitAt k r.pos .resync (.check r.id) (s.putRelease { r with checking := true, attempts := 1 }) := by
  rw [guardReached, hguard]
  exact if_pos ⟨hmoment, hunchecked⟩

/-! ### A cancel (R90) -/

theorem exec_cancelRelease_of_answers (tag : Nat) (p : DockPos) (h : s.Answers) :
    exec (.cancelRelease { tag := tag, body := some p }) s =
      .next (commandAnswered tag 6 (remoteCancel call p s.timerRestarted)) :=
  congrArg Host.Outcome.next (takeCommand_some_of_answers tag 6 p (remoteCancel call) h)

theorem remoteCancel_of_none {p : DockPos} (h : s.releaseAt p = none) : remoteCancel k p s = (.none, s) := by
  rw [remoteCancel, h]

theorem remoteCancel_of_some {p : DockPos} {r : Release} (h : s.releaseAt p = some r) :
    remoteCancel k p s = (.accepted, cancelRelease k r s) := by
  rw [remoteCancel, h]

theorem cancelRelease_of_cancelled {r : Release} (h : r.cancel = true) : cancelRelease k r s = s := if_pos h

theorem cancelRelease_of_checking {r : Release} (h : r.cancel = false) (hchecking : r.checking = true) :
    cancelRelease k r s = s.putRelease { r with cancel := true } := by
  rw [cancelRelease, if_neg (ne_true_of_eq_false h)]
  exact if_pos hchecking

theorem cancelRelease_of_unchecked {r : Release} (h : r.cancel = false) (hchecking : r.checking = false) :
    cancelRelease k r s = submitAt k r.pos .lock (.discard .hire) (s.putRelease { r with cancel := true }) := by
  rw [cancelRelease, if_neg (ne_true_of_eq_false h)]
  exact if_neg (ne_true_of_eq_false hchecking)

end Sys2Proof.Machine

open Sys2Proof Sys2Proof.Machine

/-- Settles O11: at a drop that is not LOST the four clauses are the four cases of `joinQueue`. -/
theorem submittedCommandJoinsTheQueue : Obligations.SubmittedCommandJoinsTheQueue := by
  unfold Obligations.SubmittedCommandJoinsTheQueue
  intro k d c w s r hrec hfree hheld
  have hlost := isLost_eq_false hfree hheld
  have hsubmit := submitTo_of_not_lost (k := k) (c := c) (w := w) hrec hlost
  refine ⟨submitTo_of_room hrec hlost, fun hfull hdisplay => ?display, fun hfull hclass hnone => ?none, ?displaced⟩
  case display => rw [hsubmit, joinQueue_of_display hfull hdisplay]
  case none => rw [hsubmit, joinQueue_of_no_display hfull hclass hnone]
  case displaced =>
    intro before after y hfull hclass hqueue hy hafter
    rw [hsubmit, joinQueue_of_displacing hfull hclass hqueue hy hafter]

/-- Settles O20: a late answer has no effect of its own, and a refusing one shows UNKNOWN CARD after its referral has left. -/
theorem referralAnswerEndsTheReferral : Obligations.ReferralAnswerEndsTheReferral := by
  unfold Obligations.ReferralAnswerEndsTheReferral
  intro s tag a hconnected hrecord
  have hrun : exec (.referralAnswer { tag := tag, body := some a }) s = .next (takeAnswer call a s.timerRestarted) :=
    congrArg Host.Outcome.next (answerReferral_of_connected tag a hconnected)
  refine ⟨fun hlate => ?late, fun r d x hfound hallow hdrop hrec hactive hroom => ?refused⟩
  case late => rw [hrun, takeAnswer_of_late (s := s.timerRestarted) hrecord hlate]
  case refused =>
    rw [hrun, takeAnswer_of_refusal (s := s.timerRestarted) hrecord hallow hfound, showAt,
      submitAt_of_active (s := dropReferral a.card s.timerRestarted) hdrop hrec hactive hroom]
    rfl

/-- Settles O21: at its deadline the referral leaves the list and its tap goes by the stranger rule. -/
theorem referralDeadlineDecidesTheTap : Obligations.ReferralDeadlineDecidesTheTap := by
  unfold Obligations.ReferralDeadlineDecidesTheTap
  intro s r hfound
  have hrun : exec (.referralDeadline r.card) s =
      .next (if r.deadline ≤ s.trunk.time then endReferral call r s else s) :=
    congrArg Host.Outcome.next (referralDeadline_of_found hfound)
  refine ⟨fun hearly => ?early, ?reached⟩
  case early => rw [hrun, if_neg (Nat.not_le.mpr hearly)]
  case reached =>
    intro d x b hreached hmode hlevel htime hstate hservice hbike hhold hpickup hcard hflight hrule hdrop hrec hactive hroom
    have hverdict : (dropReferral r.card s).tapVerdict .ended r.pos r.card .member = .refused .unknownCard :=
      (tapVerdict_of_stranger (s := dropReferral r.card s) hmode hlevel htime hstate hservice hbike hhold hpickup
        hcard).trans (strangerVerdict_of_refuse hflight hrule)
    rw [hrun, if_pos hreached, endReferral, takeTap_of_refused r.stamp hverdict, showAt,
      submitAt_of_active (s := dropReferral r.card s) hdrop hrec hactive hroom]
    rfl

/-- Settles O22: a guard reached is checked by a RESYNC submitted at once. -/
theorem guardExpiryStartsChecking : Obligations.GuardExpiryStartsChecking := by
  unfold Obligations.GuardExpiryStartsChecking
  intro s p r g hfound hpos hguard
  have hrun : exec (.releaseGuardExpiry p) s = .next (guardReached call r s) :=
    congrArg Host.Outcome.next (takeGuardAt_of_found hfound)
  refine ⟨fun hearly => ?early, fun d x hmoment hunchecked hdrop hrec hactive hroom => ?reached⟩
  case early => rw [hrun, guardReached_of_early hguard hearly]
  case reached =>
    subst hpos
    rw [hrun, guardReached_of_reached hguard hmoment hunchecked,
      submitAt_of_active (s := s.putRelease { r with checking := true, attempts := 1 }) hdrop hrec hactive hroom]
    rfl

/-- Settles O23: the rows of R90's table are the branches of `remoteCancel` and `cancelRelease`. -/
theorem cancelReleaseSubmitsLock : Obligations.CancelReleaseSubmitsLock := by
  unfold Obligations.CancelReleaseSubmitsLock
  intro s tag p h
  have hrun := exec_cancelRelease_of_answers tag p h
  refine ⟨fun hnone => ?none, fun r hfound hpos => ?release⟩
  case none =>
    rw [hrun, remoteCancel_of_none (s := s.timerRestarted) hnone, commandAnswered_unchanged tag 6 _ h]
  case release =>
    subst hpos
    rw [hrun, remoteCancel_of_some (s := s.timerRestarted) hfound]
    refine ⟨fun hcancel => ?again, fun hcancel hchecking => ?mark, fun d x hcancel hchecking hdrop hrec hactive hroom => ?lock⟩
    case again => rw [cancelRelease_of_cancelled hcancel, commandAnswered_unchanged tag 6 _ h]
    case mark =>
      rw [cancelRelease_of_checking hcancel hchecking]
      exact congrArg _ (answer_of_room _ h.2.2)
    case lock =>
      rw [cancelRelease_of_unchecked hcancel hchecking,
        submitAt_of_active (s := s.timerRestarted.putRelease { r with cancel := true }) hdrop hrec hactive hroom]
      exact congrArg _ (commandAnswered_enqueued (s := s.putRelease { r with cancel := true }) tag 6 .accepted d .lock
        (.discard .hire) h.2.2)

end

section
/-! The Event Classifier: which rule decides (R27), what goes past the rules (R24), what is delivered in any case (R29,
R30). -/

namespace Sys2Proof.Machine

variable {s : State} {e : EventRec}

/-! ### The rule that decides (R27) -/

theorem find_finRange_of_first {n : Nat} {q : Fin n → Bool} {i : Fin n} (hi : q i = true)
    (hfirst : ∀ j, j < i → q j = false) : (List.finRange n).find? q = some i := by
  rw [List.find?_eq_some_iff_getElem]
  refine ⟨hi, i.val, by simp, by simp, fun j hj => ?_⟩
  have hearlier := hfirst ⟨j, hj.trans i.isLt⟩ hj
  simpa using hearlier

theorem deciding_of_first {c : Classifier} {d : Drop} {kind : DropKind} {code : Nat} {i : Fin 32}
    (htakes : (c.rules[i]).takes d kind code = true) (hfirst : ∀ j : Fin 32, j < i → (c.rules[j]).takes d kind code = false) :
    c.deciding d kind code = some i := by
  rw [Classifier.deciding]
  exact find_finRange_of_first htakes hfirst

theorem deciding_of_none {c : Classifier} {d : Drop} {kind : DropKind} {code : Nat}
    (hnone : ∀ i : Fin 32, (c.rules[i]).takes d kind code = false) : c.deciding d kind code = none :=
  List.find?_eq_none.mpr fun i _ => ne_true_of_eq_false (hnone i)

/-! ### PRESENT (R24) -/

theorem classify_of_present {k : Kont} {kind : DropKind} (hcode : e.code = 0x15) (hkind : e.entry.kind = some kind) :
    classify k e s = deliverPresent k e (eventOf 0x15 kind e.fields) s := by
  simp only [classify, hkind, hcode, if_true]

theorem deliverPresent_of_pay {k : Kont} {r : Ready} (h : e.entry = .pay) :
    deliverPresent k e (some (.presentReady r)) s = terminalReady e.drop r s := by
  simp only [deliverPresent, h]

/-! ### State-bearing events (R29, R30) -/

/-- The codes of BIKE DOCKED, BIKE REMOVED and RELOCKED bear state, and a dock's report of them has a consumer. -/
theorem stateBearing_of_dock {p : DockPos} (hentry : e.entry = .dock p)
    (hcode : e.code = 0x11 ∨ e.code = 0x12 ∨ e.code = 0x13) (b : EventBody) :
    stateBearing e.code = true ∧ hasConsumer e (some b) = true := by
  unfold hasConsumer
  rw [hentry]
  obtain h | h | h := hcode <;> rw [h] <;> exact ⟨rfl, rfl⟩

theorem actsAs_of_stateBearing {b : Option EventBody} (a : Action) (hconsumer : hasConsumer e b = true)
    (hbearing : stateBearing e.code = true) : actsAs a e b = (true, (actionParts a).2) := by
  rw [actsAs, if_pos hconsumer, hbearing, Bool.or_true]

end Sys2Proof.Machine

open Sys2Proof Sys2Proof.Machine

/-- Settles O13: the first rule that takes the event is the one found, and with none the default stands. -/
theorem firstMatchingRuleDecides : Obligations.FirstMatchingRuleDecides := by
  unfold Obligations.FirstMatchingRuleDecides
  intro s e kind
  refine ⟨fun i htakes hfirst => ?rule, fun hnone => ?default⟩
  case rule =>
    rw [State.decideBy, deciding_of_first htakes hfirst]
    rfl
  case default =>
    rw [State.decideBy, deciding_of_none hnone]
    rfl

/-- Settles O14: the event goes past the rules, and its one byte is the ready state. -/
theorem presentIsNotClassified : Obligations.PresentIsNotClassified := by
  unfold Obligations.PresentIsNotClassified
  intro k e s hcode hentry
  have hkind : e.entry.kind = some .pay := by rw [hentry]; rfl
  rw [classify_of_present hcode hkind]
  refine ⟨fun hyes => ?yes, fun hno => ?no⟩
  case yes =>
    rw [hyes]
    exact deliverPresent_of_pay hentry
  case no =>
    rw [hno]
    exact deliverPresent_of_pay hentry

/-- Settles O15: such an event is delivered whatever the action; the frame called for is the action's own. -/
theorem stateBearingEventsAreDelivered : Obligations.StateBearingEventsAreDelivered := by
  unfold Obligations.StateBearingEventsAreDelivered
  intro a e b p hentry hcode
  obtain ⟨hbearing, hconsumer⟩ := stateBearing_of_dock hentry hcode b
  rw [actsAs_of_stateBearing a hconsumer hbearing]
  cases a <;> rfl

end

section
/-! The stock counts (R47), SET DOCK SERVICE (R37, R193), and the lists whose entries have a moment (R128, R134, R135). -/

namespace Sys2Proof.Machine

variable {s : State} {k : Kont}

/-! ### The counts (R47) -/

/-- The records in the order of their positions. -/
theorem docks_toList (st : Stock) : st.docks.toList = positions.map fun p => st.docks[p] := by
  refine List.ext_getElem (by simp [positions]) fun i h1 h2 => ?_
  simp [positions]

theorem countsFor_iff (d : DockRec) (k : BikeKind) :
    d.countsFor k = true ↔
      d.state = .occupied ∧ d.service = .inService ∧ ∃ b ∈ d.bike, b.kind = k ∧ b.hold = .none ∧ b.pickup = false := by
  unfold DockRec.countsFor
  split
  next b hstate hbike =>
    simp only [hstate, hbike, Option.mem_def, Option.some.injEq, exists_eq_left', Bool.and_eq_true, beq_iff_eq,
      Bool.not_eq_true', true_and]
    tauto
  next hother =>
    refine ⟨fun h => absurd h Bool.false_ne_true, fun h => ?_⟩
    obtain ⟨hstate, -, b, hbike, -⟩ := h
    exact absurd hbike (hother b hstate)

theorem releasable_eq (st : Stock) (k : BikeKind) :
    st.releasable k = (positions.filter fun p => (st.docks[p]).countsFor k).length := by
  rw [Stock.releasable, docks_toList, List.countP_map, List.countP_eq_length_filter]
  rfl

/-! ### A change of service that has no effect elsewhere (R37) -/

/-- At a dock that is neither EMPTY nor RELEASING and holds no drop reservation, a change of service stays with the record. -/
theorem serviceChanged_of_settled {p : DockPos} (old : Service) (hreleasing : (s.dock p).state ≠ .releasing)
    (hempty : (s.dock p).state ≠ .empty) (hdrop : (s.dock p).vanDrop = false) : serviceChanged k p old s = s := by
  have hmove : moveDropFrom p s = s := if_neg (ne_true_of_eq_false hdrop)
  simp only [serviceChanged, hreleasing, hempty, and_false, if_false, hmove, ite_self]

theorem setServiceCentral_of_settled {p : DockPos} {v : Service} (hreleasing : (s.dock p).state ≠ .releasing)
    (hempty : (s.dock p).state ≠ .empty) (hdrop : (s.dock p).vanDrop = false)
    (hflags : (s.setDock p { s.dock p with svcCentral := v }).stock.flags = s.stock.computed) :
    setServiceCentral k p v s = s.setDock p { s.dock p with svcCentral := v } := by
  have hdock := State.setDock_dock s p { s.dock p with svcCentral := v }
  have hchanged : serviceChanged k p (s.dock p).service (s.setDock p { s.dock p with svcCentral := v }) =
      s.setDock p { s.dock p with svcCentral := v } :=
    serviceChanged_of_settled _ (by rw [hdock]; exact hreleasing) (by rw [hdock]; exact hempty) (by rw [hdock]; exact hdrop)
  rw [setServiceCentral, State.modDock, hchanged]
  exact stockDone_of_computed hflags

/-! ### A COMMAND whose body is held to its encodings (R203) -/

theorem takeCommand_of_fits {α : Type} (tag code : Nat) {x : α} {fits : α → Bool}
    (act : α → State → CommandResult × State) (h : s.Answers) (hfits : fits x = true) :
    takeCommand code (checked fits { tag := tag, body := some x }) act s =
      commandAnswered tag code (act x s.timerRestarted) := by
  rw [checked, Option.filter_some_pos hfits]
  exact takeCommand_some_of_answers tag code x act h

theorem takeCommand_of_unfit {α : Type} (tag code : Nat) {x : α} {fits : α → Bool}
    (act : α → State → CommandResult × State) (h : s.Answers) (hfits : fits x = false) :
    takeCommand code (checked fits { tag := tag, body := some x }) act s =
      s.timerRestarted.malformedCounted.withFrame (commandReply tag code .range s.trunk.mode) := by
  rw [checked, Option.filter_some_neg hfits, takeCommand, takeFrame_of_answers _ h]
  exact answer_of_room (s := s.timerRestarted.malformedCounted) _ h.2.2

theorem posOf_eq_none {n : Nat} (h : n = 0 ∨ 60 < n) : posOf n = none := dif_neg (by omega)

theorem serviceEncoded_of_outside {o : ServiceOrder} (h : o.pos = 0 ∨ 60 < o.pos ∨ o.service = none) :
    serviceEncoded o = false := by
  rw [serviceEncoded]
  obtain hpos | hpos | hservice := h
  · rw [posOf_eq_none (.inl hpos)]; rfl
  · rw [posOf_eq_none (.inr hpos)]; rfl
  · rw [hservice, Option.isSome_none, Bool.and_false]

theorem setDockService_of_named {o : ServiceOrder} {p : DockPos} {v : Service} (hpos : o.pos = p.val + 1)
    (hservice : o.service = some v) : setDockService k o s = (.done, setServiceCentral k p v s) := by
  rw [setDockService, hpos, posOf_val_add_one, hservice]

/-! ### Recent returns and pending orders (R128, R135) -/

theorem expireRecentAt_of_place {before after : List RecentReturn} {e : RecentReturn}
    (h : s.hire.recent = before ++ e :: after) :
    expireRecentAt before.length s =
      if e.expiry ≤ s.trunk.time then { s with hire := { s.hire with recent := before ++ after } } else s := by
  have hfound : s.hire.recent[before.length]? = some e := by simp [h]
  have hremoved : removeAt before.length s.hire.recent = before ++ after := by
    rw [removeAt, h, List.eraseIdx_append_of_length_le (le_refl _), Nat.sub_self, List.eraseIdx_cons_zero]
  rw [expireRecentAt, hfound]
  simp only [State.modHire, hremoved]
  rfl

/-- The one order of an id, where its moment has come, is what a filter by id and moment takes out. -/
theorem expireOrder_of_place {before after : List VanOrder} {o : VanOrder} (h : s.van.orders = before ++ o :: after)
    (hid : ∀ x ∈ before ++ after, x.id ≠ o.id) :
    expireOrder o.id s =
      if o.validUntil ≤ s.trunk.time then { s with van := { s.van with orders := before ++ after } } else s := by
  have hkept : ∀ l : List VanOrder, (∀ x ∈ l, x.id ≠ o.id) →
      (l.filter fun x => !(x.id == o.id && decide (x.validUntil ≤ s.trunk.time))) = l := fun l hl =>
    List.filter_eq_self.mpr fun x hx => by simp [hl x hx]
  have hbefore := hkept before fun x hx => hid x (List.mem_append_left _ hx)
  have hafter := hkept after fun x hx => hid x (List.mem_append_right _ hx)
  have hfilter : (s.van.orders.filter fun x => !(x.id == o.id && decide (x.validUntil ≤ s.trunk.time))) =
      if o.validUntil ≤ s.trunk.time then before ++ after else s.van.orders := by
    rw [h, List.filter_append, List.filter_cons, hbefore, hafter]
    by_cases hmoment : o.validUntil ≤ s.trunk.time <;> simp [hmoment]
  show ({ s with van := { s.van with orders := _ } } : State) = _
  rw [show State.now s = s.trunk.time from rfl, hfilter]
  split <;> rfl

/-! ### VAN ORDER (R134) -/

theorem hasTwice_of_nodup {l : List Nat} (h : l.Nodup) : hasTwice l = false := by
  induction l with
  | nil => rfl
  | cons x xs ih =>
    obtain ⟨hx, hxs⟩ := List.nodup_cons.mp h
    simp [hasTwice, hx, ih hxs]

theorem above40_of_le {p : PerKind} (hclassic : p.classic ≤ 40) (helectric : p.electric ≤ 40) (hcargo : p.cargo ≤ 40) :
    above40 p = false := by
  simp [above40, hclassic, helectric, hcargo]

theorem orderResult_of_id_zero {o : VanOrder} (h : o.id = 0) : s.orderResult o = .range :=
  if_pos (by simp [orderOutOfRange, h])

/-- While time is valid, an order in range goes on to the checks after the second of R134. -/
theorem orderResult_of_in_range {o : VanOrder} (hrange : orderOutOfRange o = false) (htime : s.trunk.timeValid = true) :
    s.orderResult o =
      if o.validUntil ≤ s.trunk.time then .expired
      else if s.van.visit.any fun v => v.plan.any fun p => p.order.id == o.id then .active
      else if s.van.orders.any fun x => x.id == o.id then .replaced
      else if orderRoom ≤ s.van.orders.length then .full
      else .accepted := by
  rw [State.orderResult, if_neg (ne_true_of_eq_false hrange), if_neg (by rw [htime]; decide)]
  rfl

/-- With no visit and a new id, an order that has not expired is FULL or accepted. -/
theorem orderResult_of_new {o : VanOrder} (hrange : orderOutOfRange o = false) (htime : s.trunk.timeValid = true)
    (hopen : s.trunk.time < o.validUntil) (hvisit : s.van.visit = none) (hnew : ∀ x ∈ s.van.orders, x.id ≠ o.id) :
    s.orderResult o = if 4 ≤ s.van.orders.length then .full else .accepted := by
  have hid : (s.van.orders.any fun x => x.id == o.id) = false := List.any_eq_false.mpr fun x hx => by simpa using hnew x hx
  rw [orderResult_of_in_range hrange htime, if_neg (Nat.not_le.mpr hopen), hvisit, hid]
  rfl

theorem orderInsert_split {o : VanOrder} {before after : List VanOrder} (hbefore : ∀ x ∈ before, x.validFrom ≤ o.validFrom)
    (hafter : ∀ x ∈ after.head?, o.validFrom < x.validFrom) : orderInsert o (before ++ after) = before ++ o :: after := by
  induction before with
  | nil =>
    cases after with
    | nil => rfl
    | cons y ys => exact if_pos (hafter y rfl)
  | cons x xs ih =>
    have hx : ¬o.validFrom < x.validFrom := Nat.not_lt.mpr (hbefore x List.mem_cons_self)
    rw [List.cons_append, orderInsert, if_neg hx, ih fun y hy => hbefore y (List.mem_cons_of_mem _ hy)]
    rfl

theorem exec_vanOrder_of_answers (tag : Nat) (o : VanOrder) (h : s.Answers) :
    exec (.vanOrder { tag := tag, body := some o }) s = .next (acceptOrder tag o s.timerRestarted) :=
  congrArg Host.Outcome.next (takeBody_some_of_answers tag o (rangeReply tag 6) (acceptOrder tag) h)

/-- An order that is neither accepted nor replaces one changes nothing. -/
theorem acceptOrder_of_refused (tag : Nat) (o : VanOrder) {r : OrderResult} (h : s.Answers)
    (hresult : s.timerRestarted.orderResult o = r) (hreplaced : r ≠ .replaced) (haccepted : r ≠ .accepted) :
    acceptOrder tag o s.timerRestarted = s.timerRestarted.withFrame (.commandReply tag (.vanOrder o.id r)) := by
  have hsame : takeOrder o r s.timerRestarted = s.timerRestarted := by
    unfold takeOrder
    split <;> trivial
  rw [acceptOrder, hresult, hsame, answer_timerRestarted _ h]

end Sys2Proof.Machine

open Sys2Proof Sys2Proof.Machine

/-- Settles O18: the count goes over the records position by position, and the flags are its comparisons with the marks. -/
theorem stockFlagsFollowTheCounts : Obligations.StockFlagsFollowTheCounts := by
  unfold Obligations.StockFlagsFollowTheCounts
  intro st k
  refine ⟨?_, decide_eq_true_iff, decide_eq_true_iff⟩
  rw [releasable_eq]
  refine congrArg List.length (List.filter_congr fun p _ => ?_)
  rw [Bool.eq_iff_iff, countsFor_iff, decide_eq_true_iff]

/-- Settles O16: a body outside its encodings is MALFORMED, and one within them writes the service of a record that nothing
else waits on. -/
theorem setDockServiceWritesTheServiceByCentral : Obligations.SetDockServiceWritesTheServiceByCentral := by
  unfold Obligations.SetDockServiceWritesTheServiceByCentral
  intro s tag o h
  refine ⟨fun houtside => ?range, fun p v hpos hservice hstate hdrop hflags => ?done⟩
  case range =>
    exact congrArg Host.Outcome.next
      (takeCommand_of_unfit tag 8 (setDockService call) h (serviceEncoded_of_outside houtside))
  case done =>
    have hencoded : serviceEncoded o = true := by
      rw [serviceEncoded, hpos, posOf_val_add_one, hservice]
      rfl
    have hset := setServiceCentral_of_settled (s := s.timerRestarted) (k := call) (p := p) (v := v)
      (fun hreleasing => by obtain hs | hs := hstate <;> exact absurd (hs.symm.trans hreleasing) (by decide))
      (fun hempty => by obtain hs | hs := hstate <;> exact absurd (hs.symm.trans hempty) (by decide)) hdrop hflags
    have hrun : exec (.setDockService { tag := tag, body := some o }) s =
        .next (commandAnswered tag 8 (setDockService call o s.timerRestarted)) :=
      congrArg Host.Outcome.next (takeCommand_of_fits tag 8 (setDockService call) h hencoded)
    rw [hrun, setDockService_of_named hpos hservice, hset]
    exact congrArg _ (answer_of_room _ h.2.2)

/-- Settles O28: each entry leaves by the test of its own moment. -/
theorem listEntriesLeaveAtTheirMoment : Obligations.ListEntriesLeaveAtTheirMoment := by
  unfold Obligations.ListEntriesLeaveAtTheirMoment
  intro s
  refine ⟨fun before after e h => ?recent, fun before after o h hid => ?order⟩
  case recent =>
    have hrun : exec (.recentReturnExpiry before.length) s = .next (expireRecentAt before.length s) := rfl
    rw [hrun, expireRecentAt_of_place h]
    exact ⟨fun hearly => congrArg _ (if_neg (Nat.not_le.mpr hearly)), fun hmoment => congrArg _ (if_pos hmoment)⟩
  case order =>
    have hrun : exec (.vanOrderExpiry o.id) s = .next (expireOrder o.id s) := rfl
    rw [hrun, expireOrder_of_place h hid]
    exact ⟨fun hearly => congrArg _ (if_neg (Nat.not_le.mpr hearly)), fun hmoment => congrArg _ (if_pos hmoment)⟩

/-- Settles O29: the result is the first of R134's checks that fails, and only an accepted order joins the list. -/
theorem vanOrderJoinsThePendingOrders : Obligations.VanOrderJoinsThePendingOrders := by
  unfold Obligations.VanOrderJoinsThePendingOrders
  intro s tag o h
  rw [exec_vanOrder_of_answers tag o h]
  refine ⟨fun hid => ?range, ?checked⟩
  case range =>
    exact congrArg _ (acceptOrder_of_refused tag o h (orderResult_of_id_zero hid) (by decide) (by decide))
  case checked =>
    intro hid hvan hdc hde hdg hpc hpe hpg hnamed hzero hnodup hfrom htime
    have hrange : orderOutOfRange o = false := by
      simp [orderOutOfRange, hid, hvan, above40_of_le hdc hde hdg, above40_of_le hpc hpe hpg, hnamed, hzero,
        hasTwice_of_nodup hnodup, hfrom]
    refine ⟨fun hexpired => ?expired, fun hopen hvisit hnew => ⟨fun hfull => ?full, ?accepted⟩⟩
    case expired =>
      have hresult : s.timerRestarted.orderResult o = .expired :=
        (orderResult_of_in_range (s := s.timerRestarted) hrange htime).trans (if_pos hexpired)
      exact congrArg _ (acceptOrder_of_refused tag o h hresult (by decide) (by decide))
    all_goals have hresult := orderResult_of_new (s := s.timerRestarted) hrange htime hopen hvisit hnew
    case full =>
      exact congrArg _ (acceptOrder_of_refused tag o h (hresult.trans (if_pos hfull)) (by decide) (by decide))
    case accepted =>
      intro before after hsplit hroom hbefore hafter
      have haccepted := hresult.trans (if_neg (Nat.not_le.mpr hroom))
      have hinsert : orderInsert o s.van.orders = before ++ o :: after := by
        rw [hsplit, orderInsert_split hbefore hafter]
      have htaken : takeOrder o .accepted s.timerRestarted =
          ({ s with van := { s.van with orders := before ++ o :: after } } : State).timerRestarted := by
        rw [← hinsert]
        rfl
      rw [acceptOrder, haccepted, htaken]
      exact congrArg _ (answer_of_room _ h.2.2)

end

section
/-! The journal (R172 to R180): an append while the level stays NORMAL, the records that one JOURNAL DATA carries, and what a
release leaves; with it the moment of an offer (R104) and of a visit (R148). -/

namespace Sys2Proof.Machine

variable {s : State} {k : Kont}

/-! ### The level, and what it tells (R61, R178, R179) -/

theorem tellLevel_of_open {old : Level} (hold : old ≠ .closed) (hnow : s.journal.level ≠ .closed) :
    tellLevel k old s = s := by
  rw [tellLevel, if_neg fun h => hnow h.2, if_neg fun h => hold h.1]

theorem nextLevel_ne_closed {l : Level} {free : Nat} (hl : l ≠ .closed) (hfree : 96 ≤ free) : nextLevel l free ≠ .closed := by
  have hroom := Nat.not_lt.mpr hfree
  cases l with
  | normal => rw [nextLevel, if_neg hroom]; split <;> decide
  | restricted => rw [nextLevel, if_neg hroom]; split <;> decide
  | closed => exact absurd rfl hl

/-- Table 9-2 while the level is not CLOSED and 96 or more places are free. -/
theorem nextLevel_of_open {l : Level} {free : Nat} (hl : l ≠ .closed) (hfree : 96 ≤ free) :
    nextLevel l free =
      if free < 192 then .restricted else if l = .restricted ∧ free < 256 then .restricted else .normal := by
  have hroom := Nat.not_lt.mpr hfree
  cases l with
  | normal => simp [nextLevel, hroom]
  | restricted =>
    rw [nextLevel, if_neg hroom]
    by_cases h : free < 192
    · rw [if_pos h, if_pos (by omega)]
    · simp [h]
  | closed => exact absurd rfl hl

/-- A journal not CLOSED, with 96 or more places free after the move, takes the level of table 9-2 and tells nobody. -/
theorem journalMoves_of_open {j : Journal} (hold : s.journal.level ≠ .closed) (hlevel : j.level = s.journal.level)
    (hfree : 96 ≤ j.free) : journalMoves k j s = s.setJournal j.evaluate := by
  have hnow : (s.setJournal j.evaluate).journal.level ≠ .closed := nextLevel_ne_closed (hlevel ▸ hold) hfree
  exact tellLevel_of_open hold hnow

/-! ### An append that leaves the level NORMAL (R173) -/

/-- The state with one record appended, its level as it was. -/
def State.appended (s : State) (b : JournalBody) : State :=
  { s with
    journal :=
      { s.journal with
        records := s.journal.records ++ [{ seq := s.journal.next, time := s.trunk.time, body := b }]
        next := s.journal.next + 1 } }

theorem append_of_normal (b : JournalBody) (hlevel : s.journal.level = .normal) (hlength : s.journal.records.length < 800)
    (hnext : s.journal.next ≤ 4294967295) : append k b s = s.appended b := by
  have htake : s.journal.canTake = true := by
    rw [Journal.canTake, decide_eq_true (by unfold journalRoom; omega), decide_eq_true (by unfold lastSeq; omega)]
    rfl
  have hadd : s.journal.add s.now b = (s.appended b).journal := if_pos htake
  have hfree : (s.appended b).journal.free = 1023 - s.journal.records.length := by
    simp only [Journal.free, State.appended, journalRoom, List.length_append, List.length_singleton]
    omega
  have hsame : (s.appended b).journal.evaluate = (s.appended b).journal := by
    have hnormal : nextLevel s.journal.level (s.appended b).journal.free = s.journal.level := by
      rw [hfree, hlevel, nextLevel, if_neg (by omega), if_neg (by omega)]
    rw [Journal.evaluate]
    exact congrArg (fun l => { (s.appended b).journal with level := l }) hnormal
  have hopen : s.journal.level ≠ .closed := by rw [hlevel]; decide
  rw [append, hadd, journalMoves_of_open (j := (s.appended b).journal) hopen rfl (by rw [hfree]; omega), hsame]
  rfl

/-! ### The records one JOURNAL DATA carries (R175, R176) -/

/-- The records that fit stand first, within the count and the room, and the next one would break one of the two. -/
theorem fitRecords_spec (l : List JournalRec) (n room : Nat) :
    ∃ rest, l = fitRecords l n room ++ rest ∧ (fitRecords l n room).length ≤ n ∧
      ((fitRecords l n room).map recordBytes).sum ≤ room ∧
      ∀ r ∈ rest.head?, (fitRecords l n room).length < n →
        room < ((fitRecords l n room).map recordBytes).sum + recordBytes r := by
  induction l generalizing n room with
  | nil => exact ⟨[], rfl, Nat.zero_le _, Nat.zero_le _, fun r hr => nomatch hr⟩
  | cons x xs ih =>
    cases n with
    | zero => exact ⟨x :: xs, rfl, Nat.le_refl _, Nat.zero_le _, fun r _ hlt => absurd hlt (Nat.not_lt_zero _)⟩
    | succ n =>
      by_cases hx : recordBytes x ≤ room
      · have hfit : fitRecords (x :: xs) (n + 1) room = x :: fitRecords xs n (room - recordBytes x) := if_pos hx
        obtain ⟨rest, hsplit, hlength, hsum, hmost⟩ := ih n (room - recordBytes x)
        refine ⟨rest, ?_, ?_, ?_, fun r hr hlt => ?_⟩
        · rw [hfit, List.cons_append, ← hsplit]
        · rw [hfit, List.length_cons]
          omega
        · rw [hfit, List.map_cons, List.sum_cons]
          omega
        · rw [hfit, List.length_cons] at hlt
          have := hmost r hr (by omega)
          rw [hfit, List.map_cons, List.sum_cons]
          omega
      · have hfit : fitRecords (x :: xs) (n + 1) room = [] := if_neg hx
        rw [hfit]
        refine ⟨x :: xs, rfl, Nat.zero_le _, Nat.zero_le _, fun r hr _ => ?_⟩
        obtain rfl : x = r := Option.some.inj hr
        simpa using Nat.lt_of_not_le hx

theorem exec_journalCollect_of_answers (tag start n : Nat) (h : s.Answers) :
    exec (.journalCollect { tag := tag, body := some (start, n) }) s =
      .next (s.timerRestarted.withFrame (.journalData (s.journal.data tag (s.journal.collect start n) false))) := by
  refine congrArg Host.Outcome.next ?_
  rw [takeBody_some_of_answers tag (start, n) (rangeData tag) (collectJournal tag) h]
  exact answer_of_room _ h.2.2

theorem exec_journalRelease_of_answers (tag r : Nat) (h : s.Answers) :
    exec (.journalRelease { tag := tag, body := some r }) s = .next (releaseJournal call tag r s.timerRestarted) :=
  congrArg Host.Outcome.next (takeBody_some_of_answers tag r (rangeData tag) (releaseJournal call tag) h)

/-! ### The moment of an offer (R104) -/

theorem saleDeadline_of_offered {d : Drop} {r : SaleRec} (hsale : s.saleOf d = some r) (hoffered : r.state = .offered) :
    saleDeadline k d s = if r.deadline ≤ s.trunk.time then lapse k false r s else s := by
  simp only [saleDeadline, hsale, hoffered, true_and]
  rfl

theorem tellSalesQuiet_of_mode (h : s.trunk.mode ≠ .maintenancePending) : tellSalesQuiet s = s := if_neg fun hc => h hc.1

/-- An offer with a reserved slot and its terms lapses: the slot is freed, SALE LAPSED appended, the record LAPSED. -/
theorem lapse_of_normal {r : SaleRec} {slot : Nat} {o : OfferTerms} (byRestart : Bool) (hslot : r.slot = some slot)
    (hterms : r.terms = some o) (hlevel : s.journal.level = .normal) (hlength : s.journal.records.length < 800)
    (hnext : s.journal.next ≤ 4294967295) (hmode : s.trunk.mode ≠ .maintenancePending) :
    lapse k byRestart r s =
      ((s.erasePass slot).appended (.saleLapsed (r.named o) byRestart)).putSale
        { r with state := .lapsed, slot := none, unanswered := false } := by
  have hfree : freePass r.slot s = s.erasePass slot := congrArg (freePass · s) hslot
  have happend : append k (.saleLapsed (r.named o) byRestart) (s.erasePass slot) = _ :=
    append_of_normal (s := s.erasePass slot) _ hlevel hlength hnext
  have hleave : leaveOffer r .lapsed false ((s.erasePass slot).appended (.saleLapsed (r.named o) byRestart)) = _ :=
    tellSalesQuiet_of_mode hmode
  rw [← hleave, ← happend, ← hfree]
  simp only [lapse, hterms]

/-! ### The moment of a visit (R148, R149, R151) -/

theorem visitCloseTime_of_some {v : Visit} (hvisit : s.van.visit = some v) :
    visitCloseTime k s = if v.closeAt ≤ s.trunk.time then closeVisit k .expired s else s := by
  rw [visitCloseTime, hvisit]
  rfl

theorem removeAll_of_computed
    (hflags : Stock.flags { s.stock with docks := s.stock.docks.map DockRec.unreserved } = s.stock.computed) :
    removeAll s = s.modStock fun st => { st with docks := st.docks.map DockRec.unreserved } := stockDone_of_computed hflags

theorem showVanpoint_of_room {d : Drop} {r : DropRec} (reason : Reason) (hvan : s.vanpoint = some d)
    (hrec : s.dropRec d = some r) (hlost : r.link.isLost = false) (hroom : (s.eng d.seg).queue.length < 24) :
    showVanpoint k reason s = s.enqueued d (.showReason reason) (.discard .van) := by
  rw [showVanpoint, hvan]
  exact submitTo_of_room hrec hlost hroom

/-- A visit closes at its moment: reservations, VAN VISIT, SHOW VISIT CLOSED, and the visit itself, in this order. -/
theorem closeVisit_expired_of_normal {v : Visit} {d : Drop} {r : DropRec} (hvisit : s.van.visit = some v)
    (hflags : Stock.flags { s.stock with docks := s.stock.docks.map DockRec.unreserved } = s.stock.computed)
    (hvan : s.vanpoint = some d) (hrec : s.dropRec d = some r) (hlost : r.link.isLost = false)
    (hroom : (s.eng d.seg).queue.length < 24) (hlevel : s.journal.level = .normal)
    (hlength : s.journal.records.length < 800) (hnext : s.journal.next ≤ 4294967295) :
    closeVisit k .expired s =
      ((((s.modStock fun st => { st with docks := st.docks.map DockRec.unreserved }).appended
        (.vanVisit (visitRecord v s.now .expired))).enqueued d (.showReason .visitClosed) (.discard .van)).setVisit none) := by
  have happend : append k (.vanVisit (visitRecord v s.now .expired))
      (s.modStock fun st => { st with docks := st.docks.map DockRec.unreserved }) = _ :=
    append_of_normal (s := s.modStock fun st => { st with docks := st.docks.map DockRec.unreserved }) _ hlevel hlength hnext
  have hshow : showVanpoint k .visitClosed
      ((s.modStock fun st => { st with docks := st.docks.map DockRec.unreserved }).appended
        (.vanVisit (visitRecord v s.now .expired))) = _ :=
    showVanpoint_of_room (k := k) .visitClosed hvan hrec hlost hroom
  simp only [closeVisit, hvisit, removeAll_of_computed hflags, happend, reduceCtorEq, or_self, if_false, hshow]

end Sys2Proof.Machine

open Sys2Proof Sys2Proof.Machine

/-- Settles O33: the carried list is all that fits from the start on, and the answer leaves the journal alone. -/
theorem journalCollectCarriesRecordsInOrder : Obligations.JournalCollectCarriesRecordsInOrder := by
  unfold Obligations.JournalCollectCarriesRecordsInOrder
  intro s tag start n h
  obtain ⟨rest, hsplit, hlength, hroom, hmost⟩ :=
    fitRecords_spec (s.journal.records.filter fun r => start ≤ r.seq) (clampNat 1 16 n) dataRoom
  exact ⟨s.journal.collect start n, rest, hsplit, hlength, hroom, hmost, exec_journalCollect_of_answers tag start n h⟩

/-- Settles O34: away from CLOSED the level of table 9-2 tells nobody, so the journal alone moves. -/
theorem journalReleaseRemovesRecords : Obligations.JournalReleaseRemovesRecords := by
  unfold Obligations.JournalReleaseRemovesRecords
  intro s tag r j h hopen hrecords hnext hcold hrefused hroom hlevel
  have hfree : (s.journal.released r).free = 1024 - j.records.length := by rw [hrecords]; rfl
  have hmoved : (s.journal.released r).evaluate = j := by
    have hl : nextLevel s.journal.level (s.journal.released r).free = j.level := by
      rw [hfree, nextLevel_of_open hopen (by omega), hlevel]
    cases j
    simp only at hrecords hnext hcold hrefused hl
    simp only [Journal.evaluate, Journal.released, hrecords, hnext, hcold, hrefused, Journal.mk.injEq, true_and, and_true]
    exact hl
  have hmoves : journalMoves call (s.timerRestarted.journal.released r) s.timerRestarted = s.timerRestarted.setJournal j := by
    rw [← hmoved]
    exact journalMoves_of_open (s := s.timerRestarted) (j := s.journal.released r) hopen rfl (by rw [hfree]; omega)
  have hdata : ({ s with journal := j } : State).journal.data tag [] false =
      { toJournalShown :=
          { tag := tag, held := j.range, next := j.next, level := j.level, coldStart := false, records := [], range := false }
        body :=
          journalHead
            { tag := tag, held := j.range, next := j.next, level := j.level, coldStart := false, records := []
              range := false } } := by
    simp only [Journal.data, journalBody, hcold, List.flatMap_nil, List.append_nil]
  rw [exec_journalRelease_of_answers tag r h, releaseJournal, hmoves]
  refine congrArg Host.Outcome.next ?_
  exact (answer_of_room (s := s.timerRestarted.setJournal j) _ h.2.2).trans
    (congrArg (fun d => ({ s with journal := j } : State).timerRestarted.withFrame (.journalData d)) hdata)

/-- Settles O25: the offer's moment decides, and with room in the journal the lapse is the three changes of R104. -/
theorem saleDeadlineLapsesTheOffer : Obligations.SaleDeadlineLapsesTheOffer := by
  unfold Obligations.SaleDeadlineLapsesTheOffer
  intro s r hsale hoffered
  have hrun : exec (.saleDeadline r.terminal) s = .next (if r.deadline ≤ s.trunk.time then lapse call false r s else s) :=
    congrArg Host.Outcome.next (saleDeadline_of_offered hsale hoffered)
  rw [hrun]
  refine ⟨fun hearly => congrArg _ (if_neg (Nat.not_le.mpr hearly)), ?reached⟩
  intro slot o hreached hslot hterms hlevel hlength hnext hmode
  rw [if_pos hreached, lapse_of_normal false hslot hterms hlevel hlength hnext hmode]
  rfl

/-- Settles O30: the visit's moment decides, and with room for its record and its command the closing is R149's in order. -/
theorem visitClosesAtItsCloseTime : Obligations.VisitClosesAtItsCloseTime := by
  unfold Obligations.VisitClosesAtItsCloseTime
  intro s v hvisit
  have hrun : exec .visitCloseTime s = .next (if v.closeAt ≤ s.trunk.time then closeVisit call .expired s else s) :=
    congrArg Host.Outcome.next (visitCloseTime_of_some hvisit)
  rw [hrun]
  refine ⟨fun hearly => congrArg _ (if_neg (Nat.not_le.mpr hearly)), ?reached⟩
  intro st d r hreached hst hflags hvan hrec hfree hheld hroom hlevel hlength hnext
  subst hst
  rw [if_pos hreached, closeVisit_expired_of_normal hvisit hflags hvan hrec (isLost_eq_false hfree hheld) hroom hlevel
    hlength hnext]
  obtain ⟨g, a⟩ := d
  cases g <;> rfl

end

section
/-! The Fault Unit: CLEAR FAULT (R168) and a FAULT POLICY load (R156, R157). -/

namespace Sys2Proof.Machine

variable {s : State} {k : Kont}

/-! ### A matter taken whole while no raise waits (R154, R158) -/

theorem modFault_eq_self {f : FaultUnit → FaultUnit} (h : f s.fault = s.fault) : s.modFault f = s := by
  rw [State.modFault, h]

/-- A matter that leads to a state like `u`, but for the busy mark, leads to `u` when no raise waits. -/
theorem faultTakes_of_idle {f : State → State} {u : State}
    (hf : f (s.modFault fun x => { x with busy := true }) = u.modFault fun x => { x with busy := true })
    (hbusy : u.fault.busy = false) (hwaiting : u.fault.waiting = []) : faultTakes k f s = u := by
  have hwait : (u.modFault fun x => { x with busy := true }).fault.waiting = [] := hwaiting
  have hdone : (u.modFault fun x => { x with busy := true }).modFault (fun x => { x with busy := false }) = u :=
    modFault_eq_self (f := fun x => { x with busy := false }) (by rw [← hbusy])
  rw [faultTakes, hf, faultDone]
  simp only [hwait]
  exact hdone

/-! ### CLEAR FAULT (R168) -/

theorem find_id_eq_none {id : Nat} {l : List FaultRec} (h : ∀ f ∈ l, f.id ≠ id) : (l.find? fun f => f.id == id) = none :=
  List.find?_eq_none.mpr fun f hf => by simpa using h f hf

theorem find_id_split {id : Nat} {before after : List FaultRec} {f : FaultRec} (hid : f.id = id)
    (hbefore : ∀ g ∈ before, g.id ≠ id) : ((before ++ f :: after).find? fun f => f.id == id) = some f := by
  rw [List.find?_append, find_id_eq_none hbefore, Option.none_or, List.find?_cons_of_pos (by simpa using hid)]

theorem logMap_of_absent {id : Nat} {g : FaultRec → FaultRec} {l : List FaultRec} (h : ∀ f ∈ l, f.id ≠ id) :
    logMap id g l = l := (List.map_congr_left fun f hf => if_neg (h f hf)).trans l.map_id'

theorem logMap_split {id : Nat} {g : FaultRec → FaultRec} {before after : List FaultRec} {f : FaultRec} (hid : f.id = id)
    (hother : ∀ x ∈ before ++ after, x.id ≠ id) : logMap id g (before ++ f :: after) = before ++ g f :: after := by
  have hbefore := logMap_of_absent (g := g) fun x hx => hother x (List.mem_append_left _ hx)
  have hafter := logMap_of_absent (g := g) fun x hx => hother x (List.mem_append_right _ hx)
  unfold logMap at hbefore hafter ⊢
  rw [List.map_append, List.map_cons, hbefore, hafter, if_pos hid]

theorem lift_of_terminal (d : Drop) (code : Fin 48) : lift k (.terminal d) code s = s := ite_self s

/-- A record against a terminal is cleared and touches nothing else. -/
theorem clearRecord_of_terminal {d : Drop} {f : FaultRec} (reason : FaultState) (h : f.subject = .terminal d) :
    clearRecord k reason f s =
      s.modFault fun u => { u with log := logMap f.id (fun f => { f with state := reason }) u.log } := by
  rw [clearRecord, h]
  exact lift_of_terminal d f.code

theorem clearFault_of_unknown {id : Nat} (hid : id ≠ 0) (h : ∀ f ∈ s.fault.log, f.id ≠ id) :
    clearFault k id s = (.unknown, s) := by
  rw [clearFault, if_neg hid, find_id_eq_none h]

theorem clearFault_of_found {id : Nat} {f : FaultRec} (hid : id ≠ 0)
    (h : (s.fault.log.find? fun f => f.id == id) = some f) :
    clearFault k id s =
      if f.uncleared then (.cleared, faultTakes k (clearRecord k .clearedByCentral f) s) else (.alreadyCleared, s) := by
  rw [clearFault, if_neg hid, h]

theorem uncleared_of_open {f : FaultRec} (h : f.state = .opened ∨ f.state = .notified) : f.uncleared = true := by
  rw [FaultRec.uncleared]
  obtain h | h := h <;> rw [h] <;> rfl

theorem uncleared_of_cleared {f : FaultRec} (h : f.state = .clearedByCentral ∨ f.state = .clearedByRemoval) :
    f.uncleared = false := by
  rw [FaultRec.uncleared]
  obtain h | h := h <;> rw [h] <;> rfl

theorem exec_clearFault_of_answers (tag id : Nat) (h : s.Answers) :
    exec (.clearFault { tag := tag, body := some id }) s =
      .next (commandAnswered tag 7 (clearFault call id s.timerRestarted)) :=
  congrArg Host.Outcome.next (takeCommand_some_of_answers tag 7 id (clearFault call) h)

/-! ### FAULT POLICY (R156, R157) -/

theorem actionsFit_iff (x : SubjectKind) (a : FaultActions) :
    actionsFit x a = true ↔
      (x = .dock → a.quarantine = false) ∧ (x = .bike → a.noRelease = false ∧ a.outOfService = false) ∧
        (x = .terminal → a = ⟨false, false, false, false⟩) := by
  obtain ⟨q, n, o, c⟩ := a
  cases x <;> simp [actionsFit, and_assoc]

/-- The state with the policy entry of a code replaced. -/
def State.withPolicy (s : State) (c : Fin 48) (p : PolicyEntry) : State :=
  s.modFault fun u => { u with policy := u.policy.set c p }

theorem loadPolicy_of_fits {e : FaultPolicyEntry} {c : Fin 48} {v : Severity} {a : FaultActions} (hcode : e.code = c.val)
    (hsubject : e.subject = some (subjectOf c.val)) (hbase : e.base = some v) (hactions : e.actions = some a)
    (hone : e.threshold ≠ 1) (hmost : e.threshold ≤ 255) (hfit : actionsFit (subjectOf c.val) a = true) :
    loadPolicy e s =
      (none, s.withPolicy c { base := v, threshold := e.threshold, actions := a }) := by
  obtain ⟨code, subject, base, threshold, actions⟩ := e
  obtain rfl : code = c.val := hcode
  obtain rfl : subject = _ := hsubject
  obtain rfl : base = _ := hbase
  obtain rfl : actions = _ := hactions
  rw [loadPolicy, dif_pos c.isLt]
  exact if_pos ⟨rfl, hone, hmost, hfit⟩

/-- An entry that loads is in range: its code, its subject kind, its threshold, and its actions. -/
theorem loadPolicy_of_range {e : FaultPolicyEntry}
    (h : ∀ x v a, e.code < 48 → e.subject = some x → e.base = some v → e.actions = some a →
      ¬(x = subjectOf e.code ∧ e.threshold ≠ 1 ∧ e.threshold ≤ 255 ∧ actionsFit x a = true)) :
    loadPolicy e s = (some .range, s) := by
  unfold loadPolicy
  split
  next hcode =>
    split
    next x v a hsubject hbase hactions => exact if_neg (h x v a hcode hsubject hbase hactions)
    next => rfl
  next => rfl

theorem serviceOf_of_empty {u : FaultUnit} (h : u.log = []) (p : DockPos) : u.serviceOf p = .inService := by
  rw [FaultUnit.serviceOf, h]
  rfl

theorem quarantined_of_empty {u : FaultUnit} (h : u.log = []) (b : Nat) : u.quarantined b = false := by
  rw [FaultUnit.quarantined, h]
  rfl

theorem noCharge_of_empty {u : FaultUnit} (h : u.log = []) (x : Subject) : u.noCharge x = false := by
  rw [FaultUnit.noCharge, h]
  rfl

theorem bikeNoCharge_of_empty {u : FaultUnit} (h : u.log = []) (p : DockPos) : s.bikeNoCharge u p = false := by
  unfold State.bikeNoCharge
  split
  · rfl
  · exact noCharge_of_empty h _

/-- No record, no matter under way, and every service by faults IN SERVICE. -/
structure State.FaultsQuiet (s : State) : Prop where
  log : s.fault.log = []
  busy : s.fault.busy = false
  waiting : s.fault.waiting = []
  service : ∀ p, (s.dock p).svcFaults = .inService

/-- With no record in the log and every service by faults IN SERVICE, a new policy gives nobody anything else. -/
theorem policyApplied_of_empty {before : FaultUnit} (hbefore : before.log = []) (hlog : s.fault.log = [])
    (hservice : ∀ p, (s.dock p).svcFaults = .inService) : policyApplied k before s = s := by
  have hagain : ∀ p, serviceAgain k p s = s := fun p => if_pos (by rw [serviceOf_of_empty hlog, hservice])
  have hbike : ∀ p, policyBike k before s p = s := fun p => by
    unfold policyBike
    split
    · rfl
    · rw [quarantined_of_empty hbefore, quarantined_of_empty hlog]
  have hcharge : ∀ p, policyCharge k before s p = s := fun p => if_neg <| by
    simp only [noCharge_of_empty hbefore, noCharge_of_empty hlog, bikeNoCharge_of_empty hbefore,
      bikeNoCharge_of_empty hlog, ne_eq, not_true_eq_false, or_self, not_false_eq_true]
  rw [policyApplied, List.foldl_fixed' (f := fun t p => serviceAgain k p t) hagain, List.foldl_fixed' hbike,
    List.foldl_fixed' hcharge]

section

variable {tag first : Nat} {e : FaultPolicyEntry} (h : s.FaultsQuiet)

include h

theorem policyOwner_of_applied {c : Fin 48} {p : PolicyEntry} (hload : ∀ t, loadPolicy e t = (none, t.withPolicy c p)) :
    policyOwner k { tag := tag, first := first, body := some [e] } [e] s =
      (loadReply tag 3 first 1 1 .done none [], s.withPolicy c p) := by
  have hrun : ∀ t, takeEntries loadPolicy [e] first (LoadRun.start t) = ⟨1, none, t.withPolicy c p⟩ := fun t => by
    simp only [takeEntries, LoadRun.take, LoadRun.start, hload]
  have htakes : faultTakes k
      (fun t => policyApplied k s.fault (takeEntries loadPolicy [e] first (LoadRun.start t)).state) s =
        s.withPolicy c p := by
    refine faultTakes_of_idle ?_ h.busy h.waiting
    rw [hrun]
    exact policyApplied_of_empty h.log h.log h.service
  rw [policyOwner, hrun, htakes]
  rfl

theorem policyOwner_of_refused (hload : ∀ t, loadPolicy e t = (some .range, t)) :
    policyOwner k { tag := tag, first := first, body := some [e] } [e] s =
      (loadReply tag 3 first 1 0 .partly (some (first, .range)) [], s) := by
  have hrun : ∀ t, takeEntries loadPolicy [e] first (LoadRun.start t) = ⟨0, some (first, .range), t⟩ := fun t => by
    simp only [takeEntries, LoadRun.take, LoadRun.start, hload, Option.orElse_none]
  have htakes : faultTakes k
      (fun t => policyApplied k s.fault (takeEntries loadPolicy [e] first (LoadRun.start t)).state) s = s := by
    refine faultTakes_of_idle ?_ h.busy h.waiting
    rw [hrun]
    exact policyApplied_of_empty h.log h.log h.service
  rw [policyOwner, hrun, htakes]
  rfl

end

end Sys2Proof.Machine

open Sys2Proof Sys2Proof.Machine

/-- Settles O31: the id decides which record is meant; one against a terminal has no effects to lift. -/
theorem clearFaultClearsTheRecord : Obligations.ClearFaultClearsTheRecord := by
  unfold Obligations.ClearFaultClearsTheRecord
  intro s tag id h
  rw [exec_clearFault_of_answers tag id h]
  have hunchanged := fun r => commandAnswered_unchanged (s := s) tag 7 r h
  refine ⟨fun hid => ?range, fun hid habsent => ?unknown, fun before after f hid hlog hf hother => ?found⟩
  case range => rw [clearFault, if_pos hid, hunchanged]
  case unknown => rw [clearFault_of_unknown (s := s.timerRestarted) hid habsent, hunchanged]
  case found =>
    have hfind : (s.timerRestarted.fault.log.find? fun g => g.id == id) = some f :=
      (congrArg (List.find? fun g => g.id == id) hlog).trans
        (find_id_split hf fun g hg => hother g (List.mem_append_left _ hg))
    rw [clearFault_of_found hid hfind]
    refine ⟨fun hcleared => ?already, fun d hopen hsubject hbusy hwaiting => ?cleared⟩
    case already => rw [uncleared_of_cleared hcleared, if_neg (by decide), hunchanged]
    case cleared =>
      have hmap : logMap f.id (fun g => { g with state := .clearedByCentral }) s.fault.log =
          before ++ { f with state := .clearedByCentral } :: after := by
        rw [hlog]
        exact logMap_split rfl fun g hg => hf ▸ hother g hg
      have htakes : faultTakes call (clearRecord call .clearedByCentral f) s.timerRestarted =
          ({ s with fault := { s.fault with log := before ++ { f with state := .clearedByCentral } :: after } } :
            State).timerRestarted := by
        rw [← hmap]
        exact faultTakes_of_idle (clearRecord_of_terminal _ hsubject) hbusy hwaiting
      rw [uncleared_of_open hopen, if_pos rfl, htakes]
      exact congrArg _ (answer_of_room _ h.2.2)

/-- Settles O32: the entry's own checks decide, and a policy without records to take against it changes nothing else. -/
theorem faultPolicyLoadReplacesTheEntry : Obligations.FaultPolicyLoadReplacesTheEntry := by
  unfold Obligations.FaultPolicyLoadReplacesTheEntry
  intro s tag first e h hmode hlog hbusy hwaiting hservice
  have hquiet : s.timerRestarted.FaultsQuiet := ⟨hlog, hbusy, hwaiting, hservice⟩
  have hrun : exec (.faultPolicyLoad { tag := tag, first := first, body := some [e] }) s = .next _ :=
    congrArg Host.Outcome.next (takeLoad_of_answers (id := .faultPolicy) _ h fun _ => hmode)
  rw [hrun]
  refine ⟨fun hrange => ?range, fun c v a hcode hsubject hbase hactions hone hmost hdock hbike hterminal => ?fits⟩
  case range =>
    have hload : ∀ t, loadPolicy e t = (some .range, t) := fun t => loadPolicy_of_range fun x v a hcode hx hv ha hall => by
      obtain ⟨rfl, hone, hmost, hfit⟩ := hall
      obtain ⟨hdock, hbike, hterminal⟩ := (actionsFit_iff _ _).mp hfit
      obtain hr | hr | hr | hr | hr | hr | ⟨b, hb, hr⟩ := hrange
      · exact absurd hcode (Nat.not_lt.mpr hr)
      · exact hr hx
      · exact absurd (hv.symm.trans hr) (by simp)
      · exact hone hr
      · exact absurd hmost (Nat.not_le.mpr hr)
      · exact absurd (ha.symm.trans hr) (by simp)
      · obtain rfl : a = b := Option.some.inj (ha.symm.trans hb)
        obtain ⟨hkind, hq⟩ | ⟨hkind, hn⟩ | ⟨hkind, ha⟩ := hr
        · exact absurd (hdock hkind) (by simp [hq])
        · obtain ⟨hrelease, hout⟩ := hbike hkind
          simp [hrelease, hout] at hn
        · exact ha (hterminal hkind)
    rw [policyOwner_of_refused hquiet hload]
    exact congrArg _ (answer_timerRestarted _ h)
  case fits =>
    have hload : ∀ t, loadPolicy e t = (none, t.withPolicy c { base := v, threshold := e.threshold, actions := a }) :=
      fun t => loadPolicy_of_fits hcode hsubject hbase hactions hone hmost
        ((actionsFit_iff _ _).mpr ⟨hdock, hbike, hterminal⟩)
    rw [policyOwner_of_applied hquiet hload]
    exact congrArg _ (answer_of_room _ h.2.2)

end

section
/-! A remote release that is granted (R91), and a DROP TABLE entry that makes a dock (R1, R2, R36). -/

namespace Sys2Proof.Machine

variable {s : State} {k : Kont} {p : DockPos}

/-! ### The Stock Unit's part of a grant (R39) -/

theorem beginRefusal_of_fit {b : Bike} (hstate : (s.dock p).state = .occupied) (hservice : (s.dock p).service = .inService)
    (hbike : (s.dock p).bike = some b) (hhold : b.hold = .none) (hpickup : b.pickup = false) :
    s.beginRefusal p .remote = none := by
  simp [State.beginRefusal, hstate, hservice, hbike, hhold, hpickup]

theorem leaveLists_of_notCharging (h : (s.dock p).charge = .notCharging) : leaveLists k p s = s := by rw [leaveLists, h]

/-- At a dock in neither charge list, and while no flag changes, the beginning of a release is the record's state alone. -/
theorem beginRelease_of_notCharging (hcharge : (s.dock p).charge = .notCharging)
    (hflags : (s.setDock p { s.dock p with state := .releasing }).stock.flags = s.stock.computed) :
    beginRelease k p s = s.setDock p { s.dock p with state := .releasing } := by
  have hsame : leaveLists k p (s.setDock p { s.dock p with state := .releasing }) = _ :=
    leaveLists_of_notCharging (by rw [State.setDock_dock]; exact hcharge)
  rw [beginRelease, State.modDock, hsame]
  exact stockDone_of_computed hflags

/-! ### The grant (R77, R83, R84, R91) -/

theorem remoteRefusal_of_fit {n : Nat} {m : Medium} {b : Bike} (hmode : s.trunk.mode = .service)
    (hlevel : s.journal.level = .normal) (htime : s.trunk.timeValid = true) (hstate : (s.dock p).state = .occupied)
    (hservice : (s.dock p).service = .inService) (hbike : (s.dock p).bike = some b) (hhold : b.hold = .none)
    (hpickup : b.pickup = false) (hflight : s.inFlight n m = false) : s.remoteRefusal p n m = none := by
  simp only [State.remoteRefusal, stationRefusal_of_open hmode hlevel htime, presenceRefusal_of_occupied hstate,
    fitnessRefusal_of_fit hservice hbike hhold hpickup, hflight, Bool.false_eq_true, if_false]

theorem remoteGrant_of_no_card {n : Nat} (hcard : s.card n = none) (hconnected : s.trunk.connected = true) :
    s.remoteGrant n .member =
      { kind := .remote, number := n, medium := .member, cls := s.trunk.settings.strangerClass
        flags := { stranger := false, referred := false, islanded := false, remote := true }, provisional := false } := by
  simp only [State.remoteGrant, State.classFor, hcard, State.flagsFor, hconnected, Bool.not_true]

theorem remoteRelease_of_granted {n : Nat} {b : Bike} (hn : n ≠ 0) (hrefusal : s.remoteRefusal p n .member = none)
    (hbegin : s.beginRefusal p .remote = none) (hbike : (s.dock p).bike = some b) :
    remoteRelease k { pos := p.val + 1, number := n, medium := 0 } s =
      (.accepted, grantAt k p b (s.remoteGrant n .member) s) := by
  have hgrant : grantRelease k p (s.remoteGrant n .member) s = (none, grantAt k p b (s.remoteGrant n .member) s) := by
    have hkind : (s.remoteGrant n .member).kind = .remote := rfl
    rw [grantRelease, hkind, hbegin, hbike]
  have hmedium : mediumOf 0 = some .member := rfl
  simp only [remoteRelease, posOf_val_add_one, hmedium, hn, if_false, hrefusal, hgrant]

/-- The state of a grant before its UNLOCK: the record RELEASING and the release record. -/
def State.granted (s : State) (p : DockPos) (b : Bike) (g : Grant) : State :=
  (s.setDock p { s.dock p with state := .releasing }).newRelease
    (s.releaseFor p b g.kind g.number g.medium g.flags (some (s.tokenFor g)) 0)

/-- A grant at an ACTIVE dock with room in its queue: the record RELEASING, the release record, and UNLOCK queued. -/
theorem grantAt_of_active {b : Bike} {g : Grant} {d : Drop} {x : DropRec} (hcharge : (s.dock p).charge = .notCharging)
    (hflags : (s.setDock p { s.dock p with state := .releasing }).stock.flags = s.stock.computed)
    (hprovisional : g.provisional = false) (hdrop : s.dropAt p = some d) (hrec : s.dropRec d = some x)
    (hactive : x.link = .free .active) (hroom : (s.eng d.seg).queue.length < 24) :
    grantAt k p b g s =
      (s.granted p b g).enqueued d (.unlockHire s.trunk.settings.takeWindow (s.tokenFor g))
        (.unlock s.hire.nextRelease) := by
  simp only [grantAt, beginRelease_of_notCharging hcharge hflags, hprovisional, Bool.false_eq_true, if_false]
  exact submitAt_of_active hdrop hrec hactive hroom

/-! ### A new entry in the drop table (R2) -/

theorem addrOf_val_add_one (a : Fin 32) : addrOf (a.val + 1) = some a := by
  rw [addrOf, dif_pos (by omega)]
  rfl

theorem entryRefusal_of_unheld {d : Drop} (h : ∀ c : Drop, s.entryOf c ≠ .dock p) : s.entryRefusal d (.dock p) = none := by
  have hnone : s.entriesElsewhere d (.dock p) = 0 := by
    rw [State.entriesElsewhere, List.countP_eq_zero]
    intro c _
    simp [h c]
  rw [State.entryRefusal, hnone]
  rfl

theorem loadDrop_of_dock {g : Segment} {a : Fin 32} (hpresent : g = .B → s.trunk.segB ≠ false)
    (h : ∀ c : Drop, s.entryOf c ≠ .dock p) :
    loadDrop k { seg := g, addr := a.val + 1, kind := some .dock, pos := p.val + 1 } s =
      (none, changeEntry k ⟨g, a⟩ (.dock p) s) := by
  have hasked : entryAsked { seg := g, addr := a.val + 1, kind := some .dock, pos := p.val + 1 } = some (.dock p) := by
    rw [entryAsked, posOf_val_add_one]
    rfl
  simp only [loadDrop, addrOf_val_add_one, hasked, entryRefusal_of_unheld h, if_neg (h ⟨g, a⟩)]
  exact if_neg fun hb => hpresent hb.1 hb.2

theorem modEng_eq_self {g : Segment} {f : Engine → Engine} (h : f (s.eng g) = s.eng g) : s.modEng g f = s := by
  cases g <;> exact (congrArg (s.setEng _) h).trans rfl

theorem flush_of_empty {g : Segment} (gone : QueueEntry → Bool) (h : (s.eng g).queue = []) : flush k g gone s = s := by
  have hsame : (s.modEng g fun e => { e with queue := e.queue.filter fun x => !gone x }) = s :=
    modEng_eq_self (f := fun e => { e with queue := e.queue.filter fun x => !gone x }) (by rw [h, List.filter_nil, ← h])
  rw [flush, hsame, h]
  rfl

theorem countsFor_of_not_occupied {d : DockRec} (h : d.state ≠ .occupied) (k : BikeKind) : d.countsFor k = false :=
  Bool.eq_false_iff.mpr fun hcount => h ((countsFor_iff d k).mp hcount).1

/-- A record replaced by one that counts as much leaves the flags as they were. -/
theorem setDock_flags (p : DockPos) (d : DockRec) (h : ∀ k, d.countsFor k = (s.dock p).countsFor k) :
    (s.setDock p d).stock.flags = s.stock.flags := by
  have hset : s.setDock p d = s.modDock p fun x => if x = s.dock p then d else x := by rw [State.modDock, if_pos rfl]
  rw [hset]
  refine modDock_flags p _ fun x k => ?_
  split
  next hx => rw [h k, hx]
  next => rfl

theorem dockTaken_of_unused (hstate : (s.dock p).state = .unused) (hbike : (s.dock p).bike = none)
    (hflags : s.stock.flags = s.stock.computed) : dockTaken p s = s.setDock p { s.dock p with state := .unknown } := by
  have hrecord : s.modDock p (fun d => { d with state := .unknown, bike := none }) =
      s.setDock p { s.dock p with state := .unknown } := by rw [State.modDock, ← hbike]
  have hcounts : ∀ k, ({ s.dock p with state := .unknown } : DockRec).countsFor k = (s.dock p).countsFor k := fun k => by
    rw [countsFor_of_not_occupied (by simp), countsFor_of_not_occupied (by rw [hstate]; simp)]
  rw [dockTaken, hrecord]
  exact stockDone_of_computed ((setDock_flags p _ hcounts).trans hflags)

/-- The state with a dock's entry and the record of its drop at an address of segment A, and its position UNKNOWN. -/
def State.dockAdded (s : State) (a : Fin 32) (p : DockPos) : State :=
  { s.setDock p { s.dock p with state := .unknown } with
    engA := { s.engA with entries := s.engA.entries.set a (.dock p), drops := s.engA.drops.set a (some newDrop) } }

theorem withEntry_recorded {e : Engine} (a : Fin 32) (hmode : e.mode ≠ .holding) (hexchange : e.exchange = none) :
    { e.withEntry a (.dock p) with drops := e.drops.set a ((e.withEntry a (.dock p)).recordFor (.dock p)) } =
      { e with entries := e.entries.set a (.dock p), drops := e.drops.set a (some newDrop) } := by
  have hrecord : (e.withEntry a (.dock p)).recordFor (.dock p) = some newDrop := by
    simp [Engine.recordFor, Engine.withEntry, hmode, newDrop]
  rw [hrecord, Engine.withEntry, hexchange]
  rfl

/-- A dock whose entry is new: what its engine had at the address is told to nobody. -/
theorem changeEntry_of_new_dock {a : Fin 32} (hnone : s.engA.entries[a] = .none) (hqueue : s.engA.queue = [])
    (hmode : s.engA.mode ≠ .holding) (hexchange : s.engA.exchange = none) (hstate : (s.dock p).state = .unused)
    (hbike : (s.dock p).bike = none) (hflags : s.stock.flags = s.stock.computed) :
    changeEntry k ⟨.A, a⟩ (.dock p) s = s.dockAdded a p := by
  have hold : s.entryOf ⟨.A, a⟩ = .none := hnone
  have hflush : flush k .A (fun y => y.addr == a) (s.modEng .A fun e => e.withEntry a (.dock p)) = _ :=
    flush_of_empty _ hqueue
  have htaken : dockTaken p
      ((s.modEng .A fun e => e.withEntry a (.dock p)).modEng .A fun e =>
        { e with drops := e.drops.set a (e.recordFor (.dock p)) }) = _ := dockTaken_of_unused hstate hbike hflags
  rw [changeEntry, hold, hflush]
  refine htaken.trans ?_
  rw [State.dockAdded, ← withEntry_recorded a hmode hexchange]
  rfl

/-! ### The engines after a load (R1) -/

theorem pollList_of_entry {e : Engine} {a : Fin 32} (h : e.entries[a] ≠ .none) : e.pollList.isEmpty = false := by
  have hmem : a ∈ e.pollList := List.mem_filter.mpr ⟨List.mem_finRange a, by simpa using h⟩
  exact List.isEmpty_eq_false_iff.mpr (List.ne_nil_of_mem hmem)

theorem pollList_of_none {e : Engine} (h : ∀ a : Fin 32, e.entries[a] = .none) : e.pollList = [] :=
  List.filter_eq_nil_iff.mpr fun a _ => by simp [h a]

theorem engineAfterLoad_of_stopped {g : Segment} (hmode : (s.eng g).mode = .stopped)
    (hpoll : (s.eng g).pollList.isEmpty = false) :
    engineAfterLoad g s = s.modEng g fun e => { e with mode := .waiting, due := 0 } := by
  simp only [engineAfterLoad, hmode, hpoll, reduceCtorEq, if_false, Bool.false_eq_true, if_true]

theorem engineAfterLoad_of_no_entry {g : Segment} (hmode : (s.eng g).mode = .stopped) (hpoll : (s.eng g).pollList = []) :
    engineAfterLoad g s = s := by
  have hsame : (s.modEng g fun e => { e with mode := .stopped }) = s :=
    modEng_eq_self (f := fun e => { e with mode := .stopped }) (by rw [← hmode])
  simp only [engineAfterLoad, hmode, hpoll, reduceCtorEq, List.isEmpty_nil, if_true, hsame, ite_self]

end Sys2Proof.Machine

open Sys2Proof Sys2Proof.Machine

/-- Settles O24: nothing refuses the release, and the grant's steps touch the record, the releases and one queue. -/
theorem remoteReleaseIsGranted : Obligations.RemoteReleaseIsGranted := by
  unfold Obligations.RemoteReleaseIsGranted
  intro s tag number p b d x h hmode hlevel htime hstate hservice hbike hhold hpickup hcharge _ _ hnumber hflight hcard hflags
    hdrop hrec hactive hroom
  have hencoded : releaseEncoded { pos := p.val + 1, number := number, medium := 0 } = true := by
    rw [releaseEncoded, posOf_val_add_one]
    rfl
  have hrun : exec (.release { tag := tag, body := some { pos := p.val + 1, number := number, medium := 0 } }) s =
      .next (commandAnswered tag 5
        (remoteRelease call { pos := p.val + 1, number := number, medium := 0 } s.timerRestarted)) :=
    congrArg Host.Outcome.next (takeCommand_of_fits tag 5 (remoteRelease call) h hencoded)
  have hgranted := remoteRelease_of_granted (s := s.timerRestarted) (k := call) hnumber
    (remoteRefusal_of_fit hmode hlevel htime hstate hservice hbike hhold hpickup hflight)
    (beginRefusal_of_fit hstate hservice hbike hhold hpickup) hbike
  have hgrant : s.timerRestarted.remoteGrant number .member = _ := remoteGrant_of_no_card hcard h.1
  rw [hrun, hgranted, hgrant, grantAt_of_active (s := s.timerRestarted) hcharge hflags rfl hdrop hrec hactive hroom]
  exact congrArg _ (commandAnswered_enqueued (s := s.granted p b _) tag 5 .accepted d _ _ h.2.2)

/-- Settles O40: the entry conflicts with none, and its engine, STOPPED until now, waits for its first sweep. -/
theorem dropTableLoadMakesADock : Obligations.DropTableLoadMakesADock := by
  unfold Obligations.DropTableLoadMakesADock
  intro s tag first a p h hmode hunheld hnone hstopped hqueue hexchange hentriesB hstoppedB hstate hbike hflags
  have hload := loadDrop_of_dock (s := s.timerRestarted) (k := call) (g := .A) (a := a) (fun hb => nomatch hb) hunheld
  have hholding : s.engA.mode ≠ .holding := by rw [hstopped]; decide
  rw [changeEntry_of_new_dock (s := s.timerRestarted) hnone hqueue hholding hexchange hstate hbike hflags] at hload
  refine congrArg Host.Outcome.next (takeLoad_of_applied (id := .dropTable) h (fun _ => hmode) hload ?after rfl)
  case after =>
    have hpoll : (s.engA.entries.set a (.dock p))[a] ≠ .none := by simp
    have hengA : engineAfterLoad .A (s.timerRestarted.dockAdded a p) = _ :=
      engineAfterLoad_of_stopped hstopped (pollList_of_entry (a := a) hpoll)
    rw [afterDropTable, hengA]
    exact engineAfterLoad_of_no_entry hstoppedB (pollList_of_none hentriesB)

end

section
/-! The Segment Engines: holds (R20, R21), the start of a sweep (R4, R5), the end of a poll exchange (R3, R9, R11), and what
follows the last exchange of a sweep (R4, R7, R8). -/

namespace Sys2Proof.Machine

variable {s : State} {g : Segment} {e : Engine} {k : Kont}

/-! ### Rules of an engine replaced -/

@[simp] theorem State.modEng_setEng (f : Engine → Engine) : (s.setEng g e).modEng g f = s.setEng g (f e) := by
  cases g <;> rfl

theorem begin_setEng (a : Fin 32) (w : ExchangeFor) (bytes : List Byte) :
    begin_ g a w bytes (s.setEng g e) =
      s.setEng g
        { e with
          exchange :=
            some { addr := a, purpose := w, window := s.trunk.settings.replyWindow, sent := bytes, changed := false } } := by
  cases g <;> rfl

/-! ### The lowest address with a property -/

theorem find_addresses_of_lowest {q : Fin 32 → Bool} {a : Fin 32} (ha : q a = true) (hlower : ∀ b, b < a → q b = false) :
    addresses.find? q = some a := find_finRange_of_first ha hlower

/-! ### Hold (R20, R21) -/

theorem present_iff : s.present g = true ↔ g = .A ∨ s.trunk.segB = true := by
  cases g <;> simp [State.present]

theorem holdAssert_eq :
    holdAssert g s =
      s.setEng g
        (if (g = .A ∨ s.trunk.segB = true) ∧ (s.eng g).exchange = none ∧ (s.eng g).mode ≠ .holding then
          { s.eng g with
            holdLine := true, mode := .holding, holdAck := true, exchange := none
            drops := (s.eng g).drops.map fun x => x.map fun r => { r with link := r.link.hold } }
        else { s.eng g with holdLine := true }) := by
  by_cases h : (g = .A ∨ s.trunk.segB = true) ∧ (s.eng g).exchange = none ∧ (s.eng g).mode ≠ .holding
  · rw [if_pos h]
    rw [← present_iff] at h
    exact (if_pos h).trans (State.modEng_setEng _)
  · rw [if_neg h]
    rw [← present_iff] at h
    exact if_neg h

/-- A queue of which nothing goes is left as it was. -/
theorem flush_of_kept {gone : QueueEntry → Bool} (h : ∀ x ∈ (s.eng g).queue, gone x = false) : flush k g gone s = s := by
  have hgone : (s.eng g).queue.filter gone = [] := List.filter_eq_nil_iff.mpr fun x hx => ne_true_of_eq_false (h x hx)
  have hstay : ((s.eng g).queue.filter fun x => !gone x) = (s.eng g).queue :=
    List.filter_eq_self.mpr fun x hx => by rw [h x hx]; rfl
  have hsame : (s.modEng g fun e => { e with queue := e.queue.filter fun x => !gone x }) = s :=
    modEng_eq_self (f := fun e => { e with queue := e.queue.filter fun x => !gone x }) (by rw [hstay])
  rw [flush, hsame, hgone]
  rfl

theorem stale_eq_false {x : QueueEntry} (h : x.cmd.cls = .unlock → s.trunk.time ≤ x.time + s.trunk.settings.takeWindow) :
    s.stale x = false := by
  rw [State.stale]
  by_cases hcls : x.cmd.cls = .unlock
  · have hfresh : ¬x.time + s.trunk.settings.takeWindow < s.now := Nat.not_lt.mpr (h hcls)
    rw [decide_eq_false hfresh, Bool.and_false]
  · rw [beq_false_of_ne hcls, Bool.false_and]

theorem holdRelease_of_not_holding (h : (s.eng g).mode ≠ .holding) :
    holdRelease k g s = s.setEng g { s.eng g with holdLine := false } := if_neg h

/-- At the end of a hold, with no stale command queued, the engine drops its acknowledge and takes up its poll list. -/
theorem holdRelease_of_fresh (hmode : (s.eng g).mode = .holding)
    (hfresh : ∀ x ∈ (s.eng g).queue, x.cmd.cls = .unlock → s.trunk.time ≤ x.time + s.trunk.settings.takeWindow) :
    holdRelease k g s = enterRound g (s.setEng g { s.eng g with holdLine := false, holdAck := false }) := by
  have hstale : (s.setEng g { s.eng g with holdLine := false }).stale = s.stale := by cases g <;> rfl
  have hacked : (s.setEng g { s.eng g with holdLine := false }).modEng g (fun e => { e with holdAck := false }) =
      s.setEng g { s.eng g with holdLine := false, holdAck := false } := State.modEng_setEng _
  have hflush : flush k g s.stale (s.setEng g { s.eng g with holdLine := false, holdAck := false }) = _ :=
    flush_of_kept fun x hx => stale_eq_false (hfresh x (by rwa [State.setEng_eng] at hx))
  rw [holdRelease, if_pos hmode]
  simp only [State.modEng] at hacked ⊢
  rw [hacked, hstale, hflush]

theorem pollList_isEmpty_of_none (h : ∀ a : Fin 32, e.entries[a] = .none) : e.pollList.isEmpty = true := by
  rw [pollList_of_none h]
  rfl

theorem enterRound_of_no_entry (h : ∀ a : Fin 32, e.entries[a] = .none) :
    enterRound g (s.setEng g e) = s.setEng g { e with mode := .stopped } := by
  have hempty : ((s.setEng g e).eng g).pollList.isEmpty = true := by
    rw [State.setEng_eng]
    exact pollList_isEmpty_of_none h
  rw [enterRound, if_pos hempty, State.modEng_setEng]

/-- The lowest address of a poll list comes first in a round that begins. -/
theorem find_pollList_of_lowest {q : Fin 32 → Bool} {a : Fin 32} (ha : e.entries[a] ≠ .none) (hq : q a = true)
    (hlower : ∀ b : Fin 32, b < a → e.entries[b] = .none) : e.pollList.find? q = some a := by
  rw [Engine.pollList, List.find?_filter]
  refine find_addresses_of_lowest (by simpa [hq] using ha) fun b hb => ?_
  simp [hlower b hb]

theorem enterRound_of_lowest {a : Fin 32} (ha : e.entries[a] ≠ .none)
    (hlower : ∀ b : Fin 32, b < a → e.entries[b] = .none) :
    enterRound g (s.setEng g e) =
      s.setEng g
        { e with
          mode := .resyncRound, cursor := a.val + 1
          drops := e.drops.map fun x => x.map fun r => { r with link := r.link.unhold, resyncDue := true }
          exchange :=
            some
              { addr := a, purpose := .resyncRound, window := s.trunk.settings.replyWindow, sent := resyncBytes a
                changed := false } } := by
  have hpoll : ¬((s.setEng g e).eng g).pollList.isEmpty = true := by
    rw [State.setEng_eng, pollList_of_entry ha]
    decide
  have hfind := find_pollList_of_lowest (e := e) (q := fun b => decide (0 ≤ b.val)) ha (by simp) hlower
  rw [enterRound, if_neg hpoll, State.modEng_setEng, resyncRound, State.setEng_eng]
  have hround : Engine.pollList
      { e with
        mode := .resyncRound, cursor := 0
        drops := e.drops.map fun x => x.map fun r => { r with link := r.link.unhold, resyncDue := true } } = e.pollList := rfl
  simp only [hround, hfind, State.modEng_setEng, sendResync]
  exact begin_setEng a _ _

/-! ### The walk (R5) -/

theorem visits_of_none {a : Fin 32} (h : e.entries[a] = .none) : e.visits a = .passed := by rw [Engine.visits, h]

theorem visits_of_poll {a : Fin 32} {r : DropRec} (hentry : e.entries[a] ≠ .none) (hdrop : e.drops[a] = some r)
    (hlink : r.link = .free .new ∨ r.link = .free .active) (hdue : r.resyncDue = false) : e.visits a = .poll := by
  unfold Engine.visits
  split
  next hnone => exact absurd hnone hentry
  next hnone _ => exact absurd (hdrop.symm.trans hnone) (by simp)
  next q hq _ =>
    obtain rfl : r = q := Option.some.inj (hdrop.symm.trans hq)
    obtain hlink | hlink := hlink <;> simp [hlink, hdue]

theorem nextInSweep_of_lowest {a : Fin 32} (hcursor : e.cursor ≤ a.val) (ha : e.visits a ≠ .passed)
    (hlower : ∀ b : Fin 32, b < a → e.entries[b] = .none) : e.nextInSweep = some a := by
  refine find_addresses_of_lowest (by simpa [hcursor] using ha) fun b hb => ?_
  rw [visits_of_none (hlower b hb)]
  exact Bool.and_false _

theorem nextInSweep_of_last {a : Fin 32} (hcursor : e.cursor = a.val + 1)
    (hlater : ∀ b : Fin 32, a < b → e.entries[b] = .none) : e.nextInSweep = none := by
  refine List.find?_eq_none.mpr fun b _ => ?_
  by_cases hb : a < b
  · rw [visits_of_none (hlater b hb)]
    simp
  · have : ¬e.cursor ≤ b.val := by rw [hcursor]; omega
    simp [this]

theorem walk_of_poll {m : Nat} {a : Fin 32} {r : DropRec} (hnext : e.nextInSweep = some a) (hvisit : e.visits a = .poll)
    (hdrop : e.drops[a] = some r) :
    walk g m (s.setEng g e) =
      s.setEng g
        { e with
          cursor := a.val + 1
          exchange :=
            some
              { addr := a, purpose := .poll false, window := s.trunk.settings.replyWindow
                sent := pollBytes a r.lastEvent, changed := false } } := by
  have hlast : Engine.lastEventAt { e with cursor := a.val + 1 } a = r.lastEvent := by rw [Engine.lastEventAt, hdrop]
  simp only [walk, State.setEng_eng, hnext, hvisit, reduceCtorEq, if_false, State.modEng_setEng, sendPoll, hlast]
  exact begin_setEng a _ _

/-- An engine at the start of a sweep. -/
def Engine.sweepBegun (e : Engine) (m : Nat) : Engine :=
  { e with mode := .sweeping, sweep := nextSweep e.sweep, sweepStart := m, cursor := 0 }

theorem sweepStart_of_not_due {now : Nat} (h : ¬((s.eng g).mode = .waiting ∧ (s.eng g).due ≤ max s.elapsed now)) :
    sweepStart g now s = { s with elapsed := max s.elapsed now } := by
  cases g <;> exact if_neg h

theorem sweepStart_of_due {now : Nat} (hmode : (s.eng g).mode = .waiting) (hdue : (s.eng g).due ≤ max s.elapsed now) :
    sweepStart g now s =
      walk g (max s.elapsed now)
        (({ s with elapsed := max s.elapsed now } : State).setEng g ((s.eng g).sweepBegun (max s.elapsed now))) := by
  cases g <;> exact if_pos ⟨hmode, hdue⟩

/-! ### After the last exchange of a sweep (R4, R7, R8) -/

/-- An engine with nothing left to do in its sweep: no hold asked, nothing queued, no address after the cursor's. -/
structure Engine.SweepDone (e : Engine) (a : Fin 32) : Prop where
  line : e.holdLine = false
  queue : e.queue = []
  cursor : e.cursor = a.val + 1
  entry : e.entries[a] ≠ .none
  later : ∀ b : Fin 32, a < b → e.entries[b] = .none

/-- The engine in WAITING, after a tail gap that ended at once. -/
def Engine.swept (e : Engine) (interval : Nat) : Engine :=
  { e with
    mode := .waiting, gapSent := 0, gapEnd := e.pollEnd, due := max (e.sweepStart + interval) e.pollEnd }

theorem pick_of_empty (cs : List CmdClass) (h : e.queue = []) : e.pick cs = none := by
  refine List.findSome?_eq_none_iff.mpr fun c _ => ?_
  rw [Engine.oldest, h]
  rfl

theorem walk_of_done {a : Fin 32} (m : Nat) (h : e.SweepDone a) :
    walk g m (s.setEng g e) = s.setEng g (e.swept s.trunk.settings.sweepInterval) := by
  have hpick : Engine.pick { e with mode := .tailGap, gapSent := 0 } gapClasses = none := pick_of_empty gapClasses h.queue
  simp only [walk, State.setEng_eng, nextInSweep_of_last h.cursor h.later, State.modEng_setEng, tailGap, hpick, ite_self,
    if_true, endGap]
  cases g <;> rfl

theorem slot_of_done {a : Fin 32} (m : Nat) (h : e.SweepDone a) :
    slot g m (s.setEng g e) = s.setEng g (e.swept s.trunk.settings.sweepInterval) := by
  rw [slot, State.setEng_eng, pick_of_empty slotClasses h.queue]
  exact walk_of_done m h

/-- After the last exchange of a sweep, the command slot and the walk both lead to WAITING. -/
theorem goOn_of_done {a : Fin 32} {n : Next} (m : Nat) (h : e.SweepDone a) (hn : n = .slot ∨ n = .walk) :
    goOn g m n (s.setEng g e) = s.setEng g (e.swept s.trunk.settings.sweepInterval) := by
  have hpoll : ¬e.pollList.isEmpty = true := by
    rw [pollList_of_entry h.entry]
    decide
  unfold goOn
  rw [State.setEng_eng, if_neg (by rw [h.line]; decide), if_neg hpoll]
  obtain rfl | rfl := hn
  · exact slot_of_done m h
  · exact walk_of_done m h

/-! ### A miss (R3, R11) -/

/-- A miss after a POLL, fewer than two before it: the miss count alone. -/
theorem miss_of_poll {x : Exchange} {r : DropRec} (hpurpose : x.purpose = .poll false ∨ x.purpose = .poll true)
    (hdrop : e.drops[x.addr] = some r) (hlink : r.link = .free .new ∨ r.link = .free .active) (hfew : r.misses < 2) :
    miss k g x (s.setEng g e) =
      s.setEng g { e with drops := e.drops.set x.addr (some { r with misses := r.misses + 1 }) } := by
  have hgive : ∀ t, giveOutcome k x.purpose .noReply t = t := fun t => by
    obtain hp | hp := hpurpose <;> rw [hp] <;> rfl
  have hcount : (s.setEng g e).modDrop g x.addr (fun r => { r with misses := r.misses + 1 }) =
      s.setEng g { e with drops := e.drops.set x.addr (some { r with misses := r.misses + 1 }) } := by
    simp only [State.modDrop, State.modEng_setEng, Engine.modDrop, hdrop, Option.map_some]
  obtain hlink | hlink := hlink <;>
    simp only [miss, State.setEng_eng, hdrop, hlink, Nat.not_le.mpr hfew, if_false, hcount, hgive]

/-- An engine whose poll exchange has ended without a reply. -/
def Engine.unanswered (e : Engine) (m : Nat) : Engine :=
  { e with exchange := none, pollEnd := m, errors := e.errors.count .noReply }

theorem windowExpired_of_poll {x : Exchange} {now : Nat} (hexchange : (s.eng g).exchange = some x)
    (hpurpose : x.purpose = .poll false ∨ x.purpose = .poll true) :
    windowExpired k g now s =
      goOn g (max s.elapsed now) .slot
        (miss k g x
          (({ s with elapsed := max s.elapsed now } : State).setEng g ((s.eng g).unanswered (max s.elapsed now)))) := by
  have hchanged : x.endsChanged = false := by
    obtain hp | hp := hpurpose <;> rw [Exchange.endsChanged, hp] <;> exact Bool.and_false _
  have hafter : nextAfter x.purpose = .slot := by obtain hp | hp := hpurpose <;> rw [hp] <;> rfl
  have hsweep : x.purpose.inSweep = true := by obtain hp | hp := hpurpose <;> rw [hp] <;> rfl
  cases g <;>
    simp only [windowExpired, State.eng] at hexchange ⊢ <;>
    simp only [hexchange, hchanged, Bool.false_eq_true, if_false, missed, hafter, exchangeEnds, hsweep, if_true] <;> rfl

end Sys2Proof.Machine

open Sys2Proof Sys2Proof.Machine

/-- Settles O4: the line is set first, and HOLDING is entered where nothing stands in the way. -/
theorem holdAssertEntersHolding : Obligations.HoldAssertEntersHolding := by
  unfold Obligations.HoldAssertEntersHolding
  intro g s
  exact congrArg Host.Outcome.next holdAssert_eq

/-- Settles O5: with nothing stale to flush the engine takes up its poll list, from the lowest address on. -/
theorem holdReleaseBeginsResyncRound : Obligations.HoldReleaseBeginsResyncRound := by
  unfold Obligations.HoldReleaseBeginsResyncRound
  intro g s
  refine ⟨fun hmode => congrArg Host.Outcome.next (holdRelease_of_not_holding hmode), fun hmode hfresh => ?holding⟩
  have hrun : exec (.holdRelease g) s = .next _ := congrArg Host.Outcome.next (holdRelease_of_fresh hmode hfresh)
  rw [hrun]
  refine ⟨fun hnone => congrArg _ (enterRound_of_no_entry hnone), fun a ha hlower => ?round⟩
  exact congrArg _ (enterRound_of_lowest ha hlower)

/-- Settles O6: the sweep that starts finds the lowest address first, and polls it. -/
theorem sweepStartPollsTheLowestDrop : Obligations.SweepStartPollsTheLowestDrop := by
  unfold Obligations.SweepStartPollsTheLowestDrop
  intro g now s
  refine ⟨fun hearly => congrArg Host.Outcome.next (sweepStart_of_not_due hearly), ?due⟩
  intro a r hmode hdue hlower ha hdrop hlink hresync
  have hvisit : ((s.eng g).sweepBegun (max s.elapsed now)).visits a = .poll := visits_of_poll ha hdrop hlink hresync
  have hnext : ((s.eng g).sweepBegun (max s.elapsed now)).nextInSweep = some a :=
    nextInSweep_of_lowest (Nat.zero_le a.val) (by rw [hvisit]; decide) hlower
  have hrun : exec (.sweepStart g now) s = .next _ := congrArg Host.Outcome.next (sweepStart_of_due hmode hdue)
  rw [hrun]
  exact congrArg _ (walk_of_poll hnext hvisit hdrop)

/-- Settles O7: with no exchange in progress both commands only carry the elapsed count. -/
theorem nothingHappensWithNoReplyWindowOpen : Obligations.NothingHappensWithNoReplyWindowOpen := by
  unfold Obligations.NothingHappensWithNoReplyWindowOpen
  intro g now f s h
  have hframe : exec (.dockBusFrameReceived g now f) s = .next (frameReceived call g now f s) := rfl
  have hwindow : exec (.replyWindowExpired g now) s = .next (windowExpired call g now s) := rfl
  rw [hframe, hwindow]
  cases g <;> simp only [State.eng] at h <;> simp only [frameReceived, windowExpired, State.eng, h, and_self]

/-- Settles O8: the expiry is a miss of the drop addressed, and the sweep has nothing left to do. -/
theorem replyWindowExpiryIsAMiss : Obligations.ReplyWindowExpiryIsAMiss := by
  unfold Obligations.ReplyWindowExpiryIsAMiss
  intro g now s x r hexchange hpurpose hdrop hlink hfew hline hqueue hcursor hentry hlater
  have hrun : exec (.replyWindowExpired g now) s = .next _ :=
    congrArg Host.Outcome.next (windowExpired_of_poll hexchange hpurpose)
  have hmiss := miss_of_poll (k := call) (s := { s with elapsed := max s.elapsed now }) (g := g)
    (e := (s.eng g).unanswered (max s.elapsed now)) hpurpose hdrop hlink hfew
  rw [hrun, hmiss]
  refine congrArg _ ((goOn_of_done (a := x.addr) (max s.elapsed now) ?done (.inl rfl)).trans ?waiting)
  case done => exact ⟨hline, hqueue, hcursor, hentry, hlater⟩
  case waiting => cases g <;> rfl

end

section
/-! The header check of the dock bus (11.1, table 11-1): syndrome and parity are linear over the exclusive-or, so that what a
header with bits inverted comes to is what those bits alone come to. -/

namespace Sys2Proof.Machine

/-! ### Syndrome and parity are linear -/

/-- The positions of the ones of a word, among some bits, put together. -/
def syndromeOver (l : List Nat) (h : BitVec 24) (a : Nat) : Nat :=
  l.foldl (fun a i => if h.getLsbD i then a ^^^ codePosition i else a) a

/-- Whether the ones of a word, among some bits, are odd in number. -/
def oddOver (l : List Nat) (h : BitVec 24) (a : Bool) : Bool :=
  l.foldl (fun a i => if 3 ≤ i ∧ h.getLsbD i then !a else a) a

theorem syndromeOver_xor (l : List Nat) (h e : BitVec 24) (a b : Nat) :
    syndromeOver l (h ^^^ e) (a ^^^ b) = syndromeOver l h a ^^^ syndromeOver l e b := by
  induction l generalizing a b with
  | nil => rfl
  | cons i l ih =>
    have hstep : (if (h ^^^ e).getLsbD i then a ^^^ b ^^^ codePosition i else a ^^^ b) =
        (if h.getLsbD i then a ^^^ codePosition i else a) ^^^ (if e.getLsbD i then b ^^^ codePosition i else b) := by
      rw [BitVec.getLsbD_xor]
      cases h.getLsbD i <;> cases e.getLsbD i <;> simp [Nat.xor_assoc, Nat.xor_comm, Nat.xor_left_comm]
    exact (congrArg (syndromeOver l (h ^^^ e)) hstep).trans (ih _ _)

theorem oddOver_xor (l : List Nat) (h e : BitVec 24) (a b : Bool) :
    oddOver l (h ^^^ e) (a ^^ b) = (oddOver l h a ^^ oddOver l e b) := by
  induction l generalizing a b with
  | nil => rfl
  | cons i l ih =>
    have hstep : (if 3 ≤ i ∧ (h ^^^ e).getLsbD i then !(a ^^ b) else (a ^^ b)) =
        ((if 3 ≤ i ∧ h.getLsbD i then !a else a) ^^ (if 3 ≤ i ∧ e.getLsbD i then !b else b)) := by
      rw [BitVec.getLsbD_xor]
      by_cases hi : 3 ≤ i <;> cases h.getLsbD i <;> cases e.getLsbD i <;> simp [hi]
    exact (congrArg (oddOver l (h ^^^ e)) hstep).trans (ih _ _)

theorem headerSyndrome_xor (h e : BitVec 24) : headerSyndrome (h ^^^ e) = headerSyndrome h ^^^ headerSyndrome e :=
  syndromeOver_xor (List.range 24) h e 0 0

theorem headerOdd_xor (h e : BitVec 24) : headerOdd (h ^^^ e) = (headerOdd h ^^ headerOdd e) :=
  oddOver_xor (List.range 24) h e false false

/-! ### One bit inverted -/

theorem headerSyndrome_bit : ∀ i : Fin 24, headerSyndrome (1#24 <<< i.val) = codePosition i.val := by decide

theorem headerOdd_bit : ∀ i : Fin 24, 3 ≤ i.val → headerOdd (1#24 <<< i.val) = true := by decide

theorem headerSyndrome_flipBit (h : BitVec 24) {i : Nat} (hi : i < 24) :
    headerSyndrome (flipBit h i) = headerSyndrome h ^^^ codePosition i := by
  rw [flipBit, headerSyndrome_xor, headerSyndrome_bit ⟨i, hi⟩]

theorem headerOdd_flipBit (h : BitVec 24) {i : Nat} (hlow : 3 ≤ i) (hi : i < 24) :
    headerOdd (flipBit h i) = !headerOdd h := by
  rw [flipBit, headerOdd_xor, headerOdd_bit ⟨i, hi⟩ hlow, Bool.xor_true]

theorem flipBit_flipBit (h : BitVec 24) (i : Nat) : flipBit (flipBit h i) i = h := by
  rw [flipBit, flipBit, BitVec.xor_assoc, BitVec.xor_self, BitVec.xor_zero]

/-! ### The check (table 1-6) -/

theorem headerCheck_of_clean {h : BitVec 24} (hodd : headerOdd h = false) (hsyn : headerSyndrome h = 0) :
    headerCheck h = .clean := by
  simp only [headerCheck, hodd, hsyn, Bool.false_eq_true, if_false, if_true]

theorem parts_of_clean {h : BitVec 24} (hclean : headerCheck h = .clean) :
    headerOdd h = false ∧ headerSyndrome h = 0 := by
  simp only [headerCheck] at hclean
  split at hclean
  next =>
    split at hclean
    · exact absurd hclean (by simp)
    · split at hclean <;> exact absurd hclean (by simp)
  next hodd =>
    split at hclean
    next hsyn => exact ⟨Bool.eq_false_iff.mpr hodd, hsyn⟩
    next => exact absurd hclean (by simp)

/-- The positions of bits 4 to 23 are not 0, and each is one bit's alone. -/
theorem find_codePosition : ∀ i : Fin 24, 4 ≤ i.val → codePosition i.val ≠ 0 ∧
    (List.range 24).find? (fun j => 4 ≤ j && codePosition j == codePosition i.val) = some i.val := by decide

theorem codePosition_injective : ∀ i j : Fin 24, 3 ≤ i.val → i < j → codePosition i.val ≠ codePosition j.val := by decide

theorem headerCheck_of_one {h : BitVec 24} {i : Nat} (hodd : headerOdd h = true) (hsyn : headerSyndrome h = codePosition i)
    (hlow : 3 ≤ i) (hi : i < 24) : headerCheck h = .corrected (flipBit h i) := by
  obtain rfl | hfour : i = 3 ∨ 4 ≤ i := by omega
  · have hzero : headerSyndrome h = 0 := hsyn
    simp only [headerCheck, hodd, hzero, if_true]
  · obtain ⟨hne, hfind⟩ := find_codePosition ⟨i, hi⟩ hfour
    simp only at hne hfind
    simp only [headerCheck, hodd, hsyn, hne, if_true, if_false, hfind]

theorem headerCheck_of_even {h : BitVec 24} (hodd : headerOdd h = false) (hsyn : headerSyndrome h ≠ 0) :
    headerCheck h = .uncorrectable := by
  simp only [headerCheck, hodd, hsyn, Bool.false_eq_true, if_false]

/-! ### The header that the block makes -/

theorem codePosition_lt : ∀ i : Fin 24, codePosition i.val < 2 ^ 5 := by decide

theorem headerSyndrome_lt (h : BitVec 24) : headerSyndrome h < 2 ^ 5 := by
  have hover : ∀ (l : List Nat) (a : Nat), (∀ i ∈ l, i < 24) → a < 2 ^ 5 → syndromeOver l h a < 2 ^ 5 := by
    intro l
    induction l with
    | nil => exact fun a _ ha => ha
    | cons i l ih =>
      intro a hl ha
      have hstep : (if h.getLsbD i then a ^^^ codePosition i else a) < 2 ^ 5 := by
        split
        · exact Nat.xor_lt_two_pow ha (codePosition_lt ⟨i, hl i List.mem_cons_self⟩)
        · exact ha
      exact ih _ (fun j hj => hl j (List.mem_cons_of_mem _ hj)) hstep
  exact hover (List.range 24) 0 (fun i hi => List.mem_range.mp hi) (by decide)

/-- The position bits 4 to 8 hold their own syndrome. -/
theorem headerSyndrome_positionBits : ∀ n : Fin 32, headerSyndrome (BitVec.ofNat 24 (n.val * 16)) = n.val := by decide

/-- The fields of a header, before its position bits and its parity bit. -/
def headerData (a : Fin 32) (kind length : Nat) : BitVec 24 :=
  BitVec.ofNat 24 (a.val * 2 ^ 19 + kind * 2 ^ 15 + length * 2 ^ 9)

/-- A header with its position bits, before its parity bit. -/
def headerPlaced (a : Fin 32) (kind length : Nat) : BitVec 24 :=
  headerData a kind length ||| BitVec.ofNat 24 (headerSyndrome (headerData a kind length) * 16)

theorem makeHeader_eq (a : Fin 32) (kind length : Nat) :
    makeHeader a kind length =
      if headerOdd (headerPlaced a kind length) then flipBit (headerPlaced a kind length) 3
      else headerPlaced a kind length := rfl

section

variable {a : Fin 32} {kind length : Nat} (hkind : kind < 16) (hlength : length < 64)

include hkind hlength

theorem headerData_toNat :
    (headerData a kind length).toNat = (a.val * 2 ^ 10 + kind * 2 ^ 6 + length) * 2 ^ 9 := by
  rw [headerData, BitVec.toNat_ofNat]
  omega

/-- Fields and position bits stand apart. -/
theorem headerPlaced_eq_xor :
    headerPlaced a kind length =
      headerData a kind length ^^^ BitVec.ofNat 24 (headerSyndrome (headerData a kind length) * 16) := by
  have hsyn := headerSyndrome_lt (headerData a kind length)
  have hdata : (headerData a kind length).toNat = 2 ^ 9 * (a.val * 2 ^ 10 + kind * 2 ^ 6 + length) := by
    rw [headerData_toNat hkind hlength, Nat.mul_comm]
  refine BitVec.eq_of_getLsbD_eq fun i hi => ?_
  rw [headerPlaced, BitVec.getLsbD_or, BitVec.getLsbD_xor]
  by_cases hlow : i < 9
  · have hzero : (headerData a kind length).getLsbD i = false := by
      rw [BitVec.getLsbD, hdata, Nat.testBit_two_pow_mul]
      simp [hlow]
    rw [hzero, Bool.false_or, Bool.false_xor]
  · have hzero : (BitVec.ofNat 24 (headerSyndrome (headerData a kind length) * 16)).getLsbD i = false := by
      rw [BitVec.getLsbD_ofNat, Nat.testBit_lt_two_pow, Bool.and_false]
      calc headerSyndrome (headerData a kind length) * 16 < 2 ^ 9 := by omega
        _ ≤ 2 ^ i := Nat.pow_le_pow_right (by decide) (by omega)
    rw [hzero, Bool.or_false, Bool.xor_false]

theorem headerSyndrome_placed : headerSyndrome (headerPlaced a kind length) = 0 := by
  have hsyn := headerSyndrome_lt (headerData a kind length)
  rw [headerPlaced_eq_xor hkind hlength, headerSyndrome_xor,
    headerSyndrome_positionBits ⟨headerSyndrome (headerData a kind length), hsyn⟩, Nat.xor_self]

theorem headerCheck_makeHeader : headerCheck (makeHeader a kind length) = .clean := by
  have hsyn := headerSyndrome_placed (a := a) hkind hlength
  rw [makeHeader_eq]
  split
  next hodd =>
    refine headerCheck_of_clean ?_ ?_
    · rw [headerOdd_flipBit _ (by decide) (by decide), hodd, Bool.not_true]
    · rw [headerSyndrome_flipBit _ (by decide), hsyn]
      rfl
  next hodd => exact headerCheck_of_clean (Bool.eq_false_iff.mpr hodd) hsyn

/-- The fields stand above bit 8, where neither the position bits nor the parity bit reaches. -/
theorem makeHeader_fields : (makeHeader a kind length).toNat / 2 ^ 9 = a.val * 2 ^ 10 + kind * 2 ^ 6 + length := by
  have hsyn := headerSyndrome_lt (headerData a kind length)
  have hplaced : (headerPlaced a kind length).toNat / 2 ^ 9 = a.val * 2 ^ 10 + kind * 2 ^ 6 + length := by
    have hlow : headerSyndrome (headerData a kind length) * 16 % 2 ^ 24 / 2 ^ 9 = 0 := by omega
    rw [headerPlaced, BitVec.toNat_or, BitVec.toNat_ofNat, Nat.or_div_two_pow, hlow, headerData_toNat hkind hlength,
      Nat.mul_div_cancel _ (by decide), Nat.or_zero]
  rw [makeHeader_eq]
  split
  next =>
    have hbit : (1#24 <<< 3).toNat / 2 ^ 9 = 0 := by decide
    rw [flipBit, BitVec.toNat_xor, Nat.xor_div_two_pow, hbit, hplaced, Nat.xor_zero]
  next => exact hplaced

theorem headerAddr_makeHeader : headerAddr (makeHeader a kind length) = a.val := by
  have hfields := makeHeader_fields (a := a) hkind hlength
  rw [headerAddr]
  omega

theorem headerKind_makeHeader : headerKind (makeHeader a kind length) = kind := by
  have hfields := makeHeader_fields (a := a) hkind hlength
  rw [headerKind]
  omega

theorem headerLength_makeHeader : headerLength (makeHeader a kind length) = length := by
  have hfields := makeHeader_fields (a := a) hkind hlength
  rw [headerLength]
  omega

end

end Sys2Proof.Machine

open Sys2Proof Sys2Proof.Machine

/-- Settles O10: one bit inverted leaves an odd word whose syndrome is that bit's position; two leave an even one whose
syndrome is not 0, as no two positions are the same. -/
theorem headerCheckCorrectsOneBitAndDetectsTwo : Obligations.HeaderCheckCorrectsOneBitAndDetectsTwo := by
  unfold Obligations.HeaderCheckCorrectsOneBitAndDetectsTwo
  refine ⟨fun a kind length hkind hlength => ?made, fun h hclean => ?inverted⟩
  case made =>
    exact ⟨headerCheck_makeHeader hkind hlength, headerAddr_makeHeader hkind hlength, headerKind_makeHeader hkind hlength,
      headerLength_makeHeader hkind hlength⟩
  case inverted =>
    obtain ⟨hodd, hsyn⟩ := parts_of_clean hclean
    refine ⟨fun i hlow hi => ?one, fun i j hlow hij hj => ?two⟩
    case one =>
      have hcheck := headerCheck_of_one (h := flipBit h i) (i := i) (by rw [headerOdd_flipBit h hlow hi, hodd]; rfl)
        (by rw [headerSyndrome_flipBit h hi, hsyn, Nat.zero_xor]) hlow hi
      rw [hcheck, flipBit_flipBit]
    case two =>
      have hi : i < 24 := hij.trans hj
      refine headerCheck_of_even ?_ ?_
      · rw [headerOdd_flipBit _ (by omega) hj, headerOdd_flipBit h hlow hi, hodd]
        rfl
      · rw [headerSyndrome_flipBit _ hj, headerSyndrome_flipBit h hi, hsyn, Nat.zero_xor]
        exact fun hzero => codePosition_injective ⟨i, hi⟩ ⟨j, hj⟩ hlow hij (Nat.xor_eq_zero_iff.mp hzero)

end

section
/-! A good reply that ends the last exchange of a sweep (R9, R10, R12 to R14): the frame is checked, its reply taken, and the
engine enters WAITING. -/

namespace Sys2Proof.Machine

variable {s : State} {g : Segment} {e : Engine} {k : Kont} {x : Exchange} {r : DropRec}

/-! ### A drop record replaced -/

/-- An engine with the record of one drop replaced. -/
def Engine.withDrop (e : Engine) (a : Fin 32) (q : DropRec) : Engine := { e with drops := e.drops.set a (some q) }

theorem withDrop_drops (e : Engine) (a : Fin 32) (q : DropRec) : (e.withDrop a q).drops[a] = some q := by
  simp [Engine.withDrop]

theorem withDrop_withDrop (e : Engine) (a : Fin 32) (q q' : DropRec) :
    (e.withDrop a q).withDrop a q' = e.withDrop a q' := by
  simp [Engine.withDrop]

theorem modDrop_setEng {a : Fin 32} (f : DropRec → DropRec) (h : e.drops[a] = some r) :
    (s.setEng g e).modDrop g a f = s.setEng g (e.withDrop a (f r)) := by
  rw [State.modDrop, State.modEng_setEng, Engine.modDrop, h]
  rfl

theorem modDrop_withDrop (a : Fin 32) (q : DropRec) (f : DropRec → DropRec) :
    (s.setEng g (e.withDrop a q)).modDrop g a f = s.setEng g (e.withDrop a (f q)) := by
  rw [modDrop_setEng f (withDrop_drops e a q), withDrop_withDrop]

/-! ### The checks of a frame whose header the block could have made (R10) -/

theorem checkFrame_of_made {d : Option DropKind} {kind length : Nat} {f : BusFrame} (hkind : kind < 16)
    (hlength : length ≤ 40) (hheader : f.header = makeHeader x.addr kind length) (hpayload : f.payload.length = length)
    (hcrc : f.crc = crc16 (headerBytes f.header ++ f.payload)) :
    checkFrame d x f = ⟨false, readReply d x.purpose kind f.payload⟩ := by
  have hfits : length < 64 := by omega
  have hbody : checkBody d x f.header f = readReply d x.purpose kind f.payload := by
    unfold checkBody
    rw [if_neg, if_neg, if_neg, hheader, headerKind_makeHeader hkind hfits]
    · rw [hheader, headerAddr_makeHeader hkind hfits]
      exact fun hne => hne rfl
    · rw [← hcrc, hheader, headerLength_makeHeader hkind hfits]
      exact fun hbad => hbad.elim (fun hne => hne hpayload) fun hne => hne rfl
    · rw [hheader, headerLength_makeHeader hkind hfits]
      exact Nat.not_lt.mpr hlength
  have hclean : headerCheck f.header = .clean := by rw [hheader, headerCheck_makeHeader hkind hfits]
  simp only [checkFrame, hclean, hbody]

/-! ### The end of the exchange, and what follows it (R4, R6, R9) -/

/-- An engine whose exchange has ended at a moment. -/
def Engine.ended (e : Engine) (x : Exchange) (m : Nat) : Engine :=
  { e with exchange := none, pollEnd := if x.purpose.inSweep then m else e.pollEnd }

/-- The purposes of an exchange that asks for a reply of the drop and carries no queued command. -/
def ExchangeFor.asks (w : ExchangeFor) : Prop := (w = .poll false ∨ w = .poll true) ∨ w = .resyncPoll ∨ w = .resyncSlot

theorem endsChanged_of_asks (h : x.purpose.asks) : x.endsChanged = false := by
  obtain (h | h) | h | h := h <;> rw [Exchange.endsChanged, h] <;> exact Bool.and_false _

/-- A reply with pending count 0 is followed by the command slot, or by the walk. -/
theorem nextAfterReply_of_asks {y : Reply} (h : x.purpose.asks) (hwaiting : y.waiting = 0) :
    nextAfterReply x y = .slot ∨ nextAfterReply x y = .walk := by
  unfold nextAfterReply
  obtain (h | h) | h | h := h <;> rw [h]
  · exact .inl (if_pos hwaiting)
  · exact .inl rfl
  · exact .inl rfl
  · exact .inr rfl

theorem goodReply_of_active {y : Reply} (hdrop : (s.eng g).drops[x.addr] = some r) (hactive : r.link = .free .active) :
    goodReply k g x y s = (nextAfterReply x y, takeReply k g x r y s) := by
  simp only [goodReply, hdrop, hactive]

theorem frameReceived_of_asks {now : Nat} {f : BusFrame} (hexchange : (s.eng g).exchange = some x)
    (hasks : x.purpose.asks) :
    frameReceived k g now f s =
      frameEnds k g (max s.elapsed now) x f
        (({ s with elapsed := max s.elapsed now } : State).setEng g ((s.eng g).ended x (max s.elapsed now))) := by
  have hchanged := endsChanged_of_asks hasks
  cases g <;> simp only [State.eng] at hexchange <;>
    simp only [frameReceived, State.eng, hexchange, hchanged, Bool.false_eq_true, if_false] <;> rfl

theorem frameEnds_of_good {m : Nat} {f : BusFrame} {y : Reply}
    (hcheck : checkFrame (s.entryOf ⟨g, x.addr⟩).kind x f = ⟨false, .ok y⟩) (hdrop : (s.eng g).drops[x.addr] = some r)
    (hactive : r.link = .free .active) :
    frameEnds k g m x f s = goOn g m (nextAfterReply x y) (takeReply k g x r y s) := by
  have hsame : countCorrected g x false s = s := rfl
  simp only [frameEnds, hcheck, hsame, goodReply_of_active hdrop hactive]

/-- What a good reply of an ACTIVE drop leads to, the last of its sweep: `u` and `q` are what taking it leaves of the state
and of the drop's record. -/
theorem ends_of_taken {now : Nat} {f : BusFrame} {y : Reply} {u : State} {q : DropRec} (hlast : s.LastInSweep g x)
    (hasks : x.purpose.asks) (hdrop : (s.eng g).drops[x.addr] = some r) (hactive : r.link = .free .active)
    (hcheck : checkFrame (s.entryOf ⟨g, x.addr⟩).kind x f = ⟨false, .ok y⟩) (hwaiting : y.waiting = 0)
    (htaken :
      takeReply call g x r y
          (({ s with elapsed := max s.elapsed now } : State).setEng g ((s.eng g).ended x (max s.elapsed now))) =
        ({ u with elapsed := max s.elapsed now } : State).setEng g
          (((s.eng g).ended x (max s.elapsed now)).withDrop x.addr q)) :
    ∃ e : Engine,
      exec (.dockBusFrameReceived g now f) s = .next (({ u with elapsed := max s.elapsed now } : State).setEng g e) ∧
        (s.eng g).SweptTo e x.addr q := by
  obtain ⟨hexchange, hline, hqueue, hcursor, hentry, hlater⟩ := hlast
  have hreceived : exec (.dockBusFrameReceived g now f) s = .next _ :=
    congrArg Host.Outcome.next (frameReceived_of_asks hexchange hasks)
  have hends := frameEnds_of_good (k := call) (g := g) (x := x) (m := max s.elapsed now) (f := f) (y := y) (r := r)
    (s := ({ s with elapsed := max s.elapsed now } : State).setEng g ((s.eng g).ended x (max s.elapsed now)))
    (by rw [State.entryOf, State.setEng_eng]; exact hcheck) (by rw [State.setEng_eng]; exact hdrop) hactive
  have hgo := goOn_of_done (s := { u with elapsed := max s.elapsed now }) (g := g) (a := x.addr)
    (e := ((s.eng g).ended x (max s.elapsed now)).withDrop x.addr q) (max s.elapsed now)
    ⟨hline, hqueue, hcursor, hentry, hlater⟩ (nextAfterReply_of_asks hasks hwaiting)
  refine ⟨(((s.eng g).ended x (max s.elapsed now)).withDrop x.addr q).swept u.trunk.settings.sweepInterval, ?_, rfl, rfl, rfl,
    hqueue, rfl, rfl, rfl, rfl, rfl⟩
  rw [hreceived, hends, htaken, hgo]

/-! ### What taking each reply does (R12 to R14) -/

section

variable (hdrop : e.drops[x.addr] = some r)

include hdrop

theorem takeReply_of_ack (h : x.purpose = .resyncPoll ∨ x.purpose = .resyncSlot) :
    takeReply k g x r (.answer .ack) (s.setEng g e) =
      s.setEng g (e.withDrop x.addr { r with misses := 0, resyncDue := false, lastEvent := 0 }) := by
  have htwice : ((s.setEng g e).modDrop g x.addr fun r => { r with misses := 0 }).modDrop g x.addr
      (fun r => r.resynced .ack) =
        s.setEng g (e.withDrop x.addr { r with misses := 0, resyncDue := false, lastEvent := 0 }) := by
    rw [modDrop_setEng _ hdrop, modDrop_withDrop]
    rfl
  obtain h | h := h <;> simp only [takeReply, h] <;> exact htwice

theorem takeReply_of_status {y : Reply} (h : (∃ st n, y = .dockStatus st n) ∨ ∃ v n, y = .readyStatus v n) :
    takeReply k g x r y (s.setEng g e) =
      passStatus k ⟨g, x.addr⟩ y (s.setEng g (e.withDrop x.addr { r with misses := 0 })) := by
  rw [← modDrop_setEng (fun r => { r with misses := 0 }) hdrop]
  obtain ⟨st, n, rfl⟩ | ⟨v, n, rfl⟩ := h <;> rfl

theorem takeReply_of_event (number code n : Nat) (fields : List Byte) :
    takeReply k g x r (.event number code n fields) (s.setEng g e) =
      takeEvent k ⟨g, x.addr⟩ r number code fields (s.setEng g (e.withDrop x.addr { r with misses := 0 })) := by
  rw [← modDrop_setEng (fun r => { r with misses := 0 }) hdrop]
  rfl

end

theorem entryOf_setEng (a : Fin 32) : (s.setEng g e).entryOf ⟨g, a⟩ = e.entries[a] := by
  rw [State.entryOf, State.setEng_eng]

theorem terminalReady_of_found {d : Drop} {q : SaleRec} (v : Ready) (h : s.saleOf d = some q) :
    terminalReady d v s = s.putSale { q with ready := v } := by
  rw [terminalReady, State.modSale, h]

theorem takeStatus_of_empty {p : DockPos} {st : DockStatus} (stamp : Nat) (hstate : (s.dock p).state = .empty)
    (hbike : st.bike = none) : takeStatus k p st stamp s = s := by
  simp only [takeStatus, hstate, hbike]

theorem passStatus_of_pay {d : Drop} (v : Ready) (n : Nat) (h : s.entryOf d = .pay) :
    passStatus k d (.readyStatus v n) s = terminalReady d v s := by
  simp only [passStatus, h]

theorem passStatus_of_vanpoint {d : Drop} (v : Ready) (n : Nat) (h : s.entryOf d = .vanpoint) :
    passStatus k d (.readyStatus v n) s = vanReady v s := by
  simp only [passStatus, h]

theorem passStatus_of_dock {d : Drop} {p : DockPos} (st : DockStatus) (n : Nat) (h : s.entryOf d = .dock p) :
    passStatus k d (.dockStatus st n) s = dockStatus k p st s.now s := by
  simp only [passStatus, h]

theorem takeEvent_of_repeat {d : Drop} {number : Nat} (code : Nat) (fields : List Byte) (h : number = r.lastEvent) :
    takeEvent k d r number code fields s = s := if_pos h

theorem takeEvent_of_new {d : Drop} {number : Nat} (code : Nat) (fields : List Byte) (h : number ≠ r.lastEvent) :
    takeEvent k d r number code fields s =
      classify k { drop := d, entry := s.entryOf d, number := number, code := code, stamp := s.now, fields := fields }
        (s.modDrop d.seg d.addr fun r => { r with lastEvent := number }) := if_neg h

/-- A STATUS that agrees with an EMPTY record, with nothing owed and the gate as it should be, sets the lock state alone. -/
theorem dockStatus_of_empty {p : DockPos} {st : DockStatus} (stamp : Nat) (hstate : (s.dock p).state = .empty)
    (hbike : st.bike = none) (hgate : st.gate = (s.dock p).gate) (howed : (s.dock p).offOwed = false)
    (hflags : s.stock.flags = s.stock.computed) :
    dockStatus k p st stamp s = s.setDock p { s.dock p with lock := some st.lock } := by
  have hdock := State.setDock_dock s p { s.dock p with lock := some st.lock }
  have htake : takeStatus k p st stamp (s.setDock p { s.dock p with lock := some st.lock }) =
      s.setDock p { s.dock p with lock := some st.lock } :=
    takeStatus_of_empty stamp (by rw [hdock]; exact hstate) hbike
  have hgates : statusGate k p st.gate (s.setDock p { s.dock p with lock := some st.lock }) =
      s.setDock p { s.dock p with lock := some st.lock } := if_neg fun h => h.1 (by rw [hdock]; exact hgate)
  have hoff : chargeOffAgain k p (s.setDock p { s.dock p with lock := some st.lock }) =
      s.setDock p { s.dock p with lock := some st.lock } :=
    if_neg fun h => absurd h.1 (by rw [hdock]; exact ne_true_of_eq_false howed)
  rw [dockStatus, State.modDock, htake, hgates, hoff]
  exact stockDone_of_computed ((setDock_flags p { s.dock p with lock := some st.lock } fun _ => rfl).trans hflags)

/-- A DEVICE NOTE, which no rule takes, under the default action DELIVER: the default hit alone, for no unit consumes it. -/
theorem classify_of_note {c : EventRec} {kind : DropKind} (hkind : c.entry.kind = some kind) (hcode : c.code = 0x3F)
    (hrules : ∀ i : Fin 32, (s.classifier.rules[i]).takes c.drop kind 0x3F = false)
    (hdefault : s.trunk.settings.defaultAction = .deliver) :
    classify k c s =
      { s with classifier := { s.classifier with defaultHits := min 65535 (s.classifier.defaultHits + 1) } } := by
  have hpresent : ¬(0x3F = 0x15) := by decide
  have hdecide : s.decideBy c kind =
      (.deliver, .default, { s.classifier with defaultHits := bump16 s.classifier.defaultHits }) := by
    rw [State.decideBy, hcode, deciding_of_none hrules, hdefault]
  have hconsumer : ∀ b, hasConsumer c b = false := fun b => by
    rw [hasConsumer, hcode]
    rfl
  have hacts : ∀ b, actsAs .deliver c b = (false, .none) := fun b => by
    rw [actsAs, hconsumer]
    rfl
  have hforward : ∀ (w : EventFrame) (t : State), forward .none w t = t := fun w t => ite_self t
  simp only [classify, hkind, hcode, hpresent, if_false, decideEvent, hdecide, hacts, hforward]
  rfl

/-! ### The payloads as they are read (R202, table 11-2) -/

theorem readReadyStatus_of_two {b : Byte} {v : Ready} (h : b = 0x01#8 ∧ v = .yes ∨ b = 0x00#8 ∧ v = .no) :
    readReadyStatus [b, 0x00#8] = .ok (.readyStatus v 0) := by
  obtain ⟨rfl, rfl⟩ | ⟨rfl, rfl⟩ := h <;> rfl

theorem natAt_one {l rest : List Byte} {i : Nat} {b : Byte} (h : l.drop i = b :: rest) : natAt l i 1 = b.toNat := by
  rw [natAt, bytesAt, h, List.take_succ_cons, List.take_zero]
  exact Nat.zero_add _

/-- The STATUS of an empty dock, its lock locked and its gate open. -/
def DockStatus.ofEmpty : DockStatus := { lock := .locked, contact := .good, gate := .opened, bike := none, battery := none }

theorem readDockStatus_of_empty :
    readDockStatus [0x00#8, 0x00#8, 0x00#8, 0x00#8, 0x00#8, 0xFF#8, 0x00#8] =
      .ok (.dockStatus .ofEmpty 0) := by
  have hfirst : natAt [0x00#8, 0x00#8, 0x00#8, 0x00#8, 0x00#8, 0xFF#8, 0x00#8] 0 1 = 0 := rfl
  have hbike : nonzero (natAt [0x00#8, 0x00#8, 0x00#8, 0x00#8, 0x00#8, 0xFF#8, 0x00#8] 1 4) = none := by decide
  have hbattery : batteryOf (natAt [0x00#8, 0x00#8, 0x00#8, 0x00#8, 0x00#8, 0xFF#8, 0x00#8] 5 1) = none := by decide
  have hcount : natAt [0x00#8, 0x00#8, 0x00#8, 0x00#8, 0x00#8, 0xFF#8, 0x00#8] 6 1 = 0 := rfl
  simp [readDockStatus, hfirst, hbike, hbattery, hcount, contactOf, DockStatus.ofEmpty]

/-- A DEVICE NOTE has no fixed length: any fields are taken. -/
theorem readEvent_of_note {kind : DropKind} {n : Byte} (fields : List Byte) (hn : n ≠ 0x00#8) :
    readEvent kind (n :: 0x3F#8 :: 0x00#8 :: fields) = .ok (.event n.toNat 0x3F 0 fields) := by
  have hnumber : natAt (n :: 0x3F#8 :: 0x00#8 :: fields) 0 1 = n.toNat := natAt_one rfl
  have hcode : natAt (n :: 0x3F#8 :: 0x00#8 :: fields) 1 1 = 0x3F := natAt_one (b := 0x3F#8) rfl
  have hcount : natAt (n :: 0x3F#8 :: 0x00#8 :: fields) 2 1 = 0 := natAt_one (b := 0x00#8) rfl
  have hzero : n.toNat ≠ 0 := fun hz => hn (BitVec.eq_of_toNat_eq hz)
  have hlength : eventLength 0x3F kind = none := rfl
  have hshape : ¬((n :: 0x3F#8 :: 0x00#8 :: fields).length < 3 ∨ n.toNat = 0 ∨ 64 ≤ 0x3F) := by
    simp only [List.length_cons]
    omega
  simp only [readEvent, hnumber, hcode, hcount, hlength]
  exact if_neg hshape

theorem readReply_of_answer {d : Option DropKind} {w : ExchangeFor} (h : w = .resyncPoll ∨ w = .resyncSlot) :
    readReply d w 5 [0x00#8] = .ok (.answer .ack) := by
  obtain rfl | rfl := h <;> rfl

/-- The replies to a POLL, by the kind of the frame and of the drop. -/
theorem readReply_of_poll {w : ExchangeFor} (h : w = .poll false ∨ w = .poll true) (l : List Byte) :
    readReply (some .dock) w 2 l = readDockStatus l ∧ readReply (some .pay) w 2 l = readReadyStatus l ∧
      readReply (some .vanpoint) w 2 l = readReadyStatus l ∧ ∀ kind, readReply (some kind) w 3 l = readEvent kind l := by
  obtain rfl | rfl := h <;> exact ⟨rfl, rfl, rfl, fun _ => rfl⟩

end Sys2Proof.Machine

open Sys2Proof Sys2Proof.Machine

/-- Settles O9: each frame is checked and read as one reply, and what taking that reply does is the obligation's clause. -/
theorem answerToOwnResyncMakesTheDropEligible : Obligations.AnswerToOwnResyncMakesTheDropEligible := by
  unfold Obligations.AnswerToOwnResyncMakesTheDropEligible
  intro g now s x r f hlast hdrop hactive hcrc
  refine ⟨fun hpurpose hheader hpayload => ?answer, fun hpurpose _ => ⟨?ready, ?dock, ?event⟩⟩
  case answer =>
    refine ends_of_taken (y := .answer .ack) hlast (.inr hpurpose) hdrop hactive ?_ rfl (takeReply_of_ack hdrop hpurpose)
    rw [checkFrame_of_made (by decide) (by decide) hheader (by rw [hpayload]; rfl) hcrc, hpayload,
      readReply_of_answer hpurpose]
  case ready =>
    intro b v hheader hpayload hready
    have hcheck := checkFrame_of_made (d := (s.entryOf ⟨g, x.addr⟩).kind) (by decide) (by decide) hheader
      (by rw [hpayload]; rfl) hcrc
    obtain ⟨-, hpay, hvan, -⟩ := readReply_of_poll hpurpose [b, 0x00#8]
    rw [readReadyStatus_of_two hready] at hpay hvan
    rw [hpayload] at hcheck
    have htake := takeReply_of_status (k := call) (s := { s with elapsed := max s.elapsed now }) (g := g)
      (e := (s.eng g).ended x (max s.elapsed now)) hdrop (.inr ⟨v, 0, rfl⟩)
    refine ⟨fun q hentry hsale => ?pay, fun hentry => ?van⟩
    case pay =>
      refine ends_of_taken hlast (.inl hpurpose) hdrop hactive ?_ rfl (htake.trans ?_)
      · rw [hcheck, hentry]
        exact congrArg _ hpay
      · rw [passStatus_of_pay v 0 (by rw [entryOf_setEng]; exact hentry)]
        cases g <;> exact terminalReady_of_found v hsale
    case van =>
      refine ends_of_taken hlast (.inl hpurpose) hdrop hactive ?_ rfl (htake.trans ?_)
      · rw [hcheck, hentry]
        exact congrArg _ hvan
      · rw [passStatus_of_vanpoint v 0 (by rw [entryOf_setEng]; exact hentry)]
        cases g <;> rfl
  case dock =>
    intro p hentry hstate hgate howed hflags hheader hpayload
    have hcheck := checkFrame_of_made (d := (s.entryOf ⟨g, x.addr⟩).kind) (by decide) (by decide) hheader
      (by rw [hpayload]; rfl) hcrc
    obtain ⟨hdock, -⟩ := readReply_of_poll hpurpose f.payload
    have hread : readDockStatus f.payload = .ok (.dockStatus .ofEmpty 0) := by
      rw [hpayload]
      exact readDockStatus_of_empty
    have htake := takeReply_of_status (k := call) (s := { s with elapsed := max s.elapsed now }) (g := g)
      (e := (s.eng g).ended x (max s.elapsed now)) hdrop (.inl ⟨.ofEmpty, 0, rfl⟩)
    refine ends_of_taken hlast (.inl hpurpose) hdrop hactive ?_ rfl (htake.trans ?_)
    · rw [hcheck, hentry]
      exact congrArg _ (hdock.trans hread)
    · rw [passStatus_of_dock .ofEmpty 0 (by rw [entryOf_setEng]; exact hentry)]
      cases g <;> exact dockStatus_of_empty _ hstate rfl hgate.symm howed hflags
  case event =>
    intro n fields kind hn hlength hkind hheader hpayload
    have hcheck := checkFrame_of_made (d := (s.entryOf ⟨g, x.addr⟩).kind) (by decide) (by omega) hheader
      (by rw [hpayload]; rfl) hcrc
    obtain ⟨-, -, -, hevent⟩ := readReply_of_poll hpurpose f.payload
    have hread : readReply (s.entryOf ⟨g, x.addr⟩).kind x.purpose 3 f.payload =
        .ok (.event n.toNat 0x3F 0 fields) := by
      rw [hkind, hevent, hpayload]
      exact readEvent_of_note fields hn
    rw [hread] at hcheck
    have htake := takeReply_of_event (k := call) (s := { s with elapsed := max s.elapsed now }) (g := g)
      (e := (s.eng g).ended x (max s.elapsed now)) hdrop n.toNat 0x3F 0 fields
    refine ⟨fun hrepeat => ?repeated, fun hnew hrules hdefault => ?taken⟩
    case repeated =>
      exact ends_of_taken hlast (.inl hpurpose) hdrop hactive hcheck rfl (htake.trans (takeEvent_of_repeat _ _ hrepeat))
    case taken =>
      refine ends_of_taken hlast (.inl hpurpose) hdrop hactive hcheck rfl (htake.trans ?_)
      rw [takeEvent_of_new _ _ hnew, modDrop_withDrop, entryOf_setEng, classify_of_note (kind := kind) hkind rfl]
      · cases g <;> rfl
      · cases g <;> exact hrules
      · cases g <;> exact hdefault

end

section
/-! RESTART (R201), the power-on reset of every block but the Trunk Controller, and the state after reset. -/

namespace Sys2Proof.Machine

variable {s : State} {k : Kont}

/-! ### The engines after RESTART (R22) -/

theorem restarted_of_low {e : Engine} (isPresent : Bool) (h : e.holdLine = false) :
    e.restarted isPresent =
      { e with
        mode := if e.pollList.isEmpty then .stopped else .waiting
        drops := e.entries.map fun x => if x = TableEntry.none then none else some newDrop
        queue := [], sweep := 0, due := 0, exchange := none, holdAck := false, errors := ⟨0, 0, 0, 0, 0⟩ } := by
  simp only [Engine.restarted, h, Bool.and_false, Bool.false_eq_true, if_false, newDrop]

theorem pollList_isEmpty_iff {e : Engine} : e.pollList.isEmpty = true ↔ ∀ a : Fin 32, e.entries[a] = .none := by
  refine ⟨fun h a => ?_, pollList_isEmpty_of_none⟩
  by_contra ha
  exact absurd (pollList_of_entry ha) (by rw [h]; decide)

/-- An engine whose hold line is low keeps its entries, and every drop on them is new. -/
theorem restarted_spec {e : Engine} (isPresent : Bool) (h : e.holdLine = false) :
    (e.restarted isPresent).entries = e.entries ∧ (e.restarted isPresent).queue = [] ∧
      (e.restarted isPresent).exchange = none ∧ (e.restarted isPresent).sweep = 0 ∧
      (e.restarted isPresent).errors = ⟨0, 0, 0, 0, 0⟩ ∧ (e.restarted isPresent).holdAck = false ∧
      ((e.restarted isPresent).mode = .stopped ↔ ∀ a : Fin 32, e.entries[a] = .none) ∧
      (∀ a : Fin 32, e.entries[a] ≠ .none → (e.restarted isPresent).mode = .waiting ∧ (e.restarted isPresent).due = 0) ∧
      ∀ a : Fin 32, (e.restarted isPresent).drops[a] = if e.entries[a] = .none then none else some newDrop := by
  rw [restarted_of_low isPresent h]
  refine ⟨rfl, rfl, rfl, rfl, rfl, rfl, ?stopped, fun a ha => ⟨?waiting, rfl⟩, fun a => ?drops⟩
  case stopped =>
    rw [← pollList_isEmpty_iff]
    by_cases hpoll : e.pollList.isEmpty = true <;> simp [hpoll]
  case waiting => exact if_neg (by rw [pollList_of_entry ha]; decide)
  case drops => exact Vector.getElem_map ..

/-! ### The dock records after RESTART (R64) -/

theorem keptBike_of_other {d : DockRec} (h : d.state ≠ .releasing) : keptBike d = none := by
  unfold keptBike
  split
  next hstate _ => exact absurd hstate h
  next => rfl

theorem keptBike_id {d : DockRec} (h : d.state = .releasing) : (keptBike d).map Bike.id = d.bike.map Bike.id := by
  cases hbike : d.bike <;> simp [keptBike, h, hbike]

theorem stockRestarted_dock (p : DockPos) :
    s.stockRestarted.docks[p] = (s.dock p).restarted (s.dropAt p).isSome := by
  simp [State.stockRestarted]

theorem restarted_not_occupied (d : DockRec) (hasDrop : Bool) : (d.restarted hasDrop).state ≠ .occupied := by
  cases hasDrop <;> simp [DockRec.restarted]

/-- No record is OCCUPIED after RESTART, so that no bike counts. -/
theorem stockRestarted_releasable (k : BikeKind) : s.stockRestarted.releasable k = 0 := by
  have hnone : ∀ p : DockPos, (s.stockRestarted.docks[p]).countsFor k = false := fun p => by
    rw [stockRestarted_dock]
    exact countsFor_of_not_occupied (restarted_not_occupied _ _) k
  rw [releasable_eq, List.length_eq_zero_iff, List.filter_eq_nil_iff]
  exact fun p _ => ne_true_of_eq_false (hnone p)

theorem stockRestarted_low : s.stockRestarted.low = s.stock.low := by simp only [State.stockRestarted]

theorem stockRestarted_high : s.stockRestarted.high = s.stock.high := by simp only [State.stockRestarted]

theorem stockRestarted_notified : s.stockRestarted.notified = s.stock.notified := by simp only [State.stockRestarted]

theorem stockRestarted_flags (h : s.stock.low = ⟨0, 0, 0⟩) :
    s.stockRestarted.flags = ⟨false, false, false, false, false, false⟩ := by
  have hlow : s.stockRestarted.low = ⟨0, 0, 0⟩ := stockRestarted_low.trans h
  simp [Stock.flags, Stock.wanted, Stock.surplus, stockRestarted_releasable, hlow, perKind]

/-! ### RESTART with nothing to close or to tell (R201) -/

theorem salesRestart_of_none (h : ∀ r ∈ s.sale.sales, r.state ≠ .offered) :
    salesRestart k s =
      { s with sale := { s.sale with sales := s.sale.sales.map fun r => { r with ready := .unknown } } } := by
  have hnone : (s.sale.sales.filter fun r => r.state == .offered) = [] :=
    List.filter_eq_nil_iff.mpr fun r hr => by simpa using h r hr
  rw [salesRestart, hnone]
  rfl

/-- The state after a RESTART that closes no offer and no visit and makes no notice. -/
def State.restartedQuietly (s : State) : State :=
  { s with
    engA := s.engA.restarted true
    engB := s.engB.restarted s.trunk.segB
    stock := { s.stockRestarted with computed := ⟨false, false, false, false, false, false⟩ }
    hire := s.hire.restarted
    sale := { s.sale with sales := s.sale.sales.map fun r => { r with ready := .unknown } }
    van := { s.van with ready := .unknown }
    trunk := s.trunk.restarted }

theorem restartedQuietly_stock :
    s.restartedQuietly.stock = { s.stockRestarted with computed := ⟨false, false, false, false, false, false⟩ } := rfl

theorem restartedQuietly_high : s.restartedQuietly.stock.high = s.stock.high := by
  simp only [restartedQuietly_stock, stockRestarted_high]

theorem restartedQuietly_low : s.restartedQuietly.stock.low = s.stock.low := by
  simp only [restartedQuietly_stock, stockRestarted_low]

theorem restartedQuietly_notified : s.restartedQuietly.stock.notified = s.stock.notified := by
  simp only [restartedQuietly_stock, stockRestarted_notified]

theorem restartedQuietly_dock (p : DockPos) :
    s.restartedQuietly.dock p = (s.dock p).restarted (s.dropAt p).isSome := by
  simp only [State.dock, restartedQuietly_stock, stockRestarted_dock]

/-- The engines and the records restarted, before the counts are computed afresh. -/
def State.blocksRestarted (s : State) : State :=
  { s with
    engA := s.engA.restarted true
    engB := s.engB.restarted s.trunk.segB
    stock := s.stockRestarted
    trunk := s.trunk.restarted }

theorem countAfresh_of_notified {x : StockFlags} (hflags : s.stock.flags = x) (hnotified : s.stock.notified = x) :
    s.countAfresh = s.modStock fun st => { st with computed := x } := by
  have hquiet : (s.modStock fun st => { st with computed := st.flags }).stock.flags =
      (s.modStock fun st => { st with computed := st.flags }).stock.notified := hflags.trans hnotified.symm
  rw [State.countAfresh, recount_of_notified hquiet, ← hflags]
  rfl

theorem restart_of_quiet (hsales : ∀ r ∈ s.sale.sales, r.state ≠ .offered) (hvisit : s.van.visit = none)
    (hlow : s.stock.low = ⟨0, 0, 0⟩) (hnotified : s.stock.notified = ⟨false, false, false, false, false, false⟩) :
    restart k s = s.restartedQuietly := by
  have hunfold : restart k s =
      vanReady .unknown (closeVisit k .restart (salesRestart k (s.blocksRestarted.countAfresh.modHire Hire.restarted))) :=
    rfl
  have hcounted := countAfresh_of_notified (s := s.blocksRestarted) (stockRestarted_flags hlow)
    (stockRestarted_notified.trans hnotified)
  rw [hunfold, hcounted, salesRestart_of_none, closeVisit_of_none]
  · rfl
  · exact hvisit
  · exact hsales

end Sys2Proof.Machine

open Sys2Proof Sys2Proof.Machine

/-- Settles O45: nothing is closed and nothing told, so that each block is left as its own restart leaves it. -/
theorem restartTakesEveryBlock : Obligations.RestartTakesEveryBlock := by
  unfold Obligations.RestartTakesEveryBlock
  intro s tag h hsales hvisit hlineA hlineB hlow hnotified
  have hrun : exec (.restart { tag := tag, body := some () }) s =
      .next (commandAnswered tag 4 (.done, restart call s.timerRestarted)) :=
    congrArg Host.Outcome.next (takeCommand_some_of_answers tag 4 () (fun _ t => takeRestart call t) h)
  have hquiet := restart_of_quiet (k := call) (s := s.timerRestarted) hsales hvisit hlow hnotified
  refine ⟨s.timerRestarted.restartedQuietly, ?run, rfl, rfl, rfl, rfl, rfl, rfl, rfl, rfl, rfl, rfl, fun g => ?engine, rfl,
    rfl, restartedQuietly_high, restartedQuietly_low, restartedQuietly_notified, rfl, fun p => ?dock⟩
  case run =>
    rw [hrun, hquiet]
    exact congrArg _ (answer_of_room _ h.2.2)
  case engine =>
    cases g
    · exact restarted_spec true hlineA
    · exact restarted_spec s.trunk.segB hlineB
  case dock =>
    have hdock : s.timerRestarted.restartedQuietly.dock p = (s.dock p).restarted (s.dropAt p).isSome :=
      restartedQuietly_dock p
    rw [hdock]
    refine ⟨rfl, rfl, rfl, rfl, rfl, rfl, rfl, rfl, rfl, rfl, rfl, rfl, rfl, fun hother => ?other, fun hreleasing hdrop => ?kept⟩
    case other => exact (congrArg (ite _ · none) (keptBike_of_other hother)).trans (ite_self _)
    case kept => rw [← keptBike_id hreleasing]; exact congrArg _ (if_pos hdrop)

end

section
/-! The power-on reset of the blocks beside the Trunk Controller (R22, R34, R64, R95, R108, R132, R171, R181), and the state
after reset. -/

namespace Sys2Proof.Machine

theorem replicate_get {α : Type} {n : Nat} (x : α) (i : Fin n) : (Vector.replicate n x)[i] = x := Vector.getElem_replicate _

theorem engineAtPowerOn_spec (isPresent hold : Bool) :
    (∀ a : Fin 32, (engineAtPowerOn isPresent hold).entries[a] = .none ∧ (engineAtPowerOn isPresent hold).drops[a] = none) ∧
      (engineAtPowerOn isPresent hold).queue = [] ∧ (engineAtPowerOn isPresent hold).exchange = none ∧
      (engineAtPowerOn isPresent hold).sweep = 0 ∧ (engineAtPowerOn isPresent hold).errors = ⟨0, 0, 0, 0, 0⟩ :=
  ⟨fun a => ⟨replicate_get _ a, replicate_get _ a⟩, rfl, rfl, rfl, rfl⟩

/-- Table 8-4, code by code. -/
theorem reset_policy :
    FaultUnit.reset.policy.toList =
      (List.range 16).map PolicyEntry.builtIn ++ List.replicate 32 ⟨.minor, 0, FaultActions.none⟩ := by
  decide

theorem journal_atPowerOn_of_held (j : Journal) {held : Bool} (h : held = true) :
    j.atPowerOn held = { j with level := levelAtPowerOn j.free, refused := Vector.replicate 10 0 } := if_pos h

theorem reset_entryOf (d : Drop) : State.reset.entryOf d = .none := by
  obtain ⟨g, a⟩ := d
  cases g <;> exact replicate_get _ a

/-- A drop table without an entry is sound. -/
theorem dropTableSound_of_none {s : State} (h : ∀ d, s.entryOf d = .none) : s.DropTableSound := by
  refine ⟨fun d _ e _ p hd => absurd ((h d).symm.trans hd) (by simp), ?_, ?_⟩
  · simp only [h]
    decide
  · simp only [h]
    decide

end Sys2Proof.Machine

open Sys2Proof Sys2Proof.Machine

/-- Settles O55: each block's part of the state is its reset, which gives every field; the journal that its supply held
keeps its records. -/
theorem powerOnResetOfTheOtherBlocks : Obligations.PowerOnResetOfTheOtherBlocks := by
  unfold Obligations.PowerOnResetOfTheOtherBlocks
  intro s p
  refine ⟨powerOn p s, rfl, fun g => ?engines, rfl, rfl, rfl, rfl, fun i => ⟨?rule, ?hits⟩, rfl, fun q => ?dock, rfl, rfl, rfl,
    rfl, rfl, rfl, rfl, rfl, rfl, rfl, rfl, fun c => ?tariff, rfl, fun c => ?kind, rfl, rfl, rfl, rfl, rfl, ?policy, rfl, rfl,
    rfl, fun hheld => ?journal⟩
  case engines => cases g <;> exact engineAtPowerOn_spec _ _
  case rule => exact replicate_get _ i
  case hits => exact replicate_get _ i
  case dock => exact replicate_get _ q
  case tariff => exact replicate_get _ c
  case kind => exact replicate_get _ c
  case policy => exact reset_policy
  case journal =>
    have hjournal : (powerOn p s).journal = _ := journal_atPowerOn_of_held s.journal hheld
    rw [hjournal]
    exact ⟨rfl, rfl, rfl, rfl, rfl⟩

/-- Settles O56: every list of the state after reset is empty, and its settings and its flags are computed values. -/
theorem resetHasEveryProperty : Obligations.ResetHasEveryProperty := by
  unfold Obligations.ResetHasEveryProperty
  have hnone : ∀ {α : Type} {q : α → Prop}, ∀ x ∈ ([] : List α), q x := fun _ hx => absurd hx List.not_mem_nil
  refine ⟨hnone, Nat.zero_le _, Nat.zero_le _, ⟨Nat.zero_le _, Nat.zero_le _, fun h => absurd rfl h⟩, ?settings,
    Nat.zero_le _, ⟨Nat.zero_le _, List.Pairwise.nil, hnone⟩, ⟨Nat.zero_le _, List.Pairwise.nil, hnone, hnone⟩,
    ⟨Nat.zero_le _, List.nodup_nil⟩, ⟨List.Pairwise.nil, hnone⟩, Nat.zero_le _, ⟨Nat.zero_le _, List.nodup_nil⟩,
    ⟨Nat.zero_le _, by decide, by decide, rfl⟩, dropTableSound_of_none reset_entryOf, ?flags, Nat.zero_le _⟩
  case settings =>
    show Settings.reset.Sound
    decide
  case flags =>
    show Stock.reset.flags = Stock.reset.computed
    decide

end
